-- ==== Sys2Proof/Word.lean ====
section
/-! DEFINITION. The word types of the CK4-2200 (R2), byte order, sign extension, and the sparse
tables in which State holds everything that is numbered. -/
namespace Sys2Proof

abbrev Byte := BitVec 8
abbrev Word := BitVec 32
abbrev DWord := BitVec 64
/-- 57-bit virtual addresses, 52-bit intermediate and 44-bit physical addresses are computed as
naturals from these words (Table 4). -/
abbrev Pc := BitVec 57

/-- A table keyed by a natural number. An absent key reads as the type's default. Keys rise
strictly and no default value is listed, so equal tables are equal data (`Sparse.wf`). -/
abbrev Sparse (α : Type) := List (Nat × α)

def Sparse.get {α : Type} [Inhabited α] : Sparse α → Nat → α
  | [], _ => default
  | (k, v) :: t, i => if k = i then v else Sparse.get t i

def Sparse.erase {α : Type} : Sparse α → Nat → Sparse α
  | [], _ => []
  | (k, v) :: t, i => if k = i then Sparse.erase t i else (k, v) :: Sparse.erase t i

def Sparse.insert {α : Type} : Sparse α → Nat → α → Sparse α
  | [], i, v => [(i, v)]
  | (k, w) :: t, i, v => if i < k then (i, v) :: (k, w) :: t else (k, w) :: Sparse.insert t i v

def Sparse.put {α : Type} [Inhabited α] [DecidableEq α] (m : Sparse α) (i : Nat) (v : α) : Sparse α :=
  if v = default then Sparse.erase m i else Sparse.insert (Sparse.erase m i) i v

def Sparse.upd {α : Type} [Inhabited α] [DecidableEq α] (m : Sparse α) (i : Nat) (f : α → α) : Sparse α :=
  Sparse.put m i (f (Sparse.get m i))

/-- Every key of the table is above `n`, keys rise strictly, and no value is the default. -/
def Sparse.wfAbove {α : Type} [Inhabited α] [DecidableEq α] : Option Nat → Sparse α → Bool
  | _, [] => true
  | lo, (k, v) :: t =>
    (match lo with | none => true | some n => n < k) && !(decide (v = default)) && Sparse.wfAbove (some k) t

abbrev Sparse.wf {α : Type} [Inhabited α] [DecidableEq α] (m : Sparse α) : Bool := Sparse.wfAbove none m

/-- The entries of a table keyed by identifiers, in ascending order. -/
def Sparse.vals {α : Type} (m : Sparse α) : List α := m.map (·.2)

/-- Little-endian bytes (R2): byte i holds bits 8i+7 to 8i. -/
def leBytes : Nat → Nat → List Byte
  | 0, _ => []
  | n + 1, v => BitVec.ofNat 8 v :: leBytes n (v / 256)

def leNat : List Byte → Nat
  | [] => 0
  | b :: t => b.toNat + 256 * leNat t

/-- SignExtend of R8 on naturals: the low `w` bits of `v`, widened to `n` bits. -/
def sext (w n v : Nat) : Nat :=
  let u := v % 2 ^ w
  if u < 2 ^ (w - 1) then u else u + (2 ^ n - 2 ^ w)

/-- The low `w` bits of `v` read as a signed integer. -/
def sint (w v : Nat) : Int :=
  let u := v % 2 ^ w
  if 2 * u < 2 ^ w then Int.ofNat u else Int.ofNat u - Int.ofNat (2 ^ w)

/-- The field h:l of a natural (R2). -/
def bits (v h l : Nat) : Nat := (v / 2 ^ l) % 2 ^ (h + 1 - l)

def bit (v i : Nat) : Bool := (v / 2 ^ i) % 2 == 1

def b2n (b : Bool) : Nat := if b then 1 else 0

def ceilDiv (a b : Nat) : Nat := (a + b - 1) / b

/-- The set bits of a 64-bit mask, lowest first. -/
def maskList (m : DWord) : List Nat := (List.range 64).filter fun i => m.getLsbD i

def maskOf (l : List Nat) : DWord := l.foldl (fun m i => m ||| (BitVec.ofNat 64 (2 ^ i))) 0

/-- The lowest set bit of a mask, if any. -/
def lowest (m : DWord) : Option Nat := (maskList m).head?

def popc (w : Nat) : Nat → Nat
  | 0 => 0
  | n + 1 => popc w n + b2n (bit w n)

/-- Leading zeros of the low `n` bits. -/
def clz (w : Nat) : Nat → Nat
  | 0 => 0
  | n + 1 => if bit w n then 0 else 1 + clz w n

end Sys2Proof
end

