-- ==== Sys2Proof/Config.lean ====
section
/-! DEFINITION. What an implementation or its signed configuration record fixes (R455), and the free
values: constants without a body, for every value the manual leaves open. -/
namespace Sys2Proof

/-- The settings that the manual assigns to the signed configuration record (R455), together with the
system kernel's own fixed addresses. Lists are indexed by die. -/
structure ConfigRecord where
  workers : Nat                 -- worker teams per core, 1 to 16 (R178)
  devfeat : List DWord          -- DEVFEAT0 to DEVFEAT7 (R274)
  peers : List Nat              -- devices of the group that can be reached (R195)
  device : Nat                  -- device number within the group (Table 136)
  cores : List Nat              -- cores of each die (INVENTORY, R458)
  chans : List (List Nat)       -- HBM4E channels present on each die (R458)
  stations : Nat                -- UALink stations (R458)
  ctxTable : Nat                -- context table (R15)
  ebase : List Nat              -- event tables (R188)
  sbase : List Nat              -- stream descriptors (R185)
  qbase : List Nat              -- remote queue descriptors (R197)
  spbase : List Nat             -- queue spill areas (R197)
  spsize : List Nat
  pbase : List Nat              -- punnet descriptors (R198)
  poolTable : Nat               -- pool table (R95)
  seqTable : Nat                -- sequence table (R104)
  seqLen : Nat
  rqFirst : List Nat            -- residency event pools (R50)
  rqLen : List Nat
  engineLimit : Nat             -- engine residency limit in ck (R57)
  collLimit : Nat               -- collective limit in ck (R166)
  vspBase : List Nat            -- version spill areas (R90)
  vspSize : List Nat
  regenBase : List Nat          -- regeneration tables (R62)
  regenLen : List Nat
  winbase : Nat                 -- BAR4 window (R452)
  windows : List (Nat × Nat × Nat)  -- intermediate addresses of peers' memory and of ports: base, length, device or 1,024 + port (log entry 83)
  waitLoop : Nat                -- VA of the system kernel's wait loop (R178)
  waitReturn : Nat              -- VA of the wait loop's return point (R179)
  sched : DWord                 -- SCHEDCFG written at start-up (R214)
  mons : List Nat               -- kinds of each die's monitors (Table 205); the rest are absent
  routines : List (Nat × Nat)   -- routine tables: slot * 2^20 + RIDX, and the function table entry (R422)
  deriving DecidableEq, Repr, Inhabited

/-- DEVFEAT0 of a part in full configuration (R274). -/
def devfeatFull : DWord := 0x0001070F0F07FF1F

/-- The record of a CK4-2200 in full configuration. Its addresses are the model's own (log entry 3). -/
def ConfigRecord.full : ConfigRecord :=
  { workers := 8, devfeat := [devfeatFull], peers := [], device := 0, cores := [48, 48, 48, 48],
    chans := [], stations := 18, ctxTable := 0x1000000000,
    ebase := [0x2000000000, 0x4002000000000, 0x8002000000000, 0xC002000000000],
    sbase := [0x3000000000, 0x4003000000000, 0x8003000000000, 0xC003000000000],
    qbase := [0x3500000000, 0x4003500000000, 0x8003500000000, 0xC003500000000],
    spbase := [0x3600000000, 0x4003600000000, 0x8003600000000, 0xC003600000000],
    spsize := [65536, 65536, 65536, 65536],
    pbase := [0x3700000000, 0x4003700000000, 0x8003700000000, 0xC003700000000],
    poolTable := 0x3100000000, seqTable := 0x3200000000, seqLen := 1048576,
    rqFirst := [0xF0000, 0xF0000, 0xF0000, 0xF0000], rqLen := [64, 64, 64, 64],
    engineLimit := 7000000, collLimit := 7000000,
    vspBase := [0x3800000000, 0x4003800000000, 0x8003800000000, 0xC003800000000],
    vspSize := [0x1000000, 0x1000000, 0x1000000, 0x1000000],
    regenBase := [0x3900000000, 0x4003900000000, 0x8003900000000, 0xC003900000000],
    regenLen := [1048576, 1048576, 1048576, 1048576], winbase := 0x3300000000, windows := [],
    waitLoop := 0x5000000000, waitReturn := 0x5000000180, sched := 0x0000010002000032, mons := [0, 1, 2],
    routines := [] }

namespace Config

/-! Free values. None has a body, so nothing can be proved of what they are (log entry 1). -/

/-- A fresh unconstrained word: applied to the counter `State.free`, which the step advances. -/
opaque freeWord : Nat → DWord
/-- Which of the steps that could come next does come next, where the manual gives no order (R124). -/
opaque pick : Nat → Nat
/-- Whether a line filled earlier has meanwhile left a cache whose organisation the manual does not
give: the L1, the constant cache and a slice's translation cache (R46, R75, R76). -/
opaque evicted : Nat → Bool
/-- The secret that each boot derives from the part's own start-up state (R456). -/
opaque bootSecret : BitVec 384
/-- The argument of a punnet's launched job, which carries its first record's offset and its record count (R199). -/
opaque punnetArg : Nat → Nat → DWord
/-- Whether an image's signature verifies against the root key (R455, R460). -/
opaque signatureOk : List Byte → Bool
/-- The signature that an identity key makes over a report: r above s (R456). -/
opaque signReport : List Byte → List Byte → BitVec 768
/-- The settings that a configuration record's image stands for (R455). -/
opaque recordOf : List Byte → ConfigRecord
/-- The station by which the device reaches a device of the group (R453). -/
opaque stationOf : Nat → Nat

end Config
end Sys2Proof
end

