-- ==== Sys2Proof/Syntax.lean ====
section
/-! DEFINITION. The operand formats of Tables 81 and 83 and the one inductive of the part's steps: every
row of the opcode table, instructions (with the fields of their words) and the device's own indivisible
happenings. -/
namespace Sys2Proof

/-- LR: vd, va, vb with their empty policies (Table 81). `b` is the rand boundary, `p` the guard. -/
structure LR where
  b : Bool
  p : BitVec 3
  d : BitVec 6
  a : BitVec 6
  v : BitVec 6
  fa : Bool
  fb : Bool
  deriving DecidableEq, Repr, Inhabited

/-- LI: vd, va and imm8. -/
structure LI where
  b : Bool
  p : BitVec 3
  d : BitVec 6
  a : BitVec 6
  imm : BitVec 8
  deriving DecidableEq, Repr, Inhabited

/-- LW: vd and imm14. -/
structure LW where
  b : Bool
  p : BitVec 3
  d : BitVec 6
  imm : BitVec 14
  deriving DecidableEq, Repr, Inhabited

/-- LM: vd, lane offset va, base s0 to s15, size, W and the lane offset's policy. -/
structure LM where
  b : Bool
  p : BitVec 3
  d : BitVec 6
  a : BitVec 6
  sb : BitVec 4
  sz : BitVec 2
  w : Bool
  fa : Bool
  deriving DecidableEq, Repr, Inhabited

/-- LA: vd, lane offset va, base, scope (Table 39) and W. -/
structure LA where
  b : Bool
  p : BitVec 3
  d : BitVec 6
  a : BitVec 6
  sb : BitVec 4
  scope : BitVec 3
  w : Bool
  deriving DecidableEq, Repr, Inhabited

/-- A displacement word (R246): NOLANE above a signed 31-bit displacement. -/
structure Disp where
  nolane : Bool
  disp : BitVec 31
  deriving DecidableEq, Repr, Inhabited

/-- UR: sd, sa, sb and f5 (Table 83). -/
structure UR where
  b : Bool
  d : BitVec 6
  a : BitVec 6
  c : BitVec 6
  f : BitVec 5
  deriving DecidableEq, Repr, Inhabited

/-- UI: sd and imm17. -/
structure UI where
  b : Bool
  d : BitVec 6
  imm : BitVec 17
  deriving DecidableEq, Repr, Inhabited

/-- UB: N, condition index and offset19. -/
structure UB where
  b : Bool
  n : Bool
  k : BitVec 3
  off : BitVec 19
  deriving DecidableEq, Repr, Inhabited

/-- UX: e2, h6, sa, sb and m3. -/
structure UX where
  b : Bool
  e : BitVec 2
  h : BitVec 6
  a : BitVec 6
  c : BitVec 6
  m : BitVec 3
  deriving DecidableEq, Repr, Inhabited

/-- UM: acc3, sa, sb, kbA, kbB, bsel, Z and D. -/
structure UM where
  b : Bool
  t : BitVec 3
  a : BitVec 6
  c : BitVec 6
  ka : BitVec 2
  kb : BitVec 2
  s : BitVec 2
  z : Bool
  dd : Bool
  deriving DecidableEq, Repr, Inhabited

/-- Where an uncorrectable error is met (Table 75). -/
inductive ErrLoc where
  | scLine (die line : Nat)      -- an SC line, clean or dirty
  | version (job line : Nat)     -- a version line
  | hbm (pa : Nat)               -- an HBM4E granule or SC direct storage
  | team (core team : Nat)       -- registers, tiles, scratchpad or tables of a team
  | kernel (core : Nat)          -- the same state of the system kernel
  deriving DecidableEq, Repr, Inhabited

/-- Inbound RoCEv2 traffic on an 800 GbE port (R454). -/
inductive RoceKind where
  | write | send | read | atomic | datagram
  deriving DecidableEq, Repr, Inhabited

/-- What an in-service update replaces (R460). -/
inductive UpdateKind where
  | dispatcher | kernel | emulation | config
  deriving DecidableEq, Repr, Inhabited

/-- The steps of the part. Constructors that carry an operand format are the instruction words of
Tables 88 and 90; the others are happenings of the device, named as in the table of operations. What a
happening acts on stands in the state: the issuing unit's registers `cur` (State.lean); only traffic from
outside and an undefined word carry their own data. -/
inductive Instr where
  | vadd (o : LR)
  | vaddi (o : LI)
  | vsub (o : LR)
  | vmul (o : LR)
  | vmulh (o : LR)
  | vmulhz (o : LR)
  | vmad (o : LR)
  | vand (o : LR)
  | vandi (o : LI)
  | vor (o : LR)
  | vori (o : LI)
  | vxor (o : LR)
  | vxori (o : LI)
  | vshl (o : LR)
  | vshli (o : LI)
  | vshr (o : LR)
  | vshri (o : LI)
  | vsar (o : LR)
  | vsari (o : LI)
  | vmin (o : LR)
  | vmax (o : LR)
  | vminz (o : LR)
  | vmaxz (o : LR)
  | vabsd (o : LR)
  | vclz (o : LI)
  | vpopc (o : LI)
  | vbfx (o : LR)
  | vbfi (o : LR)
  | fadd (o : LR)
  | fsub (o : LR)
  | fmul (o : LR)
  | ffma (o : LR)
  | fmin (o : LR)
  | fmax (o : LR)
  | fabs (o : LI)
  | fneg (o : LI)
  | frcp (o : LI)
  | frsq (o : LI)
  | fsqrt (o : LI)
  | fexp2 (o : LI)
  | flog2 (o : LI)
  | fsin (o : LI)
  | fcos (o : LI)
  | fclass (o : LI)
  | dadd (o : LR)
  | dsub (o : LR)
  | dmul (o : LR)
  | dfma (o : LR)
  | dmin (o : LR)
  | dmax (o : LR)
  | dcmp (o : LR)
  | hadd2 (o : LR)
  | hmul2 (o : LR)
  | hfma2 (o : LR)
  | hmax2 (o : LR)
  | badd2 (o : LR)
  | bmul2 (o : LR)
  | bfma2 (o : LR)
  | bmax2 (o : LR)
  | vcmp (o : LR)
  | fcmp (o : LR)
  | pset (o : LW)
  | vsel (o : LR)
  | vcvt (o : LI)
  | vmov (o : LI)
  | vmovUniform (o : LI)
  | vmovi (o : LW)
  | vbcast (o : LI)
  | vshuf (o : LR)
  | vpermb (o : LR)
  | vlane (o : LW)
  | vfibre (o : LW)
  | kvx (o : LR)
  | kvxr (o : LR)
  | vldN (o : LM)
  | vldNd (o : LM) (x : Disp)
  | vldW (o : LM)
  | vldWd (o : LM) (x : Disp)
  | vstN (o : LM)
  | vstNd (o : LM) (x : Disp)
  | vstW (o : LM)
  | vstWd (o : LM) (x : Disp)
  | vldsN (o : LM)
  | vldsNd (o : LM) (x : Disp)
  | vldsW (o : LM)
  | vldsWd (o : LM) (x : Disp)
  | vstsN (o : LM)
  | vstsNd (o : LM) (x : Disp)
  | vstsW (o : LM)
  | vstsWd (o : LM) (x : Disp)
  | vldkN (o : LM)
  | vldkNd (o : LM) (x : Disp)
  | vldkW (o : LM)
  | vldkWd (o : LM) (x : Disp)
  | vpref (o : LM)
  | vprefD (o : LM) (x : Disp)
  | vatadd (o : LA)
  | vataddD (o : LA) (x : Disp)
  | vatmin (o : LA)
  | vatminD (o : LA) (x : Disp)
  | vatmax (o : LA)
  | vatmaxD (o : LA) (x : Disp)
  | vatand (o : LA)
  | vatandD (o : LA) (x : Disp)
  | vator (o : LA)
  | vatorD (o : LA) (x : Disp)
  | vatxor (o : LA)
  | vatxorD (o : LA) (x : Disp)
  | vatxch (o : LA)
  | vatxchD (o : LA) (x : Disp)
  | vatcas (o : LA)
  | vatcasD (o : LA) (x : Disp)
  | nop (o : UR)
  | sadd (o : UR)
  | saddi (o : UI)
  | ssub (o : UR)
  | smul (o : UR)
  | sand (o : UR)
  | sor (o : UR)
  | sxor (o : UR)
  | sshl (o : UR)
  | sshr (o : UR)
  | ssar (o : UR)
  | smin (o : UR)
  | smax (o : UR)
  | smovi (o : UI)
  | smovhi (o : UI)
  | scmp (o : UR)
  | ssel (o : UR)
  | spopc (o : UR)
  | sclz (o : UR)
  | sreadl (o : UI)
  | svote (o : UI)
  | sld (o : UR)
  | sst (o : UR)
  | satom (o : UR)
  | br (o : UB)
  | brx (o : UX)
  | call (o : UI)
  | callx (o : UR)
  | ret (o : UR)
  | fspawn (o : UR)
  | fend (o : UR)
  | setwin (o : UI)
  | rep (o : UI)
  | yield (o : UR)
  | bar (o : UR)
  | trap (o : UI)
  | eret (o : UR)
  | srd (o : UI)
  | swr (o : UI)
  | fence (o : UX)
  | llock (o : UR)
  | lfree (o : UR)
  | cpy (o : UX)
  | cpyc (o : UX)
  | cpym (o : UX)
  | waitc (o : UX)
  | bufq (o : UI)
  | bufsetCfg (o : UX)
  | bufsetRel (o : UX)
  | sbinit (o : UX)
  | sbexpect (o : UX)
  | sbarrive (o : UX)
  | sbwait (o : UX)
  | ufset (o : UX)
  | mmaBf16 (o : UM)
  | mmaFp16 (o : UM)
  | mmaE4m3 (o : UM)
  | mmaE5m2 (o : UM)
  | mmaQ4 (o : UM)
  | mmaI8 (o : UM)
  | mmaI4 (o : UM)
  | accz (o : UM)
  | accld (o : UM)
  | accst (o : UM)
  | accred (o : UX)
  | evsig (o : UR)
  | evwait (o : UR)
  | evpoll (o : UR)
  | futres (o : UR)
  | futreg (o : UR)
  | futget (o : UR)
  | nodeput (o : UX)
  | opsub (o : UR)
  | jobend (o : UR)
  | seqapp (o : UR)
  | seqfork (o : UR)
  | spantag (o : UR)
  | spanret (o : UR)
  | attq (o : UX)
  | pmsel (o : UR)
  | replay (o : UR)
  | repRepetition
  | undefinedOpcode (w : BitVec 32)
  | issueArbitration
  | ageCapRotation
  | entryWake
  | loadReturn
  | notResidentResponse
  | trapDelivery
  | emulationNest
  | requestAtNearSlice
  | requestAtHomeSlice
  | heldRequestRetry
  | engineResidencyTimeout
  | collapseInvalidate
  | collapseAck
  | ptinvGo
  | ptinvDone
  | versionSpillTimeout
  | sccarveWrite
  | sccarveDone
  | lksweepGo
  | lksweepDone
  | keyInstallPrivate
  | keyInstallShared
  | keyRetire
  | keyRetireComplete
  | keyMakeShared
  | keyMakePrivate
  | keyUndefinedOp
  | softErrorDetected (loc : ErrLoc)
  | clockedItemArrive
  | clockedItemApply
  | remoteReadServe
  | readResponseDeliver
  | transferStart
  | copyRunDeliver
  | chainRecordRead
  | pickerPermitGrant
  | pickerPermitTimeout
  | pickerRunWrite
  | handleReaderFinish
  | barrierWatchdogTimeout
  | arrayEntryStart
  | arrayEntryComplete
  | sequenceOpApply
  | attqAdmit
  | sauPartialDone
  | attqResultLand
  | collectiveContribution
  | collectiveResultWritten
  | collectiveLimitExpire
  | streamRecordRead
  | streamFlow
  | recordDecode
  | streamHoldEnd
  | oNop
  | oRun
  | oGemm
  | oAttn
  | oCopy
  | oColl
  | oSignal
  | oWait
  | oFence
  | oSeq
  | oNode
  | oFeed
  | oPrio
  | oCtx
  | oRegen
  | oEnd
  | operatorCodeUndefined
  | jobEligible
  | eventArm
  | eventSignal
  | eventFutreg
  | eventFault
  | eventWait
  | remoteWatchAnswer
  | queuePushPacket (handle : DWord) (recs : List (BitVec 256))
  | queueReadmit
  | punnetDeposit
  | punnetTimerExpire
  | mailboxDeliver
  | workerTakeJob
  | parentRetire
  | completionBacklogDrain
  | msixTimeout
  | preemptPriorityTrigger
  | preemptTimesliceTrigger
  | preqGo
  | preemptDecide
  | drainExpire
  | flushAndRestart
  | saveCapture
  | saveComplete
  | dbgHalt
  | dbgHaltComplete
  | dbgResume
  | dbgRead
  | dbgWrite
  | dbgCancelPending
  | dbgStep
  | dbgUndefinedOp
  | replayPassEnd
  | registerWrite
  | evportWrite
  | svcCoreOffline
  | svcOfflineDone
  | svcCoreOnline
  | svcChannelRetrain
  | svcStationRetrain
  | svcRetrainDone
  | svcUndefinedOp
  | attcmdWrite
  | attestationDone
  | resetGo
  | powerOnBoot
  | thermalThrottleTick
  | thermalStop
  | linkOperationTimeout
  | roceInbound (kind : RoceKind) (port ia : Nat) (data : List Byte)
  | homeAnswer
  | inServiceUpdate (kind : UpdateKind) (image : List Byte) (cfg : ConfigRecord)
  deriving DecidableEq, Repr, Inhabited

end Sys2Proof
end

