-- ==== Sys2Proof/Machine/State.lean ====
section
/-! DEFINITION. The state of the part: every register, table and queue the manual names, as plain data,
and the machine right after reset. Tables that the manual numbers are `Sparse`: an absent key reads as
the record's reset value. Keys: entry = core × 256 + entry; group = core × 32 + group; fibre =
group key × 64 + lane; lane register = fibre key × 512 + register of the fibre's allotment; uniform
register = group key × 64 + register; slot = core × 4 + slot; team = core × 16 + worker team;
bank = core × 4 + bank; channel = core × 4 + channel; handle = core × 64 + handle. A core's number is
die × 48 + core within the die. -/
namespace Sys2Proof.Machine

/-- Why the machine stops. -/
inductive Fault where
  /-- Raised by `step` alone: the device is fatal and has stopped (R231, R457), and no write of the host to RESET or boot flash
  is under way. Safe: the manual gives a stopped device no other step. -/
  | deviceStopped
  deriving DecidableEq, Repr, Inhabited

/-- Why an instruction has no meaning. -/
inductive Refusal where
  /-- Raised by `exec` for an instruction that is not modelled. Safe: nothing is claimed of it. -/
  | notModelled (mnemonic : String)
  deriving DecidableEq, Repr, Inhabited

/-! ## Skein groups, entries, slots -/

/-- STATE of Table 52. -/
inductive EntSt where
  | free | ready | blocked
  deriving DecidableEq, Repr, Inhabited

/-- What a blocked entry waits for (Table 69). -/
inductive Wake where
  | none
  /-- Lane registers of the listed fibre-and-register keys to become full (R69). -/
  | full (regs : List Nat)
  /-- A uniform register's access to return (R70): uniform register keys. -/
  | uniform (regs : List Nat)
  /-- The handle to change state (R151): its key and the state it had. -/
  | handle (h : Nat) (st : Nat)
  /-- The counter of a class to fall to the threshold (R160, R161): class 0 CPY, 1 MMA, 2 LDL, 3 ATT, 4 COL. -/
  | counter (cls : Nat) (le : Nat)
  /-- A stage barrier to leave a phase (R155): scratchpad offset and phase. -/
  | barrier (off : Nat) (phase : Nat)
  /-- The team barrier's round to complete (R374). -/
  | bar
  /-- The answer of a home (R194, R200, R406): the operation. -/
  | home (op : Nat)
  /-- A FENCE to complete (R394): its kind, and for SC the last number that its die had given, plus one, once the fence's own
  earlier writes had been numbered (R140). -/
  | fence (kind number : Nat)
  /-- The entry's own tile entry to complete (R402). -/
  | tile (id : Nat)
  /-- The team to be at rest, or its version to be committed (R412). -/
  | jobend
  deriving DecidableEq, Repr, Inhabited

/-- One split-table entry (Table 52) with its REPST (Table 84), what it waits for, whether it stands at
a rand boundary, whether a raised precise trap holds it (R225), since when it has been READY (R212), and the
function table entry that it read last with its address (R363), and whether it has taken parked fibres that have not issued
from it yet (R174). -/
structure Entry where
  st : EntSt := .free
  parent : Nat := 0
  pc : Pc := 0
  lanes : DWord := 0
  repst : DWord := 0
  wake : Wake := .none
  boundary : Bool := true
  trapped : Bool := false
  since : Nat := 0
  /-- It has returned from a trap handler and not issued since: a trap that its ERET has raised anew comes at its next boundary
  (R56, R441). -/
  resumed : Bool := false
  fteAt : Nat := 0
  fteRaw : BitVec 256 := 0
  rotated : Bool := false
  deriving DecidableEq, Repr, Inhabited

/-- An issue slot: the entry that holds it and the issues of its rand (R211). -/
structure Slot where
  ent : Option Nat := none
  issues : Nat := 0
  deriving DecidableEq, Repr, Inhabited

/-- One lane of an access capture (R54): the lane, its intermediate address, and its operands. -/
structure CapLane where
  lane : Nat := 0
  ia : Nat := 0
  d : Nat := 0
  nv : Nat := 0
  nol1 : Bool := true
  /-- The residency event that it was answered with; 0 for none (R50). -/
  event : DWord := 0
  deriving DecidableEq, Repr, Inhabited

/-- The operations of a memory access. -/
inductive AccKind where
  | load | store | const | pref (lvl : Nat)
  | atomic (op : Nat)            -- ADD MIN MAX AND OR XOR XCH CAS (R361)
  | kvx (reverse : Bool)
  | commit (job : Nat)
  | lock (free : Bool)
  deriving DecidableEq, Repr, Inhabited

/-- The destination of an access: none, lane registers numbered from the start of the fibre's allotment
(512 names a register that discards), or a uniform register. -/
inductive AccDst where
  | none
  | lanes (regs : List Nat)
  | uniform (r : Nat)
  deriving DecidableEq, Repr, Inhabited

/-- An access capture (R54). -/
structure Capture where
  kind : AccKind := .load
  n : Nat := 0
  wflag : Bool := false
  signed : Bool := false
  dst : AccDst := .none
  lanes : List CapLane := []
  rel : Bool := false
  /-- A scalar access: it is an access of every fibre that issues it (R118). -/
  scalar : Bool := false
  /-- A scoped atomic's: later accesses of its fibres wait until ERET has performed it, and at DIE scope or wider its
  return drops the core's L1 lines (R349, R56). -/
  acq : Bool := false
  drops : Bool := false
  deriving DecidableEq, Repr, Inhabited

/-- A trap queue entry (Table 73); `order` is its instruction's place in the issue order, `precise`
says whether its instruction stands still, and `rep` whether a repetition of a REP target raised it. -/
structure TrapEntry where
  cause : Nat := 0
  stile : Nat := 0
  iaBit : Bool := false
  stop : Bool := false
  cap : Option Capture := none
  fpc : Pc := 0
  rpc : Pc := 0
  addr : DWord := 0
  mask : DWord := 0
  aux : DWord := 0
  issue : DWord := 0
  order : Nat := 0
  precise : Bool := false
  word : Word := 0
  dword : Word := 0
  coded : Bool := false
  priv : Bool := false
  repst : DWord := 0
  /-- At its instruction's issue FUNC.FTE was not 0 (R445). -/
  fte : Bool := false
  deriving DecidableEq, Repr, Inhabited

/-- An outstanding operation: its class of Table 50 (0 CPY, 1 MMA, 2 LDL, 3 ATT, 4 COL) and its number. -/
structure Outst where
  cls : Nat := 0
  op : Nat := 0
  done : Bool := false
  deriving DecidableEq, Repr, Inhabited

/-- The state of one skein group: its binding, live lanes, condition bits, FPMODE, counters, RPMASK,
trap information registers, shadows, EMSTAT and trap queue (R171, R160, R223 to R227, Table 78). -/
structure Group where
  team : Option Nat := none
  tgrp : Nat := 0
  live : DWord := 0
  conds : BitVec 8 := 0
  fpmode : BitVec 2 := 0
  /-- Outstanding operations, oldest first, and whether each is held as done: the counters CPY, MMA, LDL,
  ATT and COL (R160, R161). -/
  outst : List Outst := []
  rpmask : DWord := 0
  /-- The entry that received the trap being handled, if a handler runs (R225). -/
  recv : Option Nat := none
  /-- Depth of emulation, 0 in a trap handler and outside handlers (Table 103). -/
  depth : Nat := 0
  /-- The WB of the function that the handler interrupted: the window of the level below depth 1 (R279). -/
  wb : BitVec 2 := 0
  trcause : DWord := 0
  trpc : DWord := 0
  trfpc : DWord := 0
  traddr : DWord := 0
  trmask : DWord := 0
  traux : DWord := 0
  emraise : Bool := false
  emcause : BitVec 10 := 0
  shS : List DWord := []
  shC : BitVec 8 := 0
  queue : List TrapEntry := []
  /-- A decode cause raised inside an emulation handler, about to nest (R284). -/
  nest : Option TrapEntry := none
  /-- The trap being handled, and the access that ERET has started for its captured lanes (R56). -/
  handling : Option TrapEntry := none
  replay : Option Nat := none
  order : Nat := 0
  arrived : DWord := 0
  barPass : DWord := 0
  deriving DecidableEq, Repr, Inhabited

/-- Lane registers, full bits (listed where empty), accesses outstanding into registers (the access's
number plus one), predicates p1 to p7 and their shadows, and the PCs of parked fibres and since when each is parked
(R168, R68, R174). -/
structure LaneSt where
  reg : Sparse Word := []
  empty : Sparse Bool := []
  out : Sparse Nat := []
  pred : Sparse (BitVec 8) := []
  predSh : Sparse (BitVec 8) := []
  parked : Sparse (Option Pc) := []
  parkedAt : Sparse Nat := []
  deriving DecidableEq, Repr, Inhabited

/-- Uniform registers, the accesses outstanding into them, groups, split-table entries and slots. -/
structure UniSt where
  sreg : Sparse DWord := []
  sout : Sparse Nat := []
  groups : Sparse Group := []
  ents : Sparse Entry := []
  slots : Sparse Slot := []
  deriving DecidableEq, Repr, Inhabited

/-! ## Teams, banks, scratchpad, tiles -/

/-- What is being done to a resident team (R216 to R220, R238). -/
inductive SendBack where
  | no | deciding | draining | flushing | saving
  deriving DecidableEq, Repr, Inhabited

/-- A worker team (R176, R178): whether it runs a job, and what placement gave it. -/
structure Team where
  job : Option Nat := none
  bank : Nat := 0
  bound : Bool := false
  n : Nat := 0
  tiles : Nat := 0
  sbase : Nat := 0
  ssize : Nat := 0
  window : Nat := 64
  ewin : Nat := 0
  groups : List Nat := []
  handles : List Nat := []
  placedAt : Nat := 0
  serial : Nat := 0
  ranBefore : Nat := 0
  back : SendBack := .no
  backAt : Nat := 0
  nodrain : Bool := false
  frame : Option Nat := none
  /-- Debug: halted, halting, or stepping (R238). -/
  halt : Nat := 0
  stepping : Bool := false
  /-- Entries that a step still lets issue one rand. -/
  steps : List Nat := []
  waiting : Bool := false
  /-- How many system-kernel images had come into service when the team last came to its wait: the code it runs (R460). -/
  kernel : Nat := 0
  deriving DecidableEq, Repr, Inhabited

/-- One context bank (R17): CTXID, RGEN, primary key slot, LOCKQ, EMBASE, TRAPBASE, FEATMASKn and the
ranges (number × 3 + word). -/
structure Bank where
  held : Bool := false
  ctxid : DWord := 0
  rgen : DWord := 0
  keyslot : BitVec 8 := 0
  lockq : Nat := 0
  embase : DWord := 0
  trapbase : DWord := 0
  feat : List DWord := []
  rng : Sparse DWord := []
  unboundAt : Nat := 0
  deriving DecidableEq, Repr, Inhabited

/-- The registers of one core beside its teams: KEYADDR, KEYCMD, DBGCMD, DBGDATA, PMCTL, PMSEL and
MBSTAT (Tables 13, 14, 79, 61). -/
structure CoreRegs where
  keyaddr : DWord := 0
  keycmd : DWord := 0
  dbgcmd : DWord := 0
  dbgdata : DWord := 0
  pmctl : DWord := 0
  pmsel : DWord := 0
  pmcnt : Sparse Nat := []
  mbstat : DWord := 0
  offline : Bool := false
  deriving DecidableEq, Repr, Inhabited

structure CoreSt where
  teams : Sparse Team := []
  banks : Sparse Bank := []
  regs : Sparse CoreRegs := []
  /-- Scratchpad bytes, core × 2^22 + offset in the core's scratchpad, and the context slot plus one that last
  wrote each (R71, R74). -/
  scratch : Sparse Byte := []
  scratchBy : Sparse Nat := []
  /-- The generation plus one of the context last placed from each slot: core × 64 + slot. -/
  scratchGen : Sparse Nat := []
  /-- Accumulator elements: ((core × 16 + team) × 8 + tile) × 16384 + row × 128 + column (R176). -/
  tiles : Sparse DWord := []
  deriving DecidableEq, Repr, Inhabited

/-! ## Memory -/

/-- A 256-byte SC line (R77): the physical granule, the key slot, the bytes not yet written back, the
owner of its lock, its line clock, poison, and when it was last used. -/
structure ScLine where
  held : Bool := false
  pa : Nat := 0
  key : Option Nat := none
  dirty : Sparse (Option Byte) := []
  lock : Option Nat := none
  clock : List Nat := []
  poison : Bool := false
  used : Nat := 0
  deriving DecidableEq, Repr, Inhabited

/-- A version line (R87): its bytes, and whether it lies in the spill area. -/
structure VerLine where
  held : Bool := false
  bytes : Sparse (Option Byte) := []
  spilled : Bool := false
  poison : Bool := false
  used : Nat := 0
  deriving DecidableEq, Repr, Inhabited

/-- A cached translation (R46) and the misses counted under it (R43). -/
structure Tlb where
  held : Bool := false
  level : Nat := 0
  w0 : DWord := 0
  w1 : DWord := 0
  at_ : Nat := 0
  misses : Nat := 0
  deriving DecidableEq, Repr, Inhabited

/-- An entry of a die's pending-fault table (R49). -/
structure PendFault where
  page : Nat := 0
  size : Nat := 0
  event : DWord := 0
  deriving DecidableEq, Repr, Inhabited

/-- A request's place on its way (R46, R57, R61, R139). -/
inductive Stage where
  | near | home
  /-- It found the hold queue of its slice full, and stands in its port (R61). -/
  | stalled
  | heldM | heldCollapse (page : Nat) | heldResidency (event : DWord) (until_ : Nat) | heldTable
  | heldSpill (until_ : Nat)
  | toNumber | clocked | awaitClock | response | done
  deriving DecidableEq, Repr, Inhabited

/-- Who issued a request: a lane of an access, an engine of a die (by its context slot), a job's commit, or the device. -/
inductive ReqSrc where
  | lane (acc lane : Nat)
  | engine (x : Nat)
  | commit (job : Nat)
  | device
  deriving DecidableEq, Repr, Inhabited

/-- One event of an access on its way to memory (R121). -/
structure Req where
  src : ReqSrc := .device
  kind : AccKind := .load
  ia : Nat := 0
  len : Nat := 0
  off : Nat := 0
  data : Nat := 0
  nv : Nat := 0
  core : Nat := 0
  group : Nat := 0
  bank : Nat := 0
  die : Nat := 0
  slot : Nat := 0
  job : Option Nat := none
  keyslot : Nat := 0
  priv : Bool := false
  nol1 : Bool := true
  vc : List Nat := []
  stage : Stage := .near
  clock : List Nat := []
  pa : Nat := 0
  key : Option Nat := none
  /-- The lines as they stood when the request was served, by address, for the L1 or the constant cache (R75, R76), and
  whether they may no longer be filled, since the core has stored there or dropped them. -/
  fill : List (Nat × List Byte) := []
  noFill : Bool := false
  /-- The residency event that its lane was answered with before ERET performed it (R50, R56); 0 for none. -/
  event : DWord := 0
  /-- Its place among the requests held at slices (R58, R61). -/
  heldAt : Nat := 0
  /-- A write that waited for a collapse is clocked whatever its home (R137). -/
  clkd : Bool := false
  /-- Issued by an entry whose FUNC.FTE was not 0 (R445). -/
  fte : Bool := false
  /-- A scalar access stands in every fibre's order (R118). -/
  scalar : Bool := false
  /-- An event in the core's scratchpad, `ia` the offset there (R121). -/
  scratch : Bool := false
  deriving DecidableEq, Repr, Inhabited

/-- A lane or scalar access in progress (R54, R161, R343): what it is, the lanes not yet answered, the
value gathered per lane, the lanes that failed with their cause and address, the lanes that are not resident. -/
structure Access where
  core : Nat := 0
  group : Nat := 0
  ent : Nat := 0
  order : Nat := 0
  cap : Capture := {}
  fpc : Pc := 0
  rpc : Pc := 0
  issue : DWord := 0
  todo : Sparse Nat := []
  got : Sparse Nat := []
  failed : List (Nat × Nat × DWord) := []
  iaFail : Bool := true
  notres : DWord := 0
  /-- The residency events that not-resident lanes were answered with. -/
  events : List (Nat × DWord) := []
  counted : Bool := false
  handler : Bool := false
  /-- The instruction was privileged (R26). -/
  priv : Bool := false
  /-- At its issue FUNC.FTE was not 0 (R445). -/
  fte : Bool := false
  /-- Lanes whose return a debugger has cancelled: one that is answered not-resident is not captured (R239). -/
  cancelled : DWord := 0
  /-- A scoped atomic: later accesses of its fibres wait for it, and at DIE scope or wider its return drops
  the core's L1 lines (R349). -/
  acq : Bool := false
  drops : Bool := false
  /-- Lanes whose access an SC has counted (R445). -/
  probed : DWord := 0
  /-- REPST at its issue; of a repetition, which the next one waits for, ACT is 1 there (R252). -/
  repst : DWord := 0
  deriving DecidableEq, Repr, Inhabited

/-- A clocked write or notice on its way to a die (R138): the source die, the clock, and the request it
carries (none for a notice). -/
structure Item where
  src : Nat := 0
  clock : List Nat := []
  req : Option Nat := none
  deriving DecidableEq, Repr, Inhabited

/-- The per-die registers and tables (Tables 17, 20, 27, 30, 70, 71, 205; R49, R50, R84, R136). -/
structure DieSt where
  ptroot : DWord := 0
  ptinv : DWord := 0
  sccarve : DWord := 0
  lksweep : DWord := 0
  schedcfg : DWord := 0x0000010002000032
  preq : DWord := 0
  rqbase : DWord := 0
  rqsize : DWord := 6
  rqhead : DWord := 0
  rqtail : DWord := 0
  vc : List Nat := [0, 0, 0, 0]
  pend : List PendFault := []
  rqNext : Nat := 0
  /-- Of each residency event index: its page, and in bits 3:0 its record's KIND. -/
  rqKinds : Sparse Nat := []
  inq : Sparse (List Nat) := []
  locks : Sparse Nat := []
  offlineChans : List Nat := []
  deriving DecidableEq, Repr, Inhabited

/-- States of a key slot (Table 12). -/
inductive KeyState where
  | empty | priv | shared | retiring
  deriving DecidableEq, Repr, Inhabited

structure KeySlot where
  st : KeyState := .empty
  keys : BitVec 512 := 0
  deriving DecidableEq, Repr, Inhabited

/-- A collapse in progress (R58): the home die, the page and the copies not yet acknowledged. -/
structure Collapse where
  home : Nat := 0
  page : Nat := 0
  entry : Nat := 0
  todo : List Nat := []
  copies : List Nat := []
  deriving DecidableEq, Repr, Inhabited

/-- Physical memory and everything between it and the issuing units. -/
structure MemSt where
  /-- Bytes by physical address, in canonical form; an unlisted byte reads as 0 (log entry 2). -/
  mem : List Host.Cell := []
  /-- The keys under which each granule of HBM4E was last written (R35); none listed: never encrypted. -/
  granKey : Sparse (BitVec 512) := []
  poison : Sparse Bool := []
  sc : Sparse ScLine := []
  vers : Sparse VerLine := []
  /-- The distinct lines that each job has written, by the job's number and the line as in `vers` (R89). -/
  verSeen : Sparse Bool := []
  l1 : Sparse (List Byte) := []
  konst : Sparse (List Byte) := []
  tlb : Sparse Tlb := []
  keys : Sparse KeySlot := []
  dies : Sparse DieSt := []
  reqs : Sparse Req := []
  accs : Sparse Access := []
  items : Sparse Item := []
  collapses : Sparse Collapse := []
  /-- Engine writes that wait for a collapse: address, writer's die and job. Each is clocked whatever its home (R137). -/
  engClkd : List (Nat × Nat × Option Nat) := []
  nextId : Nat := 1
  deriving DecidableEq, Repr, Inhabited

/-! ## Tasks: records, jobs, grids, events, punnets, rings (R184 to R205, R421 to R437) -/

/-- Where a record came from (R422). -/
inductive Source where
  | stream (die n : Nat)
  | queue (die q : Nat)
  | opsub (job : Nat)
  | cont
  | punnet (die n : Nat)
  | replay (die : Nat)
  deriving DecidableEq, Repr, Inhabited

/-- A job's stage (Table 66). -/
inductive JobAt where
  | queued | mailbox (core slot : Nat) | placed (core w : Nat) | retired
  deriving DecidableEq, Repr, Inhabited

/-- A tile job: its record (Table 62), the events it waits on, its stage, and what has happened to it. -/
structure Job where
  live : Bool := false
  jobid : Nat := 0
  grid : Nat := 0
  jobno : Nat := 0
  slot : Nat := 0
  gen : Nat := 0
  prio : Nat := 0
  idem : Bool := false
  nonRestart : Bool := false
  depth : Nat := 0
  aborts : Nat := 0
  /-- It has been placed non-restartable after eight aborts (R53). -/
  forced : Bool := false
  routine : Nat := 0
  arg : DWord := 0
  signal : DWord := 0
  tile : DWord := 0
  parent : Nat := 0xFFFFFFFF
  parentJob : Option Nat := none
  /-- The first fault of a child grid: its FJOB and FCAUSE (R181). -/
  childFault : Option (Nat × Nat) := none
  stream : Nat := 0xFFFF
  seq : Nat := 0
  ring : Nat := 0
  die : Nat := 0
  waits : List DWord := []
  okWaits : List DWord := []
  at_ : JobAt := .queued
  order : Int := 0
  sentBack : Bool := false
  mailAt : Nat := 0
  /-- Victims have been chosen for it since it came to its mailbox (R216). -/
  served : Bool := false
  regen : Nat := 0
  /-- Pages whose regeneration failed once, and twice (R65). -/
  badPages : List Nat := []
  failPages : List Nat := []
  restartable : Bool := false
  ran : Nat := 0
  frame : Option Nat := none
  /-- Every frame that it has claimed and that its JOBEND or kill releases (R233). -/
  frames : List Nat := []
  /-- While it is saved: operations that go on (team group and operation) and traps they raised (R164, R236). -/
  savedOps : List (Nat × Outst) := []
  savedTraps : List (Nat × TrapEntry) := []
  /-- What the frame does not hold: how its groups and entries stood, and operations answered but not yet taken (team group,
  entry, operation). -/
  savedGroups : List Group := []
  savedEnts : List (List Entry) := []
  savedHome : List (Nat × Nat × Nat) := []
  eligible : Bool := false
  punnet : Option (Nat × Nat × Nat × Nat) := none
  replay : Bool := false
  /-- The record whose engine performs it: it has no team (R427). -/
  engine : Option Nat := none
  /-- Ended, with its status and cause, while its children are not (R181). -/
  ended : Bool := false
  /-- Its JOBEND has begun to commit its version (R91). -/
  committing : Bool := false
  /-- What its die had seen when its JOBEND began to commit (R127, R140). -/
  vc : List Nat := []
  status : Nat := 0
  cause : Nat := 0
  deriving DecidableEq, Repr, Inhabited

/-- A grid and its completion record so far (Table 63, R202). -/
structure Grid where
  live : Bool := false
  src : Source := .cont
  stream : Nat := 0xFFFF
  seq : Nat := 0
  slot : Nat := 0
  gen : Nat := 0
  ring : Nat := 0
  die : Nat := 0
  njobs : Nat := 0
  left : Nat := 0
  status : Nat := 0
  restart : Bool := false
  fjob : Nat := 0
  fcause : Nat := 0
  nfault : Nat := 0
  parentJob : Option Nat := none
  report : Bool := true
  replay : Option Nat := none
  deriving DecidableEq, Repr, Inhabited

/-- A record being decoded or held (R187, R427): the record, its source and context, and how far it is. -/
structure Dec where
  live : Bool := false
  rcd : BitVec 256 := 0
  src : Source := .cont
  die : Nat := 0
  slot : Nat := 0
  gen : Nat := 0
  bankRng : Sparse DWord := []
  keyslot : Nat := 0
  depth : Nat := 0
  ring : Nat := 0
  parentJob : Option Nat := none
  stage : Nat := 0
  arms : List (DWord × Nat) := []
  /-- The argument block as it was read. -/
  block : List Byte := []
  /-- What its WAIT came to: 0 resolved, or the cause that it met. -/
  waitSeen : Option Nat := none
  grids : List Nat := []
  done : Nat := 0
  answer : Option Nat := none
  cause : Nat := 0
  replay : Option Nat := none
  /-- What the other device answered to its arming: 0, or a cause. -/
  armSeen : Option Nat := none
  /-- The residency event that its engine's access is held on, and since when (R57). -/
  held : Option DWord := none
  heldAt : Nat := 0
  /-- What every die must have applied before its hold ends (R433). -/
  vc : List Nat := []
  /-- The OPSUB that waits for the dispatcher to take the record, and the engine's job. -/
  op : Nat := 0
  job : Nat := 0
  deriving DecidableEq, Repr, Inhabited

/-- The dispatcher's view of a stream or queue: its current context, and the record that holds it. -/
structure SrcRt where
  ctx : Option (Nat × Option Nat) := none
  hold : Option Nat := none
  /-- A watch on a FEEDEV of another device: 1 left, 2 resolved, 3 faulted. -/
  watch : Nat := 0
  -- remote queues only (R197)
  gen : Nat := 0
  resident : Bool := false
  /-- The on-chip buffer with each record's place in the die's order of arrival, and the places of the records in the backing
  area. -/
  buf : List (Nat × BitVec 256) := []
  backed : List Nat := []
  pushedAt : Nat := 0
  deriving DecidableEq, Repr, Inhabited

/-- A punnet at work (R199, R200). -/
structure PunRt where
  total : Nat := 0
  launched : Nat := 0
  depth : Nat := 0
  batch : Nat := 0
  stamp : Nat := 0
  timer : Bool := false
  pressure : Bool := false
  deriving DecidableEq, Repr, Inhabited

/-- The registers and state of a completion ring (Table 64, R204). -/
structure Ring where
  base : DWord := 0
  ctl : DWord := 0x0000010000000004
  prod : Nat := 0
  cons : Nat := 0
  since : Nat := 0
  stamp : Nat := 0
  deriving DecidableEq, Repr, Inhabited

/-- A pool (Table 33): where its descriptor is, block size, layers, heads, groups, areas, blocks and free list. -/
structure Pool where
  at_ : Nat := 0
  bs : Nat := 4096
  nl : Nat := 1
  nh : Nat := 1
  ng : Nat := 1
  area : Nat := 0
  cb : Nat := 0
  mbase : Nat := 0
  nb : Nat := 256
  freecnt : Nat := 0
  head : Nat := 0
  deriving DecidableEq, Repr, Inhabited

/-- What an operation asks of a home (R406). -/
inductive HomeKind where
  | signal (value : Nat)
  | wait | poll | get
  | futreg (node : Nat)
  | arm (count : Nat)
  | deposit (rsz : Nat) (data : List Byte)
  | opsub
  | seqApp (n : Nat) | seqFork (child : Nat) | spanTag (tag : Nat) | spanRet (tag : Nat)
  | seqCreate (pool chain cap : Nat) | seqDestroy
  | kvx (acc : Nat) (reverse : Bool) (lanes : List CapLane)
  | dispatcherSignal (value : Nat)
  | jobSignal (job value : Nat)
  deriving DecidableEq, Repr, Inhabited

/-- Who made the operation: an entry, a job, a record, a dry stream (die × 256 + stream), an agent of another device of the
group, or the device. -/
inductive HomeBy where
  | entry (core ent : Nat)
  | job (j : Nat)
  | dec (d : Nat)
  | stream (k : Nat)
  | peer
  | device
  deriving DecidableEq, Repr, Inhabited

/-- An operation at, or on its way to, an event, punnet or sequence home or a dispatcher (R406). -/
structure HomeOp where
  live : Bool := false
  kind : HomeKind := .wait
  target : DWord := 0
  by_ : HomeBy := .device
  slot : Nat := 0
  gen : Nat := 0
  priv : Bool := false
  die : Nat := 0
  bankRng : Sparse DWord := []
  keyslot : Nat := 0
  fpc : Pc := 0
  rpc : Pc := 0
  issue : DWord := 0
  order : Nat := 0
  group : Nat := 0
  addr : DWord := 0
  dst : Option Nat := none
  yields : Bool := false
  /-- Applied at its home, left there as a watch, and its answer taken. -/
  applied : Bool := false
  waiting : Bool := false
  answered : Bool := false
  value : DWord := 0
  cause : Nat := 0
  handler : Bool := false
  /-- At its issue FUNC.FTE was not 0 (R445). -/
  fte : Bool := false
  /-- What a release's die had seen when it was made (R127, R140). -/
  vc : List Nat := []
  held : Option DWord := none
  heldAt : Nat := 0
  /-- It has come to the head of its sequence's order, and the blocks it has reserved (R108, R111). -/
  begun : Bool := false
  blocks : Option (List Nat) := none
  pool : Nat := 0
  deriving DecidableEq, Repr, Inhabited

/-- A watch that waits on an event of this device (R192, R195). -/
structure Watch where
  name : DWord := 0
  op : Nat := 0
  deriving DecidableEq, Repr, Inhabited

/-- A REPLAY session of a die (R418, R419). -/
structure Session where
  live : Bool := false
  block : Nat := 0
  core : Nat := 0
  passes : Nat := 0
  pass : Nat := 0
  rcd : BitVec 256 := 0
  log : Nat := 0
  logcap : Nat := 0
  logged : List Nat := []
  overflow : Bool := false
  side : Bool := false
  mismatch : Option Nat := none
  done : DWord := 0
  path0 : Nat := 0
  digest : Nat := 0
  sel : List DWord := []
  saved : List (Nat × DWord × DWord) := []
  slot : Nat := 0
  gen : Nat := 0
  bankRng : Sparse DWord := []
  keyslot : Nat := 0
  ring : Nat := 0
  parentJob : Option Nat := none
  depth : Nat := 0
  /-- The pass's COUNTS and lines have been written, and the collapses that this began are awaited (R446). -/
  settling : Bool := false
  wrote : List Nat := []
  deriving DecidableEq, Repr, Inhabited

/-- A message to a peer or the host that the device has sent (R195, R196, R204, R453). -/
inductive OutMsg where
  /-- Of an event: 0 a signal with its value, 1 a fault, 2 a wait, 3 a registration with its node, 4 an arming with its count. -/
  | event (op : Nat) (name value : DWord)
  | msix (vector : Nat)
  | nak (port : Nat)
  /-- A run that transfer `x` writes into a peer's memory or across a port, and one that it reads there (R453, R454). -/
  | copy (x ia : Nat) (data : List Byte)
  | copyRead (x ia n : Nat)
  | collective (key : DWord) (rank : Nat) (vals : List DWord)
  | queueStatus (handle : DWord) (status : Nat)
  /-- The watched event's state word (Table 57). -/
  | watchAnswer (name word : DWord)
  /-- What an operation of another device met: a cause, or 0, and its status (R195, R453). -/
  | opAnswer (name : DWord) (cause : Nat) (value : DWord)
  deriving DecidableEq, Repr, Inhabited

/-- The context in which a registered continuation's jobs run (R409). -/
structure NodeCtx where
  slot : Nat := 0
  gen : Nat := 0
  rng : Sparse DWord := []
  keyslot : Nat := 0
  deriving DecidableEq, Repr, Inhabited

structure TaskSt where
  nodes : Sparse NodeCtx := []
  jobs : Sparse Job := []
  grids : Sparse Grid := []
  decs : Sparse Dec := []
  streams : Sparse SrcRt := []
  queues : Sparse SrcRt := []
  /-- Spill areas: per die, entry of the area, queue and place of each spilled record in the order of arrival, and how many
  records have arrived (R197). -/
  spill : Sparse (List (Nat × Nat × Nat)) := []
  arrived : Sparse Nat := []
  punnets : Sparse PunRt := []
  rings : Sparse Ring := []
  backlog : Sparse (List (Nat × BitVec 256)) := []
  ops : Sparse HomeOp := []
  watches : List Watch := []
  /-- Estimate tables: per die, routine and run times, most recently used first (R218). -/
  est : Sparse (List (Nat × List Nat)) := []
  /-- Mailbox slots in order of delivery: per core, slot and job (R209). -/
  mail : Sparse (List (Nat × Nat)) := []
  sessions : Sparse Session := []
  /-- The job that holds each context's tile shadow area, plus one (R286). -/
  shadow : Sparse Nat := []
  out : List OutMsg := []
  nextJob : Nat := 1
  nextGrid : Nat := 1
  nextDec : Nat := 1
  nextOp : Nat := 1
  nextPlace : Nat := 1
  serial : Sparse Nat := []
  /-- Places given in the queues, and to resumed jobs (R207). -/
  back : Nat := 0
  front : Nat := 0
  deriving DecidableEq, Repr, Inhabited

/-! ## Engines (R141 to R167, R380 to R405) -/

/-- States of a buffer handle (Table 47). -/
inductive HandleSt where
  | free | filling | full | draining
  deriving DecidableEq, Repr, Inhabited

/-- A buffer handle (R150): its base and size in bytes, the team that owns it, its state, its readers, a
recorded last-use mark, and the transfer that holds a permit for it (R152). -/
structure Handle where
  owner : Option Nat := none
  base : Nat := 0
  size : Nat := 0
  st : HandleSt := .free
  readers : Nat := 0
  last : Bool := false
  permit : Option Nat := none
  deriving DecidableEq, Repr, Inhabited

/-- A copy channel (R142, R144): the team that owns it, FAULT and COUNT of its write pointer, and its transfers in order. -/
structure Chan where
  owner : Option Nat := none
  fault : Bool := false
  count : Nat := 0
  /-- Armed by a zeroing transfer while its team was saved. -/
  zeroed : Bool := false
  queue : List Nat := []
  deriving DecidableEq, Repr, Inhabited

/-- The instruction that started an engine operation, with the copy of its bank's ranges (R24). -/
structure Starter where
  core : Nat := 0
  team : Nat := 0
  group : Nat := 0
  ent : Nat := 0
  slot : Nat := 0
  gen : Nat := 0
  rng : Sparse DWord := []
  keyslot : Nat := 0
  job : Option Nat := none
  priv : Bool := false
  fpc : Pc := 0
  rpc : Pc := 0
  issue : DWord := 0
  order : Nat := 0
  /-- The team group, the team's placement, and whether the instruction was a handler's (R228). -/
  tgrp : Nat := 0
  serial : Nat := 0
  handler : Bool := false
  /-- Its FUNC.FTE was not 0 (R445). -/
  fte : Bool := false
  deriving DecidableEq, Repr, Inhabited

/-- A tensor descriptor as read (Table 45). -/
structure Tensor where
  base : Nat := 0
  esz : Nat := 1
  rank : Nat := 1
  fill : Nat := 0
  extent : List Nat := []
  stride : List Nat := []
  box : List Nat := []
  deriving DecidableEq, Repr, Inhabited

/-- What a transfer does (Table 145, R148). -/
inductive XferKind where
  | linear | tensor | unfold | writeBack
  deriving DecidableEq, Repr, Inhabited

/-- One copy operation: a channel's or a picker's transfer, or the walk of a chain whose current record it
performs (R142 to R153, R382 to R388). -/
structure Xfer where
  live : Bool := false
  by_ : Starter := {}
  /-- The channel; none for a picker. -/
  chan : Option Nat := none
  zero : Bool := false
  kind : XferKind := .linear
  /-- 0 memory, 1 scratchpad, 2 buffer handle. -/
  dkind : Nat := 0
  srcScratch : Bool := false
  src : Nat := 0
  dst : Nat := 0
  handle : Nat := 0
  len : Nat := 0
  coord : List Int := []
  unfold : Nat := 0
  barrier : Option Nat := none
  /-- Cores that a multicast names, and those that have granted their permit (R153). -/
  mcast : List Nat := []
  granted : List Nat := []
  /-- A chain: the address of the next record, the record in progress with its CTRL word, and whether the starting bank has
  tensor transfers (Table 93). -/
  chain : Bool := false
  boxes : Bool := true
  next : Nat := 0
  record : Option Nat := none
  ctrl : Nat := 0
  started : Bool := false
  tensor : Tensor := {}
  total : Nat := 0
  sent : Nat := 0
  lastUse : Bool := false
  follow : Option Nat := none
  /-- The tile of that follow-on. -/
  ftile : Nat := 0
  /-- The run's traffic with a peer or a port: 0 none, 1 a read sent, 2 its answer here, 3 a write sent, 4 that answered; since
  when, and what the read's answer brought. -/
  wire : Nat := 0
  wireAt : Nat := 0
  wireData : List Byte := []
  held : Option DWord := none
  heldAt : Nat := 0
  deriving DecidableEq, Repr, Inhabited

/-- Entries of the tile order (R396). -/
inductive TileOp where
  | mma (form : Nat) (ka kb sel : Nat) (zero dlay : Bool) (scales : List Byte)
  | accz
  | accld (fmt : Nat)
  | accst (fmt pitch rms rm off : Nat) (zero : Bool)
  | accred (zero : Bool) (desc rank : Nat)
  deriving DecidableEq, Repr, Inhabited

/-- One entry: its tile, its operand words, the transfer whose end it follows, and how far it is: placed,
occupying the array until a time, or complete. -/
structure TileEnt where
  live : Bool := false
  by_ : Starter := {}
  tile : Nat := 0
  op : TileOp := .accz
  words : List DWord := []
  /-- Operand words whose reader has started. -/
  reading : List Nat := []
  follow : Bool := false
  fill : Option Nat := none
  suppressed : Bool := false
  /-- An ACCRED's contribution. -/
  contrib : Nat := 0
  busyUntil : Nat := 0
  started : Bool := false
  ended : Bool := false
  deriving DecidableEq, Repr, Inhabited

/-- An ATTQ (R414, R415): its operands, whether it has come to the head of its sequence's order (R108), its pool, the blocks of the chain at admission with their live positions, the
partial triples of the heads by slice position, and the answer. -/
structure AttQuery where
  live : Bool := false
  by_ : Starter := {}
  seq : Nat := 0
  layer : Nat := 0
  head : Nat := 0
  heads : Nat := 1
  scale : Nat := 0
  word : DWord := 0
  handle : Nat := 0
  norm : Bool := false
  sa : DWord := 0
  begun : Bool := false
  admitted : Bool := false
  pool : Pool := {}
  blocks : List (Nat × Nat) := []
  todo : List Nat := []
  parts : Sparse (List (List Nat)) := []
  held : Option DWord := none
  heldAt : Nat := 0
  deriving DecidableEq, Repr, Inhabited

/-- One contribution to a collective round (R404, R430): who made it, its rank and its elements. -/
structure Contrib where
  live : Bool := false
  by_ : Starter := {}
  /-- An ACCRED; otherwise an O.COLL record. -/
  dec : Option Nat := none
  /-- VA of the reduction descriptor. -/
  desc : Nat := 0
  key : Nat := 0
  rank : Nat := 0
  vals : List DWord := []
  dest : Nat := 0
  receives : Bool := true
  joined : Bool := false
  /-- Its result has been written, and what the engine's die had then seen (R129). -/
  written : Bool := false
  vc : List Nat := []
  since : Nat := 0
  held : Option DWord := none
  heldAt : Nat := 0
  deriving DecidableEq, Repr, Inhabited

/-- An open round of a die's collective engine (R404). -/
structure Round where
  live : Bool := false
  die : Nat := 0
  key : Nat := 0
  n : Nat := 0
  int : Bool := false
  rootOnly : Bool := false
  dest : Nat := 0
  ranks : List (Nat × List DWord) := []
  /-- The contributions taken in, and of these the ones that receive. -/
  joined : List Nat := []
  members : List Nat := []
  closed : Bool := false
  deriving DecidableEq, Repr, Inhabited

structure EngSt where
  handles : Sparse Handle := []
  chans : Sparse Chan := []
  xfers : Sparse Xfer := []
  tiles : Sparse TileEnt := []
  /-- Tiles stopped by a failed CPYM (R388): (core × 16 + team) × 8 + tile, and the trap's order plus one. -/
  stopped : Sparse Nat := []
  attqs : Sparse AttQuery := []
  contribs : Sparse Contrib := []
  rounds : Sparse Round := []
  /-- Watchdogs running (R158): core × 2^18 + barrier offset ÷ 16 in the core's scratchpad, and when each last restarted plus one. -/
  dogs : Sparse Nat := []
  nextEng : Nat := 1
  deriving DecidableEq, Repr, Inhabited

/-! ## Service (R451 to R461) -/

/-- A happening that waits, not before `due`: what it is, and the objects it acts on. -/
structure Happening where
  due : Nat := 0
  what : Instr := .powerOnBoot
  x : Nat := 0
  y : Nat := 0
  z : Nat := 0
  v : DWord := 0
  deriving DecidableEq, Repr, Inhabited

/-- Boot flash, service registers and monitors. -/
structure DevSt where
  /-- In service: boot image, configuration record, dispatcher microcode, system kernel, emulation library (R456, R460). -/
  images : List (List Byte) := [[], [], [], [], []]
  nextCfg : ConfigRecord := ConfigRecord.full
  /-- The image of a configuration record that the next RESET takes into service. -/
  nextImage : Option (List Byte) := none
  /-- Key commands in order of arrival: the cores (R36). -/
  keyOrder : List Nat := []
  svccmd : DWord := 0
  attcmd : DWord := 0
  nonce : List Byte := []
  /-- How many system-kernel images have come into service since reset (R460). -/
  kernels : Nat := 0
  /-- The signed identity certificate in boot flash (R456). -/
  certificate : List Byte := []
  stationsOff : List Nat := []
  /-- Units being retrained: channel 64 × die + channel, or 256 + station. What was held at a channel and is still to be
  served, in order, and the messages held at stations (R461). -/
  retraining : List Nat := []
  heldAt : List (Nat × Happening) := []
  heldOut : List (Nat × OutMsg) := []
  /-- Monitors: die × 64 + monitor. LIMIT where it was written, and the last VALUE. -/
  monLimit : Sparse (Option (BitVec 16)) := []
  monValue : Sparse (BitVec 16) := []
  /-- How far each die's arithmetic clock has fallen, in steps of 87.5 MHz (R457). -/
  slow : Sparse Nat := []
  /-- What TIMER counts beyond 10/7 ns for each ck, in 1/5,880 ns: the slowed clocks' share (R457). -/
  stretch : Nat := 0
  msixPending : Sparse Bool := []
  deriving DecidableEq, Repr, Inhabited

/-! ## The issuing instruction and the device -/

/-- What is being performed, set by the step before `exec`: the instruction being issued (R211, R240), or
the objects that a happening acts on, `x`, `y`, `z` and `v`, as each happening's own text says. -/
structure Cur where
  core : Nat := 0
  ent : Nat := 0
  word : Word := 0
  dword : Word := 0
  len : Nat := 2
  coded : Bool := false
  priv : Bool := false
  rep : Bool := false
  order : Nat := 0
  /-- The instruction has been performed, and does not wait where it stands. -/
  done : Bool := false
  x : Nat := 0
  y : Nat := 0
  z : Nat := 0
  v : DWord := 0
  deriving DecidableEq, Repr, Inhabited

/-- Power and life of the device. -/
inductive Power where
  | booting | up | stopped
  deriving DecidableEq, Repr, Inhabited

structure State where
  now : Nat := 0
  tick : Nat := 0
  free : Nat := 0
  power : Power := .booting
  cfg : ConfigRecord := ConfigRecord.full
  cur : Cur := {}
  lane : LaneSt := {}
  uni : UniSt := {}
  core : CoreSt := {}
  mm : MemSt := {}
  task : TaskSt := {}
  eng : EngSt := {}
  dev : DevSt := {}
  /-- Happenings that are due at or after the time given, oldest first. -/
  agenda : List Happening := []
  deriving DecidableEq, Repr, Inhabited

/-- Right after power-on: every register at its reset value, and the boot ROM about to run (R455). -/
def State.reset : State := { agenda := [{ what := .powerOnBoot }] }

end Sys2Proof.Machine
end

