-- ==== Sys2Proof/Machine/Base.lean ====
section
/-! DEFINITION. Access to the numbered registers and tables: one reader and one writer for each, and the
issuing entry's own view of them (R171, R362, R279). -/
namespace Sys2Proof.Machine

def word64 (n : Nat) : DWord := BitVec.ofNat 64 n
/-- The field h:l of a register, in place. -/
def maskBits (v : DWord) (h l : Nat) : Nat := bits v.toNat h l * 2 ^ l

/-! ## Keys and tables -/

def entKey (core ent : Nat) : Nat := core * 256 + ent
def groupKey (core g : Nat) : Nat := core * 32 + g
def dieOf (core : Nat) : Nat := core / 48

def State.ent (s : State) (k : Nat) : Entry := s.uni.ents.get k
def State.setEnt (s : State) (k : Nat) (e : Entry) : State :=
  { s with uni := { s.uni with ents := s.uni.ents.put k e } }
def State.updEnt (s : State) (k : Nat) (f : Entry → Entry) : State := s.setEnt k (f (s.ent k))

def State.group (s : State) (k : Nat) : Group := s.uni.groups.get k
def State.setGroup (s : State) (k : Nat) (g : Group) : State :=
  { s with uni := { s.uni with groups := s.uni.groups.put k g } }
def State.updGroup (s : State) (k : Nat) (f : Group → Group) : State := s.setGroup k (f (s.group k))

def State.slotAt (s : State) (k : Nat) : Slot := s.uni.slots.get k
def State.setSlot (s : State) (k : Nat) (v : Slot) : State :=
  { s with uni := { s.uni with slots := s.uni.slots.put k v } }

def State.team (s : State) (k : Nat) : Team := s.core.teams.get k
def State.setTeam (s : State) (k : Nat) (t : Team) : State :=
  { s with core := { s.core with teams := s.core.teams.put k t } }
def State.updTeam (s : State) (k : Nat) (f : Team → Team) : State := s.setTeam k (f (s.team k))

def State.bank (s : State) (k : Nat) : Bank := s.core.banks.get k
def State.setBank (s : State) (k : Nat) (b : Bank) : State :=
  { s with core := { s.core with banks := s.core.banks.put k b } }
def State.updBank (s : State) (k : Nat) (f : Bank → Bank) : State := s.setBank k (f (s.bank k))

def State.cregs (s : State) (c : Nat) : CoreRegs := s.core.regs.get c
def State.setCregs (s : State) (c : Nat) (r : CoreRegs) : State :=
  { s with core := { s.core with regs := s.core.regs.put c r } }
def State.updCregs (s : State) (c : Nat) (f : CoreRegs → CoreRegs) : State := s.setCregs c (f (s.cregs c))

def State.die (s : State) (d : Nat) : DieSt := s.mm.dies.get d
def State.setDie (s : State) (d : Nat) (v : DieSt) : State :=
  { s with mm := { s.mm with dies := s.mm.dies.put d v } }
def State.updDie (s : State) (d : Nat) (f : DieSt → DieSt) : State := s.setDie d (f (s.die d))

/-- Uniform register r of a group. -/
def State.sregOf (s : State) (g r : Nat) : DWord := s.uni.sreg.get (g * 64 + r)
def State.setSregOf (s : State) (g r : Nat) (v : DWord) : State :=
  { s with uni := { s.uni with sreg := s.uni.sreg.put (g * 64 + r) v } }

/-- A lane register of a fibre by its number in the fibre's allotment: the declared window from 0, the
handler window from 256 and the emulation windows from 320. -/
def regKey (fk idx : Nat) : Nat := fk * 512 + idx
def State.laneReg (s : State) (k : Nat) : Word := s.lane.reg.get k
def State.setLaneReg (s : State) (k : Nat) (v : Word) : State :=
  { s with lane := { s.lane with reg := s.lane.reg.put k v, empty := s.lane.empty.put k false } }
def State.isEmpty (s : State) (k : Nat) : Bool := s.lane.empty.get k
def State.setEmpty (s : State) (k : Nat) (b : Bool) : State :=
  { s with lane := { s.lane with empty := s.lane.empty.put k b } }
/-- The access outstanding into a lane register, if any (R68). -/
def State.outOf (s : State) (k : Nat) : Nat := s.lane.out.get k
def State.setOut (s : State) (k a : Nat) : State :=
  { s with lane := { s.lane with out := s.lane.out.put k a } }

/-- p0 to p7 of a fibre; p0 always reads 1 (R168). -/
def State.preds (s : State) (fk : Nat) : BitVec 8 := s.lane.pred.get fk ||| 1
def State.setPreds (s : State) (fk : Nat) (v : BitVec 8) : State :=
  { s with lane := { s.lane with pred := s.lane.pred.put fk (v &&& 0xFE) } }
def State.setPred (s : State) (fk p : Nat) (b : Bool) : State :=
  let m : BitVec 8 := BitVec.ofNat 8 (2 ^ p)
  s.setPreds fk (if b then s.preds fk ||| m else s.preds fk &&& ~~~m)

/-- A happening is due at a time, on objects x, y, z and v. -/
def State.addAgenda (s : State) (due : Nat) (i : Instr) (x y z : Nat) (v : DWord) : State :=
  { s with agenda := s.agenda ++ [{ due := due, what := i, x := x, y := y, z := z, v := v }] }
/-- A happening that may come at any time from now on. -/
def State.add (s : State) (i : Instr) (x : Nat := 0) (y : Nat := 0) (z : Nat := 0) (v : DWord := 0) : State :=
  s.addAgenda s.now i x y z v
/-- A happening a number of clock periods from now. -/
def State.after (s : State) (ck : Nat) (i : Instr) (x : Nat := 0) (y : Nat := 0) (z : Nat := 0) (v : DWord := 0) : State :=
  s.addAgenda (s.now + ck) i x y z v
/-- Post a happening once: it is not added while the same one already waits. -/
def State.post (s : State) (i : Instr) (x : Nat := 0) (y : Nat := 0) : State :=
  if s.agenda.any (fun p => p.what == i && p.x == x && p.y == y) then s else s.add i x y
/-- Take out every waiting happening of a kind on given objects. -/
def State.unpost (s : State) (f : Happening → Bool) : State :=
  { s with agenda := s.agenda.filter fun h => !(f h) }

/-- A fresh free value (log entry 1). -/
def State.fresh (s : State) : DWord × State := (Config.freeWord s.free, { s with free := s.free + 1 })
/-- A fresh choice below n. -/
def State.choose (s : State) (n : Nat) : Nat × State :=
  (Config.pick s.free % (max n 1), { s with free := s.free + 1 })

def State.newId (s : State) : Nat × State :=
  (s.mm.nextId, { s with mm := { s.mm with nextId := s.mm.nextId + 1 } })

/-! ## Scratchpad (R71 to R74): a core's bytes by offset in its 4 MiB, with the context that wrote them -/

def scratchKey (core off : Nat) : Nat := core * 2 ^ 22 + off
def scratchByte (s : State) (core off : Nat) : Byte := s.core.scratch.get (scratchKey core off)
def scratchPut (s : State) (core slot off : Nat) (b : Byte) : State :=
  { s with core := { s.core with
      scratch := s.core.scratch.put (scratchKey core off) b
      scratchBy := s.core.scratchBy.put (scratchKey core off) (slot + 1) } }
def scratchBytes (s : State) (core off n : Nat) : List Byte := (List.range n).map fun i => scratchByte s core (off + i)
def scratchPuts (s : State) (core slot off : Nat) : List Byte → State
  | [] => s
  | b :: t => scratchPuts (scratchPut s core slot off b) core slot (off + 1) t

/-! ## Outstanding-operation counters (R160, R161) -/

/-- The counter of a class. -/
def counter (g : Group) (cls : Nat) : Nat := (g.outst.filter fun o => o.cls == cls).length
/-- An operation of a class begins. -/
def opStart (s : State) (gk cls op : Nat) : State :=
  s.updGroup gk fun g => { g with outst := g.outst ++ [{ cls := cls, op := op }] }
/-- The done operations of a class that have no older outstanding one are counted off. -/
def countOff (cls : Nat) : List Outst → List Outst
  | [] => []
  | o :: t => if o.cls == cls then (if o.done then countOff cls t else o :: t) else o :: countOff cls t
/-- An operation has completed: it is held as done, then counted off in order. -/
def opDone (s : State) (gk cls op : Nat) : State :=
  s.updGroup gk fun g => { g with outst := countOff cls (g.outst.map fun o =>
    if o.cls == cls && o.op == op then { o with done := true } else o) }

/-! ## The issuing entry -/

def curEk (s : State) : Nat := entKey s.cur.core s.cur.ent
def curGk (s : State) : Nat := groupKey s.cur.core (s.cur.ent / 8)
/-- The entry's index within its group. -/
def curJ (s : State) : Nat := s.cur.ent % 8
def curEntry (s : State) : Entry := s.ent (curEk s)
def curGroup (s : State) : Group := s.group (curGk s)
def curPc (s : State) : Pc := (curEntry s).pc
/-- The address of the unit after the instruction. -/
def nextPc (s : State) : Pc := curPc s + BitVec.ofNat 57 (2 * s.cur.len)
def curTeamKey (s : State) : Nat := (curGroup s).team.getD 0
def curTeam (s : State) : Team := s.team (curTeamKey s)
def curBankKey (s : State) : Nat := s.cur.core * 4 + (curTeam s).bank
def curBank (s : State) : Bank := s.bank (curBankKey s)
/-- The context slot of the bank. -/
def bankSlot (b : Bank) : Nat := b.ctxid.toNat % 64
def fibKey (gk lane : Nat) : Nat := gk * 64 + lane

def rdS (s : State) (r : Nat) : DWord := s.sregOf (curGk s) r
def wrS (s : State) (r : Nat) (v : DWord) : State := s.setSregOf (curGk s) r v

def condBit (s : State) (k : Nat) : Bool := (curGroup s).conds.getLsbD k
def setCond (s : State) (k : Nat) (b : Bool) : State :=
  let m : BitVec 8 := BitVec.ofNat 8 (2 ^ k)
  s.updGroup (curGk s) fun g => { g with conds := if b then g.conds ||| m else g.conds &&& ~~~m }

/-- FUNCj and LINKj of the issuing entry (R362). -/
def funcReg (s : State) : Nat := 48 + curJ s
def linkReg (s : State) : Nat := 40 + curJ s
def curFunc (s : State) : DWord := rdS s (funcReg s)
/-- VA of the current function's table entry, 0 for none (Table 133). -/
def funcFte (f : DWord) : Nat := bits f.toNat 56 5 * 32
def funcWb (f : DWord) : Nat := f.toNat % 4

/-- The issuing entry runs a handler (R225). -/
def inHandler (s : State) : Bool := (curGroup s).recv == some (curJ s)
/-- The issuing entry runs an emulation handler (R277). -/
def inEmul (s : State) : Bool := inHandler s && (curGroup s).depth != 0

/-- First register of the handler window at a depth, 4 at most (R225, R277, R284). -/
def handlerBase (depth : Nat) : Nat := 256 + 64 * min (depth - 1) 3
/-- The window base from which lane register numbers count. -/
def windowBase (s : State) : Nat :=
  if inHandler s then handlerBase (curGroup s).depth else 64 * funcWb (curFunc s)
/-- The window base of the level below an emulation handler (R279). -/
def belowBase (s : State) : Nat :=
  if (curGroup s).depth ≤ 1 then 64 * (curGroup s).wb.toNat else handlerBase ((curGroup s).depth - 1)

/-- What a lane register number names: a register, a value that always reads 0, or the predicate word
of the level below (Table 101). -/
inductive Loc where
  | reg (k : Nat)
  | zero
  | preds
  deriving DecidableEq, Repr, Inhabited

def aliasLoc (s : State) (lane base off : Nat) : Loc :=
  if bit (rdS s 57).toNat 7 || 63 < base + off then .zero
  else .reg (regKey (fibKey (curGk s) lane) (belowBase s + base + off))

/-- Register `r` of lane `lane` for the issuing entry: aliases in the emulated lanes of a handler alone (R277, R279). -/
def locate (s : State) (lane r : Nat) : Loc :=
  if inEmul s && (curGroup s).trmask.getLsbD lane && 48 ≤ r then
    let f := (rdS s 58).toNat
    if r < 52 then aliasLoc s lane (bits f 5 0) (r - 48)
    else if r < 56 then aliasLoc s lane (bits f 13 8) (r - 52)
    else if r < 60 then aliasLoc s lane (bits f 21 16) (r - 56)
    else if r = 60 then .preds else .zero
  else .reg (regKey (fibKey (curGk s) lane) (windowBase s + r))

def rdV (s : State) (lane r : Nat) : Word :=
  match locate s lane r with
  | .reg k => s.laneReg k
  | _ => 0
/-- Lane registers are written full (R68). Alias 60 sets p1 to p7 of the level below: the shadow at
depth 1, the predicates themselves deeper (R281). -/
def wrV (s : State) (lane r : Nat) (v : Word) : State :=
  match locate s lane r with
  | .reg k => s.setLaneReg k v
  | .zero => s
  | .preds =>
    let fk := fibKey (curGk s) lane
    if (curGroup s).depth = 1 then
      { s with lane := { s.lane with predSh := s.lane.predSh.put fk (BitVec.ofNat 8 v.toNat &&& 0xFE) } }
    else s.setPreds fk (BitVec.ofNat 8 v.toNat)

/-- The lanes held by the entry whose fibres are live (R336, R354). -/
def heldLanes (s : State) : DWord := (curEntry s).lanes &&& (curGroup s).live
/-- In an emulation handler only the emulated lanes act (R277). -/
def actLanes (s : State) : DWord :=
  if inEmul s then heldLanes s &&& (curGroup s).trmask else heldLanes s
/-- Active(l) for a guard predicate (R241). -/
def activeLanes (s : State) (p : Nat) : List Nat :=
  (maskList (actLanes s)).filter fun l => (s.preds (fibKey (curGk s) l)).getLsbD p

/-! ## Event counters (R416, R445) -/

/-- The session that runs on a core's die. -/
def sessionOf (s : State) (core : Nat) : Session := s.task.sessions.get (dieOf core)

/-- Whether an event of a job counts on counter k (R416, R445). -/
def pmCounts (s : State) (core slot : Nat) (job : Option Nat) (fte : Bool) (k : Nat) : Bool :=
  if (sessionOf s core).live then
    fte && (match job with
      | some j => (s.task.jobs.get j).replay && (s.task.grids.get (s.task.jobs.get j).grid).replay == some (dieOf core)
      | none => false)
  else
    let c := (s.cregs core).pmctl.toNat
    bit c k && (!(bit c 4) || bits c 13 8 == slot)

/-- Count n occurrences of an event code on a core. -/
def pmCount (s : State) (core slot : Nat) (job : Option Nat) (fte : Bool) (code n : Nat) : State :=
  (List.range 4).foldl (fun t k =>
    if bits (t.cregs core).pmsel.toNat (16 * k + 15) (16 * k) == code && pmCounts t core slot job fte k then
      t.updCregs core fun r => { r with pmcnt := r.pmcnt.upd k fun v => (v + n) % 2 ^ 64 }
    else t) s

/-- Count an event of the issuing instruction. -/
def pmCur (s : State) (code n : Nat) : State :=
  pmCount s s.cur.core (bankSlot (curBank s)) (curTeam s).job (funcFte (curFunc s) != 0) code n

end Sys2Proof.Machine
end

