-- ==== Sys2Proof/Machine/Cipher.lean ====
section
/-! DEFINITION. The cryptography that the manual names by its standards: AES with a 256-bit key (FIPS 197), the XTS mode of R35
(IEEE 1619), the key unwrap of R36 (RFC 3394), and the SHA-384 and HKDF of R456 (FIPS 180-4, RFC 5869). Bytes stand in the
order in which the standards write them. -/
namespace Sys2Proof.Machine

/-- n bytes of a number, the most significant first, and back. -/
def beBytes (n v : Nat) : List Byte := (leBytes n v).reverse
def beNat (l : List Byte) : Nat := leNat l.reverse

/-! ## The field of 256 elements -/

/-- Multiplication by x modulo x^8 + x^4 + x^3 + x + 1. -/
def gfDouble (b : Byte) : Byte := if b.getLsbD 7 then (b <<< 1) ^^^ 0x1B else b <<< 1

def gfMulFrom : Nat → Byte → Byte → Byte
  | 0, _, _ => 0
  | n + 1, a, b => (if b.getLsbD 0 then a else 0) ^^^ gfMulFrom n (gfDouble a) (b >>> 1)
def gfMul (a b : Byte) : Byte := gfMulFrom 8 a b

/-- The inverse, b^254, and 0 for 0. -/
def gfInv (b : Byte) : Byte :=
  let b2 := gfMul b b
  let b4 := gfMul b2 b2
  let b8 := gfMul b4 b4
  let b16 := gfMul b8 b8
  let b32 := gfMul b16 b16
  let b64 := gfMul b32 b32
  gfMul (gfMul (gfMul b2 b4) (gfMul b8 b16)) (gfMul (gfMul b32 b64) (gfMul b64 b64))

/-- The substitution box: the inverse under the affine map, and the way back. -/
def subByte (b : Byte) : Byte :=
  let v := gfInv b
  v ^^^ v.rotateLeft 1 ^^^ v.rotateLeft 2 ^^^ v.rotateLeft 3 ^^^ v.rotateLeft 4 ^^^ 0x63
def unsubByte (b : Byte) : Byte := gfInv (b.rotateLeft 1 ^^^ b.rotateLeft 3 ^^^ b.rotateLeft 6 ^^^ 0x05)

/-! ## AES-256 -/

def xorBytes (a b : List Byte) : List Byte := List.zipWith (fun x y => x ^^^ y) a b

/-- Eight words of round keys after eight others; `rcon` is the round constant. -/
def nextKeys (rcon : Byte) (k : List (List Byte)) : List (List Byte) :=
  let w (i : Nat) : List Byte := k.getD i []
  let last := (w 7).map subByte
  let t := xorBytes (last.drop 1 ++ last.take 1) [rcon, 0, 0, 0]
  let a0 := xorBytes (w 0) t
  let a1 := xorBytes (w 1) a0
  let a2 := xorBytes (w 2) a1
  let a3 := xorBytes (w 3) a2
  let a4 := xorBytes (w 4) (a3.map subByte)
  let a5 := xorBytes (w 5) a4
  let a6 := xorBytes (w 6) a5
  [a0, a1, a2, a3, a4, a5, a6, xorBytes (w 7) a6]

def keyWords : Nat → Byte → List (List Byte) → List (List Byte)
  | 0, _, _ => []
  | n + 1, rcon, k => k ++ keyWords n (gfDouble rcon) (nextKeys rcon k)

/-- Round key r of a 32-byte key, 16 bytes. -/
def roundKeys (key : List Byte) : List (List Byte) :=
  let w := keyWords 8 1 ((List.range 8).map fun i => (key.drop (4 * i)).take 4)
  (List.range 15).map fun r => ((w.drop (4 * r)).take 4).flatten

/-- Byte 4c + r of the state moves from column c + r, or to it. -/
def shiftRows (l : List Byte) : List Byte := (List.range 16).map fun i => l.getD ((i + 4 * (i % 4)) % 16) 0
def unshiftRows (l : List Byte) : List Byte := (List.range 16).map fun i => l.getD ((i + 12 * (i % 4)) % 16) 0

/-- Each column times the circulant matrix of m. -/
def mixBy (m : List Byte) (l : List Byte) : List Byte :=
  (List.range 16).map fun i =>
    (List.range 4).foldl (fun a j => a ^^^ gfMul (m.getD ((j + 4 - i % 4) % 4) 0) (l.getD (i / 4 * 4 + j) 0)) 0

/-- The rounds after the first key, over the round keys left. -/
def aesRounds : List (List Byte) → List Byte → List Byte
  | [], s => s
  | [k], s => xorBytes (shiftRows (s.map subByte)) k
  | k :: t, s => aesRounds t (xorBytes (mixBy [2, 3, 1, 1] (shiftRows (s.map subByte))) k)

def aesEncrypt (key block : List Byte) : List Byte :=
  match roundKeys key with
  | [] => block
  | k :: t => aesRounds t (xorBytes block k)

/-- The inverse rounds, over the round keys from the last. -/
def aesUnrounds : List (List Byte) → List Byte → List Byte
  | [], s => s
  | [k], s => xorBytes ((unshiftRows s).map unsubByte) k
  | k :: t, s => aesUnrounds t (mixBy [14, 11, 13, 9] (xorBytes ((unshiftRows s).map unsubByte) k))

def aesDecrypt (key block : List Byte) : List Byte :=
  match (roundKeys key).reverse with
  | [] => block
  | k :: t => aesUnrounds t (xorBytes block k)

/-! ## XTS over one 256-byte granule (R35) -/

/-- The tweak of the next 16-byte block: times x, over a little-endian number of 128 bits. -/
def tweakDouble (t : Nat) : Nat := if t < 2 ^ 127 then 2 * t else (2 * t - 2 ^ 128) ^^^ 0x87
def tweakAt : Nat → Nat → Nat
  | 0, t => t
  | n + 1, t => tweakAt n (tweakDouble t)

/-- A slot's data key and tweak key (R36: the data key comes first). -/
def dataKey (keys : BitVec 512) : List Byte := beBytes 32 (keys.toNat / 2 ^ 256)
def tweakKey (keys : BitVec 512) : List Byte := beBytes 32 (keys.toNat % 2 ^ 256)

/-- The tweak of block b of a granule, whose number is PA[43:8]. -/
def xtsTweak (keys : BitVec 512) (gran b : Nat) : List Byte :=
  leBytes 16 (tweakAt b (leNat (aesEncrypt (tweakKey keys) (leBytes 16 gran))))

def xtsEncrypt (keys : BitVec 512) (gran b : Nat) (block : List Byte) : List Byte :=
  let t := xtsTweak keys gran b
  xorBytes (aesEncrypt (dataKey keys) (xorBytes block t)) t
def xtsDecrypt (keys : BitVec 512) (gran b : Nat) (block : List Byte) : List Byte :=
  let t := xtsTweak keys gran b
  xorBytes (aesDecrypt (dataKey keys) (xorBytes block t)) t

/-! ## Key unwrap (R36) -/

/-- One inverse step of RFC 3394: the integrity register, the eight registers, and the step's number t. -/
def unwrapStep (kek : List Byte) (a : List Byte) (r : List (List Byte)) (t : Nat) : List Byte × List (List Byte) :=
  let i := (t - 1) % 8
  let b := aesDecrypt kek (xorBytes a (beBytes 8 t) ++ r.getD i [])
  (b.take 8, r.set i (b.drop 8))

def unwrapFrom (kek : List Byte) : Nat → List Byte → List (List Byte) → List Byte × List (List Byte)
  | 0, a, r => (a, r)
  | t + 1, a, r =>
    let (a1, r1) := unwrapStep kek a r (t + 1)
    unwrapFrom kek t a1 r1

/-- The two keys of a 72-byte wrapped record, or none when the integrity check fails. -/
def unwrapKeys (kek rcd : List Byte) : Option (BitVec 512) :=
  let (a, r) := unwrapFrom kek 48 (rcd.take 8) ((List.range 8).map fun i => (rcd.drop (8 + 8 * i)).take 8)
  if a = List.replicate 8 0xA6 then some (BitVec.ofNat 512 (beNat r.flatten)) else none

/-! ## SHA-384 -/

/-- The greatest x with x^k at most v, its bits found from bit n − 1 down, above the bits of `x`. -/
def rootFrom (k v : Nat) : Nat → Nat → Nat
  | 0, x => x
  | n + 1, x => rootFrom k v n (if (x + 2 ^ n) ^ k ≤ v then x + 2 ^ n else x)

def isPrime (n : Nat) : Bool := decide (2 ≤ n) && (List.range n).all fun d => decide (d < 2) || n % d != 0
/-- The first 80 primes. -/
def shaPrimes : List Nat := (List.range 410).filter isPrime

/-- 64 bits of the fractional part of a prime's cube root, and of its square root. -/
def shaK (p : Nat) : DWord := BitVec.ofNat 64 (rootFrom 3 (p * 2 ^ 192) 68 0)
def shaH (p : Nat) : DWord := BitVec.ofNat 64 (rootFrom 2 (p * 2 ^ 128) 70 0)

/-- The message schedule, newest word first, from the sixteen words of a block. -/
def shaSchedule : Nat → List DWord → List DWord
  | 0, w => w
  | n + 1, w =>
    let a := w.getD 14 0
    let b := w.getD 1 0
    let s0 := a.rotateRight 1 ^^^ a.rotateRight 8 ^^^ (a >>> 7)
    let s1 := b.rotateRight 19 ^^^ b.rotateRight 61 ^^^ (b >>> 6)
    shaSchedule n ((s1 + w.getD 6 0 + s0 + w.getD 15 0) :: w)

/-- One round on the working variables a to h. -/
def shaRound (v : List DWord) (kw : DWord) : List DWord :=
  let x (i : Nat) : DWord := v.getD i 0
  let e := x 4
  let a := x 0
  let t1 := x 7 + (e.rotateRight 14 ^^^ e.rotateRight 18 ^^^ e.rotateRight 41) + ((e &&& x 5) ^^^ (~~~e &&& x 6)) + kw
  let t2 := (a.rotateRight 28 ^^^ a.rotateRight 34 ^^^ a.rotateRight 39) + ((a &&& x 1) ^^^ (a &&& x 2) ^^^ (x 1 &&& x 2))
  [t1 + t2, a, x 1, x 2, x 3 + t1, e, x 5, x 6]

/-- One 128-byte block. -/
def shaBlock (h : List DWord) (block : List Byte) : List DWord :=
  let w := (List.range 16).map fun i => BitVec.ofNat 64 (beNat ((block.drop (8 * i)).take 8))
  let sched := (shaSchedule 64 w.reverse).reverse
  let kws := List.zipWith (fun p w => shaK p + w) shaPrimes sched
  List.zipWith (fun a b => a + b) h (kws.foldl shaRound h)

/-- A message with its padding and length, in blocks of 128 bytes. -/
def shaPad (m : List Byte) : List Byte :=
  m ++ 0x80 :: List.replicate ((239 - m.length % 128) % 128) 0 ++ beBytes 16 (8 * m.length)

def sha384 (m : List Byte) : List Byte :=
  let l := shaPad m
  let h0 := (shaPrimes.drop 8).take 8
  let h := (List.range (l.length / 128)).foldl (fun h i => shaBlock h ((l.drop (128 * i)).take 128)) (h0.map shaH)
  (h.flatMap fun w => beBytes 8 w.toNat).take 48

/-- HMAC-SHA-384 under a key of at most 128 bytes. -/
def hmac384 (key m : List Byte) : List Byte :=
  let k := key ++ List.replicate (128 - key.length) 0
  sha384 (k.map (· ^^^ 0x5C) ++ sha384 (k.map (· ^^^ 0x36) ++ m))

/-- The first n bytes, 48 at most, that HKDF derives from a secret with an information string, and without a salt (log
entry 87). -/
def hkdf384 (secret info : List Byte) (n : Nat) : List Byte :=
  (hmac384 (hmac384 (List.replicate 48 0) secret) (info ++ [1])).take n

/-- The key-encryption key (R36, R456), with info "KEK". -/
def keyEncryptionKey : List Byte := hkdf384 (beBytes 48 Config.bootSecret.toNat) [0x4B, 0x45, 0x4B] 32

/-- The secret from which the device identity key pair is made (R456), with info "ID". -/
def identityKey : List Byte := hkdf384 (beBytes 48 Config.bootSecret.toNat) [0x49, 0x44] 48

end Sys2Proof.Machine
end

