-- ==== Sys2Proof/Machine/MemSys.lean ====
section
/-! DEFINITION. The memory side: the physical map, encryption, page walks and the translation cache,
SC lines, versions, and the work a slice does on a request (R29 to R47, R77 to R92, R136 to R139). -/
namespace Sys2Proof.Machine

/-! ## Homes and the physical map -/

def homeDie (ia : Nat) : Nat := bits ia 51 50
/-- The slice of an intermediate or HBM4E address within its die (R29). -/
def sliceOf (a : Nat) : Nat := (bits a 13 8) ^^^ (bits a 15 14 * 16)

/-- Whether a die has a channel, and so its slice (R458): the record lists a die's channels where some lack. -/
def chanPresent (s : State) (d ch : Nat) : Bool :=
  (match s.cfg.chans with
    | [] => true
    | l => (l.getD d []).contains ch) && !((s.die d).offlineChans.contains ch)
def lacksChannel (s : State) (d : Nat) : Bool :=
  !(s.cfg.chans.isEmpty && (s.die d).offlineChans.isEmpty) && (List.range 64).any fun ch => !(chanPresent s d ch)
/-- The slice that serves an address: of a pair, the one that is present (R458). -/
def sliceAt (s : State) (d a : Nat) : Nat :=
  let sl := sliceOf a
  if chanPresent s d sl then sl else sl ^^^ 32

/-- A request to a channel that is being retrained is held there (R461). -/
def chanHeld (s : State) (d a : Nat) : Bool := s.dev.retraining.contains (d * 64 + sliceAt s d a)

/-- What a physical address names (Table 11). -/
inductive Region where
  | hbm (die : Nat) | direct (die : Nat) | device | bad
  deriving DecidableEq, Repr, Inhabited

def carveSize (s : State) (d : Nat) : Nat := (s.die d).sccarve.toNat % 16

def regionOf (s : State) (pa : Nat) : Region :=
  if pa < 2 ^ 39 then (if bit pa 36 && lacksChannel s (bits pa 38 37) then .bad else .hbm (bits pa 38 37))
  else if 0x10000000000 ≤ pa && pa < 0x10100000000 then
    let d := bits pa 31 30
    if pa % 2 ^ 30 < carveSize s d * 2 ^ 26 then .direct d else .bad
  else if 0x20000000000 ≤ pa && pa < 0x20100000000 then .device
  else .bad

/-! ## Bytes of memory -/

/-- The keys under which a page's data lies; 0 where no key slot applies (R40). -/
def slotKeys (s : State) (k : Option Nat) : BitVec 512 :=
  match k with
  | none => 0
  | some i => (s.mm.keys.get i).keys

/-- Bytes of direct storage are never encrypted (R79). -/
def encrypted (pa : Nat) : Bool := pa < 2 ^ 39

/-- A byte of a frame as the given keys decrypt it (R35, R38). The memory lists what was written before encryption, with the
keys it was written under: under others, what its 16-byte block decrypts to. Bytes that were written under no key slot, as the
device's tables are and all of memory is while translation is off (R40), lie unencrypted, and are read as they lie under any
slot's keys (the model's choice, log entry 105). -/
def physByte (s : State) (keys : BitVec 512) (pa : Nat) : Byte :=
  let g := s.mm.granKey.get (pa / 256)
  if !(encrypted pa) || g = keys || g = 0 then Sparse.get s.mm.mem pa
  else
    let b := pa % 256 / 16
    let block := (List.range 16).map fun i => Sparse.get s.mm.mem (pa / 16 * 16 + i)
    (xtsDecrypt keys (pa / 256) b (xtsEncrypt g (pa / 256) b block)).getD (pa % 16) 0

def setByte (s : State) (pa : Nat) (b : Byte) : State :=
  { s with mm := { s.mm with mem := Sparse.put s.mm.mem pa b } }

/-- Write bytes of one granule, each at its offset, under the given keys. Where the granule was written
under other keys, its other bytes are what those keys now decrypt to. -/
def physWrite (s : State) (keys : BitVec 512) (gran : Nat) (l : List (Nat × Byte)) : State :=
  let g := s.mm.granKey.get gran
  let s1 := if encrypted (gran * 256) && g != keys && g != 0 then
      (List.range 256).foldl (fun t i => setByte t (gran * 256 + i) (physByte s keys (gran * 256 + i))) s
    else s
  let s2 := l.foldl (fun t p => setByte t (gran * 256 + p.1) p.2) s1
  if encrypted (gran * 256) then
    { s2 with mm := { s2.mm with granKey := s2.mm.granKey.put gran keys } }
  else s2

def setPoison (s : State) (gran : Nat) (b : Bool) : State :=
  { s with mm := { s.mm with poison := s.mm.poison.put gran b } }

/-! ## SC lines (R77) -/

def scKey (d line : Nat) : Nat := d * 2 ^ 44 + line
def State.scLine (s : State) (k : Nat) : ScLine := s.mm.sc.get k
def State.setScLine (s : State) (k : Nat) (l : ScLine) : State :=
  { s with mm := { s.mm with sc := s.mm.sc.put k l } }

/-- Drop a line without writing it back. -/
def scDrop (s : State) (k : Nat) : State := s.setScLine k default

/-- The dirty bytes of an overlay with their offsets. -/
def overlayBytes (m : Sparse (Option Byte)) : List (Nat × Byte) :=
  m.filterMap fun p => p.2.map fun b => (p.1, b)

/-- Write a line's dirty bytes back; its poison goes with them (R77, R231). -/
def scWriteBack (s : State) (k : Nat) : State :=
  let l := s.scLine k
  if l.dirty.isEmpty && !l.poison then s
  else
    let s1 := physWrite s (slotKeys s l.key) l.pa (overlayBytes l.dirty)
    let s2 := if l.poison then setPoison s1 l.pa true else s1
    s2.setScLine k { l with dirty := [], poison := false }

def scEvict (s : State) (k : Nat) : State := scDrop (scWriteBack s k) k

/-- The set of a line: its slice and IA[25:14]. -/
def lineSet (s : State) (d line : Nat) : Nat := sliceAt s d (line * 256) * 4096 + bits (line * 256) 25 14
def verKey (job line : Nat) : Nat := job * 2 ^ 44 + line
def linesOfSet (s : State) (d line : Nat) : Sparse ScLine :=
  s.mm.sc.filter fun p => p.1 / 2 ^ 44 == d && lineSet s d (p.1 % 2 ^ 44) == lineSet s d line && p.2.held
/-- Version lines of the set that hold a way. They lie at the home slice, so the die is the home die. -/
def versOfSet (s : State) (d line : Nat) : Sparse VerLine :=
  s.mm.vers.filter fun p =>
    let ln := p.1 % 2 ^ 44
    homeDie (ln * 256) == d && lineSet s d ln == lineSet s d line && p.2.held && !p.2.spilled

def ways (s : State) (d : Nat) : Nat := 16 - carveSize s d

/-- The least recently used of some lines. -/
def oldest {α : Type} (used : α → Nat) : List (Nat × α) → Option Nat
  | [] => none
  | (k, v) :: t =>
    match oldest used t with
    | none => some k
    | some k' =>
      match t.find? (fun p => p.1 == k') with
      | some (_, v') => if used v ≤ used v' then some k else some k'
      | none => some k

def spillUsed (s : State) (d : Nat) : Nat :=
  (s.mm.vers.filter fun p => homeDie (p.1 % 2 ^ 44 * 256) == d && p.2.spilled).length
def spillRoom (s : State) (d : Nat) : Bool :=
  decide ((spillUsed s d + 1) * 256 ≤ s.cfg.vspSize.getD d 0)

def setVer (s : State) (k : Nat) (v : VerLine) : State :=
  { s with mm := { s.mm with vers := s.mm.vers.put k v } }

/-- A way of the set is free, or one can be freed: a line that is not locked leaves, or a version line is spilled
while the spill area has room (R77, R90). -/
def wayRoom (s : State) (d line : Nat) : Bool :=
  let ls := linesOfSet s d line
  let vs := versOfSet s d line
  decide (ls.length + vs.length < ways s d) || ls.any (fun p => p.2.lock.isNone) || (!vs.isEmpty && spillRoom s d)

/-- Free one way of a set for a line: the least recently used line that is not locked, or else a version
line is spilled (R77, R90). -/
def makeWay (s : State) (d line : Nat) : State :=
  let ls := linesOfSet s d line
  let vs := versOfSet s d line
  if ls.length + vs.length < ways s d then s
  else match oldest ScLine.used (ls.filter fun p => p.2.lock.isNone) with
    | some k => scEvict s k
    | none =>
      match oldest VerLine.used vs with
      | some k => setVer s k { s.mm.vers.get k with spilled := true }
      | none => s

def dieVc (s : State) (d : Nat) : List Nat := (s.die d).vc

/-- Bring a line into the SC (R77, R136): true when it was absent. Where its set has no way to give, the line is served
from the frame and none holds it. -/
def scTouch (s : State) (d line gran : Nat) (key : Option Nat) : State × Bool :=
  let k := scKey d line
  let l := s.scLine k
  if l.held then (s.setScLine k { l with used := s.tick, pa := gran, key := key }, false)
  else if !(wayRoom s d line) then (s, true)
  else
    let s1 := makeWay s d line
    (s1.setScLine k { held := true, pa := gran, key := key, clock := dieVc s d, used := s.tick }, true)

/-- A byte as the serving die's SC holds it: not yet written back, or as the frame holds it. -/
def scByte (s : State) (d line gran : Nat) (key : Option Nat) (off : Nat) : Byte :=
  match (s.scLine (scKey d line)).dirty.get off with
  | some b => b
  | none => physByte s (slotKeys s key) (gran * 256 + off)

/-- A read by physical address, as page walks make it: through any SC line that holds the granule, and
under no key check (R47). -/
def walkByte (s : State) (pa : Nat) : Byte :=
  let hit := s.mm.sc.find? fun p => p.2.held && p.2.pa == pa / 256 && (p.2.dirty.get (pa % 256)).isSome
  match hit with
  | some (_, l) => (l.dirty.get (pa % 256)).getD 0
  | none => Sparse.get s.mm.mem pa

def walkWord (s : State) (pa : Nat) : DWord :=
  BitVec.ofNat 64 (leNat ((List.range 8).map fun i => walkByte s (pa + i)))

/-- The device's own write into a page-table entry (R43, R58). -/
def walkPut (s : State) (pa : Nat) (v : DWord) : State :=
  (List.range 8).foldl (fun t i =>
    let a := pa + i
    let b := BitVec.ofNat 8 (v.toNat / 256 ^ i)
    match t.mm.sc.find? fun p => p.2.held && p.2.pa == a / 256 with
    | some (k, l) => t.setScLine k { l with dirty := l.dirty.put (a % 256) (some b) }
    | none => setByte t a b) s

/-! ## The page walk (R39 to R47) -/

inductive Walk where
  | unmapped
  | format
  | machine
  | leaf (level epa : Nat) (w0 w1 : DWord)
  deriving DecidableEq, Repr, Inhabited

def ptEn (s : State) (d : Nat) : Bool := (s.die d).ptroot.getLsbD 0
def ptRootPa (s : State) (d : Nat) : Nat := bits (s.die d).ptroot.toNat 43 14 * 2 ^ 14

/-- log2 of the page size coded by SZ (Table 18). -/
def pageLog (sz : Nat) : Nat := if sz = 0 then 16 else if sz = 1 then 21 else if sz = 2 then 30 else 33
/-- Levels: lowest index bit, index bits, and the SZ of a leaf there (4: none). Table 16. -/
def ptLevels : List (Nat × Nat × Nat) := [(42, 10, 4), (33, 9, 3), (30, 3, 2), (21, 9, 1), (16, 5, 0)]

def pteV (w0 : DWord) : Bool := w0.getLsbD 0
def pteP (w0 : DWord) : Bool := w0.getLsbD 1
def pteSz (w0 : DWord) : Nat := bits w0.toNat 4 3
def pteM (w0 : DWord) : Bool := w0.getLsbD 5
def pteG (w0 : DWord) : Bool := w0.getLsbD 6
def pteKey (w0 : DWord) : Nat := bits w0.toNat 15 8
def pteDup (w0 : DWord) : Nat := bits w0.toNat 17 16
def pteDmask (w0 : DWord) : Nat := bits w0.toNat 21 18
def pteFrame (w0 : DWord) : Nat := bits w0.toNat 51 24
def pteRidx (w1 : DWord) : Nat := bits w1.toNat 19 0

/-- A format error in a valid leaf (R41, R47). FRAME is checked whatever P is, where R60 calls the FRAME of an evicted page ignored
(the model's choice, log entry 89). -/
def leafBad (s : State) (d ia szLevel : Nat) (w0 w1 : DWord) : Bool :=
  let v := w0.toNat
  bits v 63 52 != 0 || bits v 23 22 != 0 || bit v 7 || pteSz w0 != szLevel
  || pteFrame w0 % 2 ^ (pageLog (pteSz w0) - 16) != 0
  || (pteDup w0 != 1 && pteDmask w0 != 0)
  || (pteDup w0 == 1 && bit (pteDmask w0) (homeDie ia))
  || (pteG w0 && decide (s.cfg.regenLen.getD d 0 ≤ pteRidx w1))

def walkFrom (s : State) (d ia : Nat) : List (Nat × Nat × Nat) → Nat → Walk
  | [], _ => .format
  | (lo, n, sz) :: rest, table =>
    let e := table + (ia / 2 ^ lo % 2 ^ n) * 16
    match regionOf s e with
    | .bad => .machine
    | .device => .machine
    | _ =>
      let w0 := walkWord s e
      let w1 := walkWord s (e + 8)
      if !(pteV w0) then .unmapped
      else if w0.getLsbD 2 then
        if sz = 4 || leafBad s d ia sz w0 w1 then .format else .leaf (4 - rest.length) e w0 w1
      else
        let v := w0.toNat
        if rest.isEmpty || bits v 63 44 != 0 || bits v 6 1 != 0 || w1 != 0 then .format
        else walkFrom s d ia rest (bits v 43 7 * 128)

def walk (s : State) (d ia : Nat) : Walk := walkFrom s d ia ptLevels (ptRootPa s d)

/-! ## The translation cache (R43 to R46) -/

/-- A slice's entry for the page of a size that holds an address: 1,024 entries of any page size (R46). -/
def tlbKey (s : State) (d ia sz : Nat) : Nat := (d * 64 + sliceAt s d ia) * 2 ^ 38 + ia / 2 ^ pageLog sz * 2 ^ pageLog sz / 65536 * 4 + sz
def setTlb (s : State) (k : Nat) (t : Tlb) : State :=
  { s with mm := { s.mm with tlb := s.mm.tlb.put k t } }
/-- The entry that holds an address's translation at its slice of a die. -/
def tlbFind (s : State) (d ia : Nat) : Option Nat :=
  ((List.range 4).map (tlbKey s d ia)).find? fun k => (s.mm.tlb.get k).held

/-- Add counted misses to ACNT in memory, saturating (R43). -/
def acntWriteBack (s : State) (k : Nat) : State :=
  let t := s.mm.tlb.get k
  if t.misses = 0 || !t.held then s
  else
    let w1 := walkWord s (t.at_ + 8)
    let n := min 0xFFF (bits w1.toNat 31 20 + t.misses)
    let v := w1.toNat - bits w1.toNat 31 20 * 2 ^ 20 + n * 2 ^ 20
    setTlb (walkPut s (t.at_ + 8) (BitVec.ofNat 64 v)) k { t with misses := 0 }

def tlbDrop (s : State) (k : Nat) : State := setTlb (acntWriteBack s k) k default

/-- Whether the slice still holds a cached entry: its organisation is the implementation's (log entry 1). -/
def tlbHit (s : State) (k : Nat) : Bool := (s.mm.tlb.get k).held && !(Config.evicted s.free)

/-- A walk's leaf enters the slice's translation cache; with all 1,024 entries held, one of them leaves, and which is
open (log entry 1). -/
def tlbFill (s : State) (d ia level epa : Nat) (w0 w1 : DWord) : State :=
  let mine := (s.mm.tlb.filter fun p => p.1 / 2 ^ 38 == d * 64 + sliceAt s d ia && p.2.held).map (·.1)
  let s1 := if mine.length < 1024 then s
    else
      let (i, s1) := s.choose mine.length
      tlbDrop s1 (mine.getD i 0)
  setTlb s1 (tlbKey s1 d ia (pteSz w0)) ⟨true, level, w0, w1, epa, 0⟩

/-- Walk for an address, and keep the leaf. -/
def walkFill (s : State) (d ia : Nat) : Walk × State :=
  match walk s d ia with
  | .leaf l e w0 w1 => (.leaf l e w0 w1, tlbFill s d ia l e w0 w1)
  | w => (w, s)

/-- Look an address up in die d's table at the slice that the address names (R46). -/
def lookup (s : State) (d ia : Nat) : Walk × State :=
  match tlbFind s d ia with
  | some k =>
    let t := s.mm.tlb.get k
    let s' := { s with free := s.free + 1 }
    if tlbHit s k then (.leaf t.level t.at_ t.w0 t.w1, s') else walkFill (tlbDrop s' k) d ia
  | none => walkFill s d ia

/-- Drop every cached translation of a die that overlaps a range (R45). -/
def tlbInvalidate (s : State) (d lo len : Nat) : State :=
  let ks := s.mm.tlb.filter fun p =>
    let base := p.1 % 2 ^ 38 / 4 * 65536
    p.1 / 2 ^ 38 / 64 == d && decide (base < lo + len) && decide (lo < base + 2 ^ pageLog (p.1 % 4))
  ks.foldl (fun t p => tlbDrop t p.1) s

/-! ## Translating a request (R34, R40, R46) -/

/-- What a request asks of a page. -/
inductive Need where
  | read | write | atomic
  deriving DecidableEq, Repr, Inhabited

inductive Xl where
  /-- Served by die `d` from physical address `pa` under a key slot. -/
  | serve (d pa : Nat) (key : Option Nat)
  | forward
  | fault (cause : Nat)
  | notResident (page sz : Nat) (g : Bool) (ridx : Nat)
  | heldM
  /-- A write to a HOME page, past its key check (R58). -/
  | collapse (epa dmask page key : Nat)
  deriving DecidableEq, Repr, Inhabited

def keyCheck (s : State) (k keyslot : Nat) (priv : Bool) : Option Nat :=
  match (s.mm.keys.get k).st with
  | .empty => some 0x382
  | .retiring => some 0x382
  | .priv => if k != keyslot && !priv then some 0x383 else none
  | .shared => none

def pagePa (w0 : DWord) (ia : Nat) : Nat := pteFrame w0 * 65536 + ia % 2 ^ pageLog (pteSz w0)
def pageBase (w0 : DWord) (ia : Nat) : Nat := ia / 2 ^ pageLog (pteSz w0) * 2 ^ pageLog (pteSz w0)

/-- A physical address is served unless it is reserved or unbacked (R31). -/
def servePa (s : State) (d pa : Nat) (key : Option Nat) : Xl :=
  match regionOf s pa with
  | .bad => .fault 0x344
  | _ => .serve d pa key

/-- What the leaf that die d holds makes of a request: the die's own copy serves a read; before it forwards a write (R58) it
gives up that copy, at every slice. -/
def nearLeaf (s : State) (d ia : Nat) (need : Need) (keyslot : Nat) (priv : Bool) (epa : Nat) (w0 : DWord) : Xl × State :=
  if need == .read && pteP w0 && (pteDup w0 == 2 || pteDup w0 == 3) then
    match keyCheck s (pteKey w0) keyslot priv with
    | some c => (.fault c, s)
    | none => (servePa s d (pagePa w0 ia) (some (pteKey w0)), s)
  else if need != .read && pteDup w0 == 2 && d != homeDie ia then
    (.forward, walkPut (tlbInvalidate s d (pageBase w0 ia) (2 ^ pageLog (pteSz w0))) epa (w0 &&& ~~~1))
  else (.forward, s)

/-- The near-slice branch of R46, on die d for an address homed on die h ≠ d or on d. -/
def nearXl (s : State) (d ia : Nat) (need : Need) (keyslot : Nat) (priv : Bool) : Xl × State :=
  if !(ptEn s d) then (if priv then (.forward, s) else (.fault 0x113, s))
  else match lookup s d ia with
    | (.format, s') => (.fault 0x112, s')
    | (.machine, s') => (.fault 0x344, s')
    | (.unmapped, s') => (.forward, s')
    | (.leaf _ epa w0 _, s') => nearLeaf s' d ia need keyslot priv epa w0

/-- The home branch of R46. -/
def homeXl (s : State) (ia : Nat) (need : Need) (keyslot : Nat) (priv : Bool) : Xl × State :=
  let h := homeDie ia
  if !(ptEn s h) then
    if !priv || ia ≥ 2 ^ 44 then (.fault 0x113, s) else (servePa s h ia none, s)
  else match lookup s h ia with
    | (.unmapped, s') => (.fault 0x113, s')
    | (.format, s') => (.fault 0x112, s')
    | (.machine, s') => (.fault 0x344, s')
    | (.leaf _ epa w0 w1, s') =>
      let wr := need != .read
      if wr && pteDup w0 == 3 then (.fault 0x111, s')
      else match keyCheck s' (pteKey w0) keyslot priv with
        | some c => (.fault c, s')
        | none =>
          if pteM w0 && wr then (.heldM, s')
          else if pteDup w0 == 1 && wr then (.collapse epa (pteDmask w0) (pageBase w0 ia) (pteKey w0), s')
          else if !(pteP w0) then (.notResident (pageBase w0 ia) (pteSz w0) (pteG w0) (pteRidx w1), s')
          else (servePa s' h (pagePa w0 ia) (some (pteKey w0)), s')

/-- A miss served from the frame counts in ACNT of the home entry (R43). -/
def countMiss (s : State) (d ia : Nat) (miss : Bool) : State :=
  if miss && d == homeDie ia && ptEn s d then
    match tlbFind s d ia with
    | some k => setTlb s k { s.mm.tlb.get k with misses := (s.mm.tlb.get k).misses + 1 }
    | none => s
  else s

/-! ## Serving bytes -/

/-- Whether a granule served from die d is poisoned, and by which cause (R231). -/
def poisonCause (s : State) (d line gran : Nat) (job : Option Nat) : Option Nat :=
  let l := s.scLine (scKey d line)
  let v := match job with
    | some j => (s.mm.vers.get (verKey j line)).poison
    | none => false
  if (l.held && l.poison) || v then some 0x342
  else if s.mm.poison.get gran then (if gran < 2 ^ 31 then some 0x341 else some 0x342)
  else none

/-- A byte as an agent of a job sees it: its own version first (R88). -/
def seenByte (s : State) (d line gran : Nat) (key job : Option Nat) (off : Nat) : Byte :=
  let v := match job with
    | some j => (s.mm.vers.get (verKey j line)).bytes.get off
    | none => none
  match v with
  | some b => b
  | none => scByte s d line gran key off

/-- Read bytes of one granule at the slice that serves them. -/
def serveRead (s : State) (d ia pa : Nat) (key job : Option Nat) (n : Nat) : List Byte × State :=
  let line := ia / 256
  let (s1, miss) := scTouch s d line (pa / 256) key
  let s2 := countMiss s1 d ia miss
  ((List.range n).map fun i => seenByte s2 d line (pa / 256) key job (ia % 256 + i), s2)

def putDirty (m : Sparse (Option Byte)) (off : Nat) (l : List Byte) : Sparse (Option Byte) :=
  match l with
  | [] => m
  | b :: t => putDirty (m.put off (some b)) (off + 1) t

/-- Bytes of a line with their offsets become its contents at the slice that holds it: dirty, or in the frame where no way
holds the line. `bad` poisons it; bytes for the whole granule clear what poisoned it before (R231). -/
def scStore (s : State) (d line gran : Nat) (key : Option Nat) (bs : List (Nat × Byte)) (bad : Bool) : State :=
  let k := scKey d line
  let l := s.scLine k
  let whole := decide (bs.length = 256)
  let s1 := if whole then setPoison s gran false else s
  if l.held then
    s1.setScLine k { l with
      dirty := bs.foldr (fun p m => Sparse.put m p.1 (some p.2)) l.dirty, poison := (l.poison && !whole) || bad }
  else
    let s2 := physWrite s1 (slotKeys s1 key) gran bs
    if bad then setPoison s2 gran true else s2

/-- A run of bytes with their offsets in a line. -/
def atOffset : Nat → List Byte → List (Nat × Byte)
  | _, [] => []
  | off, b :: t => (off, b) :: atOffset (off + 1) t

/-- Write bytes of one granule at its home (R77). -/
def serveWrite (s : State) (d ia pa : Nat) (key : Option Nat) (bs : List Byte) : State :=
  let (s1, miss) := scTouch s d (ia / 256) (pa / 256) key
  scStore (countMiss s1 d ia miss) d (ia / 256) (pa / 256) key (atOffset (ia % 256) bs) false

def vcMax (a b : List Nat) : List Nat :=
  (List.range 4).map fun i =>
    let x := a.getD i 0
    let y := b.getD i 0
    if (x + 2 ^ 32 - y) % 2 ^ 32 < 2 ^ 31 then x else y
/-- A ≥ B of R136. -/
def vcGe (a b : Nat) : Bool := decide ((a + 2 ^ 32 - b) % 2 ^ 32 < 2 ^ 31)

/-- Every die has seen what a clock names (R138). -/
def seenEverywhere (s : State) (v : List Nat) : Bool :=
  v.isEmpty || (List.range 4).all fun d => (List.range 4).all fun f => vcGe ((dieVc s d).getD f 0) (v.getD f 0)

def lineClockUp (s : State) (d line : Nat) (v : List Nat) : State :=
  let k := scKey d line
  let l := s.scLine k
  if l.held then s.setScLine k { l with clock := vcMax l.clock v } else s

/-- After a write that is not clocked the line has seen all that its die has, so that a reader elsewhere that sees the write
sees what went before it (R127, R131; log entry 84). -/
def ownClock (s : State) (d ia : Nat) : State := lineClockUp s d (ia / 256) (dieVc s d)

/-! ## Versions (R87 to R92) -/

def versionLines (s : State) (job : Nat) : List Nat :=
  (s.mm.vers.filter fun p => p.1 / 2 ^ 44 == job && p.2.held).map fun p => p.1 % 2 ^ 44

/-- What stops a versioned write: the quota, or no room to spill (R89, R90). -/
inductive VerStop where
  | ok | quota | noSpace
  deriving DecidableEq, Repr, Inhabited

/-- A numbered write of a job to a line is still on its way to its home: the version line that it took its room in is kept
(R90). -/
def writeComing (s : State) (job line : Nat) : Bool :=
  s.mm.reqs.any fun p => p.2.stage == .clocked && p.2.kind == .store && p.2.job == some job && p.2.ia / 256 == line

/-- A set can take one more version line: a way that is not locked, or room in the spill area (R90). -/
def verRoom (s : State) (d line : Nat) : Bool :=
  let locked := ((linesOfSet s d line).filter fun p => p.2.lock.isSome).length
  decide (locked + (versOfSet s d line).length < ways s d) || spillRoom s d

/-- The distinct lines that a job's writes have counted against its quota, each once, those committed early among them (R89,
R92). -/
def verCount (s : State) (j : Nat) : Nat := (s.mm.verSeen.filter fun p => p.1 / 2 ^ 44 == j).length

def verStop (s : State) (d job line : Nat) : VerStop :=
  if (s.mm.vers.get (verKey job line)).held then .ok
  else if !(s.mm.verSeen.get (verKey job line)) && decide (16384 ≤ verCount s job) then .quota
  else if verRoom s d line then .ok else .noSpace

/-- What a read of a line carries back of what the line has seen (R136, R139). -/
def lineClock (s : State) (d line : Nat) : List Nat :=
  let l := s.scLine (scKey d line)
  if l.held then l.clock else dieVc s d

/-- Write bytes into a job's version line at its home; with no bytes, a numbered write takes its room there (R90). -/
def verWrite (s : State) (d job ia : Nat) (bs : List Byte) : State :=
  let line := ia / 256
  let k := verKey job line
  let v := s.mm.vers.get k
  let s1 := if v.held then s else
    let locked := ((linesOfSet s d line).filter fun p => p.2.lock.isSome).length
    if locked + (versOfSet s d line).length < ways s d then makeWay s d line
    else match oldest VerLine.used (versOfSet s d line) with
      | some o => setVer s o { s.mm.vers.get o with spilled := true }
      | none => s
  let s2 := { s1 with mm := { s1.mm with verSeen := s1.mm.verSeen.put k true } }
  setVer s2 k { v with held := true, bytes := putDirty v.bytes (ia % 256) bs, used := s.tick,
                       poison := v.poison && !(decide (bs.length = 256)) }

/-- A job's version is discarded, and its stores that are still on their way with it. -/
def verDiscard (s : State) (job : Nat) : State :=
  { s with mm := { s.mm with
      vers := s.mm.vers.filter fun p => p.1 / 2 ^ 44 != job
      verSeen := s.mm.verSeen.filter fun p => p.1 / 2 ^ 44 != job
      reqs := s.mm.reqs.filter fun p => !(p.2.job == some job && p.2.kind == .store) } }

/-- Commit one version line at its home as one write (R91): its bytes become committed values. -/
def verCommitAt (s : State) (d job line pa : Nat) (key : Option Nat) : State :=
  let k := verKey job line
  let v := s.mm.vers.get k
  let (s1, miss) := scTouch (setVer s k { held := writeComing s job line, used := v.used, spilled := v.spilled && writeComing s job line }) d line (pa / 256) key
  scStore (countMiss s1 d (line * 256) miss) d line (pa / 256) key (overlayBytes v.bytes) v.poison

/-! ## Atomics (R347, R348, R361) -/

/-- The value written; none for a failed compare. Codes ADD MIN MAX AND OR XOR XCH CAS. -/
def atomicValue (op n old d nv : Nat) : Option Nat :=
  let w := 8 * n
  match op with
  | 0 => some ((old + d) % 2 ^ w)
  | 1 => some (if sint w old ≤ sint w d then old else d)
  | 2 => some (if sint w d ≤ sint w old then old else d)
  | 3 => some (old &&& d)
  | 4 => some (old ||| d)
  | 5 => some (old ^^^ d)
  | 6 => some d
  | _ => if old = d then some nv else none

/-! ## The device's own accesses -/

/-- Read bytes at an intermediate address as the device does for its tables: committed values, at the
home, under no range or key check. An address that is not mapped reads as 0. -/
def devPa (s : State) (ia : Nat) : Option (Nat × Option Nat) :=
  let h := homeDie ia
  if !(ptEn s h) then (if ia < 2 ^ 44 then some (ia, none) else none)
  else match walk s h ia with
    | .leaf _ _ w0 _ => if pteP w0 then some (pagePa w0 ia, some (pteKey w0)) else none
    | _ => none

/-- Split a run of n bytes at multiples of 256. -/
def granules : Nat → Nat → Nat → List (Nat × Nat)
  | 0, _, _ => []
  | fuel + 1, ia, n =>
    if n = 0 then []
    else
      let k := min n (256 - ia % 256)
      (ia, k) :: granules fuel (ia + k) (n - k)

def devGran (s : State) (ia n : Nat) : List Byte :=
  match devPa s ia with
  | some (pa, key) => (List.range n).map fun i => scByte s (homeDie ia) (ia / 256) (pa / 256) key (pa % 256 + i)
  | none => List.replicate n 0

def devBytes (s : State) (ia n : Nat) : List Byte := (granules (n / 256 + 2) ia n).flatMap fun p => devGran s p.1 p.2
def devNat (s : State) (ia n : Nat) : Nat := leNat (devBytes s ia n)
def devWord (s : State) (ia : Nat) : DWord := BitVec.ofNat 64 (devNat s ia 8)

def devPutGran (s : State) (ia : Nat) (bs : List Byte) : State :=
  match devPa s ia with
  | some (pa, key) => ownClock (serveWrite s (homeDie ia) ia pa key bs) (homeDie ia) ia
  | none => s

def devPuts (s : State) : List (Nat × Nat) → List Byte → State
  | [], _ => s
  | (a, k) :: t, l => devPuts (devPutGran s a (l.take k)) t (l.drop k)
def devPut (s : State) (ia : Nat) (l : List Byte) : State := devPuts s (granules (l.length / 256 + 2) ia l.length) l
def devPutNat (s : State) (ia n v : Nat) : State := devPut s ia (leBytes n v)

end Sys2Proof.Machine
end

