-- ==== Sys2Proof/Machine/Access.lean ====
section
/-! DEFINITION. Starting memory accesses: range checks (R12, R20 to R22), the L1 and the constant cache
(R75, R76), and the events and captures of a lane or scalar access (R54, R121). -/
namespace Sys2Proof.Machine

/-! ## Range checks -/

/-- The kinds of access of Table 9 that a core makes. -/
inductive Perm where
  | load | store | fetch | atomic | prefetch | lock | engRead | engWrite
  deriving DecidableEq, Repr, Inhabited

def canonical (a : Nat) : Bool := bits a 63 56 == 0 || bits a 63 56 == 255

def rngWord (b : Bank) (n w : Nat) : Nat := (b.rng.get (n * 3 + w)).toNat
def rngXlat (b : Bank) (n : Nat) : Nat := rngWord b n 2

/-- VA hits range n (R20). -/
def rngHit (b : Bank) (n va : Nat) : Bool :=
  let g := bits va 56 16
  bit (rngXlat b n) 0 && decide (bits (rngWord b n 0) 56 16 ≤ g) && decide (g ≤ bits (rngWord b n 1) 56 16)

def rngOrder : List Nat := [12, 13, 14, 15, 0, 1, 2, 3, 4, 5, 6, 7, 8, 9, 10, 11]
/-- The selected range (R20). -/
def rngSelect (b : Bank) (va : Nat) : Option Nat := rngOrder.find? fun n => rngHit b n va

/-- IBASE plus the offset in the range (R20). -/
def rngIa (b : Bank) (n va : Nat) : Nat :=
  bits (rngXlat b n) 51 16 * 65536 + (va % 2 ^ 57 - bits (rngWord b n 0) 56 16 * 65536)

/-- The permission causes of an access in the order of Table 10. -/
def permCause (x : Nat) (p : Perm) : Option Nat :=
  let rd := bit x 1
  let wr := bit x 2
  match p with
  | .fetch => if bit x 3 && !wr then none else some 0x104
  | .load | .prefetch | .lock => if rd then none else some 0x102
  | .store => if wr then none else some 0x103
  | .atomic => if !(bit x 4) then some 0x105 else if !rd then some 0x102 else if !wr then some 0x103 else none
  | .engRead => if !(bit x 5) then some 0x106 else if !rd then some 0x102 else none
  | .engWrite => if !(bit x 5) then some 0x106 else if !wr then some 0x103 else none

/-- An access of n bytes at a 64-bit address: its intermediate address and range, or the first cause of
Table 10 (R12, R20 to R22). -/
def rangeCheck (b : Bank) (va n : Nat) (p : Perm) : Except Nat (Nat × Nat) :=
  let last := (va + n - 1) % 2 ^ 64
  if !(canonical va) || !(canonical last) then .error 0x101
  else match rngSelect b va, rngSelect b last with
    | some r, some q =>
      if r != q then .error 0x107
      else match permCause (rngXlat b r) p with
        | some c => .error c
        | none => if rngIa b r va + n > 2 ^ 52 then .error 0x108 else .ok (rngIa b r va, r)
    | _, _ => .error 0x100

/-- PV of a system range makes what is fetched through it privileged (R26). -/
def rngPriv (b : Bank) (n : Nat) : Bool := decide (12 ≤ n) && bit (rngXlat b n) 6
def rngNol1 (b : Bank) (n : Nat) : Bool := bit (rngXlat b n) 7

/-! ## The core's caches -/

def l1Key (core slot ia : Nat) : Nat := (core * 64 + slot) * 2 ^ 45 + ia / 128
def kcKey (core bank ia : Nat) : Nat := (core * 4 + bank) * 2 ^ 46 + ia / 64

def l1Put (s : State) (k : Nat) (l : List Byte) : State :=
  { s with mm := { s.mm with l1 := s.mm.l1.put k l } }
def kcPut (s : State) (k : Nat) (l : List Byte) : State :=
  { s with mm := { s.mm with konst := s.mm.konst.put k l } }

/-- Requests on their way no longer fill a cache of their core. -/
def dropFills (s : State) (f : Req → Bool) : State :=
  { s with mm := { s.mm with reqs := s.mm.reqs.map fun p => if f p.2 then (p.1, { p.2 with fill := [], noFill := true }) else p } }

/-- Loads of a core and context on their way to a 128-byte line may not fill it. -/
def dropLineFills (s : State) (core slot line : Nat) : State :=
  dropFills s fun r => r.core == core && r.slot == slot && (match r.kind with
    | .load => r.ia / 128 == line
    | .pref 1 => r.ia / 256 == line / 2
    | _ => false)

/-- An acquire at DIE scope or wider drops the core's L1 lines (R76). -/
def l1DropCore (s : State) (core : Nat) : State :=
  dropFills { s with mm := { s.mm with l1 := s.mm.l1.filter fun p => p.1 / 2 ^ 45 / 64 != core } }
    fun r => r.core == core && (r.kind == .load || r.kind == .pref 1)
/-- Loading a bank drops its constant-cache lines (R75). -/
def kcDropBank (s : State) (core bank : Nat) : State :=
  dropFills { s with mm := { s.mm with konst := s.mm.konst.filter fun p => p.1 / 2 ^ 46 != core * 4 + bank } }
    fun r => r.core == core && r.bank == bank && (r.kind == .const || r.kind == .pref 2)

/-- Whether a filled line is still held: the L1's and the constant cache's organisation is the
implementation's (log entry 1). -/
def stillHeld (s : State) (salt : Nat) (l : List Byte) : Bool := !l.isEmpty && !(Config.evicted (s.free + salt))

/-- An L1 line that was filled is still there: the L1 holds 4,096 lines (R67), and what it drops earlier is its own matter; no
line leaves it while it holds a few (R448). -/
def l1Held (s : State) (core salt : Nat) (l : List Byte) : Bool :=
  if (s.mm.l1.filter fun p => p.1 / 2 ^ 45 / 64 == core).length ≤ 8 then !l.isEmpty else stillHeld s salt l

/-- Replace bytes of a line. -/
def patch (l : List Byte) (off : Nat) (bs : List Byte) : List Byte :=
  l.take off ++ bs ++ l.drop (off + bs.length)

def isWriteKind : AccKind → Bool
  | .store => true
  | .atomic _ => true
  | .commit _ => true
  | _ => false

/-- A store or atomic of the core and context to a 128-byte line is on its way: the line is not filled before it has been
performed (R76, R132). -/
def lineBusy (s : State) (core slot line : Nat) : Bool :=
  s.mm.reqs.any fun p => p.2.core == core && p.2.slot == slot && isWriteKind p.2.kind && p.2.ia / 128 == line
    && (match p.2.src with
      | .commit _ => false
      | _ => p.2.stage != .done)

/-- Whether a run of a line holds bytes of the job's version. -/
def ownVersion (s : State) (job : Option Nat) (ia len : Nat) : Bool :=
  match job with
  | none => false
  | some j =>
    let v := s.mm.vers.get (verKey j (ia / 256))
    v.held && (List.range len).any fun i => (v.bytes.get (ia % 256 + i)).isSome

/-- What a store or atomic does to a matching L1 line of its own core (R76). -/
def l1Store (s : State) (core slot ia : Nat) (versioned : Bool) (bs : List Byte) : State :=
  let k := l1Key core slot ia
  let l := s.mm.l1.get k
  let s1 := dropLineFills s core slot (ia / 128)
  if l.isEmpty then s1
  else if versioned then l1Put s1 k [] else l1Put s1 k (patch l (ia % 128) bs)

/-! ## Starting an access -/

/-- The events of one lane (R121): offset and length of each. -/
def unitSplit : Nat → Nat → Nat → List (Nat × Nat)
  | 0, _, _ => []
  | fuel + 1, ia, n =>
    if n = 0 then []
    else
      let k := min n (4 - ia % 4)
      (0, k) :: (unitSplit fuel (ia + k) (n - k)).map fun p => (p.1 + k, p.2)

def oneEvent (c : Capture) : Bool :=
  c.wflag || match c.kind with
  | .atomic _ => true
  | .kvx _ => true
  | .pref _ => true
  | _ => false

def laneEvents (c : Capture) (ia : Nat) : List (Nat × Nat) :=
  if oneEvent c then [(0, c.n)] else unitSplit 16 ia c.n

def putReq (s : State) (id : Nat) (r : Req) : State := { s with mm := { s.mm with reqs := s.mm.reqs.put id r } }
def putAcc (s : State) (id : Nat) (a : Access) : State := { s with mm := { s.mm with accs := s.mm.accs.put id a } }

def markOut (s : State) (fk : Nat) (acc : Nat) : List Nat → State
  | [] => s
  | i :: t => markOut ((s.setEmpty (regKey fk i) true).setOut (regKey fk i) acc) fk acc t

def isKvx : AccKind → Bool
  | .kvx _ => true
  | _ => false

/-- The registers of a destination group. -/
def dstRegs : AccDst → List Nat
  | .lanes l => l.filter (· < 512)
  | _ => []

/-- What the core knows of an access beside its capture. -/
structure Issuer where
  core : Nat
  group : Nat
  ent : Nat
  bank : Nat
  slot : Nat
  keyslot : Nat
  job : Option Nat
  priv : Bool
  order : Nat
  fpc : Pc
  rpc : Pc
  issue : DWord
  handler : Bool
  fte : Bool := false
  deriving DecidableEq, Repr, Inhabited

/-- The bytes that the core's own caches give a read event, if it hits there (R75, R76, R132). A line of which the job's version
holds bytes is read at its home (R88). -/
def cacheHit (s : State) (w : Issuer) (k : AccKind) (l : CapLane) (off len : Nat) : Option (List Byte) :=
  match k with
  | .load =>
    let line := s.mm.l1.get (l1Key w.core w.slot (l.ia + off))
    if !l.nol1 && !(ownVersion s w.job ((l.ia + off) / 128 * 128) 128) && l1Held s w.core l.lane line then some ((line.drop ((l.ia + off) % 128)).take len) else none
  | .const =>
    let line := s.mm.konst.get (kcKey w.core w.bank (l.ia + off))
    if stillHeld s l.lane line then some ((line.drop ((l.ia + off) % 64)).take len) else none
  | _ => none

/-- Post one event of a lane: answered from a cache of the core, or sent to its near slice. A hit in the L1 is counted there, and
goes no further (R445). -/
def postEvent (s : State) (w : Issuer) (acc : Nat) (c : Capture) (l : CapLane) (off len : Nat) : State :=
  let (id, s1) := s.newId
  let r : Req := {
    src := .lane acc l.lane, kind := c.kind, ia := l.ia + off, len := len, off := off,
    data := l.d / 256 ^ off % 256 ^ len, nv := l.nv, core := w.core, group := w.group, bank := w.bank,
    die := dieOf w.core, slot := w.slot, job := w.job, keyslot := w.keyslot, priv := w.priv, nol1 := l.nol1,
    vc := dieVc s (dieOf w.core), fte := w.fte, event := l.event, scalar := c.scalar }
  let probes := off == 0 && c.kind == .load && !l.nol1
  match cacheHit s w c.kind l off len with
  | some bs =>
    let s2 := if probes then
        pmCount (putAcc s1 acc { s1.mm.accs.get acc with
          probed := (s1.mm.accs.get acc).probed ||| BitVec.ofNat 64 (2 ^ l.lane) }) w.core w.slot w.job w.fte 0x06 1
      else s1
    (putReq s2 id { r with data := leNat bs, stage := .response }).add .loadReturn id
  | none =>
    let s2 := match c.kind with
      | .store => l1Store s1 w.core w.slot (l.ia + off) w.job.isSome (leBytes len r.data)
      | .atomic _ => l1Store s1 w.core w.slot (l.ia + off) true []
      | _ => if probes then pmCount s1 w.core w.slot w.job w.fte 0x07 1 else s1
    (putReq s2 id r).add .requestAtNearSlice id

/-- The operations of a KVX or KVXR: one for the lanes that name one sequence (R352); a lane's identifier stands in
`ia`, its operand in `d`. -/
def postKvx (s : State) (w : Issuer) (acc : Nat) (reverse : Bool) (lanes : List CapLane) : State :=
  let ids := lanes.foldl (fun l c => if l.contains c.ia then l else l ++ [c.ia]) []
  let b := s.core.banks.get (w.core * 4 + w.bank)
  ids.foldl (fun t id =>
    let n := t.task.nextOp
    let o : HomeOp := { live := true, kind := .kvx acc reverse (lanes.filter fun c => c.ia == id), target := word64 id,
                        by_ := .entry w.core w.ent, slot := w.slot, gen := bits b.ctxid.toNat 47 16, priv := w.priv,
                        die := dieOf w.core, keyslot := w.keyslot, fpc := w.fpc, rpc := w.rpc, issue := w.issue,
                        order := w.order, group := w.group, handler := w.handler, fte := w.fte }
    let t1 := { t with task := { t.task with ops := t.task.ops.put n o, nextOp := n + 1 } }
    t1.add .sequenceOpApply n) s

/-- Start an access over the lanes of its capture (R54, R343, R345, R348): destinations are cleared and
marked outstanding, LDL is raised when it counts, and every event is posted. Returns the access's number. -/
def startAccess (s : State) (w : Issuer) (c : Capture) (counted : Bool) : Nat × State :=
  let (id, s1) := s.newId
  let a : Access := {
    core := w.core, group := w.group, ent := w.ent, order := w.order, cap := c, fpc := w.fpc, rpc := w.rpc,
    issue := w.issue, todo := c.lanes.foldl (fun m l => Sparse.put m l.lane (laneEvents c l.ia).length) [],
    priv := w.priv, fte := w.fte, acq := c.acq, drops := c.drops, counted := counted, handler := w.handler, iaFail := !(isKvx c.kind), repst := if s.cur.rep then (curEntry s).repst else 0 }
  let s2 := putAcc s1 id a
  let s3 := match c.dst with
    | .none => s2
    | .uniform r => { s2 with uni := { s2.uni with sout := s2.uni.sout.put (w.group * 64 + r) id } }
    | d => c.lanes.foldl (fun t l => markOut t (fibKey w.group l.lane) id (dstRegs d)) s2
  let s4 := if counted then opStart s3 w.group 2 id else s3
  match c.kind with
  | .kvx reverse => (id, postKvx s4 w id reverse c.lanes)
  | _ => (id, c.lanes.foldl (fun t l => (laneEvents c l.ia).foldl (fun u p => postEvent u w id c l p.1 p.2) t)
      { s4 with free := s4.free + 1 })

/-- The issuing instruction as the issuer of an access. -/
def curIssuer (s : State) (lanes : DWord) : Issuer :=
  let b := curBank s
  { core := s.cur.core, group := curGk s, ent := s.cur.ent, bank := (curTeam s).bank, slot := bankSlot b,
    keyslot := b.keyslot.toNat, job := (curTeam s).job, priv := s.cur.priv, order := s.cur.order,
    fpc := curPc s, rpc := nextPc s, issue := lanes, handler := inHandler s,
    fte := funcFte (curFunc s) != 0 }

end Sys2Proof.Machine
end

