-- ==== Sys2Proof/Machine/EventHome.lean ====
section
/-! DEFINITION. Event entries and their homes: arming, signals, waits, registrations and faults (R188 to
R195), and the submission of records to a dispatcher. -/
namespace Sys2Proof.Machine

/-! ## Tables of the task system -/

def State.job (s : State) (j : Nat) : Job := s.task.jobs.get j
def State.setJob (s : State) (j : Nat) (v : Job) : State :=
  { s with task := { s.task with jobs := s.task.jobs.put j v } }
def State.updJob (s : State) (j : Nat) (f : Job → Job) : State := s.setJob j (f (s.job j))
def State.grid (s : State) (g : Nat) : Grid := s.task.grids.get g
def State.setGrid (s : State) (g : Nat) (v : Grid) : State :=
  { s with task := { s.task with grids := s.task.grids.put g v } }
def State.updGrid (s : State) (g : Nat) (f : Grid → Grid) : State := s.setGrid g (f (s.grid g))
def State.dec (s : State) (d : Nat) : Dec := s.task.decs.get d
def State.setDec (s : State) (d : Nat) (v : Dec) : State :=
  { s with task := { s.task with decs := s.task.decs.put d v } }
def State.updDec (s : State) (d : Nat) (f : Dec → Dec) : State := s.setDec d (f (s.dec d))
def State.stream (s : State) (k : Nat) : SrcRt := s.task.streams.get k
def State.updStream (s : State) (k : Nat) (f : SrcRt → SrcRt) : State :=
  { s with task := { s.task with streams := s.task.streams.put k (f (s.stream k)) } }
def State.queue (s : State) (k : Nat) : SrcRt := s.task.queues.get k
def State.updQueue (s : State) (k : Nat) (f : SrcRt → SrcRt) : State :=
  { s with task := { s.task with queues := s.task.queues.put k (f (s.queue k)) } }
def State.op (s : State) (o : Nat) : HomeOp := s.task.ops.get o
def State.setOp (s : State) (o : Nat) (v : HomeOp) : State :=
  { s with task := { s.task with ops := s.task.ops.put o v } }
def State.updOp (s : State) (o : Nat) (f : HomeOp → HomeOp) : State := s.setOp o (f (s.op o))
/-- A new operation, with its number. -/
def State.newOp (s : State) (v : HomeOp) : Nat × State :=
  let s1 := s.setOp s.task.nextOp { v with live := true }
  (s.task.nextOp, { s1 with task := { s1.task with nextOp := s1.task.nextOp + 1 } })

/-- The device of the group that a message goes to; none for one that crosses no UALink station. -/
def msgPeer (s : State) : OutMsg → Option Nat
  | .event _ n _ => some (bits n.toNat 63 54)
  | .msix _ => none
  | .nak _ => none
  | .copy _ ia _ => farDevice ia
  | .copyRead _ ia _ => farDevice ia
  | .collective _ _ _ => s.cfg.peers.head?
  | .queueStatus n _ => some (bits n.toNat 63 54)
  | .watchAnswer n _ => some (bits n.toNat 63 54)
  | .opAnswer n _ _ => some (bits n.toNat 63 54)
where
  /-- The device whose memory an address of a window names. -/
  farDevice (ia : Nat) : Option Nat :=
    (s.cfg.windows.find? fun w => decide (w.1 ≤ ia) && decide (ia < w.1 + w.2.1) && decide (w.2.2 < 1024)).map (·.2.2)

/-- The station being retrained that holds a message (R461). -/
def stationHolding (s : State) (m : OutMsg) : Option Nat :=
  if s.dev.retraining.any (256 ≤ ·) then
    (msgPeer s m).bind fun p =>
      let st := Config.stationOf p % s.cfg.stations
      if s.dev.retraining.contains (256 + st) then some st else none
  else none

/-- A message leaves the device, or is held at its station. -/
def emitOut (s : State) (m : OutMsg) : State :=
  match stationHolding s m with
  | some st => { s with dev := { s.dev with heldOut := s.dev.heldOut ++ [(st, m)] } }
  | none => { s with task := { s.task with out := s.task.out ++ [m] } }

/-- A station serves what it has held, in order. -/
def releaseOut (s : State) (st : Nat) : State :=
  { s with
    task := { s.task with out := s.task.out ++ (s.dev.heldOut.filter fun p => p.1 == st).map (·.2) }
    dev := { s.dev with heldOut := s.dev.heldOut.filter fun p => p.1 != st } }

/-! ## Names and entries (Tables 56 and 57) -/

def evDevice (n : DWord) : Nat := bits n.toNat 63 54
def evDie (n : DWord) : Nat := bits n.toNat 53 52
def evIndex (n : DWord) : Nat := bits n.toNat 51 32
def evGen (n : DWord) : Nat := n.toNat % 2 ^ 32
/-- The name with its generation dropped: the entry. -/
def evEntry (n : DWord) : Nat := n.toNat / 2 ^ 32
def evLocal (s : State) (n : DWord) : Bool := evDevice n == s.cfg.device

def evAddr (s : State) (n : DWord) : Nat := s.cfg.ebase.getD (evDie n) 0 + 16 * evIndex n
def evW0 (s : State) (n : DWord) : Nat := devNat s (evAddr s n) 8
def evW1 (s : State) (n : DWord) : Nat := devNat s (evAddr s n + 8) 8
def evPut (s : State) (n : DWord) (w0 w1 : Nat) : State :=
  devPutNat (devPutNat s (evAddr s n) 8 w0) (evAddr s n + 8) 8 w1

inductive EvState where
  | empty | registered | resolved | faulted
  deriving DecidableEq, Repr, Inhabited
def evStateOf (w0 : Nat) : EvState :=
  match bits w0 63 62 with
  | 0 => .empty
  | 1 => .registered
  | 2 => .resolved
  | _ => .faulted
def evCont (w0 : Nat) : Nat := bits w0 61 48
def evValue (w0 : Nat) : Nat := w0 % 2 ^ 48
def evPend (w1 : Nat) : Nat := bits w1 56 32
def evOwner (w1 : Nat) : Nat := bits w1 62 57
def evShared (w1 : Nat) : Bool := bit w1 63
def mkW0 (st cont value : Nat) : Nat := st * 2 ^ 62 + cont * 2 ^ 48 + value % 2 ^ 48
def setPend (w1 p : Nat) : Nat := w1 - evPend w1 * 2 ^ 32 + p * 2 ^ 32
def setGen (w1 g : Nat) : Nat := w1 / 2 ^ 32 * 2 ^ 32 + g % 2 ^ 32

/-- An operation from another context that is not shared (R189). -/
def evForeign (s : State) (n : DWord) (slot : Nat) (priv : Bool) : Bool :=
  let w1 := evW1 s n
  !priv && slot != evOwner w1 && !(evShared w1)

inductive GenRel where
  | same | older | newer
  deriving DecidableEq, Repr, Inhabited
def genRel (entry name : Nat) : GenRel :=
  if entry = name then .same
  else
    let d := (entry + 2 ^ 32 - name) % 2 ^ 32
    if 1 ≤ d ∧ d ≤ 2 ^ 31 - 1 then .older else .newer

/-- What a wait finds: still open, resolved with a value, faulted, or a cause (R191, R192). -/
inductive WaitRes where
  | open_
  | resolved (w0 : Nat)
  | faulted (w0 : Nat)
  | cause (c : Nat)
  deriving DecidableEq, Repr, Inhabited

def evalWait (s : State) (n : DWord) (slot : Nat) (priv : Bool) : WaitRes :=
  if evForeign s n slot priv then .cause 0x207
  else
    let w0 := evW0 s n
    match genRel (evW1 s n % 2 ^ 32) (evGen n) with
    | .older => .resolved (2 ^ 63)
    | .newer => .cause 0x205
    | .same => match evStateOf w0 with
      | .resolved => .resolved w0
      | .faulted => .faulted w0
      | _ => .open_

/-! ## Submitting records -/

/-- Hand a record to a dispatcher, which decodes it next (R187). -/
def submitRecord (s : State) (d : Dec) : Nat × State :=
  let id := s.task.nextDec
  let s1 := (s.setDec id { d with live := true }).add .recordDecode id
  (id, { s1 with task := { s1.task with nextDec := id + 1 } })

/-- A record's work is done, or has met a cause: its dispatcher goes on with it. -/
def decAnswer (s : State) (d cause : Nat) : State :=
  if (s.dec d).live then (s.updDec d fun x => { x with answer := some cause }).add .recordDecode d else s

def bytesToRec (l : List Byte) : BitVec 256 := BitVec.ofNat 256 (leNat l)

/-- Submit the record of a continuation node with its value (R194): at the home's own dispatcher. -/
def submitNode (s : State) (node die value : Nat) : State :=
  let c := s.task.nodes.get node
  let s1 := devPutNat s (node + 40) 8 value
  let rcd := bytesToRec (devBytes s1 node 32)
  (submitRecord s1 { rcd := rcd, src := .cont, die := die, slot := c.slot, gen := c.gen, bankRng := c.rng,
                     keyslot := c.keyslot, ring := 0 }).2

/-- A completion record that stands for no grid is written by this happening: a decode whose fate is known. -/
def refuseNode (s : State) (node die status cause : Nat) : State :=
  let c := s.task.nodes.get node
  let id := s.task.nextDec
  let s1 := (s.setDec id { live := true, rcd := bytesToRec (devBytes s node 32), src := .cont, die := die,
                           slot := c.slot, gen := c.gen, ring := 0, stage := 9, done := status,
                           cause := cause }).add .recordDecode id
  { s1 with task := { s1.task with nextDec := id + 1 } }

/-- The newest node of a REGISTERED entry, whose VALUE is IA[51:4] of it (Table 57). -/
def evNewest (w0 : Nat) : Nat := evValue w0 * 16

/-- The registered nodes of an entry, newest first: `k` of them from the newest (R194). -/
def nodeChain (s : State) : Nat → Nat → List Nat
  | 0, _ => []
  | k + 1, ia => ia :: nodeChain s k (devNat s (ia + 32) 8)

/-! ## Watches -/

/-- The pending-fault entry of a residency event is freed when the event is settled (R49). -/
def freePend (s : State) (n : DWord) : State :=
  if (s.die (evDie n)).pend.any (fun p => p.event == n) then
    s.updDie (evDie n) fun d => { d with pend := d.pend.filter fun p => p.event != n }
  else s

/-- Waits left at an entry are looked at again when it changes (R192, R195). -/
def wakeWatches (s0 : State) (n : DWord) : State :=
  let s := freePend s0 n
  let mine := s.task.watches.filter fun w => evEntry w.name == evEntry n
  let rest := s.task.watches.filter fun w => evEntry w.name != evEntry n
  mine.foldl (fun t w => t.add .eventWait w.op) { s with task := { s.task with watches := rest } }

/-! ## Table 58 -/

/-- A signal: the cause it meets, if any (R192). -/
def evSignal (s : State) (n : DWord) (value : Nat) : Option Nat × State :=
  let w0 := evW0 s n
  let w1 := evW1 s n
  match genRel (w1 % 2 ^ 32) (evGen n) with
  | .older => (some 0x205, s)
  | .newer => (some 0x205, s)
  | .same => match evStateOf w0 with
    | .resolved => (some 0x202, s)
    | .faulted => (none, s)
    | st =>
      if 1 < evPend w1 then (none, evPut s n w0 (setPend w1 (evPend w1 - 1)))
      else
        let s1 := evPut s n (mkW0 2 0 value) (setPend w1 0)
        let nodes := if st = .registered then (nodeChain s (evCont w0) (evNewest w0)).reverse else []
        (none, wakeWatches (nodes.foldl (fun t x => submitNode t x (evDie n) value) s1) n)

/-- A fault: continuations retire WAITFAULT (R192). -/
def evFault (s : State) (n : DWord) : State :=
  let w0 := evW0 s n
  let w1 := evW1 s n
  if w1 % 2 ^ 32 != evGen n then s
  else match evStateOf w0 with
    | .resolved => s
    | .faulted => s
    | st =>
      let s1 := evPut s n (mkW0 3 0 0) w1
      let nodes := if st = .registered then (nodeChain s (evCont w0) (evNewest w0)).reverse else []
      wakeWatches (nodes.foldl (fun t x => refuseNode t x (evDie n) 3 0) s1) n

/-- FUTREG: status 0 to 3, or a cause (R192, R193). -/
def evFutreg (s : State) (n : DWord) (node : Nat) (c : NodeCtx) : Except Nat Nat × State :=
  let w0 := evW0 s n
  let w1 := evW1 s n
  let sn := { s with task := { s.task with nodes := s.task.nodes.put node c } }
  match genRel (w1 % 2 ^ 32) (evGen n) with
  | .older => (.error 0x205, s)
  | .newer => (.error 0x205, s)
  | .same => match evStateOf w0 with
    | .empty => (.ok 0, evPut (devPutNat sn (node + 32) 8 0) n (mkW0 1 1 (node / 16)) w1)
    | .registered =>
      if evCont w0 = 16383 then (.ok 2, s)
      else (.ok 0, evPut (devPutNat sn (node + 32) 8 (evNewest w0)) n (mkW0 1 (evCont w0 + 1) (node / 16)) w1)
    | .resolved => (.ok 1, submitNode sn node (evDie n) (evValue w0))
    | .faulted => (.ok 3, refuseNode sn node (evDie n) 3 0)

inductive ArmRes where
  | armed | waits | remote
  | fail (cause : Nat)
  deriving DecidableEq, Repr, Inhabited

/-- The device of a name is this one, or is present and can be reached by a device that has F_REMEV (Table 93). -/
def evReachable (s : State) (n : DWord) : Bool :=
  evLocal s n || (s.cfg.peers.contains (evDevice n) && (s.cfg.devfeat.getD 0 0).getLsbD 42)

/-- Whether arming a name for a context now succeeds, waits, fails or is asked of another device (R189, R190, R195), where the
effective mask of who arms it has `remote` F_REMEV (R267). -/
def armCheck (s : State) (n : DWord) (slot : Nat) (priv : Bool) (remote : Bool := true) : ArmRes :=
  if !(evReachable s n) || !(evLocal s n || remote) then .fail 0x206
  else if !(evLocal s n) then .remote
  else if evForeign s n slot priv then .fail 0x207
  else
    let w1 := evW1 s n
    if evGen n = (w1 % 2 ^ 32 + 1) % 2 ^ 32 then
      match evStateOf (evW0 s n) with
      | .resolved => .armed
      | .faulted => .armed
      | _ => .waits
    else .fail 0x205

def armNow (s : State) (n : DWord) (count : Nat) : State :=
  if !(evLocal s n) then emitOut s (.event 4 n (word64 count))
  else evPut s n 0 (setGen (setPend (evW1 s n) count) (evGen n))

/-- A residency event is armed straight into REGISTERED with CONT 0 and PEND 1 (R190). -/
def armResidency (s : State) (n : DWord) : State :=
  evPut s n (mkW0 1 0 0) (setGen (setPend (evW1 s n) 1) (evGen n))

/-! ## Residency (R49, R50) -/

/-- The next usable index of a die's residency pool, round robin. -/
def poolPick (s : State) (d : Nat) : Nat → Nat → Option Nat
  | 0, _ => none
  | k + 1, i =>
    let len := s.cfg.rqLen.getD d 64
    let idx := s.cfg.rqFirst.getD d 0 + i % len
    let n : DWord := BitVec.ofNat 64 ((s.cfg.device * 4 + d) * 2 ^ 52 + idx * 2 ^ 32)
    match evStateOf (evW0 s n) with
    | .resolved => some (i % len)
    | .faulted => some (i % len)
    | _ => poolPick s d k (i + 1)

def rqLog (s : State) (d : Nat) : Nat :=
  let n := (s.die d).rqsize.toNat % 32
  if 6 ≤ n ∧ n ≤ 16 then n else 6
def rqFull (s : State) (d : Nat) : Bool :=
  let r := s.die d
  bits r.rqbase.toNat 51 5 == 0 || decide ((r.rqtail.toNat + 2 ^ 32 - r.rqhead.toNat) % 2 ^ 32 ≥ 2 ^ rqLog s d)

/-- The steps by which the slowest die's arithmetic clock has fallen, 4 at most (R457, log entry 110). -/
def slowest (s : State) : Nat := s.dev.slow.foldl (fun m p => max m (min 4 p.2)) 0

/-- The length of one ck in 1/5,880 ns: at 700 − 87.5 n MHz it is 80/(56 − 7n) ns (R457). -/
def ckUnits (n : Nat) : Nat := 67200 / (8 - n)

/-- TIMER: a ck of 10/7 ns (R7), and longer ones while a clock is lowered (R457). -/
def timeNs (s : State) : Nat := (s.now * 8400 + s.dev.stretch) / 5880

/-- Write a residency record at the tail of the die's ring (Table 22). -/
def rqPost (s : State) (d page sz kind : Nat) (event : DWord) (jobid ctx die ridx : Nat) : State :=
  let r := s.die d
  let at_ := bits r.rqbase.toNat 51 5 * 32 + 32 * (r.rqtail.toNat % 2 ^ rqLog s d)
  let s1 := devPutNat s at_ 8 (page + sz * 16 + kind)
  let s2 := devPutNat s1 (at_ + 8) 8 event.toNat
  let s3 := devPutNat s2 (at_ + 16) 4 jobid
  let s4 := devPut s3 (at_ + 20) [BitVec.ofNat 8 ctx, BitVec.ofNat 8 die, 0, 0]
  let s5 := devPutNat s4 (at_ + 24) 4 ridx
  let s6 := devPutNat s5 (at_ + 28) 4 (timeNs s % 2 ^ 32)
  s6.updDie d fun r => { r with rqtail := BitVec.ofNat 64 ((r.rqtail.toNat + 1) % 2 ^ 32) }

/-- Claim or share a pending-fault entry: the residency event, or none while the request must be held. The record's KIND is G;
one whose regeneration record is not valid is kept here as KIND 0 (R63). -/
def residency (s : State) (d page sz : Nat) (g : Bool) (ridx jobid ctx from_ : Nat) : Option DWord × State :=
  let r := s.die d
  match r.pend.find? (fun p => p.page == page) with
  | some p => (some p.event, s)
  | none =>
    if 64 ≤ r.pend.length || rqFull s d then (none, s)
    else match poolPick s d (s.cfg.rqLen.getD d 64) r.rqNext with
      | none => (none, s)
      | some i =>
        let idx := s.cfg.rqFirst.getD d 0 + i
        let n0 : DWord := BitVec.ofNat 64 ((s.cfg.device * 4 + d) * 2 ^ 52 + idx * 2 ^ 32)
        let n : DWord := BitVec.ofNat 64 (n0.toNat + (evW1 s n0 % 2 ^ 32 + 1) % 2 ^ 32)
        let valid := bit (devNat s (s.cfg.regenBase.getD d 0 + 32 * ridx + 5) 1) 0
        let kind := if g && valid then 1 else 0
        let s1 := armResidency s n
        let s2 := rqPost s1 d page sz (b2n g) n jobid ctx from_ (if g then ridx else 0)
        (some n, s2.updDie d fun r => { r with
          pend := r.pend ++ [{ page := page, size := sz, event := n }], rqNext := i + 1,
          rqKinds := r.rqKinds.put idx (page + kind) })

end Sys2Proof.Machine
end

