-- ==== Sys2Proof/Machine/Life.lean ====
section
/-! DEFINITION. How jobs end: completion records and rings (R202 to R204), retirement (R181, R463),
stopping a team, abort and requeue (R52, R53), kill (R229) and fatal causes (R230). -/
namespace Sys2Proof.Machine

/-! ## Completion rings -/

def State.ring (s : State) (n : Nat) : Ring := s.task.rings.get n
def State.setRing (s : State) (n : Nat) (r : Ring) : State :=
  { s with task := { s.task with rings := s.task.rings.put n r } }

def ringLog (r : Ring) : Nat :=
  let n := r.ctl.toNat % 32
  if 4 ≤ n ∧ n ≤ 20 then n else 4
def ringEn (r : Ring) : Bool := r.ctl.getLsbD 63
/-- A ring that is full or not in use takes no record (R203; log entry 15). -/
def ringFull (r : Ring) : Bool := !(ringEn r) || decide ((r.prod + 2 ^ 32 - r.cons) % 2 ^ 32 ≥ 2 ^ ringLog r)

/-- Send a ring's MSI-X message and clear its count (R204). -/
def sendMsix (s : State) (n : Nat) : State :=
  let r := s.ring n
  (emitOut s (.msix (bits r.ctl.toNat 15 8))).setRing n { r with since := 0, stamp := r.stamp + 1 }

/-- Write a record into a ring at the producer index, with its PASS bit (R203). COUNT is tested as each record is written, and
TIMEOUT is taken with the oldest one, 1,000 µs where the register holds more (the model's choice, log entry 112). -/
def ringAppend (s : State) (n : Nat) (rcd : BitVec 256) : State :=
  let r := s.ring n
  let l := ringLog r
  let pass := !(bit r.prod l)
  let at_ := bits r.base.toNat 51 5 * 32 + 32 * (r.prod % 2 ^ l)
  let v := if pass then rcd ||| BitVec.ofNat 256 (2 ^ 111) else rcd
  let s1 := devPutNat s at_ 32 v.toNat
  let s2 := s1.setRing n { r with prod := (r.prod + 1) % 2 ^ 32, since := r.since + 1 }
  let us := bits r.ctl.toNat 51 40
  let tmo := (if us = 0 then 1 else if 1000 < us then 1000 else us) * 700
  if bits r.ctl.toNat 39 32 + 1 ≤ r.since + 1 then sendMsix s2 n
  else if r.since = 0 then s2.after tmo .msixTimeout n r.stamp else s2

/-- A completion record goes to its ring, or to the die's backlog behind others (R203), also where that holds its 256 already (the
model's choice, log entry 112). -/
def deliverRecord (s : State) (die n : Nat) (rcd : BitVec 256) : State :=
  let b := s.task.backlog.get die
  if ringFull (s.ring n) || b.any (fun p => p.1 == n) then
    { s with task := { s.task with backlog := s.task.backlog.put die (b ++ [(n, rcd)]) } }.post .completionBacklogDrain die
  else ringAppend s n rcd

/-- Table 63, without PASS. -/
def completionRecord (s : State) (g : Grid) : BitVec 256 :=
  BitVec.ofNat 256 (leNat (leBytes 8 (timeNs s) ++ leBytes 2 g.stream ++ leBytes 2 g.seq ++ leBytes 1 g.status
    ++ leBytes 1 (b2n g.restart) ++ leBytes 1 g.slot ++ leBytes 1 0 ++ leBytes 4 g.gen ++ leBytes 4 g.fjob
    ++ leBytes 2 g.fcause ++ leBytes 2 (min g.nfault 0xFFFF) ++ leBytes 4 g.njobs))

def reportGrid (s : State) (g : Grid) : State := deliverRecord s g.die g.ring (completionRecord s g)

/-! ## Signals that no skein issues (R463) -/

/-- The event of a name lies on another device of the group, which can be reached. -/
def evElsewhere (s : State) (n : DWord) : Bool := evReachable s n && !(evLocal s n)

/-- Signal an event for a job or a record: the cause it meets, if any. -/
def signalEvent (s : State) (n : DWord) (value slot : Nat) (priv : Bool) : Option Nat × State :=
  if !(evReachable s n) then (some 0x206, s)
  else if !(evLocal s n) then (none, emitOut s (.event 0 n (word64 value)))
  else if evForeign s n slot priv then (some 0x207, s)
  else evSignal s n value

/-- An event is faulted for a context: one that it may not act on stays as it is (R189). -/
def faultEvent (s : State) (n : DWord) (slot : Nat) : State :=
  if n = 0 then s
  else if !(evLocal s n) then emitOut s (.event 1 n 0)
  else if evForeign s n slot false then s
  else s.add .eventFault 0 0 0 n

/-! ## Retirement -/

/-- STREAMFAULT, FAULT, WAITFAULT, STALE, DONE in falling rank (R202). -/
def statusRank (st : Nat) : Nat := [0, 3, 1, 2, 4].getD st 0
def worse (a b : Nat) : Nat := if statusRank a < statusRank b then b else a

/-- Count a fault in a grid: the first names its job and cause. -/
def gridFault (g : Grid) (jobid cause : Nat) : Grid :=
  let g1 := { g with status := worse g.status 1, nfault := g.nfault + 1 }
  if g.nfault = 0 then { g1 with fjob := jobid, fcause := cause } else g1

/-- The job has a child grid, or a record whose grid is still to be made, or a session. -/
def liveChildren (s : State) (j : Nat) : Bool :=
  s.task.grids.any (fun p => p.2.live && p.2.parentJob == some j)
  || s.task.decs.any (fun p => p.2.live && p.2.parentJob == some j)
  || s.task.sessions.any fun p => p.2.live && p.2.parentJob == some j

/-- A grid's last job has retired: its record is written, and a parent that waited for it may retire. -/
def finishGrid (s : State) (gid : Nat) : State :=
  let g := s.grid gid
  let s1 := if g.report then reportGrid s g else s
  let s2 := s1.setGrid gid { g with live := false }
  let s3 := match g.replay with
    | some d => s2.add .replayPassEnd d
    | none => s2
  match g.parentJob with
  | some p =>
    let s4 := if g.status = 1 then s3.updJob p fun x => { x with childFault := x.childFault.or (some (g.fjob, g.fcause)) } else s3
    if (s4.job p).ended && !(liveChildren s4 p) then s4.add .parentRetire gid else s4
  | none => s3

/-- Count a job as retired in its grid (R202), with the job that a fault is named for. -/
def accountAs (s : State) (j fjob status cause : Nat) : State :=
  let jb := s.job j
  let g := s.grid jb.grid
  let g0 := { g with left := g.left - 1, restart := g.restart || jb.forced }
  let g1 := if status = 1 then gridFault g0 fjob cause else { g0 with status := worse g0.status status }
  let s1 := (s.setGrid jb.grid g1).setJob j { jb with at_ := .retired, live := false, ended := false }
  if g1.left = 0 then finishGrid s1 jb.grid else s1

def accountJob (s : State) (j : Nat) (status cause : Nat) : State := accountAs s j (s.job j).jobid status cause

/-- A job that is done is counted as it stands, or with the first fault of its children (R181; log entry 96). -/
def accountDone (s : State) (j : Nat) : State :=
  match (s.job j).childFault with
  | some (fjob, cause) => accountAs s j fjob 1 cause
  | none => accountJob s j 0 0

/-- A job's signal to another device is on its way. -/
def jobSignalling (s : State) (j : Nat) : Bool :=
  s.task.ops.any fun p => p.2.live && p.2.by_ == .job j && (match p.2.kind with
    | .jobSignal _ _ => true
    | _ => false)

/-- The signal of a job that is done goes to another device, whose answer the accounting awaits (R412, R463). -/
def signalFar (s : State) (j : Nat) : State :=
  let jb := s.job j
  if jobSignalling s j then s
  else
    let (id, s1) := (s.updJob j fun x => { x with ended := true, status := 0, cause := 0, at_ := .retired }).newOp
      { kind := .jobSignal j 0, target := jb.signal, by_ := .job j, slot := jb.slot, gen := jb.gen, die := jb.die }
    s1.add .eventSignal id

/-- A job retires with a status: a job that is done signals its event, with value 0 (R442). -/
def settleJob (s : State) (j : Nat) (status cause : Nat) : State :=
  let jb := s.job j
  if status = 0 && jb.signal != 0 && !jb.replay && evElsewhere s jb.signal then signalFar s j
  else if status = 0 && jb.signal != 0 && !jb.replay then
    match signalEvent s jb.signal 0 jb.slot false with
    | (some c, s1) => accountJob s1 j 1 c
    | (none, s1) => accountDone s1 j
  else if status = 0 then accountDone s j
  else accountJob s j status cause

/-- A job has ended: with children outstanding its signal and its accounting are held (R181). -/
def retireJob (s : State) (j : Nat) (status cause : Nat) : State :=
  if liveChildren s j then s.updJob j fun x => { x with ended := true, status := status, cause := cause, at_ := .retired }
  else settleJob s j status cause

/-! ## Punnets: a launched job that retires frees its records (R199, R200) -/

def punKey (die n : Nat) : Nat := die * 4096 + n
def punAddr (s : State) (die n : Nat) : Nat := s.cfg.pbase.getD die 0 + 64 * n
def State.pun (s : State) (k : Nat) : PunRt := s.task.punnets.get k
def State.setPun (s : State) (k : Nat) (v : PunRt) : State :=
  { s with task := { s.task with punnets := s.task.punnets.put k v } }

def freeRecords (s : State) (j : Nat) : State :=
  match (s.job j).punnet with
  | none => s
  | some (die, n, _, count) =>
    let k := punKey die n
    let p := s.pun k
    let depth := p.depth - count
    let low := devNat s (punAddr s die n + 0xC) 2
    s.setPun k { p with depth := depth, pressure := p.pressure && decide (low ≤ depth) }

/-! ## Stopping a team -/

def coreOfTeam (t : Nat) : Nat := t / 16

/-- Keep the entries of a table whose key, divided by `d`, is not one of `ks`. -/
def dropKeys {α : Type} (m : Sparse α) (d : Nat) (ks : List Nat) : Sparse α := m.filter fun p => !(ks.contains (p.1 / d))

/-- Lane and uniform state of some skein groups is discarded. -/
def dropGroups (s : State) (gs : List Nat) : State :=
  { s with
    lane := { reg := dropKeys s.lane.reg 32768 gs, empty := dropKeys s.lane.empty 32768 gs, out := dropKeys s.lane.out 32768 gs,
              pred := dropKeys s.lane.pred 64 gs, predSh := dropKeys s.lane.predSh 64 gs, parked := dropKeys s.lane.parked 64 gs,
              parkedAt := dropKeys s.lane.parkedAt 64 gs }
    uni := { s.uni with
      sreg := dropKeys s.uni.sreg 64 gs, sout := dropKeys s.uni.sout 64 gs, groups := dropKeys s.uni.groups 1 gs,
      ents := s.uni.ents.filter fun p => !(gs.contains (p.1 / 256 * 32 + p.1 % 256 / 8)),
      slots := s.uni.slots.filter fun p => match p.2.ent with
        | some e => !(gs.contains (p.1 / 4 * 32 + e / 8))
        | none => true } }

/-- A request that is still wanted when its group stops: a numbered write keeps its place in its die's
order, and of these an atomic is still performed (R137, R229). -/
def keepReq (accs : List Nat) (r : Req) : Option Req :=
  match r.src with
  | .lane a _ =>
    if accs.contains a then
      (match r.kind, r.stage with
        | .atomic _, .clocked => some { r with src := .device }
        | .atomic _, .toNumber => some { r with src := .device }
        | _, _ => none)
    else some r
  | _ => some r

/-- The accesses of some groups are cancelled. -/
def dropAccesses (s : State) (gs : List Nat) : State :=
  let mine := (s.mm.accs.filter fun p => gs.contains p.2.group).map (·.1)
  { s with mm := { s.mm with
      accs := s.mm.accs.filter fun p => !(gs.contains p.2.group)
      reqs := s.mm.reqs.filterMap fun p => (keepReq mine p.2).map fun r => (p.1, r) } }

/-- A team's operations at homes: those that only wait are dropped; the rest go on unanswered. -/
def dropOps (s : State) (core : Nat) (gs : List Nat) : State :=
  let own (o : HomeOp) : Bool := match o.by_ with
    | .entry c e => c == core && gs.contains (c * 32 + e / 8)
    | _ => false
  let keep (o : HomeOp) : Option HomeOp := match own o, o.kind with
    | false, _ => some o
    | true, .wait => none
    | true, .poll => none
    | true, .get => none
    | true, .deposit .. => if o.waiting then none else some { o with by_ := .device }
    | true, _ => some { o with by_ := .device }
  { s with task := { s.task with ops := s.task.ops.filterMap fun p => (keep p.2).map fun o => (p.1, o) } }

/-- A team's engine operations, channels, handles and tile entries end (R142, R150, R163). `memOnly` keeps
transfers to memory alone, as a save does (R164). Another team's handle that a multicast of this team fills stays FILLING (log
entry 109). -/
def dropEngines (s : State) (t : Nat) (memOnly : Bool) : State :=
  let core := coreOfTeam t
  let e := s.eng
  { s with eng := { e with
      handles := e.handles.filter fun p => !(p.2.owner == some t)
      chans := e.chans.filter fun p => !(p.2.owner == some t)
      xfers := e.xfers.filter fun p => !(p.2.by_.team == t) || (memOnly && p.2.dkind == 0 && p.2.barrier.isNone)
      tiles := e.tiles.filter fun p => !(p.2.by_.team == t)
      stopped := dropKeys e.stopped 8 [core * 16 + t % 16]
      attqs := e.attqs.filter fun p => !(p.2.by_.team == t)
      contribs := e.contribs.filter fun p => !(p.2.by_.team == t) || p.2.dec.isSome
      dogs := e.dogs.filter fun p =>
        !(p.1 / 2 ^ 18 == core && decide ((s.team t).sbase ≤ p.1 % 2 ^ 18 * 16)
          && decide (p.1 % 2 ^ 18 * 16 < (s.team t).sbase + (s.team t).ssize)) } }

/-- The bank of a team is released; it keeps its context (R18). -/
def unbindBank (s : State) (t : Nat) : State :=
  let tm := s.team t
  let core := coreOfTeam t
  let others := (List.range 16).any fun w =>
    core * 16 + w != t && (s.team (core * 16 + w)).bound && (s.team (core * 16 + w)).bank == tm.bank
  if tm.bound && !others then s.updBank (core * 4 + tm.bank) fun b => { b with unboundAt := s.now + 1 } else s

def clearTiles (s : State) (t : Nat) : State :=
  { s with core := { s.core with tiles := dropKeys s.core.tiles 131072 [t] } }

/-- Worker teams of a core that wait look at its mailbox again. -/
def pollCore (s : State) (core : Nat) : State :=
  (List.range s.cfg.workers).foldl (fun u w =>
    if (u.team (core * 16 + w)).waiting then u.post .workerTakeJob core w else u) s

/-- A worker team waits: it holds one skein group, in which only fibre 0 is live in the wait loop (R178). -/
def toWaitLoop (s : State) (t : Nat) : State :=
  let core := coreOfTeam t
  let g := (s.team t).groups.headD 0
  let s1 := s.setTeam t { groups := [g], waiting := true, kernel := s.dev.kernels }
  let s2 := s1.setGroup (groupKey core g) { team := some t, live := 1 }
  s2.setEnt (entKey core (8 * g)) { st := .ready, pc := BitVec.ofNat 57 s.cfg.waitLoop, lanes := 1, since := s.now }

/-- Where a worker team's wait loop keeps fibre 0's state, in the system kernel's reserve (R71, R179; log entry 100). -/
def waitKeep (w : Nat) : Nat := 0x3C8000 + 1024 * w

/-- Fibre 0's wait-loop state: s0–s63, the conditions, the predicates, the mask of registers not full, and v0–v63. -/
def waitState (s : State) (gk : Nat) : List Byte :=
  let fk := fibKey gk 0
  (List.range 64).flatMap (fun r => leBytes 8 (s.sregOf gk r).toNat)
    ++ [(s.group gk).conds, s.preds fk]
    ++ leBytes 8 (maskOf ((List.range 64).filter fun i => s.isEmpty (regKey fk i))).toNat
    ++ (List.range 64).flatMap fun i => leBytes 4 (s.laneReg (regKey fk i)).toNat

/-- R179, step 1: the wait loop's state of a worker team's fibre 0 is kept. -/
def keepWait (s : State) (core w gk : Nat) : State := scratchPuts s core 0 (waitKeep w) (waitState s gk)

/-- The wait loop goes on with the state that it kept. -/
def restoreWait (s : State) (t : Nat) : State :=
  let core := coreOfTeam t
  let gk := groupKey core ((s.team t).groups.headD 0)
  let fk := fibKey gk 0
  let at_ (o n : Nat) : Nat := leNat (scratchBytes s core (waitKeep (t % 16) + o) n)
  let s1 := (List.range 64).foldl (fun u r => u.setSregOf gk r (word64 (at_ (8 * r) 8))) s
  let s2 := (List.range 64).foldl (fun u i =>
    (u.setLaneReg (regKey fk i) (BitVec.ofNat 32 (at_ (522 + 4 * i) 4))).setEmpty (regKey fk i) (bit (at_ 514 8) i)) s1
  (s2.updGroup gk fun g => { g with conds := BitVec.ofNat 8 (at_ 512 1) }).setPreds fk (BitVec.ofNat 8 (at_ 513 1))

/-- Every fibre of a team stops and its resources are freed; the worker team goes back to waiting. -/
def stopTeam (s : State) (t : Nat) (memOnly : Bool) : State :=
  let tm := s.team t
  let core := coreOfTeam t
  let gs := tm.groups.map (groupKey core ·)
  let s1 := dropAccesses (dropOps (dropEngines (unbindBank s t) t memOnly) core gs) gs
  pollCore (restoreWait (toWaitLoop (dropGroups (clearTiles s1 t) gs) t) t) core

/-! ## Frames (R233) -/

def ctxAddr (s : State) (slot : Nat) : Nat := s.cfg.ctxTable + slot * 1024
def freeFrame (s : State) (slot : Nat) (f : Option Nat) : State :=
  match f with
  | none => s
  | some n =>
    let a := ctxAddr s slot + 0x210
    devPutNat s a 8 ((devWord s a) &&& ~~~(BitVec.ofNat 64 (2 ^ n))).toNat

/-- The frames of a job are released (R233). -/
def freeFrames (s : State) (slot j : Nat) : State :=
  ((s.job j).frames.foldl (fun u k => freeFrame u slot (some k)) s).updJob j fun x => { x with frames := [], frame := none }

def freeShadow (s : State) (slot j : Nat) : State :=
  if s.task.shadow.get slot = j + 1 then { s with task := { s.task with shadow := s.task.shadow.put slot 0 } } else s

/-- Take a job out of the mailbox that holds it. -/
def unmail (s : State) (core slot : Nat) : State :=
  let s1 := { s with task := { s.task with
    mail := s.task.mail.put core ((s.task.mail.get core).filter fun p => p.1 != slot) } }
  s1.updCregs core fun r => { r with mbstat := r.mbstat &&& ~~~(BitVec.ofNat 64 (2 ^ slot)) }

/-- A job leaves the place where it runs or waits. -/
def leavePlace (s : State) (j : Nat) : State :=
  match (s.job j).at_ with
  | .placed core w => stopTeam s (core * 16 + w) false
  | .mailbox core slot => unmail s core slot
  | _ => s

/-- Operations outstanding while the job was saved are cancelled with it. -/
def dropSaved (s : State) (j : Nat) : State :=
  { s with eng := { s.eng with
      xfers := s.eng.xfers.filter fun p => !(p.2.by_.job == some j)
      contribs := s.eng.contribs.filter fun p => !(p.2.by_.job == some j && p.2.dec.isNone)
      chans := s.eng.chans.filter fun p => !(p.2.owner == some (2 ^ 40 + j))
      tiles := s.eng.tiles.filter fun p => !(p.2.by_.team == 2 ^ 40 + j) } }

/-! ## Abort, kill and fatal causes -/

/-- Requeue a job at the head of its priority queue (R207). -/
def requeue (s : State) (j : Nat) : State :=
  let n := s.task.front
  ({ s with task := { s.task with front := n + 1 } }.updJob j fun x =>
    { x with at_ := .queued, eligible := false, order := (n : Int) - 2 ^ 62, frame := x.frame }).post .jobEligible j

/-- A fault abort (R52, R53): the version is discarded and the job waits for the residency event as well. It keeps the tile
shadow area (R286). -/
def abortJob (s : State) (j : Nat) (event : DWord) : State :=
  let jb := s.job j
  match jb.at_ with
  | .placed _ _ =>
    let s1 := verDiscard (leavePlace s j) j
    let back := s1.task.back
    ({ s1 with task := { s1.task with back := back + 1 } }.updJob j fun x =>
      { x with at_ := .queued, eligible := false, restartable := false, aborts := min 255 (x.aborts + 1),
               nonRestart := x.nonRestart || decide (8 ≤ x.aborts + 1), waits := x.waits ++ [event],
               order := (back : Int), ran := 0 }).post .jobEligible j
  | _ => s

/-- A job is killed with a cause (R229). -/
def killJob (s : State) (j : Option Nat) (cause : Nat) : State :=
  match j with
  | none => s
  | some k =>
    let jb := s.job k
    if !jb.live || jb.ended || jb.committing then s
    else
      let s1 := freeRecords (dropSaved (verDiscard (leavePlace s k) k) k) k
      let s2 := freeShadow (freeFrames s1 jb.slot k) jb.slot k
      let s3 := if jb.replay then s2 else faultEvent s2 jb.signal jb.slot
      retireJob s3 k 1 cause

/-- A fatal cause (R230): the job dies of it, every other job of the context dies of 0x301, and LIVE falls
in the context's descriptor, but never in slot 0's. -/
def fatalCause (s : State) (j : Option Nat) (cause : Nat) : State :=
  match j with
  | none => s
  | some k =>
    let slot := (s.job k).slot
    let gen := (s.job k).gen
    let s1 := killJob s (some k) cause
    let others := (s1.task.jobs.filter fun p => p.2.live && !p.2.ended && p.2.slot == slot && p.2.gen == gen).map (·.1)
    let s2 := others.foldl (fun u i => killJob u (some i) 0x301) s1
    if slot = 0 then s2
    else
      let a := ctxAddr s2 slot + 8
      devPutNat s2 a 8 ((devWord s2 a) &&& ~~~1).toNat

def killTeam (s : State) (t : Nat) (cause : Nat) : State := killJob s (s.team t).job cause
def fatalTeam (s : State) (t : Nat) (cause : Nat) : State := fatalCause s (s.team t).job cause

/-- A happening of Table 31 (R93). -/
def endRestart (s : State) (t : Nat) : State :=
  match (s.team t).job with
  | some j => s.updJob j fun x => { x with restartable := false }
  | none => s

end Sys2Proof.Machine
end

