-- ==== Sys2Proof/Machine/Device.lean ====
section
/-! DEFINITION. The device-register region (R451, Tables 204 and 205 and the registers they name). A write that starts an operation raises BUSY at once and posts the
happening that performs it. -/
namespace Sys2Proof.Machine

/-! ## Replay sessions see their jobs' side effects and control transfers (R419) -/

def setSession (s : State) (d : Nat) (v : Session) : State :=
  { s with task := { s.task with sessions := s.task.sessions.put d v } }

/-- The die whose session a pass's job belongs to. -/
def replayDie (s : State) (j : Nat) : Nat := ((s.grid (s.job j).grid).replay).getD (s.job j).die

/-- A pass that changes what a restore does not bring back sets SIDE. -/
def markSide (s : State) (job : Option Nat) : State :=
  match job with
  | some j =>
    if (s.job j).replay then
      let d := replayDie s j
      setSession s d { s.task.sessions.get d with side := true }
    else s
  | none => s

/-- n lanes of a pass's job transfer to an address (R446: counted where FUNC.FTE is not 0 afterwards). -/
def addDigest (s : State) (job : Option Nat) (fte pc n : Nat) : State :=
  match job with
  | some j =>
    if (s.job j).replay && fte != 0 then
      let d := replayDie s j
      let se := s.task.sessions.get d
      setSession s d { se with digest := (se.digest + (pc % 2 ^ 32 + 1) * n) % 2 ^ 64 }
    else s
  | none => s

/-! ## Registers by address -/

inductive Reg where
  | none
  | ptroot (d : Nat) | ptinv (d : Nat) | sccarve (d : Nat) | lksweep (d : Nat) | schedcfg (d : Nat) | preq (d : Nat)
  | rqbase (d : Nat) | rqsize (d : Nat) | rqhead (d : Nat) | rqtail (d : Nat)
  | mon (d m : Nat)
  | mbstat (c : Nat) | dbgcmd (c : Nat) | dbgdata (c : Nat)
  | crbase (n : Nat) | crctl (n : Nat) | crprod (n : Nat) | crcons (n : Nat)
  | inventory | evport | svccmd | attcmd | reset
  deriving DecidableEq, Repr, Inhabited

/-- The registers of a die's block by offset. -/
def dieReg (s : State) (d off : Nat) : Reg :=
  if off < 0x30 then
    match off / 8 with
    | 0 => .ptroot d
    | 1 => .ptinv d
    | 2 => .sccarve d
    | 3 => .lksweep d
    | 4 => .schedcfg d
    | _ => .preq d
  else if 0x40 ≤ off && off < 0x60 then
    match (off - 0x40) / 8 with
    | 0 => .rqbase d
    | 1 => .rqsize d
    | 2 => .rqhead d
    | _ => .rqtail d
  else if 0x1000 ≤ off && off < 0x1200 then .mon d ((off - 0x1000) / 8)
  else if 0x2000 ≤ off && off < 0x2000 + 32 * s.cfg.cores.getD d 0 then
    let c := d * 48 + (off - 0x2000) / 32
    match off % 32 / 8 with
    | 0 => .mbstat c
    | 1 => .dbgcmd c
    | 2 => .dbgdata c
    | _ => .none
  else .none

/-- The register that an address of the region names; none where it names nothing (Table 204). -/
def regAt (s : State) (pa : Nat) : Reg :=
  let off := pa - 0x20000000000
  if off < 0x4000000 then dieReg s (off / 0x1000000) (off % 0x1000000)
  else
    let g := off - 0x4000000
    if g < 0x100 then
      match g % 32 / 8 with
      | 0 => .crbase (g / 32)
      | 1 => .crctl (g / 32)
      | 2 => .crprod (g / 32)
      | _ => .crcons (g / 32)
    else if g < 0x128 then
      match (g - 0x100) / 8 with
      | 0 => .inventory
      | 1 => .evport
      | 2 => .svccmd
      | 3 => .attcmd
      | _ => .reset
    else .none

def busy (v : DWord) : Bool := v.getLsbD 63
def setBusy (v : DWord) (b : Bool) : DWord := word64 (v.toNat % 2 ^ 63 + b2n b * 2 ^ 63)

/-- INVENTORY (Table 205). Cores and channels of each die, and stations. -/
def inventory (s : State) : DWord :=
  let one (d : Nat) : Nat := s.cfg.cores.getD d 0 * 2 ^ (6 * d)
    + ((List.range 64).filter (chanPresent s d)).length * 2 ^ (24 + 7 * d)
  word64 (one 0 + one 1 + one 2 + one 3 + (s.cfg.stations - s.dev.stationsOff.length) * 2 ^ 52)

def monKind (s : State) (m : Nat) : Nat := s.cfg.mons.getD m 3
def monLimitOf (s : State) (d m : Nat) : BitVec 16 := (s.dev.monLimit.get (d * 64 + m)).getD 0x0550
/-- What a monitor reads. LIMIT belongs to temperature monitors alone: of the others it reads 0 and is not written (the model's
choice, log entry 88). -/
def monRead (s : State) (d m : Nat) : DWord :=
  let k := monKind s m
  word64 (k * 2 ^ 62 + (if k = 0 then (monLimitOf s d m).toNat * 65536 else 0)
    + (if k = 3 then 0 else (s.dev.monValue.get (d * 64 + m)).toNat))

/-- What a load of a register returns: write-only fields and reserved bits read 0 (R3). -/
def regRead (s : State) : Reg → DWord
  | .none => 0
  | .ptroot d => (s.die d).ptroot
  | .ptinv d => word64 (maskBits (s.die d).ptinv 63 63)
  | .sccarve d => (s.die d).sccarve
  | .lksweep d => (s.die d).lksweep
  | .schedcfg d => (s.die d).schedcfg
  | .preq d => (s.die d).preq
  | .rqbase d => (s.die d).rqbase
  | .rqsize d => word64 (rqLog s d)
  | .rqhead d => (s.die d).rqhead
  | .rqtail d => (s.die d).rqtail
  | .mon d m => monRead s d m
  | .mbstat c => (s.cregs c).mbstat
  | .dbgcmd c => (s.cregs c).dbgcmd
  | .dbgdata c => (s.cregs c).dbgdata
  | .crbase n => (s.ring n).base
  | .crctl n => (s.ring n).ctl
  | .crprod n => word64 (s.ring n).prod
  | .crcons n => word64 (s.ring n).cons
  | .inventory => inventory s
  | .evport => 0
  | .svccmd => s.dev.svccmd
  | .attcmd => s.dev.attcmd
  | .reset => 0

/-- The happening that a debugger command starts (Table 79). -/
def dbgEvent (op : Nat) : Instr :=
  match op with
  | 1 => .dbgHalt
  | 2 => .dbgResume
  | 3 => .dbgRead
  | 4 => .dbgWrite
  | 5 => .dbgCancelPending
  | 6 => .dbgStep
  | _ => .dbgUndefinedOp

/-- A write of DBGCMD: ignored while BUSY (Table 79). -/
def writeDbgcmd (s : State) (c : Nat) (v : DWord) : State :=
  let o := (s.cregs c).dbgcmd
  if busy o then s
  else
    let n := 2 ^ 63 + maskBits o 62 60 + maskBits v 55 34 + maskBits o 15 5
    (s.updCregs c fun r => { r with dbgcmd := word64 n }).add (dbgEvent (v.toNat % 16)) c

/-- MBSTAT is cleared by writing ones (Table 61). -/
def writeMbstat (s : State) (c : Nat) (v : DWord) : State :=
  let clear := (List.range 16).filter fun n => v.getLsbD n
  let s1 := { s with task := { s.task with
    mail := s.task.mail.put c ((s.task.mail.get c).filter fun p => !(clear.contains p.1)) } }
  s1.updCregs c fun r => { r with mbstat := r.mbstat &&& ~~~(v &&& 0xFFFF) }

/-- The happening that a service command starts (Table 205). -/
def svcEvent (op : Nat) : Instr :=
  match op with
  | 1 => .svcCoreOffline
  | 2 => .svcCoreOnline
  | 3 => .svcChannelRetrain
  | 4 => .svcStationRetrain
  | _ => .svcUndefinedOp

/-- A twelve-bit field at bit l that reads as 1 when it is 0 (Tables 64 and 70). -/
def orOne (v : DWord) (l : Nat) : Nat := if bits v.toNat (l + 11) l = 0 then 2 ^ l else maskBits v (l + 11) l

/-- CRCTL holds a size outside 4 to 20 as 4, and a TIMEOUT of 0 as 1 (Table 64). -/
def crctlHeld (v : DWord) : DWord :=
  let n := v.toNat % 32
  word64 (maskBits v 63 63 + orOne v 40 + maskBits v 39 32 + maskBits v 15 8 + (if 4 ≤ n ∧ n ≤ 20 then n else 4))

/-- A write of all eight bytes of a register. A write of ATTCMD that starts a report clears STATUS at once, where the manual does not
say what STATUS reads while the report is made (the model's choice, log entry 88). -/
def regWrite (s : State) (r : Reg) (v : DWord) : State :=
  match r with
  | .none => s
  | .ptroot d => s.updDie d fun x => { x with ptroot := word64 (maskBits v 43 14 + v.toNat % 2) }
  | .ptinv d =>
    if busy (s.die d).ptinv || !(v.getLsbD 0) then s
    else (s.updDie d fun x => { x with ptinv := word64 (2 ^ 63 + maskBits v 51 16 + v.toNat % 16) }).add .ptinvGo d
  | .sccarve d =>
    if busy (s.die d).sccarve then s
    else (s.updDie d fun x => { x with sccarve := setBusy x.sccarve true }).add .sccarveWrite d (v.toNat % 16)
  | .lksweep d =>
    let o := (s.die d).lksweep
    let go := v.getLsbD 8 && !(busy o)
    let s1 := s.updDie d fun x => { x with lksweep := word64 (v.toNat % 64 + b2n (busy o || go) * 2 ^ 63) }
    if go then s1.add .lksweepGo d (v.toNat % 64) else s1
  | .schedcfg d => s.updDie d fun x => { x with schedcfg := word64 (orOne v 32 + maskBits v 31 22 + v.toNat % 65536) }
  | .preq d =>
    let o := (s.die d).preq
    let go := v.getLsbD 8 && !(busy o)
    let s1 := s.updDie d fun x => { x with
      preq := word64 (v.toNat % 64 + maskBits v 9 9 + b2n (busy o || go) * 2 ^ 63) }
    if go then s1.add .preqGo d (v.toNat % 64) (bits v.toNat 9 9) else s1
  | .rqbase d => s.updDie d fun x => { x with rqbase := word64 (maskBits v 51 5) }
  | .rqsize d => s.updDie d fun x => { x with rqsize := word64 (v.toNat % 32) }
  | .rqhead d => s.updDie d fun x => { x with rqhead := word64 (v.toNat % 2 ^ 32) }
  | .rqtail _ => s
  | .mon d m =>
    if monKind s m = 0 then
      { s with dev := { s.dev with
          monLimit := s.dev.monLimit.put (d * 64 + m) (some (BitVec.ofNat 16 (bits v.toNat 31 16))) } }
    else s
  | .mbstat c => writeMbstat s c v
  | .dbgcmd c => writeDbgcmd s c v
  | .dbgdata c => s.updCregs c fun r => { r with dbgdata := v }
  | .crbase n => s.setRing n { s.ring n with base := word64 (maskBits v 51 5) }
  | .crctl n => s.setRing n { s.ring n with ctl := crctlHeld v }
  | .crprod _ => s
  | .crcons n => s.setRing n { s.ring n with cons := v.toNat % 2 ^ 32 }
  | .inventory => s
  | .evport => s.add .evportWrite 0 0 0 v
  | .svccmd =>
    if busy s.dev.svccmd then s
    else
      { s with dev := { s.dev with
          svccmd := word64 (2 ^ 63 + maskBits s.dev.svccmd 62 60 + v.toNat % 256) } }.add (svcEvent (bits v.toNat 10 8))
  | .attcmd =>
    if busy s.dev.attcmd then s
    else
      { s with dev := { s.dev with attcmd := word64 (2 ^ 63 + maskBits v 51 6) } }.add .attcmdWrite
  | .reset => if v.getLsbD 0 then s.add .resetGo else s

/-- Bytes of the region: each lies in its register. -/
def regBytes (s : State) (pa n : Nat) : List Byte :=
  (List.range n).map fun i => BitVec.ofNat 8 ((regRead s (regAt s ((pa + i) / 8 * 8))).toNat / 256 ^ ((pa + i) % 8))

/-- A store within one register: the bytes it does not cover are written as they read, and as 0 in MBSTAT, where
ones clear (log entry 16). -/
def regPut (s : State) (pa : Nat) (bs : List Byte) : State :=
  let a := pa / 8 * 8
  let r := regAt s a
  let old := leBytes 8 (match r with
    | .mbstat _ => 0
    | _ => (regRead s r).toNat)
  let off := pa % 8
  let new := (old.take off ++ bs.take (8 - off) ++ old.drop (off + bs.length)).take 8
  let s1 := regWrite s r (word64 (leNat new))
  if bs.length ≤ 8 - off then s1
  else
    let r2 := regAt s1 (a + 8)
    let rest := bs.drop (8 - off)
    regWrite s1 r2 (word64 (leNat ((rest ++ (leBytes 8 (regRead s1 r2).toNat).drop rest.length).take 8)))

/-- A run of bytes stored to the region, register by register. -/
def storeRegsFrom (s : State) (pa : Nat) : Nat → List Byte → State
  | 0, _ => s
  | k + 1, bs =>
    if bs.isEmpty then s
    else
      let n := 8 - pa % 8
      storeRegsFrom (regPut s pa (bs.take n)) (pa + n) k (bs.drop n)
def storeRegs (s : State) (pa : Nat) (bs : List Byte) : State := storeRegsFrom s pa (bs.length / 8 + 2) bs

/-! ## The host's windows (R452) -/

/-- Boot flash as BAR2 shows it: image k of R456's five and, as the sixth, the identity certificate at offset k × 8 MiB (the
model's choice, log entry 111). -/
def flashImage (s : State) (k : Nat) : List Byte :=
  if k = 1 then s.dev.nextImage.getD (s.dev.images.getD 1 [])
  else if k = 5 then s.dev.certificate else s.dev.images.getD k []
def flashByte (s : State) (off : Nat) : Byte := (flashImage s (off / 2 ^ 23)).getD (off % 2 ^ 23) 0xFF

/-- Bytes of an image rewritten at an offset. -/
def splice (l : List Byte) (off : Nat) (bs : List Byte) : List Byte :=
  (l ++ List.replicate (off - l.length) 0xFF).take off ++ bs ++ l.drop (off + bs.length)

/-- A write of flash: while the device runs the window is read-only (R452), and after a failed boot the images are rewritten
through it (R455). -/
def flashWrite (s : State) (off : Nat) (bs : List Byte) : State :=
  if s.power = .up then s
  else
    let k := off / 2 ^ 23
    let image := splice (flashImage s k) (off % 2 ^ 23) bs
    { s with dev := match k with
      | 1 => { s.dev with nextImage := some image, nextCfg := Config.recordOf image }
      | 5 => { s.dev with certificate := image }
      | _ => { s.dev with images := s.dev.images.set k image } }

/-- A register write from outside or, through another window, the write of eight bytes that the host makes. -/
def hostWrite (s : State) (bar x : Nat) (v : DWord) : State :=
  match bar with
  | 0 => regWrite s (regAt s (x / 8 * 8)) v
  | 2 => flashWrite s x (leBytes 8 v.toNat)
  | 4 => if x + 8 ≤ 2 ^ 26 then devPut s (s.cfg.winbase + x) (leBytes 8 v.toNat) else s
  | _ => s

/-- REGISTER_WRITE: a write from outside (R451, R452), `z` the BAR that it comes through: 0 with `x` the address of a register, 2
and 4 with `x` the offset in the window; `v` is the value. -/
def execRegisterWrite (s : State) : Host.Outcome State Fault Refusal := .next (hostWrite s s.cur.z s.cur.x s.cur.v)

/-- A write to EVPORT comes after every BAR4 write that the host made before it (R452). -/
def hostTurn (s : State) (h : Happening) : Bool :=
  !(h.z == 0 && regAt s (h.x / 8 * 8) == .evport
    && (s.agenda.takeWhile (· != h)).any fun g => g.what == .registerWrite && g.z == 4)

/-- What a device that does not run still answers: the host's writes to RESET and to boot flash, and the reset (R455). -/
def hostReaches (s : State) (h : Happening) : Bool :=
  h.what == .resetGo
  || (h.what == .registerWrite && (h.z == 2 || (h.z == 0 && regAt s (h.x / 8 * 8) == .reset)))

end Sys2Proof.Machine
end

