-- ==== Sys2Proof/Machine/Number.lean ====
section
/-! DEFINITION. Number formats (R298 to R309): decoding, the one rounding function (R303), exact sums
(R304), conversions (R305), scaled four-bit elements (R307, R308), the correctly rounded functions
(R325, R315), and the attention merge (R315). -/
namespace Sys2Proof.Machine

/-- Table 112. -/
inductive Rm where
  | rne | rtz | rup | rdn
  deriving DecidableEq, Repr, Inhabited

/-- A format of Table 111: width, precision, exponent of the smallest normal, the largest finite
magnitude, whether E all ones holds infinities, and the canonical NaN. -/
structure Fmt where
  width : Nat
  p : Nat
  emin : Int
  maxBits : Nat
  hasInf : Bool
  nan : Nat
  deriving DecidableEq, Repr, Inhabited

def b64 : Fmt := ⟨64, 53, -1022, 0x7FEFFFFFFFFFFFFF, true, 0x7FF8000000000000⟩
def b32 : Fmt := ⟨32, 24, -126, 0x7F7FFFFF, true, 0x7FC00000⟩
def b16 : Fmt := ⟨16, 11, -14, 0x7BFF, true, 0x7E00⟩
def bf16 : Fmt := ⟨16, 8, -126, 0x7F7F, true, 0x7FC0⟩
def e5m2 : Fmt := ⟨8, 3, -14, 0x7B, true, 0x7E⟩
def e4m3 : Fmt := ⟨8, 4, -6, 0x7E, false, 0x7F⟩

/-- What a bit pattern stands for: a NaN, an infinity, or (−1)^neg × m × 2^e. -/
inductive FVal where
  | nan
  | inf (neg : Bool)
  | fin (neg : Bool) (m : Nat) (e : Int)
  deriving DecidableEq, Repr, Inhabited

def fvSign (f : Fmt) (b : Nat) : Bool := bit b (f.width - 1)
def fvMag (f : Fmt) (b : Nat) : Nat := b % 2 ^ (f.width - 1)

/-- R298. -/
def fDecode (f : Fmt) (b : Nat) : FVal :=
  let neg := fvSign f b
  let mag := fvMag f b
  if mag > f.maxBits then (if f.hasInf && mag == f.maxBits + 1 then .inf neg else .nan)
  else
    let t := mag % 2 ^ (f.p - 1)
    let e := mag / 2 ^ (f.p - 1)
    if e = 0 then .fin neg t (f.emin - (f.p - 1 : Nat))
    else .fin neg (t + 2 ^ (f.p - 1)) (f.emin - (f.p - 1 : Nat) + ((e - 1 : Nat) : Int))

def fSigned (f : Fmt) (neg : Bool) (mag : Nat) : Nat := if neg then mag + 2 ^ (f.width - 1) else mag

/-- ±∞ in format F, or its canonical NaN where it has no infinity. -/
def fInf (f : Fmt) (neg : Bool) : Nat := if f.hasInf then fSigned f neg (f.maxBits + 1) else f.nan

/-- Table 113. -/
def overflowResult (f : Fmt) (rm : Rm) (neg : Bool) : Nat :=
  match rm, neg with
  | .rne, _ => fInf f neg
  | .rtz, _ => fSigned f neg f.maxBits
  | .rup, false => fInf f false
  | .rup, true => fSigned f true f.maxBits
  | .rdn, false => fSigned f false f.maxBits
  | .rdn, true => fInf f true

/-- Whether a magnitude lo + rem/2^d (plus something below one unit when `sticky`) moves up to lo + 1. -/
def roundsUp (rm : Rm) (neg : Bool) (lo rem d : Nat) (sticky : Bool) : Bool :=
  let inexact := rem != 0 || sticky
  match rm with
  | .rtz => false
  | .rup => inexact && !neg
  | .rdn => inexact && neg
  | .rne =>
    let half := 2 ^ (d - 1)
    if rem > half then true
    else if rem < half then false
    else sticky || lo % 2 == 1

/-- Shift a magnitude right by d bits with rounding; d ≥ 1. -/
def shiftRound (rm : Rm) (neg : Bool) (m d : Nat) (sticky : Bool) : Nat :=
  let lo := m / 2 ^ d
  let rem := m % 2 ^ d
  if roundsUp rm neg lo rem d sticky then lo + 1 else lo

/-- R303 for a non-zero real (−1)^neg × m × 2^e (a little more in magnitude when `sticky`). -/
def roundReal (f : Fmt) (rm : Rm) (sat : Bool) (neg : Bool) (m : Nat) (e : Int) (sticky : Bool) : Nat :=
  if m = 0 then fSigned f neg 0 else
  let top : Int := e + (Nat.log2 m : Int)
  let qmin : Int := f.emin - (f.p - 1 : Nat)
  let q : Int := max top f.emin - (f.p - 1 : Nat)
  let y := if q ≤ e then m * 2 ^ (e - q).toNat else shiftRound rm neg m (q - e).toNat sticky
  let mag := (q - qmin).toNat * 2 ^ (f.p - 1) + y
  if mag ≤ f.maxBits then fSigned f neg mag
  else if sat then fSigned f neg f.maxBits
  else overflowResult f rm neg

/-- Round(x, F, rm, sat) of R303. -/
def roundF (f : Fmt) (rm : Rm) (sat : Bool) : FVal → Nat
  | .nan => f.nan
  | .inf neg => if sat then fSigned f neg f.maxBits else fInf f neg
  | .fin neg m e => roundReal f rm sat neg m e false

/-- The product of two factors; 0 × ±∞ and a NaN factor give NaN. A zero keeps its sign (R304). -/
def fvMul : FVal → FVal → FVal
  | .nan, _ => .nan
  | _, .nan => .nan
  | .inf a, .inf b => .inf (a != b)
  | .inf a, .fin b m _ => if m = 0 then .nan else .inf (a != b)
  | .fin a m _, .inf b => if m = 0 then .nan else .inf (a != b)
  | .fin a m e, .fin b n g => .fin (a != b) (m * n) (e + g)

def fvNeg : FVal → FVal
  | .nan => .nan
  | .inf a => .inf (!a)
  | .fin a m e => .fin (!a) m e

/-- A finite value as an integer multiple of 2^q, for q at or below its exponent. -/
def fvAlign (q : Int) : FVal → Int
  | .fin neg m e => (if neg then -1 else 1) * ((m * 2 ^ (e - q).toNat : Nat) : Int)
  | _ => 0

def fvIsNan : FVal → Bool
  | .nan => true
  | _ => false
def fvIsInf (s : Bool) : FVal → Bool
  | .inf n => n == s
  | _ => false
def fvNegZero : FVal → Bool
  | .fin true 0 _ => true
  | _ => false
def fvExp : FVal → Option Int
  | .fin _ (_ + 1) e => some e
  | _ => none

/-- The least exponent among the non-zero finite terms. -/
def fvMinExp (l : List FVal) : Int :=
  match l.filterMap fvExp with
  | [] => 0
  | e :: t => t.foldl min e

/-- The exact sum of R304 as a value; `rdn` decides the sign of a zero sum. -/
def exactSum (rm : Rm) (l : List FVal) : FVal :=
  if l.any fvIsNan then .nan
  else if l.any (fvIsInf true) && l.any (fvIsInf false) then .nan
  else if l.any (fvIsInf true) then .inf true
  else if l.any (fvIsInf false) then .inf false
  else
    let q := fvMinExp l
    let v := l.foldl (fun a t => a + (match fvExp t with | some _ => fvAlign q t | none => 0)) (0 : Int)
    if v = 0 then .fin (l.all fvNegZero || rm == .rdn) 0 0
    else .fin (decide (v < 0)) v.natAbs q

/-- An exact sum rounded once (R304). -/
def sumRound (f : Fmt) (rm : Rm) (l : List FVal) : Nat := roundF f rm false (exactSum rm l)

def fAdd (f : Fmt) (rm : Rm) (a b : Nat) : Nat := sumRound f rm [fDecode f a, fDecode f b]
def fSub (f : Fmt) (rm : Rm) (a b : Nat) : Nat := sumRound f rm [fDecode f a, fvNeg (fDecode f b)]
/-- FMUL's special values: R322. -/
def fMul (f : Fmt) (rm : Rm) (a b : Nat) : Nat := roundF f rm false (fvMul (fDecode f a) (fDecode f b))
def fFma (f : Fmt) (rm : Rm) (a b d : Nat) : Nat :=
  sumRound f rm [fvMul (fDecode f a) (fDecode f b), fDecode f d]

def fIsNan (f : Fmt) (b : Nat) : Bool := fvIsNan (fDecode f b)

/-- A key that rises with the value, with −0 just below +0 (R323). -/
def fKeyZ (f : Fmt) (b : Nat) : Int :=
  if fvSign f b then -(fvMag f b : Int) - 1 else (fvMag f b : Int)
/-- A key that rises with the value, with −0 equal to +0 (R331). -/
def fKey (f : Fmt) (b : Nat) : Int := if fvSign f b then -(fvMag f b : Int) else (fvMag f b : Int)

/-- R323. -/
def fMin (f : Fmt) (a b : Nat) : Nat :=
  if fIsNan f a || fIsNan f b then f.nan else if fKeyZ f a ≤ fKeyZ f b then a else b
def fMax (f : Fmt) (a b : Nat) : Nat :=
  if fIsNan f a || fIsNan f b then f.nan else if fKeyZ f b ≤ fKeyZ f a then a else b

/-- An integer as a real value; zero is +0. -/
def fvOfInt (v : Int) : FVal := .fin (decide (v < 0)) v.natAbs 0

/-- Floating to integer under R305, before clamping: NaN gives none. -/
def toIntRound (rm : Rm) : FVal → Option (Option Bool × Int)
  | .nan => none
  | .inf neg => some (some neg, 0)
  | .fin neg m e =>
    let y : Nat := if 0 ≤ e then m * 2 ^ e.toNat else shiftRound rm neg m (-e).toNat false
    some (none, if neg then -(y : Int) else (y : Int))

def clampInt (lo hi v : Int) : Int := if v < lo then lo else if hi < v then hi else v

/-- An integer in two's complement of n bits. -/
def ofIntN (n : Nat) (v : Int) : Nat := (v % (2 ^ n : Nat)).toNat

/-- R305: rounded to an integer, then clamped; NaN gives 0 and infinities the range limits. -/
def toIntClamp (rm : Rm) (lo hi : Int) (v : FVal) : Int :=
  match toIntRound rm v with
  | none => 0
  | some (some neg, _) => if neg then lo else hi
  | some (none, x) => clampInt lo hi x

/-! ## Scaled four-bit elements -/

/-- Table 115: the magnitude as m × 2^e. -/
def q4Mag (ty j : Nat) : Nat × Int :=
  match ty, j with
  | _, 0 => (0, 0)
  | 1, j => match j with
    | 1 => (1, -1) | 2 => (1, 0) | 3 => (3, -1) | 4 => (2, 0) | 5 => (3, 0) | 6 => (4, 0) | _ => (6, 0)
  | 2, j => (1, (j : Int) - 7)
  | _, j => match j with
    | 1 => (1, 0) | 2 => (2, 0) | 3 => (3, 0) | 4 => (4, 0) | 5 => (6, 0) | 6 => (8, 0) | _ => (12, 0)

/-- R307, R308: the value of a four-bit code under a scale byte. -/
def q4Val (scale code : Nat) : FVal :=
  let ty := bits scale 7 6
  let e : Int := (bits scale 5 0 : Nat)
  if bits scale 5 0 = 63 then .nan
  else if ty = 0 then
    let v := sint 4 code
    .fin (decide (v < 0)) v.natAbs (e - 32)
  else
    let (m, x) := q4Mag ty (code % 8)
    .fin (bit code 3) m (x + e - 32)

/-! ## Square roots and the functions of R325 -/

/-- The integer square root, one bit at a time from 2^n down. -/
def isqrtBits (x : Nat) : Nat → Nat → Nat
  | 0, r => r
  | n + 1, r => let t := r + 2 ^ n; if t * t ≤ x then isqrtBits x n t else isqrtBits x n r

def isqrt (x : Nat) : Nat := isqrtBits x (Nat.log2 x / 2 + 1) 0

/-- The fixed-point scale 2^512 of the series below, and π and ln 2 in it. -/
def fxF : Nat := 512
def fxOne : Nat := 2 ^ 512
def fxPi : Nat :=
  0x3243F6A8885A308D313198A2E03707344A4093822299F31D0082EFA98EC4E6C89452821E638D01377BE5466CF34E90C6CC0AC29B7C97C50DD3F84D5B5B5470917
def fxLn2 : Nat :=
  0xB17217F7D1CF79ABC9E3B39803F2F6AF40F343267298B62D8A0D175B8BAAFA2BE7B876206DEBAC98559552FB4AFA1B10ED2EAE35C138214427573B291169B825

def fxMul (a b : Int) : Int := a * b / (fxOne : Int)

/-- Σ t^n/n! for a fixed-point t, `k` terms beyond the current one. -/
def fxExpLoop (t : Int) : Nat → Nat → Int → Int → Int
  | 0, _, _, acc => acc
  | k + 1, n, term, acc =>
    let term' := fxMul term t / (n : Int)
    fxExpLoop t k (n + 1) term' (acc + term')
/-- e^t for 0 ≤ t < 1. -/
def fxExp (t : Int) : Int := fxExpLoop t 110 1 fxOne fxOne

/-- Σ u^(2n+1)/(2n+1). -/
def fxAtanhLoop (u2 : Int) : Nat → Nat → Int → Int → Int
  | 0, _, _, acc => acc
  | k + 1, n, pw, acc =>
    let pw' := fxMul pw u2
    fxAtanhLoop u2 k (n + 2) pw' (acc + pw' / (n : Int))
/-- ln z for a fixed-point z in [1, 2): 2 atanh((z − 1)/(z + 1)). -/
def fxLn (z : Int) : Int :=
  let u := (z - fxOne) * fxOne / (z + fxOne)
  2 * fxAtanhLoop (fxMul u u) 165 3 u u

/-- Σ (−1)^n r^(2n+s)/(2n+s)!, starting from `term`. -/
def fxTrigLoop (r2 : Int) : Nat → Nat → Int → Int → Int
  | 0, _, _, acc => acc
  | k + 1, n, term, acc =>
    let term' := -(fxMul term r2) / ((n * (n + 1) : Nat) : Int)
    fxTrigLoop r2 k (n + 2) term' (acc + term')
def fxSin (r : Int) : Int := fxTrigLoop (fxMul r r) 52 2 r r
def fxCos (r : Int) : Int := fxTrigLoop (fxMul r r) 52 1 fxOne fxOne

/-- A finite value times 2^512, for exponents down to −512. -/
def fxOf (neg : Bool) (m : Nat) (e : Int) : Int :=
  let v : Int := ((m * 2 ^ (e + 512).toNat : Nat) : Int)
  if neg then -v else v

/-- A fixed-point result times 2^n, inexact, rounded to nearest even. -/
def roundFx (f : Fmt) (v : Int) (n : Int) : Nat :=
  roundReal f .rne false (decide (v < 0)) v.natAbs (n - 512) true

/-- 2^x rounded once to nearest even, x finite and not zero. -/
def fexp2Fin (neg : Bool) (m : Nat) (e : Int) : Nat :=
  if 200 ≤ e + (Nat.log2 m : Int) then (if neg then 0 else fInf b32 false)
  else
    let x := fxOf neg m e
    let n := x / fxOne
    let fr := x % fxOne
    if n > 1000 then fInf b32 false
    else if n < -1000 then 0
    else if fr = 0 then roundReal b32 .rne false false 1 n false
    else roundFx b32 (fxExp (fxMul fr fxLn2)) n

/-- e^x for a real x = ±m × 2^e, rounded once to binary32 (R315). -/
def expRound (neg : Bool) (m : Nat) (e : Int) : Nat :=
  if m = 0 then 0x3F800000
  else if 9 ≤ e + (Nat.log2 m : Int) then (if neg then 0 else fInf b32 false)
  else
    let x := fxOf neg m e
    let n := x / fxLn2
    roundFx b32 (fxExp (x - n * fxLn2)) n

def flog2Fin (m : Nat) (e : Int) : Nat :=
  let k := Nat.log2 m
  let n : Int := e + (k : Int)
  if m = 2 ^ k then roundF b32 .rne false (fvOfInt n)
  else
    let z : Int := ((m * 2 ^ (512 - k) : Nat) : Int)
    roundFx b32 (n * fxOne + fxLn z * fxOne / fxLn2) 0

/-- sin (k = 0) or cos (k = 1) of a finite value: the argument less a multiple of π/2. -/
def ftrigFin (k : Nat) (neg : Bool) (m : Nat) (e : Int) : Nat :=
  let x := fxOf neg m e
  let half : Int := (fxPi : Int)
  let n := (2 * (2 * x) + half) / (2 * half)
  let r := (2 * x - n * half) / 2
  let j := (n + (k : Int)) % 4
  let v := if j = 0 then fxSin r else if j = 1 then fxCos r else if j = 2 then -fxSin r else -fxCos r
  roundFx b32 v 0

/-- R325 with Table 122. -/
def fRcp (rm : Rm) (a : Nat) : Nat :=
  match fDecode b32 a with
  | .nan => b32.nan
  | .inf neg => fSigned b32 neg 0
  | .fin neg m e =>
    if m = 0 then fInf b32 neg
    else
      let k := Nat.log2 m + 60
      roundReal b32 rm false neg (2 ^ k / m) (-e - (k : Int)) (2 ^ k % m != 0)

def fSqrt (rm : Rm) (a : Nat) : Nat :=
  match fDecode b32 a with
  | .nan => b32.nan
  | .inf neg => if neg then b32.nan else fInf b32 false
  | .fin neg m e =>
    if m = 0 then fSigned b32 neg 0
    else if neg then b32.nan
    else
      let x := if e % 2 = 0 then m * 2 ^ 80 else m * 2 ^ 81
      let g := if e % 2 = 0 then e - 80 else e - 81
      let r := isqrt x
      roundReal b32 rm false false r (g / 2) (r * r != x)

def fRsq (a : Nat) : Nat :=
  match fDecode b32 a with
  | .nan => b32.nan
  | .inf neg => if neg then b32.nan else 0
  | .fin neg m e =>
    if m = 0 then fInf b32 neg
    else if neg then b32.nan
    else
      let n := if e % 2 = 0 then m else 2 * m
      let g := if e % 2 = 0 then e else e - 1
      let r := isqrt (2 ^ 180 / n)
      roundReal b32 .rne false false r (-90 - g / 2) (r * r * n != 2 ^ 180)

def fExp2 (a : Nat) : Nat :=
  match fDecode b32 a with
  | .nan => b32.nan
  | .inf neg => if neg then 0 else fInf b32 false
  | .fin neg m e => if m = 0 then 0x3F800000 else fexp2Fin neg m e

def fLog2 (a : Nat) : Nat :=
  match fDecode b32 a with
  | .nan => b32.nan
  | .inf neg => if neg then b32.nan else fInf b32 false
  | .fin neg m e => if m = 0 then fInf b32 true else if neg then b32.nan else flog2Fin m e

def fSin (a : Nat) : Nat :=
  match fDecode b32 a with
  | .fin neg m e => if m = 0 then fSigned b32 neg 0 else ftrigFin 0 neg m e
  | _ => b32.nan

def fCos (a : Nat) : Nat :=
  match fDecode b32 a with
  | .fin neg m e => if m = 0 then 0x3F800000 else ftrigFin 1 neg m e
  | _ => b32.nan

/-- Table 123. -/
def fClass (f : Fmt) (b : Nat) : Nat :=
  let neg := fvSign f b
  let mag := fvMag f b
  let bitNo := match fDecode f b with
    | .nan => if bit mag (f.p - 2) then 9 else 8
    | .inf _ => if neg then 0 else 7
    | .fin _ m _ =>
      if m = 0 then (if neg then 3 else 4)
      else if mag < 2 ^ (f.p - 1) then (if neg then 2 else 5)
      else (if neg then 1 else 6)
  2 ^ bitNo + (if bitNo ≥ 8 && neg then 1024 else 0)

/-! ## Attention triples (R315) -/

/-- (m, s, o) in binary32. -/
structure Triple where
  m : Nat
  s : Nat
  o : List Nat
  deriving DecidableEq, Repr, Inhabited

def tripleEmpty (d : Nat) : Triple := ⟨0xFF800000, 0, List.replicate d 0⟩
def Triple.isEmpty (t : Triple) : Bool := t.m == 0xFF800000 && t.s == 0 && t.o.all (· == 0)

/-- RoundFP32_RNE(e^(x − m)) with the exact real argument. -/
def mergeFactor (x m : Nat) : Nat :=
  if fKey b32 x = fKey b32 m then 0x3F800000
  else match exactSum .rne [fDecode b32 x, fvNeg (fDecode b32 m)] with
    | .nan => b32.nan
    | .inf neg => if neg then 0 else fInf b32 false
    | .fin neg k e => expRound neg k e

def mergeMix (f1 f2 a b : Nat) : Nat :=
  sumRound b32 .rne [fvMul (fDecode b32 a) (fDecode b32 f1), fvMul (fDecode b32 b) (fDecode b32 f2)]

def merge (t1 t2 : Triple) : Triple :=
  if t1.isEmpty then t2
  else if t2.isEmpty then t1
  else if fIsNan b32 t1.m || fIsNan b32 t2.m then ⟨b32.nan, b32.nan, t1.o.map fun _ => b32.nan⟩
  else
    let m := fMax b32 t1.m t2.m
    let f1 := mergeFactor t1.m m
    let f2 := mergeFactor t2.m m
    ⟨m, mergeMix f1 f2 t1.s t2.s, List.zipWith (mergeMix f1 f2) t1.o t2.o⟩

/-! ## The reduction tree of R314 -/

/-- One level: neighbours are summed, the lower rank first; an odd last node passes through. -/
def reduceLevel {α : Type} (f : α → α → α) : List α → List α
  | a :: b :: t => f a b :: reduceLevel f t
  | l => l

/-- The tree of R314 and R165 over `n` levels (an absent node is passed over). -/
def reduceTree {α : Type} (f : α → α → α) : Nat → List α → Option α
  | 0, l => l.head?
  | n + 1, l => reduceTree f n (reduceLevel f l)

/-- RoundF64_RNE(a + b). -/
def addF64 (a b : Nat) : Nat := fAdd b64 .rne a b
def addI64 (a b : Nat) : Nat := (a + b) % 2 ^ 64

/-- Widen an element exactly; a NaN becomes the canonical NaN (R330). -/
def widen (f g : Fmt) (b : Nat) : Nat := roundF g .rne false (fDecode f b)

end Sys2Proof.Machine
end

