-- ==== Sys2Proof/WellFormed.lean ====
section
/-! DEFINITION. Which operand values an instruction admits: the reserved values of Table 94 (0x041) and
the fields an instruction does not use (0x042), as the instruction chapters give them. -/
namespace Sys2Proof

/-- VCVT modes allowed by the kind of a conversion code (R330). -/
def vcvtOk (imm : BitVec 8) : Bool :=
  let code := imm.toNat / 8
  let rms := imm.toNat % 8
  if code ≥ 0x1B then false
  else if code ≥ 0x16 then rms == 0 || rms == 5
  else if (code ≥ 4 && code ≤ 7) || code == 0xA || code == 0xB || code == 0x11 || code == 0x14 then rms == 0
  else true

/-- The indices of Table 135. -/
def specialIndex (i : Nat) : Bool :=
  i ≤ 0x00A || (0x010 ≤ i && i ≤ 0x013) || (0x018 ≤ i && i ≤ 0x02B) || (0x030 ≤ i && i ≤ 0x035)
  || (0x038 ≤ i && i ≤ 0x040) || (0x050 ≤ i && i ≤ 0x052)
  || (0x100 ≤ i && i < 0x140 && i % 4 != 3) || i == 0x200 || i == 0x201

/-- The combinations of CPY's KIND, DKIND, PK, MC and SS that hold no reserved value (R382). -/
def cpyOk (o : UX) : Bool :=
  let kind := o.e.toNat
  let dk := o.h.toNat % 4
  let pk := bit o.h.toNat 3
  let mc := bit o.h.toNat 4
  let ss := bit o.h.toNat 5
  dk != 3 && !(pk && kind ≤ 1 && dk != 2) && !(kind == 3 && (!pk || dk != 0)) && !(pk && kind == 2)
    && !(mc && (!pk || kind == 3)) && !(ss && (kind != 0 || pk))

def lmNarrowLoadOk (o : LM) : Bool := !o.w
def lmNarrowStoreOk (o : LM) : Bool := !o.w && o.sz.toNat % 2 == 0
def lmWideOk (o : LM) : Bool := o.sz != 3 && !(o.w && o.sz == 0)
def lmPrefOk (o : LM) : Bool := o.sz != 3 && !o.w
def laOk (o : LA) : Bool := o.scope != 7

/-- With NOLANE set the va field and the Fa bit are unused (R246, R268). -/
def lmDispUnused (o : LM) (x : Disp) : Bool := !(x.nolane && (o.a != 0 || o.fa))
def laDispUnused (o : LA) (x : Disp) : Bool := !(x.nolane && o.a != 0)

/-- Every field that the instruction uses holds a value it admits: false raises 0x041 (R268). -/
def reservedOk : Instr → Bool
  | .vshli o | .vshri o | .vsari o => o.imm.toNat < 32
  | .vcvt o => vcvtOk o.imm
  | .vmov o => o.imm.toNat % 128 == 0
  | .fclass o => o.imm.toNat < 3
  | .vbcast o => o.imm.toNat < 64
  | .pset o => o.imm.toNat / 2048 != 0 && o.imm.toNat / 32 % 8 == 0
  | .vlane o | .vfibre o => o.imm.toNat ≤ 6
  | .vldN o | .vldsN o | .vldkN o => lmNarrowLoadOk o
  | .vldNd o _ | .vldsNd o _ | .vldkNd o _ => lmNarrowLoadOk o
  | .vstN o | .vstsN o => lmNarrowStoreOk o
  | .vstNd o _ | .vstsNd o _ => lmNarrowStoreOk o
  | .vldW o | .vstW o | .vldsW o | .vstsW o | .vldkW o => lmWideOk o
  | .vldWd o _ | .vstWd o _ | .vldsWd o _ | .vstsWd o _ | .vldkWd o _ => lmWideOk o
  | .vpref o => lmPrefOk o
  | .vprefD o _ => lmPrefOk o
  | .vatadd o | .vatmin o | .vatmax o | .vatand o | .vator o | .vatxor o | .vatxch o | .vatcas o => laOk o
  | .vataddD o _ | .vatminD o _ | .vatmaxD o _ | .vatandD o _ | .vatorD o _ | .vatxorD o _
  | .vatxchD o _ | .vatcasD o _ => laOk o
  | .smin o | .smax o | .fspawn o => o.f.toNat < 2
  | .scmp o => o.d.toNat < 8 && o.f.toNat % 16 < 10
  | .ssel o => o.f.toNat < 16
  | .sld o => o.f.toNat < 16 && !(bit o.f.toNat 2 && o.f.toNat % 4 == 3) && !(bit o.f.toNat 3 && o.f.toNat % 4 != 3)
  | .sst o => o.f.toNat < 16 && !(bit o.f.toNat 2) && !(bit o.f.toNat 3 && o.f.toNat % 4 != 3)
  | .pmsel o => o.f.toNat < 4
  | .smovhi o => o.imm.toNat < 65536
  | .sreadl o => o.imm.toNat < 16384 && !(bit o.imm.toNat 12 && o.imm.toNat / 64 % 64 != 0)
  | .svote o => o.imm.toNat < 512 && !(!(bit o.imm.toNat 5) && o.imm.toNat / 64 != 0)
  | .setwin o => o.imm.toNat < 8
  | .rep o => o.imm.toNat % 32 == 0
  | .trap o | .bufq o => o.imm.toNat < 64
  | .srd o | .swr o => o.imm.toNat < 4096 && specialIndex o.imm.toNat
  | .brx o => o.e != 3
  | .fence o => o.m != 7
  | .cpy o => cpyOk o
  | .cpym o => o.e.toNat < 2 && (o.h.toNat == 0 || o.h.toNat == 4 || o.h.toNat == 8 || o.h.toNat == 12)
  | .waitc o => o.m.toNat < 5
  | .bufsetCfg o => o.e == 0
  | .sbarrive o => o.e.toNat < 2
  | .sbwait o => o.m.toNat < 2
  | .ufset o => o.e.toNat < 2
  | .accred o => o.h.toNat < 8 && o.m.toNat < 2
  | .nodeput o => o.h.toNat < 16 && o.e.toNat < 2
  | .attq o => o.m.toNat < 2
  | .mmaE4m3 o | .mmaE5m2 o => !(bit o.s.toNat 0)
  | .mmaQ4 o | .mmaI4 o => o.dd
  | _ => true

def urZero (o : UR) : Bool := o.d == 0 && o.a == 0 && o.c == 0 && o.f == 0
def kZero (o : UM) : Bool := o.ka == 0 && o.kb == 0

/-- Every field that the instruction does not use is zero: false raises 0x042 (R268). -/
def unusedOk : Instr → Bool
  | .vclz o | .vpopc o | .fabs o | .fneg o | .frcp o | .frsq o | .fsqrt o | .fexp2 o | .flog2 o
  | .fsin o | .fcos o => o.imm == 0
  | .vmovUniform o => o.a == 0
  | .vpref o => o.d == 0
  | .vprefD o x => o.d == 0 && lmDispUnused o x
  | .vldNd o x | .vldWd o x | .vstNd o x | .vstWd o x | .vldsNd o x | .vldsWd o x | .vstsNd o x
  | .vstsWd o x | .vldkNd o x | .vldkWd o x => lmDispUnused o x
  | .vataddD o x | .vatminD o x | .vatmaxD o x | .vatandD o x | .vatorD o x | .vatxorD o x
  | .vatxchD o x | .vatcasD o x => laDispUnused o x
  | .nop o | .ret o | .fend o | .yield o | .bar o | .eret o | .jobend o => urZero o
  | .sadd o | .ssub o | .smul o | .sand o | .sor o | .sxor o | .sshl o | .sshr o | .ssar o
  | .llock o | .futreg o | .seqapp o | .spanret o => o.f == 0
  | .spopc o | .sclz o | .evpoll o | .futget o => o.c == 0 && o.f == 0
  | .callx o | .evsig o | .evwait o | .opsub o | .replay o => o.d == 0 && o.c == 0 && o.f == 0
  | .lfree o | .futres o | .seqfork o | .spantag o => o.d == 0 && o.f == 0
  | .pmsel o => o.a == 0 && o.c == 0
  | .call o | .setwin o => o.d == 0
  | .brx o => if o.e == 0 then o.h == 0 && o.m == 0 else if o.e == 1 then o.c == 0 && o.m == 0
              else o.h == 0 && o.c == 0
  | .fence o => o.h == 0 && o.a == 0 && o.c == 0
  | .cpy o | .cpym o => !(bit o.h.toNat 3 && o.m != 0)
  | .cpyc o => o.e == 0 && o.h == 0 && o.c == 0
  | .waitc o => o.e == 0 && o.a == 0 && o.c == 0
  | .bufsetCfg o => o.m == 0
  | .bufsetRel o => o.a == 0 && o.c == 0 && o.m == 0
  | .sbinit o | .sbexpect o => o.e == 0 && o.h == 0 && o.m == 0
  | .sbarrive o => o.c == 0 && o.h == 0 && o.m == 0
  | .sbwait o => o.e == 0 && o.h == 0 && o.c == 0
  | .ufset o => o.c == 0
  | .accred o | .attq o => o.e == 0
  | .nodeput o => o.m == 0
  | .mmaBf16 o | .mmaFp16 o | .mmaI4 o => kZero o && o.s == 0
  | .mmaE4m3 o | .mmaE5m2 o | .mmaI8 o => kZero o
  | .accz o => o.a == 0 && o.c == 0 && kZero o && o.s == 0 && !o.z && !o.dd
  | .accld o => kZero o && o.s == 0 && !o.z && !o.dd
  | .accst o => kZero o && o.s == 0 && !o.dd
  | _ => true

/-- The bits that choose between two rows of one opcode: VMOV's U and BUFSET's e2. -/
def rowOk : Instr → Bool
  | .vmov o => o.imm.toNat < 128
  | .vmovUniform o => o.imm.toNat ≥ 128
  | .bufsetCfg o => o.e != 1
  | .bufsetRel o => o.e == 1
  | _ => true

abbrev Instr.wellFormed (i : Instr) : Bool := rowOk i && reservedOk i && unusedOk i

end Sys2Proof
end

