-- ==== Sys2Proof/Decode.lean ====
section
/-! DEFINITION. Words to instructions and back (R240 to R247, Tables 88 and 90). -/
namespace Sys2Proof

/-- The n bits of a word from bit lo upward. -/
def fld (w lo n : Nat) : BitVec n := BitVec.ofNat n (w / 2 ^ lo)
def flag (w i : Nat) : Bool := (w / 2 ^ i) % 2 == 1

def getLR (w : Nat) : LR :=
  { b := flag w 30, p := fld w 27 3, d := fld w 14 6, a := fld w 8 6, v := fld w 2 6, fa := flag w 1, fb := flag w 0 }
def getLI (w : Nat) : LI := { b := flag w 30, p := fld w 27 3, d := fld w 14 6, a := fld w 8 6, imm := fld w 0 8 }
def getLW (w : Nat) : LW := { b := flag w 30, p := fld w 27 3, d := fld w 14 6, imm := fld w 0 14 }
def getLM (w : Nat) : LM :=
  { b := flag w 30, p := fld w 27 3, d := fld w 14 6, a := fld w 8 6, sb := fld w 4 4, sz := fld w 2 2, w := flag w 1, fa := flag w 0 }
def getLA (w : Nat) : LA :=
  { b := flag w 30, p := fld w 27 3, d := fld w 14 6, a := fld w 8 6, sb := fld w 4 4, scope := fld w 1 3, w := flag w 0 }
def getDisp (w : Nat) : Disp := { nolane := flag w 31, disp := fld w 0 31 }
def getUR (w : Nat) : UR := { b := flag w 30, d := fld w 17 6, a := fld w 11 6, c := fld w 5 6, f := fld w 0 5 }
def getUI (w : Nat) : UI := { b := flag w 30, d := fld w 17 6, imm := fld w 0 17 }
def getUB (w : Nat) : UB := { b := flag w 30, n := flag w 22, k := fld w 19 3, off := fld w 0 19 }
def getUX (w : Nat) : UX :=
  { b := flag w 30, e := fld w 21 2, h := fld w 15 6, a := fld w 9 6, c := fld w 3 6, m := fld w 0 3 }
def getUM (w : Nat) : UM :=
  { b := flag w 30, t := fld w 20 3, a := fld w 14 6, c := fld w 8 6, ka := fld w 6 2, kb := fld w 4 2, s := fld w 2 2,
    z := flag w 1, dd := flag w 0 }

/-- A lane word whose opcode is assigned (Table 88), with its displacement word `dw` for a displaced form. -/
def rawLane (w dw : Nat) : Option Instr :=
  match w / 2 ^ 20 % 128 with
  | 0x01 => some (.vadd (getLR w))
  | 0x02 => some (.vaddi (getLI w))
  | 0x03 => some (.vsub (getLR w))
  | 0x04 => some (.vmul (getLR w))
  | 0x05 => some (.vmulh (getLR w))
  | 0x06 => some (.vmulhz (getLR w))
  | 0x07 => some (.vmad (getLR w))
  | 0x08 => some (.vand (getLR w))
  | 0x09 => some (.vandi (getLI w))
  | 0x0A => some (.vor (getLR w))
  | 0x0B => some (.vori (getLI w))
  | 0x0C => some (.vxor (getLR w))
  | 0x0D => some (.vxori (getLI w))
  | 0x0E => some (.vshl (getLR w))
  | 0x0F => some (.vshli (getLI w))
  | 0x10 => some (.vshr (getLR w))
  | 0x11 => some (.vshri (getLI w))
  | 0x12 => some (.vsar (getLR w))
  | 0x13 => some (.vsari (getLI w))
  | 0x14 => some (.vmin (getLR w))
  | 0x15 => some (.vmax (getLR w))
  | 0x16 => some (.vminz (getLR w))
  | 0x17 => some (.vmaxz (getLR w))
  | 0x18 => some (.vabsd (getLR w))
  | 0x19 => some (.vclz (getLI w))
  | 0x1A => some (.vpopc (getLI w))
  | 0x1B => some (.vbfx (getLR w))
  | 0x1C => some (.vbfi (getLR w))
  | 0x20 => some (.fadd (getLR w))
  | 0x21 => some (.fsub (getLR w))
  | 0x22 => some (.fmul (getLR w))
  | 0x23 => some (.ffma (getLR w))
  | 0x24 => some (.fmin (getLR w))
  | 0x25 => some (.fmax (getLR w))
  | 0x26 => some (.fabs (getLI w))
  | 0x27 => some (.fneg (getLI w))
  | 0x28 => some (.frcp (getLI w))
  | 0x29 => some (.frsq (getLI w))
  | 0x2A => some (.fsqrt (getLI w))
  | 0x2B => some (.fexp2 (getLI w))
  | 0x2C => some (.flog2 (getLI w))
  | 0x2D => some (.fsin (getLI w))
  | 0x2E => some (.fcos (getLI w))
  | 0x2F => some (.fclass (getLI w))
  | 0x30 => some (.dadd (getLR w))
  | 0x31 => some (.dsub (getLR w))
  | 0x32 => some (.dmul (getLR w))
  | 0x33 => some (.dfma (getLR w))
  | 0x34 => some (.dmin (getLR w))
  | 0x35 => some (.dmax (getLR w))
  | 0x36 => some (.dcmp (getLR w))
  | 0x38 => some (.hadd2 (getLR w))
  | 0x39 => some (.hmul2 (getLR w))
  | 0x3A => some (.hfma2 (getLR w))
  | 0x3B => some (.hmax2 (getLR w))
  | 0x3C => some (.badd2 (getLR w))
  | 0x3D => some (.bmul2 (getLR w))
  | 0x3E => some (.bfma2 (getLR w))
  | 0x3F => some (.bmax2 (getLR w))
  | 0x40 => some (.vcmp (getLR w))
  | 0x41 => some (.fcmp (getLR w))
  | 0x42 => some (.pset (getLW w))
  | 0x43 => some (.vsel (getLR w))
  | 0x44 => some (.vcvt (getLI w))
  | 0x45 => if flag w 7 then some (.vmovUniform (getLI w)) else some (.vmov (getLI w))
  | 0x46 => some (.vmovi (getLW w))
  | 0x47 => some (.vbcast (getLI w))
  | 0x48 => some (.vshuf (getLR w))
  | 0x49 => some (.vpermb (getLR w))
  | 0x4A => some (.vlane (getLW w))
  | 0x4B => some (.vfibre (getLW w))
  | 0x4C => some (.kvx (getLR w))
  | 0x4D => some (.kvxr (getLR w))
  | 0x50 => some (.vldN (getLM w))
  | 0x51 => some (.vldNd (getLM w) (getDisp dw))
  | 0x52 => some (.vldW (getLM w))
  | 0x53 => some (.vldWd (getLM w) (getDisp dw))
  | 0x54 => some (.vstN (getLM w))
  | 0x55 => some (.vstNd (getLM w) (getDisp dw))
  | 0x56 => some (.vstW (getLM w))
  | 0x57 => some (.vstWd (getLM w) (getDisp dw))
  | 0x58 => some (.vldsN (getLM w))
  | 0x59 => some (.vldsNd (getLM w) (getDisp dw))
  | 0x5A => some (.vldsW (getLM w))
  | 0x5B => some (.vldsWd (getLM w) (getDisp dw))
  | 0x5C => some (.vstsN (getLM w))
  | 0x5D => some (.vstsNd (getLM w) (getDisp dw))
  | 0x5E => some (.vstsW (getLM w))
  | 0x5F => some (.vstsWd (getLM w) (getDisp dw))
  | 0x60 => some (.vldkN (getLM w))
  | 0x61 => some (.vldkNd (getLM w) (getDisp dw))
  | 0x62 => some (.vldkW (getLM w))
  | 0x63 => some (.vldkWd (getLM w) (getDisp dw))
  | 0x64 => some (.vpref (getLM w))
  | 0x65 => some (.vprefD (getLM w) (getDisp dw))
  | 0x68 => some (.vatadd (getLA w))
  | 0x69 => some (.vataddD (getLA w) (getDisp dw))
  | 0x6A => some (.vatmin (getLA w))
  | 0x6B => some (.vatminD (getLA w) (getDisp dw))
  | 0x6C => some (.vatmax (getLA w))
  | 0x6D => some (.vatmaxD (getLA w) (getDisp dw))
  | 0x6E => some (.vatand (getLA w))
  | 0x6F => some (.vatandD (getLA w) (getDisp dw))
  | 0x70 => some (.vator (getLA w))
  | 0x71 => some (.vatorD (getLA w) (getDisp dw))
  | 0x72 => some (.vatxor (getLA w))
  | 0x73 => some (.vatxorD (getLA w) (getDisp dw))
  | 0x74 => some (.vatxch (getLA w))
  | 0x75 => some (.vatxchD (getLA w) (getDisp dw))
  | 0x76 => some (.vatcas (getLA w))
  | 0x77 => some (.vatcasD (getLA w) (getDisp dw))
  | _ => none

/-- A uniform word whose opcode is assigned (Table 90). -/
def rawUniform (w : Nat) : Option Instr :=
  match w / 2 ^ 23 % 128 with
  | 0x00 => some (.nop (getUR w))
  | 0x01 => some (.sadd (getUR w))
  | 0x02 => some (.saddi (getUI w))
  | 0x03 => some (.ssub (getUR w))
  | 0x04 => some (.smul (getUR w))
  | 0x05 => some (.sand (getUR w))
  | 0x06 => some (.sor (getUR w))
  | 0x07 => some (.sxor (getUR w))
  | 0x08 => some (.sshl (getUR w))
  | 0x09 => some (.sshr (getUR w))
  | 0x0A => some (.ssar (getUR w))
  | 0x0B => some (.smin (getUR w))
  | 0x0C => some (.smax (getUR w))
  | 0x0D => some (.smovi (getUI w))
  | 0x0E => some (.smovhi (getUI w))
  | 0x0F => some (.scmp (getUR w))
  | 0x10 => some (.ssel (getUR w))
  | 0x11 => some (.spopc (getUR w))
  | 0x12 => some (.sclz (getUR w))
  | 0x13 => some (.sreadl (getUI w))
  | 0x14 => some (.svote (getUI w))
  | 0x18 => some (.sld (getUR w))
  | 0x19 => some (.sst (getUR w))
  | 0x1A => some (.satom (getUR w))
  | 0x20 => some (.br (getUB w))
  | 0x21 => some (.brx (getUX w))
  | 0x22 => some (.call (getUI w))
  | 0x23 => some (.callx (getUR w))
  | 0x24 => some (.ret (getUR w))
  | 0x25 => some (.fspawn (getUR w))
  | 0x26 => some (.fend (getUR w))
  | 0x27 => some (.setwin (getUI w))
  | 0x28 => some (.rep (getUI w))
  | 0x29 => some (.yield (getUR w))
  | 0x2A => some (.bar (getUR w))
  | 0x2B => some (.trap (getUI w))
  | 0x2C => some (.eret (getUR w))
  | 0x2D => some (.srd (getUI w))
  | 0x2E => some (.swr (getUI w))
  | 0x30 => some (.fence (getUX w))
  | 0x31 => some (.llock (getUR w))
  | 0x32 => some (.lfree (getUR w))
  | 0x38 => some (.cpy (getUX w))
  | 0x39 => some (.cpyc (getUX w))
  | 0x3A => some (.cpym (getUX w))
  | 0x3B => some (.waitc (getUX w))
  | 0x3C => some (.bufq (getUI w))
  | 0x3D => if w / 2 ^ 21 % 4 == 1 then some (.bufsetRel (getUX w)) else some (.bufsetCfg (getUX w))
  | 0x3E => some (.sbinit (getUX w))
  | 0x3F => some (.sbexpect (getUX w))
  | 0x40 => some (.sbarrive (getUX w))
  | 0x41 => some (.sbwait (getUX w))
  | 0x42 => some (.ufset (getUX w))
  | 0x48 => some (.mmaBf16 (getUM w))
  | 0x49 => some (.mmaFp16 (getUM w))
  | 0x4A => some (.mmaE4m3 (getUM w))
  | 0x4B => some (.mmaE5m2 (getUM w))
  | 0x4C => some (.mmaQ4 (getUM w))
  | 0x4D => some (.mmaI8 (getUM w))
  | 0x4E => some (.mmaI4 (getUM w))
  | 0x4F => some (.accz (getUM w))
  | 0x50 => some (.accld (getUM w))
  | 0x51 => some (.accst (getUM w))
  | 0x52 => some (.accred (getUX w))
  | 0x58 => some (.evsig (getUR w))
  | 0x59 => some (.evwait (getUR w))
  | 0x5A => some (.evpoll (getUR w))
  | 0x5B => some (.futres (getUR w))
  | 0x5C => some (.futreg (getUR w))
  | 0x5D => some (.futget (getUR w))
  | 0x5E => some (.nodeput (getUX w))
  | 0x5F => some (.opsub (getUR w))
  | 0x60 => some (.jobend (getUR w))
  | 0x68 => some (.seqapp (getUR w))
  | 0x69 => some (.seqfork (getUR w))
  | 0x6A => some (.spantag (getUR w))
  | 0x6B => some (.spanret (getUR w))
  | 0x6C => some (.attq (getUX w))
  | 0x70 => some (.pmsel (getUR w))
  | 0x71 => some (.replay (getUR w))
  | _ => none

/-- The instruction that a word's opcode names, before any check of its fields. -/
def rawDecode (w dw : Nat) : Option Instr := if flag w 31 then rawUniform w else rawLane w dw

/-- Whether a word is a displaced form, followed by a displacement word (R246). -/
def isDisplaced (w : Nat) : Bool :=
  let op := w / 2 ^ 20 % 128
  !(flag w 31) && ((0x50 ≤ op && op < 0x66) || (0x68 ≤ op && op < 0x78)) && op % 2 == 1

/-- Why a word is not an instruction, whatever the bank's features (Table 94). -/
inductive Reject where
  | undefinedOpcode   -- 0x040
  | reservedValue     -- 0x041
  | unusedField       -- 0x042
  | truncated         -- fewer bytes than the instruction has
  deriving DecidableEq, Repr, Inhabited

/-- The checks of Table 94 that need no state, in its order. -/
def checkFields (i : Instr) : Except Reject Instr :=
  if !(reservedOk i) then .error .reservedValue
  else if !(unusedOk i) then .error .unusedField
  else .ok i

/-- One instruction from the bytes of a plain function, and the bytes after it. -/
def decode (bs : List Byte) : Except Reject (Instr × List Byte) :=
  match bs with
  | b0 :: b1 :: b2 :: b3 :: t =>
    let w := leNat [b0, b1, b2, b3]
    if isDisplaced w then
      match t with
      | d0 :: d1 :: d2 :: d3 :: t' =>
        match rawDecode w (leNat [d0, d1, d2, d3]) with
        | none => .error .undefinedOpcode
        | some i => (checkFields i).map fun i => (i, t')
      | _ => .error .truncated
    else
      match rawDecode w 0 with
      | none => .error .undefinedOpcode
      | some i => (checkFields i).map fun i => (i, t)
  | _ => .error .truncated

/-- The instruction read from a table word: the words lie little-endian, the first at the lowest address. -/
def decodeTableWord (_nbits w : Nat) : Option Instr :=
  match decode (leBytes 8 w) with
  | .ok (i, _) => some i
  | .error _ => none

/-! ## The encoder (Tables 80 to 83) -/

def encLR (op : Nat) (o : LR) : Nat :=
  b2n o.b * 2 ^ 30 + o.p.toNat * 2 ^ 27 + op * 2 ^ 20 + o.d.toNat * 2 ^ 14 + o.a.toNat * 2 ^ 8 + o.v.toNat * 4 + b2n o.fa * 2 + b2n o.fb
def encLI (op : Nat) (o : LI) : Nat :=
  b2n o.b * 2 ^ 30 + o.p.toNat * 2 ^ 27 + op * 2 ^ 20 + o.d.toNat * 2 ^ 14 + o.a.toNat * 2 ^ 8 + o.imm.toNat
def encLW (op : Nat) (o : LW) : Nat :=
  b2n o.b * 2 ^ 30 + o.p.toNat * 2 ^ 27 + op * 2 ^ 20 + o.d.toNat * 2 ^ 14 + o.imm.toNat
def encLM (op : Nat) (o : LM) : Nat :=
  b2n o.b * 2 ^ 30 + o.p.toNat * 2 ^ 27 + op * 2 ^ 20 + o.d.toNat * 2 ^ 14 + o.a.toNat * 2 ^ 8 + o.sb.toNat * 16 + o.sz.toNat * 4
    + b2n o.w * 2 + b2n o.fa
def encLA (op : Nat) (o : LA) : Nat :=
  b2n o.b * 2 ^ 30 + o.p.toNat * 2 ^ 27 + op * 2 ^ 20 + o.d.toNat * 2 ^ 14 + o.a.toNat * 2 ^ 8 + o.sb.toNat * 16 + o.scope.toNat * 2 + b2n o.w
def encDisp (x : Disp) : Nat := b2n x.nolane * 2 ^ 31 + x.disp.toNat
def encUR (op : Nat) (o : UR) : Nat :=
  2 ^ 31 + b2n o.b * 2 ^ 30 + op * 2 ^ 23 + o.d.toNat * 2 ^ 17 + o.a.toNat * 2 ^ 11 + o.c.toNat * 32 + o.f.toNat
def encUI (op : Nat) (o : UI) : Nat := 2 ^ 31 + b2n o.b * 2 ^ 30 + op * 2 ^ 23 + o.d.toNat * 2 ^ 17 + o.imm.toNat
def encUB (op : Nat) (o : UB) : Nat :=
  2 ^ 31 + b2n o.b * 2 ^ 30 + op * 2 ^ 23 + b2n o.n * 2 ^ 22 + o.k.toNat * 2 ^ 19 + o.off.toNat
def encUX (op : Nat) (o : UX) : Nat :=
  2 ^ 31 + b2n o.b * 2 ^ 30 + op * 2 ^ 23 + o.e.toNat * 2 ^ 21 + o.h.toNat * 2 ^ 15 + o.a.toNat * 2 ^ 9 + o.c.toNat * 8 + o.m.toNat
def encUM (op : Nat) (o : UM) : Nat :=
  2 ^ 31 + b2n o.b * 2 ^ 30 + op * 2 ^ 23 + o.t.toNat * 2 ^ 20 + o.a.toNat * 2 ^ 14 + o.c.toNat * 2 ^ 8 + o.ka.toNat * 64 + o.kb.toNat * 16
    + o.s.toNat * 4 + b2n o.z * 2 + b2n o.dd

/-- The words of an instruction, the first first; a happening of the device has none. -/
def encodeWords : Instr → List Nat
  | .vadd o => [encLR 0x01 o]
  | .vaddi o => [encLI 0x02 o]
  | .vsub o => [encLR 0x03 o]
  | .vmul o => [encLR 0x04 o]
  | .vmulh o => [encLR 0x05 o]
  | .vmulhz o => [encLR 0x06 o]
  | .vmad o => [encLR 0x07 o]
  | .vand o => [encLR 0x08 o]
  | .vandi o => [encLI 0x09 o]
  | .vor o => [encLR 0x0A o]
  | .vori o => [encLI 0x0B o]
  | .vxor o => [encLR 0x0C o]
  | .vxori o => [encLI 0x0D o]
  | .vshl o => [encLR 0x0E o]
  | .vshli o => [encLI 0x0F o]
  | .vshr o => [encLR 0x10 o]
  | .vshri o => [encLI 0x11 o]
  | .vsar o => [encLR 0x12 o]
  | .vsari o => [encLI 0x13 o]
  | .vmin o => [encLR 0x14 o]
  | .vmax o => [encLR 0x15 o]
  | .vminz o => [encLR 0x16 o]
  | .vmaxz o => [encLR 0x17 o]
  | .vabsd o => [encLR 0x18 o]
  | .vclz o => [encLI 0x19 o]
  | .vpopc o => [encLI 0x1A o]
  | .vbfx o => [encLR 0x1B o]
  | .vbfi o => [encLR 0x1C o]
  | .fadd o => [encLR 0x20 o]
  | .fsub o => [encLR 0x21 o]
  | .fmul o => [encLR 0x22 o]
  | .ffma o => [encLR 0x23 o]
  | .fmin o => [encLR 0x24 o]
  | .fmax o => [encLR 0x25 o]
  | .fabs o => [encLI 0x26 o]
  | .fneg o => [encLI 0x27 o]
  | .frcp o => [encLI 0x28 o]
  | .frsq o => [encLI 0x29 o]
  | .fsqrt o => [encLI 0x2A o]
  | .fexp2 o => [encLI 0x2B o]
  | .flog2 o => [encLI 0x2C o]
  | .fsin o => [encLI 0x2D o]
  | .fcos o => [encLI 0x2E o]
  | .fclass o => [encLI 0x2F o]
  | .dadd o => [encLR 0x30 o]
  | .dsub o => [encLR 0x31 o]
  | .dmul o => [encLR 0x32 o]
  | .dfma o => [encLR 0x33 o]
  | .dmin o => [encLR 0x34 o]
  | .dmax o => [encLR 0x35 o]
  | .dcmp o => [encLR 0x36 o]
  | .hadd2 o => [encLR 0x38 o]
  | .hmul2 o => [encLR 0x39 o]
  | .hfma2 o => [encLR 0x3A o]
  | .hmax2 o => [encLR 0x3B o]
  | .badd2 o => [encLR 0x3C o]
  | .bmul2 o => [encLR 0x3D o]
  | .bfma2 o => [encLR 0x3E o]
  | .bmax2 o => [encLR 0x3F o]
  | .vcmp o => [encLR 0x40 o]
  | .fcmp o => [encLR 0x41 o]
  | .pset o => [encLW 0x42 o]
  | .vsel o => [encLR 0x43 o]
  | .vcvt o => [encLI 0x44 o]
  | .vmov o => [encLI 0x45 o]
  | .vmovUniform o => [encLI 0x45 o]
  | .vmovi o => [encLW 0x46 o]
  | .vbcast o => [encLI 0x47 o]
  | .vshuf o => [encLR 0x48 o]
  | .vpermb o => [encLR 0x49 o]
  | .vlane o => [encLW 0x4A o]
  | .vfibre o => [encLW 0x4B o]
  | .kvx o => [encLR 0x4C o]
  | .kvxr o => [encLR 0x4D o]
  | .vldN o => [encLM 0x50 o]
  | .vldNd o x => [encLM 0x51 o, encDisp x]
  | .vldW o => [encLM 0x52 o]
  | .vldWd o x => [encLM 0x53 o, encDisp x]
  | .vstN o => [encLM 0x54 o]
  | .vstNd o x => [encLM 0x55 o, encDisp x]
  | .vstW o => [encLM 0x56 o]
  | .vstWd o x => [encLM 0x57 o, encDisp x]
  | .vldsN o => [encLM 0x58 o]
  | .vldsNd o x => [encLM 0x59 o, encDisp x]
  | .vldsW o => [encLM 0x5A o]
  | .vldsWd o x => [encLM 0x5B o, encDisp x]
  | .vstsN o => [encLM 0x5C o]
  | .vstsNd o x => [encLM 0x5D o, encDisp x]
  | .vstsW o => [encLM 0x5E o]
  | .vstsWd o x => [encLM 0x5F o, encDisp x]
  | .vldkN o => [encLM 0x60 o]
  | .vldkNd o x => [encLM 0x61 o, encDisp x]
  | .vldkW o => [encLM 0x62 o]
  | .vldkWd o x => [encLM 0x63 o, encDisp x]
  | .vpref o => [encLM 0x64 o]
  | .vprefD o x => [encLM 0x65 o, encDisp x]
  | .vatadd o => [encLA 0x68 o]
  | .vataddD o x => [encLA 0x69 o, encDisp x]
  | .vatmin o => [encLA 0x6A o]
  | .vatminD o x => [encLA 0x6B o, encDisp x]
  | .vatmax o => [encLA 0x6C o]
  | .vatmaxD o x => [encLA 0x6D o, encDisp x]
  | .vatand o => [encLA 0x6E o]
  | .vatandD o x => [encLA 0x6F o, encDisp x]
  | .vator o => [encLA 0x70 o]
  | .vatorD o x => [encLA 0x71 o, encDisp x]
  | .vatxor o => [encLA 0x72 o]
  | .vatxorD o x => [encLA 0x73 o, encDisp x]
  | .vatxch o => [encLA 0x74 o]
  | .vatxchD o x => [encLA 0x75 o, encDisp x]
  | .vatcas o => [encLA 0x76 o]
  | .vatcasD o x => [encLA 0x77 o, encDisp x]
  | .nop o => [encUR 0x00 o]
  | .sadd o => [encUR 0x01 o]
  | .saddi o => [encUI 0x02 o]
  | .ssub o => [encUR 0x03 o]
  | .smul o => [encUR 0x04 o]
  | .sand o => [encUR 0x05 o]
  | .sor o => [encUR 0x06 o]
  | .sxor o => [encUR 0x07 o]
  | .sshl o => [encUR 0x08 o]
  | .sshr o => [encUR 0x09 o]
  | .ssar o => [encUR 0x0A o]
  | .smin o => [encUR 0x0B o]
  | .smax o => [encUR 0x0C o]
  | .smovi o => [encUI 0x0D o]
  | .smovhi o => [encUI 0x0E o]
  | .scmp o => [encUR 0x0F o]
  | .ssel o => [encUR 0x10 o]
  | .spopc o => [encUR 0x11 o]
  | .sclz o => [encUR 0x12 o]
  | .sreadl o => [encUI 0x13 o]
  | .svote o => [encUI 0x14 o]
  | .sld o => [encUR 0x18 o]
  | .sst o => [encUR 0x19 o]
  | .satom o => [encUR 0x1A o]
  | .br o => [encUB 0x20 o]
  | .brx o => [encUX 0x21 o]
  | .call o => [encUI 0x22 o]
  | .callx o => [encUR 0x23 o]
  | .ret o => [encUR 0x24 o]
  | .fspawn o => [encUR 0x25 o]
  | .fend o => [encUR 0x26 o]
  | .setwin o => [encUI 0x27 o]
  | .rep o => [encUI 0x28 o]
  | .yield o => [encUR 0x29 o]
  | .bar o => [encUR 0x2A o]
  | .trap o => [encUI 0x2B o]
  | .eret o => [encUR 0x2C o]
  | .srd o => [encUI 0x2D o]
  | .swr o => [encUI 0x2E o]
  | .fence o => [encUX 0x30 o]
  | .llock o => [encUR 0x31 o]
  | .lfree o => [encUR 0x32 o]
  | .cpy o => [encUX 0x38 o]
  | .cpyc o => [encUX 0x39 o]
  | .cpym o => [encUX 0x3A o]
  | .waitc o => [encUX 0x3B o]
  | .bufq o => [encUI 0x3C o]
  | .bufsetCfg o => [encUX 0x3D o]
  | .bufsetRel o => [encUX 0x3D o]
  | .sbinit o => [encUX 0x3E o]
  | .sbexpect o => [encUX 0x3F o]
  | .sbarrive o => [encUX 0x40 o]
  | .sbwait o => [encUX 0x41 o]
  | .ufset o => [encUX 0x42 o]
  | .mmaBf16 o => [encUM 0x48 o]
  | .mmaFp16 o => [encUM 0x49 o]
  | .mmaE4m3 o => [encUM 0x4A o]
  | .mmaE5m2 o => [encUM 0x4B o]
  | .mmaQ4 o => [encUM 0x4C o]
  | .mmaI8 o => [encUM 0x4D o]
  | .mmaI4 o => [encUM 0x4E o]
  | .accz o => [encUM 0x4F o]
  | .accld o => [encUM 0x50 o]
  | .accst o => [encUM 0x51 o]
  | .accred o => [encUX 0x52 o]
  | .evsig o => [encUR 0x58 o]
  | .evwait o => [encUR 0x59 o]
  | .evpoll o => [encUR 0x5A o]
  | .futres o => [encUR 0x5B o]
  | .futreg o => [encUR 0x5C o]
  | .futget o => [encUR 0x5D o]
  | .nodeput o => [encUX 0x5E o]
  | .opsub o => [encUR 0x5F o]
  | .jobend o => [encUR 0x60 o]
  | .seqapp o => [encUR 0x68 o]
  | .seqfork o => [encUR 0x69 o]
  | .spantag o => [encUR 0x6A o]
  | .spanret o => [encUR 0x6B o]
  | .attq o => [encUX 0x6C o]
  | .pmsel o => [encUR 0x70 o]
  | .replay o => [encUR 0x71 o]
  | .repRepetition => []
  | .undefinedOpcode _ => []
  | .issueArbitration => []
  | .ageCapRotation => []
  | .entryWake => []
  | .loadReturn => []
  | .notResidentResponse => []
  | .trapDelivery => []
  | .emulationNest => []
  | .requestAtNearSlice => []
  | .requestAtHomeSlice => []
  | .heldRequestRetry => []
  | .engineResidencyTimeout => []
  | .collapseInvalidate => []
  | .collapseAck => []
  | .ptinvGo => []
  | .ptinvDone => []
  | .versionSpillTimeout => []
  | .sccarveWrite => []
  | .sccarveDone => []
  | .lksweepGo => []
  | .lksweepDone => []
  | .keyInstallPrivate => []
  | .keyInstallShared => []
  | .keyRetire => []
  | .keyRetireComplete => []
  | .keyMakeShared => []
  | .keyMakePrivate => []
  | .keyUndefinedOp => []
  | .softErrorDetected _ => []
  | .clockedItemArrive => []
  | .clockedItemApply => []
  | .remoteReadServe => []
  | .readResponseDeliver => []
  | .transferStart => []
  | .copyRunDeliver => []
  | .chainRecordRead => []
  | .pickerPermitGrant => []
  | .pickerPermitTimeout => []
  | .pickerRunWrite => []
  | .handleReaderFinish => []
  | .barrierWatchdogTimeout => []
  | .arrayEntryStart => []
  | .arrayEntryComplete => []
  | .sequenceOpApply => []
  | .attqAdmit => []
  | .sauPartialDone => []
  | .attqResultLand => []
  | .collectiveContribution => []
  | .collectiveResultWritten => []
  | .collectiveLimitExpire => []
  | .streamRecordRead => []
  | .streamFlow => []
  | .recordDecode => []
  | .streamHoldEnd => []
  | .oNop => []
  | .oRun => []
  | .oGemm => []
  | .oAttn => []
  | .oCopy => []
  | .oColl => []
  | .oSignal => []
  | .oWait => []
  | .oFence => []
  | .oSeq => []
  | .oNode => []
  | .oFeed => []
  | .oPrio => []
  | .oCtx => []
  | .oRegen => []
  | .oEnd => []
  | .operatorCodeUndefined => []
  | .jobEligible => []
  | .eventArm => []
  | .eventSignal => []
  | .eventFutreg => []
  | .eventFault => []
  | .eventWait => []
  | .remoteWatchAnswer => []
  | .queuePushPacket _ _ => []
  | .queueReadmit => []
  | .punnetDeposit => []
  | .punnetTimerExpire => []
  | .mailboxDeliver => []
  | .workerTakeJob => []
  | .parentRetire => []
  | .completionBacklogDrain => []
  | .msixTimeout => []
  | .preemptPriorityTrigger => []
  | .preemptTimesliceTrigger => []
  | .preqGo => []
  | .preemptDecide => []
  | .drainExpire => []
  | .flushAndRestart => []
  | .saveCapture => []
  | .saveComplete => []
  | .dbgHalt => []
  | .dbgHaltComplete => []
  | .dbgResume => []
  | .dbgRead => []
  | .dbgWrite => []
  | .dbgCancelPending => []
  | .dbgStep => []
  | .dbgUndefinedOp => []
  | .replayPassEnd => []
  | .registerWrite => []
  | .evportWrite => []
  | .svcCoreOffline => []
  | .svcOfflineDone => []
  | .svcCoreOnline => []
  | .svcChannelRetrain => []
  | .svcStationRetrain => []
  | .svcRetrainDone => []
  | .svcUndefinedOp => []
  | .attcmdWrite => []
  | .attestationDone => []
  | .resetGo => []
  | .powerOnBoot => []
  | .thermalThrottleTick => []
  | .thermalStop => []
  | .linkOperationTimeout => []
  | .roceInbound _ _ _ _ => []
  | .homeAnswer => []
  | .inServiceUpdate _ _ _ => []

/-- The instruction's bytes, each word little-endian (R2, R240). -/
def encode (i : Instr) : List Byte := (encodeWords i).flatMap (leBytes 4)

/-- Whether the step is an instruction word rather than a happening of the device. -/
def Instr.isWord (i : Instr) : Bool := !(encodeWords i).isEmpty

end Sys2Proof
end

