-- ==== Sys2Proof/Machine/Formats.lean ====
section
/-! DEFINITION. The operand format of each instruction word (Tables 89 and 91) and the feature bits that
it needs (Tables 92 and 93). -/
namespace Sys2Proof.Machine

/-- The format code of Table 100. -/
def instrFormat : Instr → Nat
  | .vadd _ | .vsub _ | .vmul _ | .vmulh _ | .vmulhz _ | .vmad _ | .vand _ | .vor _ | .vxor _ | .vshl _
  | .vshr _ | .vsar _ | .vmin _ | .vmax _ | .vminz _ | .vmaxz _ | .vabsd _ | .vbfx _ | .vbfi _ | .fadd _
  | .fsub _ | .fmul _ | .ffma _ | .fmin _ | .fmax _ | .dadd _ | .dsub _ | .dmul _ | .dfma _ | .dmin _
  | .dmax _ | .dcmp _ | .hadd2 _ | .hmul2 _ | .hfma2 _ | .hmax2 _ | .badd2 _ | .bmul2 _ | .bfma2 _
  | .bmax2 _ | .vcmp _ | .fcmp _ | .vsel _ | .vshuf _ | .vpermb _ | .kvx _ | .kvxr _ => 0
  | .vaddi _ | .vandi _ | .vori _ | .vxori _ | .vshli _ | .vshri _ | .vsari _ | .vclz _ | .vpopc _
  | .fabs _ | .fneg _ | .frcp _ | .frsq _ | .fsqrt _ | .fexp2 _ | .flog2 _ | .fsin _ | .fcos _ | .fclass _
  | .vcvt _ | .vmov _ | .vmovUniform _ | .vbcast _ => 1
  | .pset _ | .vmovi _ | .vlane _ | .vfibre _ => 2
  | .vldN _ | .vldNd _ _ | .vldW _ | .vldWd _ _ | .vstN _ | .vstNd _ _ | .vstW _ | .vstWd _ _ | .vldsN _
  | .vldsNd _ _ | .vldsW _ | .vldsWd _ _ | .vstsN _ | .vstsNd _ _ | .vstsW _ | .vstsWd _ _ | .vldkN _
  | .vldkNd _ _ | .vldkW _ | .vldkWd _ _ | .vpref _ | .vprefD _ _ => 3
  | .vatadd _ | .vataddD _ _ | .vatmin _ | .vatminD _ _ | .vatmax _ | .vatmaxD _ _ | .vatand _
  | .vatandD _ _ | .vator _ | .vatorD _ _ | .vatxor _ | .vatxorD _ _ | .vatxch _ | .vatxchD _ _ | .vatcas _
  | .vatcasD _ _ => 4
  | .nop _ | .sadd _ | .ssub _ | .smul _ | .sand _ | .sor _ | .sxor _ | .sshl _ | .sshr _ | .ssar _
  | .smin _ | .smax _ | .scmp _ | .ssel _ | .spopc _ | .sclz _ | .sld _ | .sst _ | .satom _ | .callx _
  | .ret _ | .fspawn _ | .fend _ | .yield _ | .bar _ | .eret _ | .llock _ | .lfree _ | .evsig _ | .evwait _
  | .evpoll _ | .futres _ | .futreg _ | .futget _ | .opsub _ | .jobend _ | .seqapp _ | .seqfork _
  | .spantag _ | .spanret _ | .pmsel _ | .replay _ => 5
  | .saddi _ | .smovi _ | .smovhi _ | .sreadl _ | .svote _ | .call _ | .setwin _ | .rep _ | .trap _
  | .srd _ | .swr _ | .bufq _ => 6
  | .br _ => 7
  | .brx _ | .fence _ | .cpy _ | .cpyc _ | .cpym _ | .waitc _ | .bufsetCfg _ | .bufsetRel _ | .sbinit _
  | .sbexpect _ | .sbarrive _ | .sbwait _ | .ufset _ | .accred _ | .nodeput _ | .attq _ => 8
  | .mmaBf16 _ | .mmaFp16 _ | .mmaE4m3 _ | .mmaE5m2 _ | .mmaQ4 _ | .mmaI8 _ | .mmaI4 _ | .accz _ | .accld _
  | .accst _ => 9
  | _ => 15

/-- Bits that an instruction needs beside bit 0 or 1 of its set (Table 92), and the bits that its operands
select (Table 93). -/
def needsAll : Instr → List Nat
  | .dadd _ | .dsub _ | .dmul _ | .dfma _ | .dmin _ | .dmax _ | .dcmp _ => [4]
  | .kvx _ | .kvxr _ => [24]
  | .rep _ => [3]
  | .mmaBf16 _ => [8]
  | .mmaFp16 _ => [9]
  | .mmaE4m3 _ | .mmaE5m2 _ => [10]
  | .mmaI8 _ => [11]
  | .mmaI4 _ => [12]
  | .mmaQ4 _ => [13]
  | .accred _ => [15]
  | .cpym o => [17] ++ (if o.e = 1 then [16] else []) ++ (if bit o.h.toNat 3 then [18] else [])
  | .cpy o => (if o.e = 1 then [16] else if o.e = 2 then [14] else []) ++ (if bit o.h.toNat 3 then [18] else [])
  | .llock _ | .lfree _ => [34]
  | .futres _ | .futreg _ | .futget _ => [40]
  | .nodeput _ => [41]
  | .seqapp _ | .seqfork _ | .spantag _ | .spanret _ => [26]
  | .attq _ => [25, 27]
  | .replay _ => [48]
  | .vcvt o => if 0x10 ≤ o.imm.toNat / 8 ∧ o.imm.toNat / 8 ≤ 0x15 then [4] else []
  | .vatadd o | .vatmin o | .vatmax o | .vatand o | .vator o | .vatxor o => if o.w then [32] else []
  | .vataddD o _ | .vatminD o _ | .vatmaxD o _ | .vatandD o _ | .vatorD o _ | .vatxorD o _ =>
    if o.w then [32] else []
  | .vatxch o | .vatcas o => if o.w then [33] else []
  | .vatxchD o _ | .vatcasD o _ => if o.w then [33] else []
  | .satom o => if bit o.f.toNat 3 then [32] else []
  | _ => []

/-- ACCZ, ACCLD and ACCST need one of bits 8 to 13 (Table 92). -/
def needsAnyMma : Instr → Bool
  | .accz _ | .accld _ | .accst _ => true
  | _ => false

end Sys2Proof.Machine
end

