-- ==== Sys2Proof/Machine/Port.lean ====
section
/-! DEFINITION. Accesses that the device makes in one step on behalf of an engine, a home or a dispatcher:
translation (R46), residency (R49, R57), collapse (R58), numbering of clocked writes (R137) and the range
checks of R24. -/
namespace Sys2Proof.Machine

/-! ## Translation on both branches of R46 -/

/-- A request from die `d` to an intermediate address: the near slice, and the home when it forwards. -/
def xlate (s : State) (d ia : Nat) (need : Need) (keyslot : Nat) (priv : Bool) : Xl × State :=
  if d = homeDie ia then homeXl s ia need keyslot priv
  else match nearXl s d ia need keyslot priv with
    | (.forward, s') => homeXl s' ia need keyslot priv
    | r => r

/-- A collapse begins: an invalidate goes to every die of DMASK (R58 step 1). -/
def startCollapse (s : State) (home epa dmask page : Nat) : Nat × State :=
  match s.mm.collapses.find? fun p => p.2.home == home && p.2.page == page with
  | some p => (p.1, s)
  | none =>
    let dies := (List.range 4).filter fun d => bit dmask d
    let (id, s1) := s.newId
    let c : Collapse := { home := home, page := page, entry := epa, todo := dies, copies := dies }
    let s2 := { s1 with mm := { s1.mm with collapses := s1.mm.collapses.put id c } }
    (id, dies.foldl (fun t d => t.add .collapseInvalidate id d) s2)

/-- The page of an address as its home maps it. -/
def homePage (s : State) (ia : Nat) : Nat :=
  match walk s (homeDie ia) ia with
  | .leaf _ _ w0 _ => pageBase w0 ia
  | _ => ia

/-- The write that a collapse held has been released, and has still to be applied (R58 step 3, R59). -/
def applying (r : Req) : Bool :=
  r.clkd && (match r.stage with
    | .toNumber => true
    | .clocked => true
    | .heldSpill _ => true
    | _ => false)

/-- A collapse of the address's page is in progress: until the write that it held has been applied (R58). -/
def collapsing (s : State) (ia : Nat) : Bool :=
  (s.mm.collapses.any fun p => p.2.home == homeDie ia && decide (p.2.page ≤ ia) && decide (ia < p.2.page + 2 ^ 33)
    && (match walk s (homeDie ia) ia with
      | .leaf _ _ w0 _ => pageBase w0 ia == p.2.page
      | _ => false))
  || s.mm.reqs.any fun p => applying p.2 && homeDie p.2.ia == homeDie ia && homePage s p.2.ia == homePage s ia

/-! ## Hold queues (R58, R61) -/

/-- Requests held at a slice, and whether its queue of 64 is full (R61). -/
def atSlice (s : State) (r : Req) (d sl : Nat) : Bool := homeDie r.ia == d && sliceAt s d r.ia == sl
def inQueue (r : Req) : Bool :=
  match r.stage with
  | .heldM => true
  | .heldCollapse _ => true
  | _ => false
def queueFull (s : State) (ia : Nat) : Bool :=
  decide (64 ≤ (s.mm.reqs.filter fun p => inQueue p.2 && atSlice s p.2 (homeDie ia) (sliceAt s (homeDie ia) ia)).length)

/-- Hold a request in its slice's queue; one that finds it full stalls its port. -/
def holdReq (s : State) (id : Nat) (r : Req) (st : Stage) : State :=
  if queueFull s r.ia then (putReq s id { r with stage := .stalled }).post .heldRequestRetry id
  else
    let (n, s1) := s.newId
    let s2 := putReq s1 id { r with stage := st, heldAt := n }
    match st with
    | .heldCollapse _ => s2.post .heldRequestRetry id
    | _ => s2

/-- A request's port into its home slice is stalled by another that found the queue full (R61; log entry 85). -/
def portStalled (s : State) (id : Nat) : Bool :=
  match s.mm.reqs.find? fun p => p.1 == id with
  | some (_, r) => !r.scratch && s.mm.reqs.any fun p =>
      p.1 != id && p.2.stage == .stalled && p.2.core == r.core && atSlice s p.2 (homeDie r.ia) (sliceAt s (homeDie r.ia) r.ia)
  | none => false

/-! ## Residency for a request of a job -/

inductive NotRes where
  | event (n : DWord)
  | hold
  | fault (c : Nat)
  deriving DecidableEq, Repr, Inhabited

/-- R49, with R64's limit on nesting and R65's second failure. -/
def notResident (s : State) (ia page sz : Nat) (g : Bool) (ridx slot die : Nat) (job : Option Nat) : NotRes × State :=
  let j := match job with
    | some j => s.job j
    | none => default
  let valid := bit (devNat s (s.cfg.regenBase.getD (homeDie ia) 0 + 32 * ridx + 5) 1) 0
  if g && valid && decide (4 ≤ j.regen) then (.fault 0x114, s)
  else if j.failPages.contains page then (.fault 0x114, s)
  else match residency s (homeDie ia) page sz g ridx (if job.isSome then j.jobid else 0xFFFFFFFF) slot die with
    | (some n, s') => (.event n, s')
    | (none, s') => (.hold, s')

/-! ## One step's accesses -/

/-- Who makes an access: its die, bank identity and job. -/
structure Port where
  die : Nat := 0
  slot : Nat := 0
  keyslot : Nat := 0
  priv : Bool := false
  job : Option Nat := none
  rng : Sparse DWord := []
  deriving DecidableEq, Repr, Inhabited

/-- An access that a port asks to have translated. -/
structure Probe where
  port : Port := {}
  ia : Nat := 0
  need : Need := .read

/-- Why an access cannot be made now: it fails; it waits (for a residency event, or for space, a lock of the page or a
collapse) with the access whose translation it met and the state in which that stands; or it waits for room in the
version spill area. -/
inductive Stall where
  | fault (cause addr : Nat)
  | wait (event : Option DWord) (probe : Option Probe) (s : State)
  | spill (s : State)

/-- Accesses in sequence over the state, until one cannot be made. -/
abbrev Eng (α : Type) : Type := StateT State (Except Stall) α

def portOf (b : Starter) : Port :=
  { die := dieOf b.core, slot := b.slot, keyslot := b.keyslot, priv := b.priv, job := b.job, rng := b.rng }
/-- The system's own accesses (R185). -/
def sysPort (die : Nat) : Port := { die := die, priv := true }
/-- A dispatcher's accesses for a record (R422). -/
def decPort (d : Dec) : Port := { die := d.die, slot := d.slot, keyslot := d.keyslot, rng := d.bankRng }

def engFail {α : Type} (cause addr : Nat) : Eng α := fun _ => .error (.fault cause addr)

/-- An engine write has met a collapse, and will be clocked (R137). -/
def noteClkd (s : State) (p : Port) (ia : Nat) : State :=
  let w := (ia, p.die, p.job)
  { s with mm := { s.mm with engClkd := w :: s.mm.engClkd.filter (· != w) } }

/-- The port by which the engines of a die reach the slices (log entry 85), as a core's number that no core has. -/
def engCore (die : Nat) : Nat := 1024 + die

/-- An engine's write of an address that stands at its home slice (R58, R61). -/
def engPlace (s : State) (p : Port) (ia : Nat) : Option (Nat × Req) :=
  s.mm.reqs.find? fun q => q.2.src == .engine p.slot && q.2.kind == .store && q.2.die == p.die && q.2.job == p.job && q.2.ia == ia

/-- An engine's write takes its place in the hold queue of the slice, with its bytes, and is performed from there in the order of
the queue. With no bytes it only keeps the place of an operation that makes its writes together (`atomically`). -/
def engHold (s : State) (p : Port) (ia : Nat) (bs : List Byte) (st : Stage) (clkd : Bool) (key : Option Nat) : State :=
  match engPlace s p ia with
  | some _ => s
  | none =>
    let (id, s1) := (if clkd && bs.isEmpty then noteClkd s p ia else s).newId
    holdReq s1 id { src := .engine p.slot, kind := .store, ia := ia, len := bs.length, data := leNat bs, core := engCore p.die,
                    group := 2 ^ 40, die := p.die, slot := p.slot, job := p.job, keyslot := p.keyslot, priv := p.priv,
                    clkd := clkd && !bs.isEmpty, key := key } st

/-- The engines' port into the home slice of an address is stalled (R61). -/
def engStalled (s : State) (die ia : Nat) : Bool :=
  s.mm.reqs.any fun p => p.2.stage == .stalled && p.2.core == engCore die && atSlice s p.2 (homeDie ia) (sliceAt s (homeDie ia) ia)

/-- Translate for a port: serving die, physical address and key slot. A write of `bs` that a migration or a collapse holds
stands in the hold queue (R58, R61). -/
def engXlate (p : Port) (ia : Nat) (need : Need) (bs : List Byte := []) : Eng (Nat × Nat × Option Nat) := fun s =>
  let q : Probe := ⟨p, ia, need⟩
  if engStalled s p.die ia then .error (.wait none (some q) s)
  else match xlate s p.die ia need p.keyslot p.priv with
  | (.serve d pa k, s') =>
    if (chanHeld s' d ia || s'.dev.heldAt.any fun h => h.1 == d * 64 + sliceAt s' d ia && s'.agenda.contains h.2) && encrypted pa then .error (.wait none (some q) s')
    else if d == homeDie ia && collapsing s' ia then
      .error (.wait none (some q) (if need == .read then s' else engHold s' p ia bs (.heldCollapse (homePage s' ia)) false k))
    else .ok ((d, pa, k), s')
  | (.fault c, _) => .error (.fault c ia)
  | (.forward, _) => .error (.fault 0x113 ia)
  | (.heldM, s') => .error (.wait none (some q) (engHold s' p ia bs .heldM false none))
  | (.collapse epa dm page k, s') =>
    .error (.wait none (some q) (engHold (startCollapse s' (homeDie ia) epa dm page).2 p ia bs (.heldCollapse page) true (some k)))
  | (.notResident page sz g ridx, s') =>
    match notResident s' ia page sz g ridx p.slot p.die p.job with
    | (.event n, s2) => .error (.wait (some n) (some q) s2)
    | (.hold, s2) => .error (.wait none (some q) s2)
    | (.fault c, _) => .error (.fault c ia)

/-- Accesses that take effect together or not at all: one that cannot be made undoes those before it, and of a wait only
what its translation set going is left (R117). -/
def atomically {α : Type} (m : Eng α) : Eng α := fun s =>
  match m s with
  | .ok r => .ok r
  | .error (.fault c a) => .error (.fault c a)
  | .error (.spill _) => .error (.spill s)
  | .error (.wait e none _) => .error (.wait e none s)
  | .error (.wait _ (some q) _) =>
    match engXlate q.port q.ia q.need [] s with
    | .error (.wait e _ s1) => .error (.wait e none s1)
    | _ => .error (.wait none none s)

/-- A remote home serves a read once it has applied what the reader's die has seen (R139). -/
def clockWait (s : State) (p : Port) (d : Nat) : Bool :=
  d != p.die && (List.range 4).any fun f =>
    f != d && !(vcGe ((dieVc s d).getD f 0) ((dieVc s p.die).getD f 0))

/-- The value goes to the agent once its die has applied what the line has seen (R139). -/
def clockAhead (s : State) (p : Port) (d ia : Nat) : Bool :=
  d != p.die && (List.range 4).any fun f =>
    f != p.die && !(vcGe ((dieVc s p.die).getD f 0) ((lineClock s d (ia / 256)).getD f 0))

/-- Bytes within one granule. -/
def engReadGran (p : Port) (ia n : Nat) : Eng (List Byte) := do
  let (d, pa, k) ← engXlate p ia .read
  let s ← get
  if clockWait s p d || clockAhead s p d ia then fun s' => .error (.wait none none s')
  else match regionOf s pa with
    | .device => if p.priv then pure (regBytes s pa n) else engFail 0x381 ia
    | _ =>
      match poisonCause s d (ia / 256) (pa / 256) p.job with
      | some c => engFail c ia
      | none => fun s' => .ok (serveRead s' d ia pa k p.job n)

def engReads (p : Port) : List (Nat × Nat) → Eng (List Byte)
  | [] => pure []
  | (a, n) :: t => do
    let x ← engReadGran p a n
    let y ← engReads p t
    pure (x ++ y)

/-- Bytes at an intermediate address. -/
def engRead (p : Port) (ia n : Nat) : Eng (List Byte) := engReads p (granules (n / 256 + 2) ia n)
def engNat (p : Port) (ia n : Nat) : Eng Nat := do
  let b ← engRead p ia n
  pure (leNat b)

/-! ## Numbering (R136, R137) -/

/-- The request's event has been performed, or its place in an order is fixed. -/
def settled (r : Req) : Bool :=
  match r.stage with
  | .clocked => true
  | .response => true
  | .done => true
  | _ => false

/-- The lane whose access it is; none when no lane waits for it. -/
def laneOf (r : Req) : Option Nat :=
  match r.src with
  | .lane _ l => some l
  | _ => none

/-- Two requests of one fibre to one 4-byte unit (R121, R124). A scalar access stands in every fibre's order. -/
def sameUnit (a b : Req) : Bool :=
  a.scratch == b.scratch && a.group == b.group && (laneOf a).isSome && (laneOf b).isSome && (a.scalar || b.scalar || laneOf a == laneOf b)
    && decide (a.ia / 4 ≤ (b.ia + b.len - 1) / 4) && decide (b.ia / 4 ≤ (a.ia + a.len - 1) / 4)

/-- Same-unit coherence of one fibre (R124): no earlier request of it for the unit is unperformed. -/
def unitClear (s : State) (id : Nat) (r : Req) : Bool :=
  !(s.mm.reqs.any fun p => decide (p.1 < id) && sameUnit p.2 r && !(settled p.2))

/-- Events of one scratchpad store are performed in the order of its lanes (R345). -/
def laneTurn (s : State) (id : Nat) (r : Req) : Bool :=
  !r.scratch || !(s.mm.reqs.any fun p => decide (p.1 < id) && p.2.scratch && p.2.kind == .store && (match p.2.src, r.src with
    | .lane a _, .lane b _ => a == b
    | _, _ => false))

/-- Whether a write takes its number before another: in issue order, and two that were held for a collapse in the order in
which they were held (R58, R137). -/
def numberBefore (p : Nat × Req) (id : Nat) (r : Req) : Bool :=
  if p.2.clkd && r.clkd then decide (p.2.heldAt < r.heldAt) else decide (p.1 < id)

/-- Earlier writes of the die have still to be numbered (R137): those on their way to another die, those that wait there for
room in the spill area, and those that wait for a collapse. A write that a migration or a missing page holds, with what
stands behind it in its port, is not waited for: what system software does to end its hold may itself be a clocked write of the
die (log entry 12). -/
def numberHeld (s : State) (die id : Nat) (me : Req) : Bool :=
  (s.mm.reqs.any fun r => r.2.die == die && !r.2.scratch && numberBefore r id me && isWriteKind r.2.kind && (match r.2.stage with
    | .heldCollapse _ => true
    | .near => homeDie r.2.ia != die && !(portStalled s r.1)
    | .home => (homeDie r.2.ia != die || r.2.clkd) && !(portStalled s r.1)
    | .heldSpill _ => homeDie r.2.ia != die || r.2.clkd
    | .toNumber => true
    | _ => false))
  || s.mm.engClkd.any fun e => e.2.1 == die && collapsing s e.1

/-- A die's unapplied clocked writes stay below 2^20 (R136). -/
def numberFull (s : State) (die : Nat) : Bool :=
  let n := (dieVc s die).getD die 0
  (List.range 4).any fun d => decide ((n + 2 ^ 32 - (dieVc s d).getD die 0) % 2 ^ 32 ≥ 2 ^ 20)

def setVc (s : State) (d e v : Nat) : State :=
  s.updDie d fun x => { x with vc := (List.range 4).map fun i => if i = e then v % 2 ^ 32 else x.vc.getD i 0 }

/-- Number a clocked write of die e: VC_e[e] + 1; the write's clock is the resulting VC_e. -/
def takeNumber (s : State) (e : Nat) : List Nat × State :=
  let s1 := setVc s e e ((dieVc s e).getD e 0 + 1)
  (dieVc s1 e, s1)

/-- A clocked write travels to its home as data and to the other dies as a notice (R138). -/
def sendItems (s : State) (e home : Nat) (clock : List Nat) (req : Option Nat) : State :=
  ((List.range 4).filter fun d => d != e).foldl (fun t d =>
    let (id, t1) := t.newId
    let t2 := { t1 with mm := { t1.mm with
      items := t1.mm.items.put id { src := e, clock := clock, req := if d = home then req else none } } }
    t2.add .clockedItemArrive d id) s

/-- Perform a write of one granule at its home: into the job's version, or directly (R87). -/
def homeWrite (s : State) (job : Option Nat) (ia pa : Nat) (key : Option Nat) (bs : List Byte) : State :=
  match job with
  | some j => verWrite s (homeDie ia) j ia bs
  | none => serveWrite s (homeDie ia) ia pa key bs

/-- A numbered versioned write takes its room at its home with its number, so that nothing holds it there (R90, R138). -/
def takeRoom (s : State) (job : Option Nat) (ia : Nat) : State :=
  match job with
  | some j => verWrite s (homeDie ia) j ia []
  | none => s

/-- A write of one granule by a port that nothing holds: performed at its own die's home, or numbered and sent; one that waited
for a collapse is numbered and noticed wherever its home is (R59, R137). -/
def engWriteNow (p : Port) (ia : Nat) (bs : List Byte) : Eng Unit := do
  let (_, pa, k) ← engXlate p ia .write bs
  let s ← get
  let h := homeDie ia
  let stop := match p.job with
    | some j => verStop s h j (ia / 256)
    | none => .ok
  let w := (ia, p.die, p.job)
  let clkd := s.mm.engClkd.contains w
  match regionOf s pa, stop with
  | .device, _ => if p.priv then set (storeRegs s pa bs) else engFail 0x381 ia
  | _, .quota => engFail 0x141 ia
  | _, .noSpace => fun s' => .error (.spill s')
  | _, .ok =>
    if h = p.die && !clkd then set (ownClock (homeWrite s p.job ia pa k bs) h ia)
    else if numberHeld s p.die s.mm.nextId {} || numberFull s p.die then fun s' => .error (.wait none none s')
    else
      let s0 := { s with mm := { s.mm with engClkd := s.mm.engClkd.filter (· != w) } }
      let (v, s1) := takeNumber s0 p.die
      if h = p.die then set (lineClockUp (homeWrite (sendItems s1 p.die h v none) p.job ia pa k bs) h (ia / 256) v)
      else
        let (id, s2) := (takeRoom s1 p.job ia).newId
        let r : Req := { kind := .store, ia := ia, len := bs.length, data := leNat bs, die := p.die, slot := p.slot,
                         job := p.job, keyslot := p.keyslot, priv := p.priv, stage := .clocked, clock := v, pa := pa, key := k }
        set (sendItems (putReq s2 id r) p.die h v (some id))

/-- A write of one granule by a port. One that was held is over when its slice has performed it (R61). -/
def engWriteGran (p : Port) (ia : Nat) (bs : List Byte) : Eng Unit := fun s =>
  match engPlace s p ia with
  | none => engWriteNow p ia bs s
  | some (id, r) =>
    if r.stage != .done then .error (.wait none none s)
    else
      let s1 := { s with mm := { s.mm with reqs := Sparse.erase s.mm.reqs id } }
      if r.len = 0 then engWriteNow p ia bs s1 else .ok ((), s1)

/-- The granule pieces of bytes at an address. -/
def pieces : Nat → Nat → List Byte → List (Nat × List Byte)
  | 0, _, _ => []
  | fuel + 1, ia, bs =>
    if bs.isEmpty then []
    else
      let k := 256 - ia % 256
      (ia, bs.take k) :: pieces fuel (ia + k) (bs.drop k)

def engWrites (p : Port) : List (Nat × List Byte) → Eng Unit
  | [] => pure ()
  | (a, b) :: t => do
    engWriteGran p a b
    engWrites p t
def engWrite (p : Port) (ia : Nat) (bs : List Byte) : Eng Unit := engWrites p (pieces (bs.length / 256 + 2) ia bs)
def engPut (p : Port) (ia n v : Nat) : Eng Unit := engWrite p ia (leBytes n v)

/-! ## Virtual addresses under a bank copy (R24) -/

/-- Split a run at 64 KiB granules. -/
def runParts : Nat → Nat → Nat → List (Nat × Nat)
  | 0, _, _ => []
  | fuel + 1, va, n =>
    if n = 0 then []
    else
      let k := min n (65536 - va % 65536)
      (va, k) :: runParts fuel ((va + k) % 2 ^ 64) (n - k)

/-- Check every part of a run and give the intermediate address of each, or the cause of the
lowest-addressed part that fails, with its address. -/
def runCheck (rng : Sparse DWord) (perm : Perm) : List (Nat × Nat) → Except (Nat × Nat) (List (Nat × Nat))
  | [] => .ok []
  | (va, n) :: t =>
    match rangeCheck { rng := rng } va n perm with
    | .error c => .error (c, va)
    | .ok (ia, _) => (runCheck rng perm t).map fun l => (ia, n) :: l

def engRun (p : Port) (perm : Perm) (va n : Nat) : Eng (List (Nat × Nat)) := fun s =>
  match runCheck p.rng perm (runParts (n / 65536 + 2) va n) with
  | .error (c, a) => .error (.fault c a)
  | .ok l => .ok (l, s)

def engReadParts (p : Port) : List (Nat × Nat) → Eng (List Byte)
  | [] => pure []
  | (ia, n) :: t => do
    let x ← engRead p ia n
    let y ← engReadParts p t
    pure (x ++ y)

/-- An engine read at a virtual address (Table 9). -/
def engReadVa (p : Port) (va n : Nat) : Eng (List Byte) := do
  let l ← engRun p .engRead va n
  engReadParts p l

def engWriteParts (p : Port) : List (Nat × Nat) → List Byte → Eng Unit
  | [], _ => pure ()
  | (ia, n) :: t, bs => do
    engWrite p ia (bs.take n)
    engWriteParts p t (bs.drop n)

/-- An engine write at a virtual address. -/
def engWriteVa (p : Port) (va : Nat) (bs : List Byte) : Eng Unit := do
  let l ← engRun p .engWrite va bs.length
  engWriteParts p l bs

/-! ## Holding (R57) -/

/-- How a held operation stands: it may go on, it still waits, or its event was faulted. -/
inductive HoldSt where
  | go | waits | faulted
  deriving DecidableEq, Repr, Inhabited

/-- The state of the residency event an operation is held on. -/
def holdState (s : State) (held : Option DWord) : HoldSt :=
  match held with
  | none => .go
  | some n => match evalWait s n 0 true with
    | .open_ => .waits
    | .faulted _ => .faulted
    | _ => .go

/-- The kind of a residency event: 1 when its page was to be regenerated (R49). -/
def rqKind (s : State) (n : DWord) : Nat := ((s.die (evDie n)).rqKinds.get (evIndex n)) % 16
def rqPage (s : State) (n : DWord) : Nat := ((s.die (evDie n)).rqKinds.get (evIndex n)) / 16

/-- The cause a request takes when its residency event is faulted (R50, R65; log entry 14). -/
def faultedCause (s : State) (n : DWord) : Nat := if rqKind s n = 1 then 0x114 else 0x116

/-- Whether a job's not-resident page aborts it rather than holding the request (R51, R57). -/
def jobRestartable (s : State) (job : Option Nat) : Bool :=
  match job with
  | some j => (s.job j).restartable
  | none => false

end Sys2Proof.Machine
end

