-- ==== Sys2Proof/Machine/Ops.lean ====
section
/-! DEFINITION. The named operations that instructions share: moving on, yielding, raising a trap, taking
it and returning from it (R55, R56, R213, R223 to R228, R252 to R255, R276 to R285, R369). -/
namespace Sys2Proof.Machine

/-! ## REPST (Table 84) -/

def repAct (r : DWord) : Bool := r.getLsbD 63
def repLen (r : DWord) : Nat := bits r.toNat 25 24
def repLast (r : DWord) : Nat := bits r.toNat 11 6
def repNext (r : DWord) : Nat := bits r.toNat 5 0
def repSetNext (r : DWord) (n : Nat) : DWord := BitVec.ofNat 64 (r.toNat / 64 * 64 + n % 64)
def repSetAct (r : DWord) (b : Bool) : DWord :=
  BitVec.ofNat 64 (r.toNat % 2 ^ 63 + (if b then 2 ^ 63 else 0))
/-- After repetition NEXT: the next one, or the end (R252). -/
def repAdvance (r : DWord) : DWord :=
  if repNext r < repLast r then repSetNext r (repNext r + 1) else repSetAct r false
/-- After an emulated repetition (R255): NEXT is i + 1, and ACT falls when that exceeds LAST. -/
def repEmulated (r : DWord) : DWord :=
  let r' := repSetNext r (repNext r + 1)
  if repLast r < repNext r + 1 then repSetAct r' false else r'

/-! ## Moving on, slots and yields -/

def updCur (s : State) (f : Entry → Entry) : State := s.updEnt (curEk s) f

def markDone (s : State) : State := { s with cur := { s.cur with done := true } }

/-- The instruction completed: the entry goes on at the next unit, or at the next repetition (R252). -/
def advance (s : State) : State :=
  if s.cur.rep then
    updCur (markDone s) fun e =>
      let r := repAdvance e.repst
      { e with repst := r, wake := .none, pc := if repAct r then e.pc else e.pc + BitVec.ofNat 57 (2 * s.cur.len) }
  else updCur (markDone s) fun e => { e with pc := e.pc + BitVec.ofNat 57 (2 * s.cur.len), wake := .none }

/-- The entry transfers to an address. -/
def jump (s : State) (pc : Pc) : State := updCur (markDone s) fun e => { e with pc := pc, wake := .none }

def freeSlots (s : State) (core ent : Nat) : State :=
  (List.range 4).foldl (fun t i =>
    if (t.slotAt (core * 4 + i)).ent == some ent then t.setSlot (core * 4 + i) {} else t) s

/-- An entry holds a slot. -/
def holdsSlot (s : State) (core ent : Nat) : Bool := (List.range 4).any fun i => (s.slotAt (core * 4 + i)).ent == some ent

/-- The rand ends: the slot is free and the entry stands at a boundary (R211). -/
def endRand (s : State) : State :=
  updCur (freeSlots s s.cur.core s.cur.ent) fun e => { e with boundary := true, since := s.now }

/-- A yield (R213): the entry is BLOCKED at the instruction until its wake condition holds. -/
def yieldFor (s : State) (w : Wake) : State :=
  (updCur (endRand (pmCur s 0x04 1)) fun e => { e with st := .blocked, wake := w }).post .entryWake s.cur.core s.cur.ent

/-! ## Raising traps (R223, R224) -/

/-- Place a trap by its instruction's order; the ninth is fatal (R223). -/
def insertTrap (t : TrapEntry) : List TrapEntry → List TrapEntry
  | [] => [t]
  | u :: r => if t.order < u.order then t :: u :: r else u :: insertTrap t r

def coreOfGroup (g : Nat) : Nat := g / 32

def enqueueTrap (s : State) (g : Nat) (t : TrapEntry) : State :=
  let gr := s.group g
  if 8 ≤ gr.queue.length + (if gr.handling.isSome then 1 else 0) then fatalTeam s (gr.team.getD 0) 0x3C1
  else (s.updGroup g fun gr => { gr with queue := insertTrap t gr.queue }).post .trapDelivery (coreOfGroup g) (g % 32)

def curTrap (s : State) (cause : Nat) (mask addr aux : DWord) (rpc : Pc) : TrapEntry :=
  { cause := cause, fpc := curPc s, rpc := rpc, addr := addr, mask := mask, aux := aux,
    issue := (curEntry s).lanes, order := s.cur.order, precise := true, word := s.cur.word,
    dword := s.cur.dword, coded := s.cur.coded, priv := s.cur.priv, repst := (curEntry s).repst,
    fte := funcFte (curFunc s) != 0 }

def isDecodeCause (c : Nat) : Bool := decide (0x40 ≤ c) && decide (c ≤ 0x43)

/-- A precise trap of the issuing instruction. In a trap handler it kills the job (R228); in an emulation
handler a decode cause nests and any other kills (R277, R282). Otherwise it enters the queue, and its
entry stands still until delivery (R225). -/
def raiseFull (s : State) (cause : Nat) (mask addr aux : DWord) (after : Bool) : State :=
  let rpc := if s.cur.rep || after then nextPc s else curPc s
  let t := curTrap s cause mask addr aux rpc
  let s1 := updCur (endRand s) fun e => { e with trapped := true }
  if inHandler s then
    if (curGroup s).depth != 0 && isDecodeCause cause then
      (s1.updGroup (curGk s) fun g => { g with nest := some t }).post .emulationNest s.cur.core (s.cur.ent / 8)
    else killTeam s1 (curTeamKey s) cause
  else
    let s2 := if s.cur.rep && isDecodeCause cause then
        updCur s1 fun e => { e with repst := repEmulated e.repst } else s1
    enqueueTrap s2 (curGk s) t

/-- A precise trap that leaves its instruction without effect. -/
def raise (s : State) (cause : Nat) : State := raiseFull s cause (heldLanes s) 0 0 false
/-- A decode cause (R269): RPC at the next unit. -/
def raiseDecode (s : State) (cause : Nat) (lanes : DWord) : State := raiseFull s cause lanes 0 0 true

/-! ## Taking a trap (R225, R276 to R278, R369) -/

def trcauseOf (t : TrapEntry) (depth : Nat) : DWord :=
  BitVec.ofNat 64 (t.cause + depth % 16 * 2 ^ 10 + b2n t.iaBit * 2 ^ 14 + b2n t.stop * 2 ^ 15 + t.stile * 2 ^ 16)

/-- The operand format of a word for s57 (Table 100): 0 LR to 9 UM, 15 undefined. -/
def formatCode (w : Word) : Nat :=
  match rawDecode w.toNat 0 with
  | none => 15
  | some i => instrFormat i

/-- s58 of Table 100: the register fields. An undefined lane opcode reads as LR; REP's count is no register (R252). -/
def fieldWord (w : Word) : Nat :=
  let v := w.toNat
  if v ≥ 2 ^ 31 then
    match formatCode w with
    | 5 => bits v 22 17 + bits v 16 11 * 256 + bits v 10 5 * 65536
    | 6 => if bits v 29 23 = 0x28 then 0 else bits v 22 17
    | 8 => bits v 14 9 * 256 + bits v 8 3 * 65536
    | 9 => bits v 19 14 * 256 + bits v 13 8 * 65536
    | _ => 0
  else
    match formatCode w with
    | 1 | 3 | 4 => bits v 19 14 + bits v 13 8 * 256
    | 2 => bits v 19 14
    | _ => bits v 19 14 + bits v 13 8 * 256 + bits v 7 2 * 65536

/-- s59 of Table 100. -/
def immWord (w dw : Word) (displaced : Bool) : Nat :=
  let v := w.toNat
  if displaced then sext 31 64 dw.toNat
  else match formatCode w with
    | 1 => v % 256
    | 2 => v % 2 ^ 14
    | 6 => v % 2 ^ 17
    | 7 => v % 2 ^ 19
    | _ => 0

/-- s56 to s63 on delivery of a class 1 trap (Table 100). -/
def decodedFields (t : TrapEntry) (depth : Nat) (isRep : Bool) : List DWord :=
  let v := t.word.toNat
  let uni := decide (v ≥ 2 ^ 31)
  let disp := isDisplaced t.word.toNat
  let op := if uni then bits v 29 23 else bits v 26 20
  [ BitVec.ofNat 64 (v + (if disp then t.dword.toNat * 2 ^ 32 else 0)),
    BitVec.ofNat 64 (op + b2n uni * 128 + formatCode t.word * 256 + b2n disp * 4096 + b2n t.coded * 8192),
    BitVec.ofNat 64 (fieldWord t.word),
    BitVec.ofNat 64 (immWord t.word t.dword disp),
    BitVec.ofNat 64 (if uni then 0 else bits v 29 27),
    BitVec.ofNat 64 t.fpc.toNat,
    BitVec.ofNat 64 (t.cause + depth * 2 ^ 16 + b2n t.priv * 2 ^ 20),
    if isRep then t.repst else 0 ]

def setSList (s : State) (g r : Nat) : List DWord → State
  | [] => s
  | v :: t => setSList (s.setSregOf g r v) g (r + 1) t
def getSList (s : State) (g r n : Nat) : List DWord := (List.range n).map fun i => s.sregOf g (r + i)

def lo32 (v : DWord) : Word := BitVec.ofNat 32 v.toNat
def hi32 (v : DWord) : Word := BitVec.ofNat 32 (v.toNat / 2 ^ 32)
def cat32 (lo hi : Word) : DWord := BitVec.ofNat 64 (lo.toNat + hi.toNat * 2 ^ 32)

def setRegs (s : State) (fk base : Nat) : List Word → State
  | [] => s
  | v :: t => setRegs (s.setLaneReg (regKey fk base) v) fk (base + 1) t

/-- The lanes whose fibres are live among an entry's. -/
def liveLanesOf (s : State) (g j : Nat) : List Nat :=
  maskList ((s.ent (entKey (coreOfGroup g) (g % 32 * 8 + j))).lanes &&& (s.group g).live)

/-- R369: FUNCj and LINKj go to registers 60 to 63 of the new window; the handler has no function. -/
def saveFunc (s : State) (g j base : Nat) : State :=
  let f := s.sregOf g (48 + j)
  let l := s.sregOf g (40 + j)
  let s1 := (liveLanesOf s g j).foldl (fun t lane =>
    setRegs t (fibKey g lane) (base + 60) [lo32 f, hi32 f, lo32 l, hi32 l]) s
  let f' : DWord := BitVec.ofNat 64 (f.toNat - funcFte f)
  (s1.setSregOf g (48 + j) f').setSregOf g (40 + j) 0

/-- The trap information registers of the trap being handled (Table 74). -/
def loadTrapRegs (gr : Group) (t : TrapEntry) (rpc : Pc) : Group :=
  { gr with
    trcause := trcauseOf t (gr.queue.length + 1)
    trpc := BitVec.ofNat 64 rpc.toNat, trfpc := BitVec.ofNat 64 t.fpc.toNat, traddr := t.addr
    trmask := t.mask, traux := t.aux
    rpmask := (match t.cap with
      | some c => maskOf (c.lanes.map CapLane.lane)
      | none => 0)
    emraise := false, emcause := 0 }

/-- The address at which the interrupted code goes on (R55, R224, R255). -/
def resumePc (e : Entry) (t : TrapEntry) : Pc :=
  if t.precise then t.rpc
  else if repAct e.repst then e.pc + BitVec.ofNat 57 (2 * (repLen e.repst + 1)) else e.pc

def isClass1 (cause : Nat) : Bool := cause / 64 == 1

/-- Whether the trap's instruction was a repetition of a REP target. -/
def trapRep (t : TrapEntry) : Bool := repAct t.repst

/-- Where the handler of a cause starts: EMBASE for class 1, else TRAPBASE; none when it is 0. -/
def handlerEntry (b : Bank) (cause : Nat) : Option Pc :=
  let v := if isClass1 cause then bits b.embase.toNat 56 2 * 4 else bits b.trapbase.toNat 56 2 * 4
  if v = 0 then none else some (BitVec.ofNat 57 v)

/-- TAKING A TRAP: the trap `t`, already out of the queue, is delivered to entry `j` of group `g`
(R225, R276 to R278, R369). -/
def takeTrap (s : State) (g j : Nat) (t : TrapEntry) (target : Pc) : State :=
  let core := coreOfGroup g
  let ek := entKey core (g % 32 * 8 + j)
  let e := s.ent ek
  let rpc := resumePc e t
  let depth := if isClass1 t.cause then 1 else 0
  let s1 := s.updGroup g fun gr =>
    { loadTrapRegs gr t rpc with
      recv := some j, depth := depth, wb := BitVec.ofNat 2 (funcWb (s.sregOf g (48 + j))), handling := some t, shS := getSList s g 56 8, shC := gr.conds }
  let s2 := (liveLanesOf s g j).foldl (fun u lane =>
    { u with lane := { u.lane with predSh := u.lane.predSh.put (fibKey g lane) (u.lane.pred.get (fibKey g lane)) } }) s1
  let s3 := saveFunc s2 g j (handlerBase depth)
  let s4 := if isClass1 t.cause then setSList s3 g 56 (decodedFields t 1 (trapRep t)) else s3
  (freeSlots s4 core (g % 32 * 8 + j)).updEnt ek fun e =>
    { e with pc := target, st := .ready, wake := .none, trapped := false, resumed := false, boundary := true,
             since := if e.st == .ready && !(holdsSlot s core (g % 32 * 8 + j)) then e.since else s.now }

/-- The nesting block of an outer level (Table 104), as registers v16 to v47. -/
def nestBlock (gr : Group) : List Word :=
  let two (v : DWord) : List Word := [lo32 v, hi32 v]
  two gr.rpmask ++ [lo32 gr.trcause] ++ two gr.trpc ++ two gr.trfpc ++ two gr.traddr ++ two gr.trmask
    ++ two gr.traux
    ++ [BitVec.ofNat 32 (gr.emcause.toNat + b2n gr.emraise * 2 ^ 15 + gr.depth * 2 ^ 16)]
    ++ [BitVec.ofNat 32 gr.shC.toNat, 0] ++ (gr.shS.map two).flatten

/-- Delivery at depth d + 1 (R284): at once, without the queue. -/
def takeNest (s : State) (g j : Nat) (t : TrapEntry) (target : Pc) : State :=
  let core := coreOfGroup g
  let ek := entKey core (g % 32 * 8 + j)
  let gr := s.group g
  let d := gr.depth + 1
  let base := handlerBase d
  let s1 := (maskList t.mask).foldl (fun u lane => setRegs u (fibKey g lane) (base + 16) (nestBlock gr)) s
  let s2 := s1.updGroup g fun gr =>
    { loadTrapRegs gr t t.rpc with
      trcause := trcauseOf t (gr.queue.length + 1), depth := d, shS := getSList s g 56 8, shC := gr.conds, nest := none }
  let s3 := saveFunc s2 g j base
  let s4 := setSList s3 g 56 (decodedFields t d false)
  s4.updEnt ek fun e => { e with pc := target, st := .ready, wake := .none, trapped := false, boundary := true }

/-! ## Returning (R227, R255, R280, R283, R284) -/

/-- The group goes back from the handler: FUNCj and LINKj from v60 to v63 of the lowest receiving lane,
then s56 to s63, c0 to c7, p1 to p7 and the window base from the shadows. -/
def restoreLevel (s : State) (g j : Nat) : State :=
  let gr := s.group g
  let base := handlerBase gr.depth
  let s1 := match liveLanesOf s g j with
    | [] => s
    | lane :: _ =>
      let r (i : Nat) : Word := s.laneReg (regKey (fibKey g lane) (base + i))
      (s.setSregOf g (48 + j) (cat32 (r 60) (r 61))).setSregOf g (40 + j) (cat32 (r 62) (r 63))
  let s2 := setSList s1 g 56 gr.shS
  let s3 := s2.updGroup g fun x => { x with conds := gr.shC }
  if gr.depth ≤ 1 then
    (liveLanesOf s g j).foldl (fun u lane =>
      u.setPreds (fibKey g lane) (u.lane.predSh.get (fibKey g lane))) s3
  else s3

/-- Back to the outer level of an emulation handler, from its block in the lowest emulated lane (R284). -/
def unnest (s : State) (g base : Nat) (lane : Nat) : State :=
  let r (i : Nat) : Word := s.laneReg (regKey (fibKey g lane) (base + i))
  let two (i : Nat) : DWord := cat32 (r i) (r (i + 1))
  let em := (r 29).toNat
  s.updGroup g fun x =>
    { x with
      rpmask := two 16, trcause := BitVec.ofNat 64 ((r 18).toNat % 2 ^ 19), trpc := BitVec.ofNat 64 ((two 19).toNat % 2 ^ 57), trfpc := BitVec.ofNat 64 ((two 21).toNat % 2 ^ 57),
      traddr := two 23, trmask := two 25, traux := two 27, emraise := bit em 15, emcause := BitVec.ofNat 10 em,
      depth := x.depth - 1, shC := BitVec.ofNat 8 (r 30).toNat,
      shS := (List.range 8).map fun i => two (32 + 2 * i) }

def leaveHandler (s : State) (g : Nat) : State :=
  (s.updGroup g fun x => { x with recv := none, depth := 0, handling := none, replay := none, rpmask := 0 }).post .trapDelivery (coreOfGroup g) (g % 32)

/-- TRPC as an address. -/
def trpcOf (gr : Group) : Pc := BitVec.ofNat 57 gr.trpc.toNat

/-- A precise trap of an entry's own instruction is still queued behind the one that it has taken: after ERET it stands still
again (R225). -/
def ownPrecise (s : State) (g : Nat) (e : Entry) : Bool := (s.group g).queue.any fun t => t.precise && (t.issue &&& e.lanes) != 0

/-- A precise trap of an emulated instruction, raised as its level ends (R280, R283). -/
def emulTrap (s : State) (g : Nat) (t : TrapEntry) (cause : Nat) (mask : DWord) (rpc : Pc) : State :=
  enqueueTrap s g { t with cause := cause, mask := mask, rpc := rpc, addr := 0, aux := 0, precise := true }

/-- ERET once its captured lanes are performed: R227 steps 2 to 5, R255, R283 and R284. -/
def eretFinish (s : State) : State :=
  let g := curGk s
  let j := curJ s
  let gr := s.group g
  let mask := gr.trmask
  let raises := gr.depth != 0 && gr.emraise
  let cause := let c := gr.emcause.toNat
    if c / 64 == 1 || c / 64 == 15 then 0x045 else c
  let target := trpcOf gr
  let s1 := restoreLevel s g j
  let s2 := endRand s1
  if 2 ≤ gr.depth then
    let lane := (lowest mask).getD 0
    let s3 := updCur (unnest s2 g (handlerBase gr.depth) lane) fun e => { e with pc := target }
    if raises then killTeam s3 (curTeamKey s) cause else s3
  else
    let s3 := leaveHandler s2 g
    let s4 := updCur s3 fun e =>
      { e with fteAt := 0, resumed := true, trapped := ownPrecise s3 g e, pc := if repAct e.repst then target - BitVec.ofNat 57 (2 * (repLen e.repst + 1)) else target }
    match raises, gr.handling with
    | true, some t => emulTrap (updCur s4 fun e => { e with trapped := true }) g t cause mask t.rpc
    | _, _ => s4

/-- R280: an empty alias under the trap policy ends the level and raises 0x081 at the emulated
instruction, in the lanes whose register it is; a repetition stands at NEXT = i again. -/
def aliasTrap (s : State) (mask : DWord) : State :=
  let g := curGk s
  let gr := s.group g
  let s1 := endRand (restoreLevel s g (curJ s))
  if 2 ≤ gr.depth then killTeam s1 (curTeamKey s) 0x081
  else match gr.handling with
    | none => s1
    | some t =>
      let s2 := updCur (leaveHandler s1 g) fun e => { e with pc := t.fpc, trapped := true, fteAt := 0 }
      if trapRep t then
        emulTrap (updCur s2 fun e => { e with repst := t.repst }) g t 0x081 mask t.rpc
      else emulTrap s2 g t 0x081 mask t.fpc

/-- The captured lanes that RPMASK still names. -/
def replayCapture (gr : Group) : Option Capture :=
  match gr.handling with
  | some t =>
    match t.cap with
    | some c =>
      let l := c.lanes.filter fun x => gr.rpmask.getLsbD x.lane
      if l.isEmpty then none else some { c with lanes := l }
    | none => none
  | none => none

/-- A captured SLD or SATOM that the handler cleared from RPMASK ceases to be outstanding (R56). -/
def clearUniformCapture (s : State) (g : Nat) : State :=
  match (s.group g).handling with
  | some t =>
    match t.cap with
    | some c =>
      match c.dst with
      | .uniform r =>
        if !((s.group g).rpmask.getLsbD 0) then { s with uni := { s.uni with sout := s.uni.sout.put (g * 64 + r) 0 } } else s
      | _ => s
    | none => s
  | none => s

/-- RETURNING (R56, R227): first the captured lanes in RPMASK are performed, and ERET waits for them;
then the interrupted state comes back. -/
def eretOp (s : State) : State :=
  let g := curGk s
  let gr := s.group g
  match gr.replay with
  | some a => if (s.mm.accs.get a).todo.isEmpty then eretFinish s else s
  | none =>
    if gr.depth ≤ 1 then
      let s0 := clearUniformCapture s g
      match replayCapture gr, gr.handling with
      | some c, some t =>
        let w : Issuer := { curIssuer s (t.issue) with
          order := t.order, fpc := t.fpc, rpc := t.rpc, handler := false, priv := t.priv }
        let (id, s1) := startAccess s0 w c false
        s1.updGroup g fun x => { x with replay := some id, rpmask := 0 }
      | _, _ => eretFinish s0
    else eretFinish s

end Sys2Proof.Machine
end

