-- ==== Sys2Proof/Machine/Operands.lean ====
section
/-! DEFINITION. How instructions read their operands: decode fates (R266 to R269), register groups
(R244), empty policies (R69, R243, R280), outstanding uniform registers (R70) and addresses (R246). -/
namespace Sys2Proof.Machine

/-! ## Decode fates (R268) -/

def devFeat (s : State) (n : Nat) : DWord := s.cfg.devfeat.getD n 0
/-- Feature bit b of the effective mask (R266). -/
def featBit (s : State) (b : Nat) : Bool :=
  ((curBank s).feat.getD (b / 64) 0).getLsbD (b % 64) && (devFeat s (b / 64)).getLsbD (b % 64)

def featuresPresent (s : State) (i : Instr) (setBit : Nat) : Bool :=
  featBit s setBit && (needsAll i).all (featBit s ·)
  && (!(needsAnyMma i) || [8, 9, 10, 11, 12, 13].any (featBit s ·))

/-- The first decode cause of Table 94 that applies to an assigned opcode, if any. -/
def decodeCause (s : State) (i : Instr) (setBit : Nat) : Option Nat :=
  if !(featuresPresent s i setBit) then some 0x043
  else if !(reservedOk i) then some 0x041
  else if !(unusedOk i) then some 0x042
  else none

/-- A lane word: nothing happens when no lane is active (R269); otherwise it is decoded and performed. -/
def laneWord (s : State) (i : Instr) (p : BitVec 3) (act : List Nat → State) : State :=
  let lanes := activeLanes s p.toNat
  if lanes.isEmpty then advance s
  else match decodeCause s i 0 with
    | some c => raiseDecode s c (maskOf lanes)
    | none => act lanes

/-- A uniform word: decoded at every issue, then performed (R354). -/
def uniformWord (s : State) (i : Instr) (act : State) : State :=
  match decodeCause s i 1 with
  | some c => raiseDecode s c (heldLanes s)
  | none => act

/-! ## Sources -/

/-- A register field read by an instruction: k registers from number r, under the trap policy or not. -/
structure Field where
  r : Nat
  k : Nat := 1
  trap : Bool := false
  deriving DecidableEq, Repr, Inhabited

/-- One register of one lane examined under a policy. -/
structure Src where
  lane : Nat
  r : Nat
  trap : Bool
  deriving DecidableEq, Repr, Inhabited

def fieldSrcs (lanes : List Nat) (fs : List Field) : List Src :=
  lanes.flatMap fun l => fs.flatMap fun f => (List.range f.k).map fun i => ⟨l, f.r + i, f.trap⟩

def fieldsFit (fs : List Field) : Bool := fs.all fun f => decide (f.r + f.k ≤ 64)

def isEmptyLoc (s : State) : Loc → Bool
  | .reg k => s.isEmpty k
  | _ => false

/-- A register of the operand window 52 to 59 of an LR faulting word, or of an undefined lane opcode, which is decoded as LR
(R278, R280). -/
def aliasPolicied (s : State) (r : Nat) : Bool :=
  inEmul s && decide (52 ≤ r) && decide (r < 60) && ((rdS s 57).toNat / 128 % 32 == 0 || (rdS s 57).toNat / 128 % 32 == 30)

/-- The policy under which a source is examined (R243, R280). -/
def policyOf (s : State) (x : Src) : Bool :=
  if aliasPolicied s x.r then bit (rdS s 56).toNat (if x.r < 56 then 1 else 0) else x.trap

def locKey : Loc → List Nat
  | .reg k => [k]
  | _ => []

/-- A destination that is empty because an access is outstanding into it waits (R69). -/
def dstWaits (s : State) (x : Src) : Bool :=
  match locate s x.lane x.r with
  | .reg k => s.isEmpty k && s.outOf k != 0
  | _ => false

/-- Perform `act` once every source and destination allows it: an empty source under the trap policy
raises 0x081; otherwise an empty one under the block policy yields (R69). -/
def withSources (s : State) (srcs dsts : List Src) (act : State) : State :=
  let empties := srcs.filter fun x => isEmptyLoc s (locate s x.lane x.r)
  let traps := empties.filter (policyOf s ·)
  let waits := (empties.filter fun x => !(policyOf s x)) ++ dsts.filter (dstWaits s ·)
  if traps.any (fun x => aliasPolicied s x.r) then aliasTrap s (maskOf ((traps.filter fun x => aliasPolicied s x.r).map Src.lane))
  else if !traps.isEmpty then raiseFull s 0x081 (maskOf (traps.map Src.lane)) 0 0 false
  else if !waits.isEmpty then yieldFor s (.full (waits.flatMap fun x => locKey (locate s x.lane x.r)))
  else act

/-- Write a group of registers in each listed lane. -/
def writeGroup (s : State) (lane r : Nat) : List Word → State
  | [] => s
  | v :: t => writeGroup (wrV s lane r v) lane (r + 1) t
def writeLanes (s : State) (d : Nat) : List (Nat × List Word) → State
  | [] => s
  | (l, vs) :: t => writeLanes (writeGroup s l d vs) d t

/-- A lane instruction that computes (R317): sources are read in every active lane, then the k
destination registers are written. -/
def laneCompute (s : State) (i : Instr) (p : BitVec 3) (srcs : List Field) (extra : List Nat → List Src)
    (d k : Nat) (f : Nat → List Word) : State :=
  laneWord s i p fun lanes =>
    if !(fieldsFit (⟨d, k, false⟩ :: srcs)) then raiseFull s 0x082 (maskOf lanes) 0 0 false
    else withSources s (fieldSrcs lanes srcs ++ extra lanes) (fieldSrcs lanes [⟨d, k, false⟩])
      (advance (writeLanes s d (lanes.map fun l => (l, f l))))

/-! ## The forms of Table 118 -/

/-- LR with one-register operands: F(a, b). -/
def lrOp (i : Instr) (o : LR) (f : Word → Word → Word) (s : State) : State :=
  laneCompute s i o.p [⟨o.a.toNat, 1, o.fa⟩, ⟨o.v.toNat, 1, o.fb⟩] (fun _ => []) o.d.toNat 1
    fun l => [f (rdV s l o.a.toNat) (rdV s l o.v.toNat)]

/-- LR that also reads vd, under the block policy: F(a, b, d). -/
def lrOp3 (i : Instr) (o : LR) (f : Word → Word → Word → Word) (s : State) : State :=
  laneCompute s i o.p [⟨o.a.toNat, 1, o.fa⟩, ⟨o.v.toNat, 1, o.fb⟩, ⟨o.d.toNat, 1, false⟩] (fun _ => []) o.d.toNat 1
    fun l => [f (rdV s l o.a.toNat) (rdV s l o.v.toNat) (rdV s l o.d.toNat)]

/-- LI with va under the block policy: F(a). -/
def liOp (i : Instr) (o : LI) (f : Word → Word) (s : State) : State :=
  laneCompute s i o.p [⟨o.a.toNat, 1, false⟩] (fun _ => []) o.d.toNat 1 fun l => [f (rdV s l o.a.toNat)]

/-- LW without sources: the value of each lane. -/
def lwOp (i : Instr) (o : LW) (f : Nat → Word) (s : State) : State :=
  laneCompute s i o.p [] (fun _ => []) o.d.toNat 1 fun l => [f l]

/-- A binary64 value in a group of two (R299). -/
def rdPair (s : State) (l r : Nat) : Nat := (rdV s l r).toNat + (rdV s l (r + 1)).toNat * 2 ^ 32
def pairWords (v : Nat) : List Word := [BitVec.ofNat 32 v, BitVec.ofNat 32 (v / 2 ^ 32)]

/-- LR on binary64 groups: F(a, b, d), reading the vd group only when `three` (R318, R327). -/
def lrPair (i : Instr) (o : LR) (three : Bool) (f : Nat → Nat → Nat → Nat) (s : State) : State :=
  laneCompute s i o.p
    ([⟨o.a.toNat, 2, o.fa⟩, ⟨o.v.toNat, 2, o.fb⟩] ++ (if three then [⟨o.d.toNat, 2, false⟩] else []))
    (fun _ => []) o.d.toNat 2
    fun l => pairWords (f (rdPair s l o.a.toNat) (rdPair s l o.v.toNat) (rdPair s l o.d.toNat))

/-- The rounding mode of the skein group (R302). -/
def curRm (s : State) : Rm :=
  match (curGroup s).fpmode.toNat with
  | 0 => .rne
  | 1 => .rtz
  | 2 => .rup
  | _ => .rdn

/-- A binary32 function of one, two or three words. -/
def fp1 (f : Nat → Nat) (a : Word) : Word := BitVec.ofNat 32 (f a.toNat)
def fp2 (f : Nat → Nat → Nat) (a b : Word) : Word := BitVec.ofNat 32 (f a.toNat b.toNat)
def fp3 (f : Nat → Nat → Nat → Nat) (a b d : Word) : Word := BitVec.ofNat 32 (f a.toNat b.toNat d.toNat)
/-- One function on both 16-bit elements (R328). -/
def packed2 (f : Nat → Nat → Nat) (a b : Word) : Word :=
  let lo := f (a.toNat % 65536) (b.toNat % 65536)
  let hi := f (a.toNat / 65536) (b.toNat / 65536)
  BitVec.ofNat 32 (lo + hi * 65536)
def packed3 (f : Nat → Nat → Nat → Nat) (a b d : Word) : Word :=
  let lo := f (a.toNat % 65536) (b.toNat % 65536) (d.toNat % 65536)
  let hi := f (a.toNat / 65536) (b.toNat / 65536) (d.toNat / 65536)
  BitVec.ofNat 32 (lo + hi * 65536)

/-! ## Uniform operands -/

/-- A uniform register whose SLD or SATOM, or whose home's answer, is outstanding makes its reader or
writer yield (R70, R406). -/
def withUniform (s : State) (regs : List Nat) (act : State) : State :=
  let busy := regs.filter fun r => s.uni.sout.get (curGk s * 64 + r) != 0
  if busy.isEmpty then act else yieldFor s (.uniform (busy.map fun r => curGk s * 64 + r))

/-- A uniform instruction that computes: registers read and written, then its effect. -/
def uniformOp (s : State) (i : Instr) (regs : List Nat) (act : State) : State :=
  uniformWord s i (withUniform s regs act)

/-- A UR instruction that writes sd ← F(s[sa], s[sb]). -/
def urOp (i : Instr) (o : UR) (f : DWord → DWord → DWord) (s : State) : State :=
  uniformOp s i [o.d.toNat, o.a.toNat, o.c.toNat]
    (advance (wrS s o.d.toNat (f (rdS s o.a.toNat) (rdS s o.c.toNat))))

/-- A UR instruction of one source: sd ← F(s[sa]). -/
def urOp1 (i : Instr) (o : UR) (f : DWord → DWord) (s : State) : State :=
  uniformOp s i [o.d.toNat, o.a.toNat] (advance (wrS s o.d.toNat (f (rdS s o.a.toNat))))

/-! ## Addresses (R246) -/

/-- The address of an LM or LA operand in one lane; `x` is the displacement word of a displaced form. -/
def laneAddr (s : State) (l : Nat) (sb : BitVec 4) (a : BitVec 6) (x : Option Disp) : Nat :=
  let base := (rdS s sb.toNat).toNat
  let off := sext 32 64 (rdV s l a.toNat).toNat
  match x with
  | none => (base + off) % 2 ^ 64
  | some d => (base + (if d.nolane then 0 else off) + sext 31 64 d.disp.toNat) % 2 ^ 64

/-- The lane offset as a source; absent with NOLANE. -/
def offsetField (a : BitVec 6) (trap : Bool) (x : Option Disp) : List Field :=
  match x with
  | some d => if d.nolane then [] else [⟨a.toNat, 1, trap⟩]
  | none => [⟨a.toNat, 1, trap⟩]

end Sys2Proof.Machine
end

