-- ==== Sys2Proof/Machine/LaneMem.lean ====
section
/-! DEFINITION. Lane memory instructions: loads, stores, prefetches and atomics (R341 to R350), and the
conditions on which releases and acquires complete (R140, R349). -/
namespace Sys2Proof.Machine

/-! ## Releases and acquires (R140) -/

/-- Accesses of the issuing group by fibres among `lanes`; a scalar access is every fibre's (R118). -/
def accOf (s : State) (g : Nat) (lanes : DWord) : List (Nat × Access) :=
  s.mm.accs.filter fun p => p.2.group == g && !p.2.todo.isEmpty && (p.2.issue &&& lanes) != 0

def writePending (s : State) (acc : Nat) : Bool :=
  s.mm.reqs.any fun p =>
    isWriteKind p.2.kind && (match p.2.src with
      | .lane a _ => a == acc
      | _ => false)
    && (match p.2.stage with
      | .clocked => p.2.kind == .store
      | .response => false
      | .done => false
      | _ => true)

/-- The fibres that a memory-side trap keeps waiting for its ERET: a scalar access is an access of every fibre that issued
it (R56, R118). -/
def capturedLanes (t : TrapEntry) : DWord :=
  match t.cap with
  | some c => if c.scalar then t.issue else t.mask
  | none => 0

/-- A memory-side trap of one of the fibres waits for its ERET, queued or being handled (R56). -/
def captureOpen (s : State) (g : Nat) (lanes : DWord) : Bool :=
  let gr := s.group g
  (gr.handling.toList ++ gr.queue).any fun t => !t.precise && (capturedLanes t &&& lanes) != 0

/-- Some of the fibres run their group's trap handler. -/
def handlesTrap (s : State) (g : Nat) (lanes : DWord) : Bool :=
  match (s.group g).recv with
  | some j => ((s.ent (entKey (g / 32) (g % 32 * 8 + j))).lanes &&& lanes) != 0
  | none => false

/-- A handler's own ordering operations do not wait for what only its ERET performs. -/
def trapPending (s : State) (g : Nat) (lanes : DWord) : Bool := !(handlesTrap s g lanes) && captureOpen s g lanes

/-- An EVPOLL of one of the fibres has not returned; a handler does not wait for what its ERET holds. -/
def pollOpen (s : State) (g : Nat) (lanes : DWord) : Bool :=
  s.task.ops.any fun p => p.2.live && p.2.kind == .poll && p.2.group == g && p.2.handler == handlesTrap s g lanes
    && (p.2.issue &&& lanes) != 0

def isSeqOp : HomeKind → Bool
  | .seqApp _ => true
  | .seqFork _ => true
  | .spanTag _ => true
  | .spanRet _ => true
  | .kvx .. => true
  | .seqCreate .. => true
  | .seqDestroy => true
  | _ => false

/-- The operation is an entry's. -/
def ofEntry (o : HomeOp) : Bool :=
  match o.by_ with
  | .entry _ _ => true
  | _ => false

/-- A sequence operation of some fibres that its home has not applied (R352). -/
def seqPending (s : State) (g : Nat) (lanes : DWord) : Bool :=
  s.task.ops.any fun p => p.2.live && !p.2.applied && ofEntry p.2 && p.2.group == g && isSeqOp p.2.kind && (p.2.issue &&& lanes) != 0

/-- Every earlier write of the fibres is performed, numbered or in its version line (R140). -/
def releaseDone (s : State) (g : Nat) (lanes : DWord) : Bool :=
  !(trapPending s g lanes) && !(seqPending s g lanes) && (accOf s g lanes).all fun p => !(writePending s p.1)

/-- Every earlier read of the fibres has returned (R140). -/
def acquireDone (s : State) (g : Nat) (lanes : DWord) : Bool :=
  !(trapPending s g lanes) && !(pollOpen s g lanes) && (accOf s g lanes).all fun p => p.2.cap.kind == .store

/-- A release orders earlier reads as well as earlier writes (Table 40). -/
def relDone (s : State) (g : Nat) (lanes : DWord) : Bool := releaseDone s g lanes && acquireDone s g lanes

/-- The clocked writes of a die up to a number have been applied on every die. -/
def allApplied (s : State) (die number : Nat) : Bool :=
  (List.range 4).all fun d => vcGe ((dieVc s d).getD die 0) number

/-- Whether a FENCE can go on: kinds ACQ, REL, AR, SC. An SC fence first waits, with `number` 0, until its fibres' own writes are
numbered; then until the clocked writes that its die has numbered by then, up to `number` − 1, have been applied on every
die (R140). -/
def fenceDone (s : State) (g : Nat) (lanes : DWord) (kind number : Nat) : Bool :=
  if kind = 0 then acquireDone s g lanes
  else relDone s g lanes && (kind != 3 || number == 0 || allApplied s (dieOf (g / 32)) (number - 1))

/-- A scoped atomic of one of the fibres is captured, and waits for the ERET that performs it (R56, R349). -/
def acqCaptured (s : State) (g : Nat) (lanes : DWord) : Bool :=
  let gr := s.group g
  !(handlesTrap s g lanes) && (gr.handling.toList ++ gr.queue).any fun t =>
    (match t.cap with
      | some c => c.acq
      | none => false) && (capturedLanes t &&& lanes) != 0

/-- A scoped atomic or an EVPOLL of one of the fibres has not returned: its acquire holds later accesses (R349,
Table 41). -/
def acquireOpen (s : State) (lanes : DWord) : Bool :=
  ((accOf s (curGk s) lanes).any fun p => p.2.acq) || pollOpen s (curGk s) lanes || acqCaptured s (curGk s) lanes

/-! ## One access over the active lanes (Table 130) -/

/-- What a lane memory instruction asks of each lane. -/
structure MemForm where
  d : Nat
  a : BitVec 6
  sb : BitVec 4
  fa : Bool
  x : Option Disp
  n : Nat
  regs : Nat        -- registers of the data or destination group
  dsts : Nat        -- how many of them are written
  kind : AccKind
  wflag : Bool
  signed : Bool
  scope : Nat

def isLoadKind : AccKind → Bool
  | .load => true
  | .const => true
  | _ => false

/-- Registers read beside the lane offset: a store's data, an atomic's operands. -/
def memSources (m : MemForm) : List Field :=
  offsetField m.a m.fa m.x ++ (if isLoadKind m.kind then [] else [⟨m.d, m.regs, false⟩])
def memDests (m : MemForm) : List Field := if m.dsts = 0 then [] else [⟨m.d, m.dsts, false⟩]

def memPerm : AccKind → Perm
  | .store => .store
  | .atomic _ => .atomic
  | .pref _ => .prefetch
  | _ => .load

/-- Step 5 of Table 130 in one lane: Table 10, then 0x086 (R123, R350). -/
def memCheck (s : State) (m : MemForm) (l : Nat) : Except Nat (Nat × Bool) :=
  let va := laneAddr s l m.sb m.a m.x
  match rangeCheck (curBank s) va m.n (memPerm m.kind) with
  | .error c => .error c
  | .ok (ia, r) => if m.wflag && va % m.n != 0 then .error 0x086 else .ok (ia, rngNol1 (curBank s) r)

/-- The value of k registers of a lane from number r, least significant first. -/
def groupValue (s : State) (l r : Nat) : Nat → Nat
  | 0 => 0
  | k + 1 => (rdV s l r).toNat + 2 ^ 32 * groupValue s l (r + 1) k

def capLane (s : State) (m : MemForm) (l : Nat) : List CapLane :=
  match memCheck s m l with
  | .error _ => []
  | .ok (ia, nol1) =>
    let q := max 1 m.dsts
    match m.kind with
    | .store => [{ lane := l, ia := ia, d := groupValue s l m.d m.regs % 256 ^ m.n, nol1 := nol1 }]
    | .atomic _ => [{ lane := l, ia := ia, d := groupValue s l m.d q,
                      nv := groupValue s l (m.d + q) (m.regs - q), nol1 := nol1 }]
    | _ => [{ lane := l, ia := ia, nol1 := nol1 }]

/-- The failing lanes of step 5, ascending, each with its cause. -/
def memFails (s : State) (m : MemForm) (lanes : List Nat) : List (Nat × Nat) :=
  lanes.filterMap fun l => match memCheck s m l with
    | .error c => some (l, c)
    | .ok _ => none

/-- Where a write or atomic to a page that is being migrated or that is duplicated would be performed: the home's own frame. -/
def homeFrame (s : State) (ia : Nat) : Option Nat :=
  match walk s (homeDie ia) ia with
  | .leaf _ _ w0 _ => if pteP w0 then some (pagePa w0 ia) else none
  | _ => none

/-- What a read of one lane meets in poison or an unbacked frame, if anything: the trap is precise (R231). A line that the L1
holds may leave it at any time, and is read past here. -/
def laneMachine (s : State) (w : Issuer) (k : AccKind) (l : CapLane) (n : Nat) : Option Nat :=
  let need : Need := if isLoadKind k then .read else .atomic
  let one (ia : Nat) : Option Nat := match xlate s (dieOf w.core) ia need w.keyslot w.priv with
    | (.serve d pa _, s1) =>
      (match regionOf s1 pa with
        | .device => none
        | _ => poisonCause s1 d (ia / 256) (pa / 256) w.job)
    | (.fault 0x344, _) => some 0x344
    | (.heldM, s1) => (homeFrame s1 ia).bind fun pa => poisonCause s1 (homeDie ia) (ia / 256) (pa / 256) w.job
    | (.collapse .., s1) => (homeFrame s1 ia).bind fun pa => poisonCause s1 (homeDie ia) (ia / 256) (pa / 256) w.job
    | _ => none
  (one l.ia).or (one (l.ia + n - 1))

def machineFails (s : State) (m : MemForm) (lanes : List Nat) : List (Nat × Nat) :=
  match m.kind with
  | .store => []
  | .pref _ => []
  | k =>
    let w := curIssuer s (maskOf lanes)
    (lanes.flatMap (capLane s m)).filterMap fun c => (laneMachine s w k c m.n).map fun x => (c.lane, x)

/-- Report the lowest failing lane with the mask of all (R23). -/
def raiseLanes (s : State) (fails : List (Nat × Nat)) (addr : Nat → Nat) : State :=
  match fails with
  | [] => s
  | (l, c) :: _ => raiseFull s c (maskOf (fails.map Prod.fst)) (BitVec.ofNat 64 (addr l)) 0 false

def countsLdl : AccKind → Bool
  | .store => false
  | .pref _ => false
  | _ => true

/-- The registers of a returning access, which lie alike in all its lanes: 513 and 514 stand for the predicates of the level below (R279). -/
def curDst (s : State) (m : MemForm) (lanes : List Nat) : AccDst :=
  if m.dsts = 0 then .none
  else .lanes ((List.range m.dsts).map fun i => match locate s (lanes.headD 0) (m.d + i) with
    | .reg k => k % 512
    | .preds => if (curGroup s).depth = 1 then 513 else 514
    | .zero => 512)

def memCapture (s : State) (m : MemForm) (lanes : List Nat) : Capture :=
  { kind := m.kind, n := m.n, wflag := m.wflag, signed := m.signed, dst := curDst s m lanes,
    lanes := lanes.flatMap (capLane s m) }

def setAcq (s : State) (id scope : Nat) : State :=
  putAcc s id { s.mm.accs.get id with acq := true, drops := decide (4 ≤ scope) }

/-- A privileged store reaches the device-register region (Table 31). -/
def storesDevice (s : State) (w : Issuer) (c : Capture) : Bool :=
  w.priv && c.kind == .store && c.lanes.any fun l =>
    match (xlate s (dieOf w.core) l.ia .write w.keyslot w.priv).1 with
    | .serve _ pa _ => regionOf s pa == .device
    | _ => false

/-- What the issue of an access does to restartability: an atomic and a privileged write to a device register end it (R93). -/
def issueEnds (s : State) (w : Issuer) (c : Capture) : State :=
  match c.kind with
  | .atomic _ => endRestart s (curTeamKey s)
  | _ => if storesDevice s w c then endRestart s (curTeamKey s) else s

/-- Step 6: an atomic ends restartability (R93); one with a scope is a release before and an acquire
after (R349). -/
def memPerform (s : State) (m : MemForm) (lanes : List Nat) : State :=
  let w := curIssuer s (maskOf lanes)
  let s1 := issueEnds s w (memCapture s m lanes)
  let sp := if m.kind == .load then pmCur s1 0x05 lanes.length else s1
  let (id, s2) := startAccess sp w (memCapture s m lanes) (countsLdl m.kind)
  advance (if m.scope = 0 then s2 else setAcq s2 id m.scope)

/-- A memory instruction of Table 128 after its decode (Table 130, steps 2 to 6). -/
def laneMem (s : State) (i : Instr) (p : BitVec 3) (m : MemForm) : State :=
  laneWord s i p fun lanes =>
    if !(fieldsFit (memDests m ++ memSources m)) then raiseFull s 0x082 (maskOf lanes) 0 0 false
    else withUniform s [m.sb.toNat]
      (withSources s (fieldSrcs lanes (memSources m)) (fieldSrcs lanes (memDests m))
        (if countsLdl m.kind && decide (63 ≤ counter (curGroup s) 2) then yieldFor s (.counter 2 62)
         else
          let fails := memFails s m lanes
          let bad := machineFails s m lanes
          if !fails.isEmpty then raiseLanes s fails fun l => laneAddr s l m.sb m.a m.x
          else if !bad.isEmpty then raiseLanes s bad fun l => laneAddr s l m.sb m.a m.x
          else if acquireOpen s (maskOf lanes) || (m.scope != 0 && !(relDone s (curGk s) (maskOf lanes))) then s
          else memPerform s m lanes))

/-! ## Scratchpad (R72, R343, R345) -/

def scratchCheck (s : State) (m : MemForm) (l : Nat) : Option Nat :=
  let off := laneAddr s l m.sb m.a m.x
  if (curTeam s).ssize < off + m.n then some 0x084 else if off % m.n != 0 then some 0x085 else none

def scratchFails (s : State) (m : MemForm) (lanes : List Nat) : List (Nat × Nat) :=
  lanes.filterMap fun l => (scratchCheck s m l).map fun c => (l, c)

/-- Where a lane's offset lies in the core's scratchpad. -/
def scratchAt (s : State) (m : MemForm) (l : Nat) : Nat := (curTeam s).sbase + laneAddr s l m.sb m.a m.x

/-- The value read stands from the issue; it returns to the lane later (R343). -/
def scratchReturns (s : State) (acc : Nat) (m : MemForm) : List Nat → State
  | [] => s
  | l :: t =>
    let (id, s1) := s.newId
    let r : Req := { src := .lane acc l, len := m.n, core := s.cur.core, group := curGk s, stage := .response,
                     scratch := true, ia := scratchAt s m l, data := leNat (scratchBytes s s.cur.core (scratchAt s m l) m.n) }
    scratchReturns ((putReq s1 id r).add .loadReturn id) acc m t

/-- A scratchpad access of `k` events in each lane begins: its number, with its destinations outstanding. -/
def scratchAccess (s : State) (m : MemForm) (lanes : List Nat) (k : Nat) : Nat × State :=
  let w := curIssuer s (maskOf lanes)
  let (id, s1) := s.newId
  let cap : Capture := { kind := m.kind, n := m.n, wflag := m.wflag, signed := m.signed, dst := curDst s m lanes,
                         lanes := lanes.map fun l => { lane := l } }
  let a : Access := {
    core := w.core, group := w.group, ent := w.ent, order := w.order, cap := cap, fpc := w.fpc, rpc := w.rpc,
    issue := w.issue, todo := lanes.foldl (fun t l => Sparse.put t l k) [], handler := w.handler, priv := w.priv, fte := w.fte,
    repst := if s.cur.rep then (curEntry s).repst else 0 }
  (id, lanes.foldl (fun t l => markOut t (fibKey w.group l) id (dstRegs cap.dst)) (putAcc s1 id a))

def scratchLoad (s : State) (m : MemForm) (lanes : List Nat) : State :=
  let (id, s2) := scratchAccess s m lanes 1
  scratchReturns s2 id m lanes

/-- An access of 8 or 16 bytes without W is one event for each of its units, each performed on its own (R121). -/
def scratchSplits (m : MemForm) : Bool := decide (4 < m.n) && !m.wflag

def scratchEvents (s : State) (acc : Nat) (m : MemForm) (l : Nat) : List Nat → State
  | [] => s
  | i :: t =>
    let (id, s1) := s.newId
    let v := groupValue s l m.d m.regs % 256 ^ m.n
    let r : Req := { src := .lane acc l, kind := m.kind, ia := scratchAt s m l + 4 * i, len := 4, off := 4 * i,
                     data := v / 2 ^ (32 * i) % 2 ^ 32, core := s.cur.core, group := curGk s, die := dieOf s.cur.core,
                     slot := bankSlot (curBank s), scratch := true }
    scratchEvents ((putReq s1 id r).add .requestAtNearSlice id) acc m l t

def scratchSplit (s : State) (m : MemForm) (lanes : List Nat) : State :=
  let (id, s1) := scratchAccess s m lanes (m.n / 4)
  lanes.foldl (fun t l => scratchEvents t id m l (List.range (m.n / 4))) s1

/-- An event of an earlier scratchpad access of one of the fibres has still to be performed in a unit that the access
touches (R124). -/
def scratchBusy (s : State) (m : MemForm) (lanes : List Nat) : Bool :=
  s.mm.reqs.any fun p => p.2.scratch && p.2.stage == .near && p.2.group == curGk s && lanes.any fun l =>
    laneOf p.2 == some l && decide (scratchAt s m l / 4 ≤ p.2.ia / 4)
      && decide (p.2.ia / 4 ≤ (scratchAt s m l + m.n - 1) / 4)

/-- Lanes store in ascending order, so the highest-numbered of several stands (R345). -/
def scratchStore (s : State) (m : MemForm) : List Nat → State
  | [] => s
  | l :: t =>
    let v := groupValue s l m.d m.regs % 256 ^ m.n
    scratchStore (scratchPuts s s.cur.core (bankSlot (curBank s)) (scratchAt s m l) (leBytes m.n v)) m t

/-- VLDS and VSTS (Table 130). -/
def laneScratch (s : State) (i : Instr) (p : BitVec 3) (m : MemForm) : State :=
  laneWord s i p fun lanes =>
    if !(fieldsFit (memDests m ++ memSources m)) then raiseFull s 0x082 (maskOf lanes) 0 0 false
    else withUniform s [m.sb.toNat]
      (withSources s (fieldSrcs lanes (memSources m)) (fieldSrcs lanes (memDests m))
        (let fails := scratchFails s m lanes
         if !fails.isEmpty then raiseLanes s fails fun l => laneAddr s l m.sb m.a m.x
         else if acquireOpen s (maskOf lanes) || scratchBusy s m lanes then s
         else advance (if scratchSplits m then scratchSplit s m lanes
           else if isLoadKind m.kind then scratchLoad s m lanes else scratchStore s m lanes)))

/-! ## Prefetch (R346) -/

/-- Lanes that fail their range check are dropped; the rest are posted and never answered. -/
def prefPost (s : State) (m : MemForm) : List Nat → State
  | [] => s
  | l :: t =>
    match memCheck s m l with
    | .error _ => prefPost s m t
    | .ok (ia, nol1) =>
      let b := curBank s
      let (id, s1) := s.newId
      let r : Req := { src := .device, kind := m.kind, ia := ia, len := 1, core := s.cur.core, group := curGk s,
                       bank := (curTeam s).bank, die := dieOf s.cur.core, slot := bankSlot b, job := (curTeam s).job,
                       keyslot := b.keyslot.toNat, priv := s.cur.priv, nol1 := nol1,
                       vc := dieVc s (dieOf s.cur.core) }
      prefPost ((putReq s1 id r).add .requestAtNearSlice id) m t

def lanePref (s : State) (i : Instr) (p : BitVec 3) (m : MemForm) : State :=
  laneWord s i p fun lanes =>
    withUniform s [m.sb.toNat]
      (withSources s (fieldSrcs lanes (offsetField m.a m.fa m.x)) [] (advance (prefPost s m lanes)))

/-! ## Forms -/

/-- LM in the narrow group: 1 or 2 bytes (Table 82). -/
def narrowForm (o : LM) (x : Option Disp) (k : AccKind) : MemForm :=
  { d := o.d.toNat, a := o.a, sb := o.sb, fa := o.fa, x := x, n := if o.sz.toNat < 2 then 1 else 2, regs := 1,
    dsts := if isLoadKind k then 1 else 0, kind := k, wflag := false, signed := o.sz.getLsbD 0, scope := 0 }
/-- LM in the wide group: 4, 8 or 16 bytes. -/
def wideForm (o : LM) (x : Option Disp) (k : AccKind) : MemForm :=
  { d := o.d.toNat, a := o.a, sb := o.sb, fa := o.fa, x := x, n := 4 * 2 ^ o.sz.toNat, regs := 2 ^ o.sz.toNat,
    dsts := if isLoadKind k then 2 ^ o.sz.toNat else 0, kind := k, wflag := o.w, signed := false, scope := 0 }
def prefForm (o : LM) (x : Option Disp) : MemForm :=
  { wideForm o x (.pref o.sz.toNat) with n := 1, wflag := false, regs := 0, dsts := 0 }
/-- LA: `wide` registers when W is set, else one; `two` for VATCAS (Table 131). -/
def atomicForm (o : LA) (x : Option Disp) (op wide : Nat) (two : Bool) : MemForm :=
  let q := if o.w then wide else 1
  { d := o.d.toNat, a := o.a, sb := o.sb, fa := false, x := x, n := 4 * q, regs := if two then 2 * q else q,
    dsts := q, kind := .atomic op, wflag := true, signed := false, scope := o.scope.toNat }

/-! ## The instructions -/

def execVldN (o : LM) (s : State) : Host.Outcome State Fault Refusal :=
  .next (laneMem s (.vldN o) o.p (narrowForm o none .load))
def execVldNd (o : LM) (x : Disp) (s : State) : Host.Outcome State Fault Refusal :=
  .next (laneMem s (.vldNd o x) o.p (narrowForm o (some x) .load))
def execVldW (o : LM) (s : State) : Host.Outcome State Fault Refusal :=
  .next (laneMem s (.vldW o) o.p (wideForm o none .load))
def execVldWd (o : LM) (x : Disp) (s : State) : Host.Outcome State Fault Refusal :=
  .next (laneMem s (.vldWd o x) o.p (wideForm o (some x) .load))
def execVstN (o : LM) (s : State) : Host.Outcome State Fault Refusal :=
  .next (laneMem s (.vstN o) o.p (narrowForm o none .store))
def execVstNd (o : LM) (x : Disp) (s : State) : Host.Outcome State Fault Refusal :=
  .next (laneMem s (.vstNd o x) o.p (narrowForm o (some x) .store))
def execVstW (o : LM) (s : State) : Host.Outcome State Fault Refusal :=
  .next (laneMem s (.vstW o) o.p (wideForm o none .store))
def execVstWd (o : LM) (x : Disp) (s : State) : Host.Outcome State Fault Refusal :=
  .next (laneMem s (.vstWd o x) o.p (wideForm o (some x) .store))
def execVldsN (o : LM) (s : State) : Host.Outcome State Fault Refusal :=
  .next (laneScratch s (.vldsN o) o.p (narrowForm o none .load))
def execVldsNd (o : LM) (x : Disp) (s : State) : Host.Outcome State Fault Refusal :=
  .next (laneScratch s (.vldsNd o x) o.p (narrowForm o (some x) .load))
def execVldsW (o : LM) (s : State) : Host.Outcome State Fault Refusal :=
  .next (laneScratch s (.vldsW o) o.p (wideForm o none .load))
def execVldsWd (o : LM) (x : Disp) (s : State) : Host.Outcome State Fault Refusal :=
  .next (laneScratch s (.vldsWd o x) o.p (wideForm o (some x) .load))
def execVstsN (o : LM) (s : State) : Host.Outcome State Fault Refusal :=
  .next (laneScratch s (.vstsN o) o.p (narrowForm o none .store))
def execVstsNd (o : LM) (x : Disp) (s : State) : Host.Outcome State Fault Refusal :=
  .next (laneScratch s (.vstsNd o x) o.p (narrowForm o (some x) .store))
def execVstsW (o : LM) (s : State) : Host.Outcome State Fault Refusal :=
  .next (laneScratch s (.vstsW o) o.p (wideForm o none .store))
def execVstsWd (o : LM) (x : Disp) (s : State) : Host.Outcome State Fault Refusal :=
  .next (laneScratch s (.vstsWd o x) o.p (wideForm o (some x) .store))
def execVldkN (o : LM) (s : State) : Host.Outcome State Fault Refusal :=
  .next (laneMem s (.vldkN o) o.p (narrowForm o none .const))
def execVldkNd (o : LM) (x : Disp) (s : State) : Host.Outcome State Fault Refusal :=
  .next (laneMem s (.vldkNd o x) o.p (narrowForm o (some x) .const))
def execVldkW (o : LM) (s : State) : Host.Outcome State Fault Refusal :=
  .next (laneMem s (.vldkW o) o.p (wideForm o none .const))
def execVldkWd (o : LM) (x : Disp) (s : State) : Host.Outcome State Fault Refusal :=
  .next (laneMem s (.vldkWd o x) o.p (wideForm o (some x) .const))
def execVpref (o : LM) (s : State) : Host.Outcome State Fault Refusal :=
  .next (lanePref s (.vpref o) o.p (prefForm o none))
def execVprefD (o : LM) (x : Disp) (s : State) : Host.Outcome State Fault Refusal :=
  .next (lanePref s (.vprefD o x) o.p (prefForm o (some x)))
def execVatadd (o : LA) (s : State) : Host.Outcome State Fault Refusal :=
  .next (laneMem s (.vatadd o) o.p (atomicForm o none 0 2 false))
def execVataddD (o : LA) (x : Disp) (s : State) : Host.Outcome State Fault Refusal :=
  .next (laneMem s (.vataddD o x) o.p (atomicForm o (some x) 0 2 false))
def execVatmin (o : LA) (s : State) : Host.Outcome State Fault Refusal :=
  .next (laneMem s (.vatmin o) o.p (atomicForm o none 1 2 false))
def execVatminD (o : LA) (x : Disp) (s : State) : Host.Outcome State Fault Refusal :=
  .next (laneMem s (.vatminD o x) o.p (atomicForm o (some x) 1 2 false))
def execVatmax (o : LA) (s : State) : Host.Outcome State Fault Refusal :=
  .next (laneMem s (.vatmax o) o.p (atomicForm o none 2 2 false))
def execVatmaxD (o : LA) (x : Disp) (s : State) : Host.Outcome State Fault Refusal :=
  .next (laneMem s (.vatmaxD o x) o.p (atomicForm o (some x) 2 2 false))
def execVatand (o : LA) (s : State) : Host.Outcome State Fault Refusal :=
  .next (laneMem s (.vatand o) o.p (atomicForm o none 3 2 false))
def execVatandD (o : LA) (x : Disp) (s : State) : Host.Outcome State Fault Refusal :=
  .next (laneMem s (.vatandD o x) o.p (atomicForm o (some x) 3 2 false))
def execVator (o : LA) (s : State) : Host.Outcome State Fault Refusal :=
  .next (laneMem s (.vator o) o.p (atomicForm o none 4 2 false))
def execVatorD (o : LA) (x : Disp) (s : State) : Host.Outcome State Fault Refusal :=
  .next (laneMem s (.vatorD o x) o.p (atomicForm o (some x) 4 2 false))
def execVatxor (o : LA) (s : State) : Host.Outcome State Fault Refusal :=
  .next (laneMem s (.vatxor o) o.p (atomicForm o none 5 2 false))
def execVatxorD (o : LA) (x : Disp) (s : State) : Host.Outcome State Fault Refusal :=
  .next (laneMem s (.vatxorD o x) o.p (atomicForm o (some x) 5 2 false))
def execVatxch (o : LA) (s : State) : Host.Outcome State Fault Refusal :=
  .next (laneMem s (.vatxch o) o.p (atomicForm o none 6 4 false))
def execVatxchD (o : LA) (x : Disp) (s : State) : Host.Outcome State Fault Refusal :=
  .next (laneMem s (.vatxchD o x) o.p (atomicForm o (some x) 6 4 false))
def execVatcas (o : LA) (s : State) : Host.Outcome State Fault Refusal :=
  .next (laneMem s (.vatcas o) o.p (atomicForm o none 7 4 true))
def execVatcasD (o : LA) (x : Disp) (s : State) : Host.Outcome State Fault Refusal :=
  .next (laneMem s (.vatcasD o x) o.p (atomicForm o (some x) 7 4 true))

end Sys2Proof.Machine
end

