-- ==== Sys2Proof/Machine/Fetch.lean ====
section
/-! DEFINITION. Reads made at issue (R363, R365), function table entries (Table 107) and the fetch of the next
instruction (R22, R240, R249 to R251). -/
namespace Sys2Proof.Machine

/-! ## Reads at issue -/

/-- What a read made at issue gives: bytes, a cause met in the ranges, a cause met at the memory side, a
residency event, or nothing yet. -/
inductive Sync where
  | ok (bs : List Byte) (s : State)
  | range (cause : Nat)
  | cause (cause : Nat)
  | absent (event : DWord) (s : State)
  | wait (s : State)

/-- Who reads: core, bank, job, privilege, and whether through the L1. -/
structure SyncBy where
  core : Nat
  bank : Bank
  job : Option Nat := none
  priv : Bool := false
  l1 : Bool := false

/-- The read of one run within a granule at the slice that serves it. -/
def syncServe (s : State) (w : SyncBy) (ia n d pa : Nat) (key : Option Nat) (fill : Bool) : Sync :=
  match regionOf s pa with
  | .device => if w.priv then .ok (regBytes s pa n) s else .cause 0x381
  | _ =>
    match poisonCause s d (ia / 256) (pa / 256) w.job with
    | some c => .cause c
    | none =>
      let die := dieOf w.core
      let p : Port := { die := die }
      if clockWait s p d || clockAhead s p d ia then .wait s
      else
        let (bs, s1) := serveRead s d ia pa key w.job n
        let slot := bankSlot w.bank
        let barred := ownVersion s w.job (ia / 128 * 128) 128 || lineBusy s w.core slot (ia / 128)
        let s2 := if fill && !barred then
            l1Put s1 (l1Key w.core slot ia)
              ((List.range 128).map fun i => scByte s1 d (ia / 256) (pa / 256) key (ia % 256 / 128 * 128 + i))
          else s1
        .ok bs s2

/-- One run of a read at issue within a 256-byte line: the L1 when its range admits it, then the memory side. -/
def syncPiece (s : State) (w : SyncBy) (l1 : Bool) (ia n : Nat) : Sync :=
  let slot := bankSlot w.bank
  let line := s.mm.l1.get (l1Key w.core slot ia)
  if l1 && ia % 128 + n ≤ 128 && !(ownVersion s w.job (ia / 128 * 128) 128) && l1Held s w.core 0 line then
    .ok ((line.drop (ia % 128)).take n) { s with free := s.free + 1 }
  else match xlate s (dieOf w.core) ia .read w.bank.keyslot.toNat w.priv with
    | (.serve d pa key, s1) => if d == homeDie ia && collapsing s1 ia then .wait s1 else syncServe s1 w ia n d pa key (l1 && ia % 128 + n ≤ 128)
    | (.fault c, _) => .cause c
    | (.notResident page sz g ridx, s1) =>
      (match notResident s1 ia page sz g ridx slot (dieOf w.core) w.job with
        | (.event e, s2) => .absent e s2
        | (.hold, s2) => .wait s2
        | (.fault c, _) => .cause c)
    | (_, s1) => .wait s1

/-- The runs of a read at issue, line by line. -/
def syncPieces (w : SyncBy) (l1 : Bool) : List (Nat × Nat) → State → List Byte → Sync
  | [], s, acc => .ok acc s
  | (ia, n) :: t, s, acc =>
    match syncPiece s w l1 ia n with
    | .ok bs s1 => syncPieces w l1 t s1 (acc ++ bs)
    | r => r

/-- A read at issue: the range check of the whole, then each of its lines. -/
def syncRead (s : State) (w : SyncBy) (va n : Nat) (perm : Perm) : Sync :=
  match rangeCheck w.bank va n perm with
  | .error c => .range c
  | .ok (ia, r) => syncPieces w (w.l1 && !(rngNol1 w.bank r)) (granules (n / 256 + 2) ia n) s []

/-! ## Function table entries (Table 107) -/

def fteEntry (f : Nat) : Nat := bits f 56 1 * 2
def fteCoded (f : Nat) : Bool := bit f 0
def fteUnit (f : Nat) : Nat := if fteCoded f then 2 else 4
def fteExtent (f : Nat) : Nat := bits f 95 64
def fteTeam (f : Nat) : Nat := bits f 105 96 + 1
def fteTiles (f : Nat) : Nat := bits f 109 106
def fteWindow (f : Nat) : Nat := 64 * (bits f 111 110 + 1)
def fteScratch (f : Nat) : Nat := bits f 159 128
def fteDict (f : Nat) : Nat := bits f 255 192

/-- A malformed entry (R363). -/
def fteBad (f : Nat) : Bool :=
  bits f 63 57 != 0 || bits f 127 112 != 0 || bits f 191 160 != 0 || fteExtent f == 0
  || fteExtent f % fteUnit f != 0 || (!(fteCoded f) && fteEntry f % 4 != 0)

/-- A function table entry as an instruction reads it: the entry, or what the instruction does instead. -/
inductive FteRes where
  | ok (f : Nat) (s : State)
  | stop (s : State)

/-- Who reads at issue for the issuing instruction. -/
def curSync (s : State) : SyncBy :=
  { core := s.cur.core, bank := curBank s, job := (curTeam s).job, priv := s.cur.priv, l1 := true }

/-- A write of one of the issuing fibres to some bytes has still to be performed (R124). -/
def ownWriteOpen (s : State) (ia n : Nat) : Bool :=
  s.mm.reqs.any fun p => isWriteKind p.2.kind && !p.2.scratch && p.2.group == curGk s
    && (match laneOf p.2 with
      | some l => p.2.scalar || (heldLanes s).getLsbD l
      | none => false)
    && decide (p.2.ia < ia + n) && decide (ia < p.2.ia + p.2.len)
    && (match p.2.stage with
      | .response => false
      | .done => false
      | _ => true)

/-- A read made at issue for the issuing fibres: it stands in their program order, after their own writes to its bytes and
after an acquire that they still make (R124, R126, R131). -/
def curRead (s : State) (va n : Nat) : Sync :=
  let open_ := match rangeCheck (curBank s) va n .load with
    | .ok (ia, _) => acquireOpen s (heldLanes s) || ownWriteOpen s ia n
    | .error _ => false
  if open_ then .wait s else syncRead s (curSync s) va n .load

/-- A residency event met by a read at issue (R363): a restartable job is aborted; in any other 0x110 is a precise
trap without a capture, and the instruction is issued again after ERET. -/
def raiseAbsentIn (s : State) (event : DWord) (addr : Nat) (lanes : DWord) : State :=
  let job := (curTeam s).job
  if jobRestartable s job then abortJob s (job.getD 0) event
  else raiseFull s 0x110 lanes (word64 addr) event false
def raiseAbsent (s : State) (event : DWord) (addr : Nat) : State := raiseAbsentIn s event addr (heldLanes s)

/-- Read and check the function table entry at a virtual address for the issuing instruction (R363, R297, R275). -/
def readFte (s : State) (va : Nat) : FteRes :=
  match curRead s va 32 with
  | .range _ => .stop (raise s 0x282)
  | .cause c => .stop (raiseFull s c (heldLanes s) (word64 va) 0 false)
  | .absent e s1 => .stop (raiseAbsent s1 e va)
  | .wait s1 => .stop s1
  | .ok bs s1 =>
    let f := leNat bs
    if fteBad f then .stop (raise s 0x0C5)
    else if fteCoded f && !(featBit s 2) then .stop (raiseDecode s 0x043 (heldLanes s))
    else .ok f s1

/-- The function that the issuing entry runs, as it was read (R363). -/
def curFte (s : State) : Nat := if funcFte (curFunc s) = 0 then 0 else (curEntry s).fteRaw.toNat
def curUnit (s : State) : Nat := if funcFte (curFunc s) = 0 then 4 else fteUnit (curFte s)

/-- The range that is the extent of code with no function: the emulation handler's holds EMBASE (R276). -/
def plainRange (s : State) : Option Nat :=
  rngSelect (curBank s) (if inEmul s then bits (curBank s).embase.toNat 56 2 * 4 else (curPc s).toNat)

/-- A target lies in the function's extent, or in the range through which plain code is fetched (R363). -/
def inExtent (s : State) (target : Nat) : Bool :=
  if funcFte (curFunc s) = 0 then
    match plainRange s with
    | some r => rngHit (curBank s) r target
    | none => false
  else decide (fteEntry (curFte s) ≤ target) && decide (target < fteEntry (curFte s) + fteExtent (curFte s))

/-! ## Fetch -/

/-- An instruction as fetched: its word, its displacement word, its length in 16-bit units, whether it came as a
code, and whether it is privileged (R26). -/
structure Fetched where
  word : Word := 0
  dword : Word := 0
  len : Nat := 2
  coded : Bool := false
  priv : Bool := false
  deriving DecidableEq, Repr, Inhabited

inductive FetchRes where
  | ok (f : Fetched) (s : State)
  | stop (cause addr : Nat)
  | absent (event : DWord) (addr : Nat) (s : State)
  | wait (s : State)

/-- An address as a 64-bit word: the 57 bits of a PC, sign-extended to be canonical (R12). -/
def pcVa (pc : Nat) : Nat := sext 57 64 pc

/-- The privilege with which a word at an address is fetched (R26). -/
def fetchPriv (b : Bank) (va : Nat) : Bool :=
  match rngSelect b va with
  | some r => rngPriv b r
  | none => false

/-- Fetch n bytes of code, or of a dictionary, for the issuing entry. Fetches see committed values alone (log entry 18). -/
def fetchBytes (s : State) (va n : Nat) (perm : Perm) : Sync :=
  syncRead s { core := s.cur.core, bank := curBank s, priv := fetchPriv (curBank s) va } va n perm

def fetchNat (s : State) (va n : Nat) (perm : Perm) (k : Nat → State → FetchRes) : FetchRes :=
  match fetchBytes s va n perm with
  | .ok bs s1 => k (leNat bs) s1
  | .range c => .stop c va
  | .cause c => .stop c va
  | .absent e s1 => .absent e va s1
  | .wait s1 => .wait s1

/-- The register fields of a format, as bit positions (R250). -/
def regFields (w : Nat) : List Nat :=
  match formatCode (BitVec.ofNat 32 w) with
  | 0 => [14, 8, 2]
  | 1 => [14, 8]
  | 2 => [14]
  | 3 => [14, 8]
  | 4 => [14, 8]
  | 5 => [17, 11, 5]
  | 6 => if bits w 29 23 = 0x28 then [] else [17]
  | 8 => [9, 3]
  | 9 => [14, 8]
  -- An undefined lane opcode is decoded as LR (R278).
  | 15 => if w < 2 ^ 31 then [14, 8, 2] else []
  | _ => []

/-- Fetch at an address runs past the end of the function, or of the emulation handler (R249, R276). -/
def pastEnd (s : State) (pc : Nat) : Bool :=
  (funcFte (curFunc s) != 0 || (inEmul s && (plainRange s).isSome)) && !(inExtent s pc)

def addField (w lo k : Nat) : Nat :=
  let f := bits w (lo + 5) lo
  w - f * 2 ^ lo + (f + k) % 64 * 2 ^ lo

/-- The expansion of a code through its dictionary word (R250). -/
def expandCode (code w : Nat) : Nat :=
  let w1 := w - bits w 30 30 * 2 ^ 30 + bits code 5 5 * 2 ^ 30
  (regFields w1).foldl (fun v lo => addField v lo (code % 32)) w1

/-- The displacement word of a displaced form follows its word or code (R246, R251). -/
def fetchDisp (s : State) (pc : Nat) (f : Fetched) : FetchRes :=
  if isDisplaced f.word.toNat then
    if pastEnd s (pc + 2 * f.len + 4 - curUnit s) then .stop 0x0C2 (pcVa pc)
    else fetchNat s (pcVa (pc + 2 * f.len)) 4 .fetch fun v s1 => .ok { f with dword := BitVec.ofNat 32 v, len := f.len + 2 } s1
  else .ok f s

/-- The instruction at an address of the issuing entry's function: 0x0C2 past the function's end (R249), the
causes of R22, or the word. A dictionary is read as data is (R294). -/
def fetchAt (s : State) (pc : Nat) : FetchRes :=
  let f := curFte s
  let priv := fetchPriv (curBank s) (pcVa pc)
  if pastEnd s pc then .stop 0x0C2 (pcVa pc)
  else if f != 0 && fteCoded f then
    fetchNat s (pcVa pc) 2 .fetch fun code s1 =>
      fetchNat s1 ((fteDict f + 4 * (code / 64)) % 2 ^ 64) 4 .load fun w s2 =>
        fetchDisp s2 pc { word := BitVec.ofNat 32 (expandCode code w), len := 1, coded := true, priv := priv }
  else fetchNat s (pcVa pc) 4 .fetch fun w s1 => fetchDisp s1 pc { word := BitVec.ofNat 32 w, priv := priv }

end Sys2Proof.Machine
end

