-- ==== Sys2Proof/Machine/Flags.lean ====
section
/-! DEFINITION. Relations, predicates and condition bits: the relation word of Table 126, the relations of
SCMP (R357), PSET's predicate operation (R332) and SVOTE's votes (R359). -/
namespace Sys2Proof.Machine

def bitsWord (l : List Bool) : Nat := l.foldr (fun b n => b2n b + 2 * n) 0

/-- Table 126 for w-bit integers: eq ne lt le gt ge ltu leu gtu geu. -/
def intRelations (w a b : Nat) : List Bool :=
  let x := sint w a
  let y := sint w b
  [a == b, a != b, decide (x < y), decide (x ≤ y), decide (y < x), decide (y ≤ x),
   decide (a < b), decide (a ≤ b), decide (b < a), decide (b ≤ a)]

/-- VCMP's relation word. -/
def vcmpWord (a b : Word) : Word := BitVec.ofNat 32 (bitsWord (intRelations 32 a.toNat b.toNat))

/-- FCMP's and DCMP's relation word in a format. -/
def fcmpWord (f : Fmt) (a b : Nat) : Word :=
  let un := fIsNan f a || fIsNan f b
  let x := fKey f a
  let y := fKey f b
  let r (c : Bool) : Bool := !un && c
  BitVec.ofNat 32 (bitsWord [r (x == y), un || x != y, r (decide (x < y)), r (decide (x ≤ y)),
    r (decide (y < x)), r (decide (y ≤ x)), false, false, false, false, un, !un])

/-- SCMP's relation by its bit number (R357). -/
def scmpRel (rel : Nat) (a b : DWord) : Bool := (intRelations 64 a.toNat b.toNat).getD rel false

/-- PSET's operation: set, AND, OR, XOR (R332). -/
def psetOp (op : Nat) (p t : Bool) : Bool :=
  match op with
  | 0 => t
  | 1 => p && t
  | 2 => p || t
  | _ => p != t

/-- SVOTE's result from the mask M of voting lanes and the mask of the instruction's lanes (R359). -/
def voteOp (op : Nat) (m lanes : DWord) : DWord :=
  match op with
  | 0 => if m != 0 then 1 else 0
  | 1 => if m == lanes then 1 else 0
  | 2 => m
  | _ => BitVec.ofNat 64 (popc m.toNat 64)

/-- A UB condition of index k, whose bit is c: N with index 0 is always (R248). -/
def ubCond (k : Nat) (c n : Bool) : Bool := (n && k == 0) || (c != n)

end Sys2Proof.Machine
end

