-- ==== Sys2Proof/Machine/Uniform.lean ====
section
/-! DEFINITION. Uniform arithmetic, comparison, lane-to-uniform and scalar memory instructions (R354 to R361,
R373). -/
namespace Sys2Proof.Machine

/-! ## Scalar arithmetic (Table 132) -/

/-- The shift count is b[7:0] (R355). -/
def shiftCount (b : DWord) : Nat := b.toNat % 256
def shl64 (a b : DWord) : DWord := if 64 ≤ shiftCount b then 0 else a <<< (shiftCount b)
def shr64 (a b : DWord) : DWord := if 64 ≤ shiftCount b then 0 else a >>> (shiftCount b)
def sar64 (a b : DWord) : DWord := a.sshiftRight (min (shiftCount b) 63)
/-- SMIN's choice: signed, or unsigned with U. -/
def lessEq64 (u : Bool) (a b : DWord) : Bool := if u then decide (a.toNat ≤ b.toNat) else decide (a.toInt ≤ b.toInt)
def min64 (u : Bool) (a b : DWord) : DWord := if lessEq64 u a b then a else b
def max64 (u : Bool) (a b : DWord) : DWord := if lessEq64 u b a then a else b

/-- A UI instruction of one register: sd ← F(sd). -/
def uiOp (i : Instr) (o : UI) (f : DWord → DWord) (s : State) : State :=
  uniformOp s i [o.d.toNat] (advance (wrS s o.d.toNat (f (rdS s o.d.toNat))))

def execNop (o : UR) (s : State) : Host.Outcome State Fault Refusal :=
  .next (uniformOp s (.nop o) [] (advance s))
def execSadd (o : UR) (s : State) : Host.Outcome State Fault Refusal := .next (urOp (.sadd o) o (fun a b => a + b) s)
def execSsub (o : UR) (s : State) : Host.Outcome State Fault Refusal := .next (urOp (.ssub o) o (fun a b => a - b) s)
def execSmul (o : UR) (s : State) : Host.Outcome State Fault Refusal := .next (urOp (.smul o) o (fun a b => a * b) s)
def execSand (o : UR) (s : State) : Host.Outcome State Fault Refusal := .next (urOp (.sand o) o (fun a b => a &&& b) s)
def execSor (o : UR) (s : State) : Host.Outcome State Fault Refusal := .next (urOp (.sor o) o (fun a b => a ||| b) s)
def execSxor (o : UR) (s : State) : Host.Outcome State Fault Refusal := .next (urOp (.sxor o) o (fun a b => a ^^^ b) s)
def execSshl (o : UR) (s : State) : Host.Outcome State Fault Refusal := .next (urOp (.sshl o) o shl64 s)
def execSshr (o : UR) (s : State) : Host.Outcome State Fault Refusal := .next (urOp (.sshr o) o shr64 s)
def execSsar (o : UR) (s : State) : Host.Outcome State Fault Refusal := .next (urOp (.ssar o) o sar64 s)
def execSmin (o : UR) (s : State) : Host.Outcome State Fault Refusal :=
  .next (urOp (.smin o) o (min64 (o.f.getLsbD 0)) s)
def execSmax (o : UR) (s : State) : Host.Outcome State Fault Refusal :=
  .next (urOp (.smax o) o (max64 (o.f.getLsbD 0)) s)
def execSpopc (o : UR) (s : State) : Host.Outcome State Fault Refusal :=
  .next (urOp1 (.spopc o) o (fun a => BitVec.ofNat 64 (popc a.toNat 64)) s)
def execSclz (o : UR) (s : State) : Host.Outcome State Fault Refusal :=
  .next (urOp1 (.sclz o) o (fun a => BitVec.ofNat 64 (clz a.toNat 64)) s)
def execSaddi (o : UI) (s : State) : Host.Outcome State Fault Refusal :=
  .next (uiOp (.saddi o) o (fun a => a + o.imm.signExtend 64) s)
def execSmovi (o : UI) (s : State) : Host.Outcome State Fault Refusal :=
  .next (uiOp (.smovi o) o (fun _ => o.imm.signExtend 64) s)
def execSmovhi (o : UI) (s : State) : Host.Outcome State Fault Refusal :=
  .next (uiOp (.smovhi o) o (fun a => (a <<< 16) ||| BitVec.ofNat 64 (o.imm.toNat % 65536)) s)

/-! ## Condition bits (R357, R359) -/

/-- SCMP: bits 19:17 of the sd field are K, f5[3:0] the relation and f5[4] N. -/
def execScmp (o : UR) (s : State) : Host.Outcome State Fault Refusal :=
  .next (uniformOp s (.scmp o) [o.a.toNat, o.c.toNat]
    (advance (setCond s (o.d.toNat % 8)
      (scmpRel (o.f.toNat % 16) (rdS s o.a.toNat) (rdS s o.c.toNat) != o.f.getLsbD 4))))

/-- SSEL: K in f5[2:0], N in f5[3]. -/
def execSsel (o : UR) (s : State) : Host.Outcome State Fault Refusal :=
  .next (urOp (.ssel o) o (fun a b => if condBit s (o.f.toNat % 8) != o.f.getLsbD 3 then a else b) s)

/-- The lanes of the instruction whose predicate n is 1. -/
def votes (s : State) (n : Nat) : DWord :=
  maskOf ((maskList (actLanes s)).filter fun l => (s.preds (fibKey (curGk s) l)).getLsbD n)

/-- SVOTE: N in bits 2:0, OP in 4:3, C in 5, K in 8:6. -/
def execSvote (o : UI) (s : State) : Host.Outcome State Fault Refusal :=
  .next (uniformOp s (.svote o) [o.d.toNat]
    (let v := voteOp (bits o.imm.toNat 4 3) (votes s (o.imm.toNat % 8)) (actLanes s)
     let s1 := wrS s o.d.toNat v
     advance (if o.imm.getLsbD 5 then setCond s1 (bits o.imm.toNat 8 6) (v != 0) else s1)))

/-! ## Lane to uniform (R358) -/

/-- The lane that SREADL reads: bits 11:6, or with FIRST the lowest of its lanes; none when it is not readable
under R336. -/
def sreadlLane (s : State) (imm : Nat) : Option Nat :=
  if bit imm 12 then lowest (actLanes s)
  else
    let j := bits imm 11 6
    if (heldLanes s).getLsbD j then some j else none

def execSreadl (o : UI) (s : State) : Host.Outcome State Fault Refusal :=
  let imm := o.imm.toNat
  let n := imm % 64
  let k := if bit imm 13 then 2 else 1
  .next (uniformOp s (.sreadl o) [o.d.toNat]
    (if 64 < n + k then raise s 0x082
     else match sreadlLane s imm with
      | none => advance (wrS s o.d.toNat 0)
      | some l =>
        withSources s (fieldSrcs [l] [⟨n, k, false⟩]) []
          (advance (wrS s o.d.toNat (BitVec.ofNat 64 (groupValue s l n k))))))

/-! ## Scalar memory (R360, R361) -/

/-- A scalar access: its operation, size, W flag, sign, destination and operands. -/
structure ScalarForm where
  va : Nat
  n : Nat
  kind : AccKind
  wflag : Bool
  signed : Bool
  dst : AccDst
  d : Nat
  nv : Nat
  rel : Bool

def scalarFail (s : State) (cause va : Nat) : State := raiseFull s cause 1 (word64 va) 0 false

/-- Checks of Table 9 and R22, then 0x086 (R123, R350); then lane 0 alone performs it (R54). -/
def scalarMem (s : State) (m : ScalarForm) : State :=
  if countsLdl m.kind && decide (63 ≤ counter (curGroup s) 2) then yieldFor s (.counter 2 62)
  else match rangeCheck (curBank s) m.va m.n (memPerm m.kind) with
    | .error c => scalarFail s c m.va
    | .ok (ia, r) =>
      if m.wflag && m.va % m.n != 0 then scalarFail s 0x086 m.va
      else
        let w := curIssuer s (heldLanes s)
        let lane : CapLane := { lane := 0, ia := ia, d := m.d, nv := m.nv, nol1 := rngNol1 (curBank s) r }
        let bad := match m.kind with
          | .store => none
          | k => laneMachine s w k lane m.n
        match bad with
        | some c => scalarFail s c m.va
        | none =>
          if acquireOpen s (heldLanes s) || (m.rel && !(relDone s (curGk s) (heldLanes s))) then s
          else
            let cap : Capture := { kind := m.kind, n := m.n, wflag := m.wflag, signed := m.signed, dst := m.dst,
                                   lanes := [lane], scalar := true }
            let (id, s2) := startAccess (issueEnds s w cap) w cap (countsLdl m.kind)
            advance (if m.rel then setAcq s2 id 5 else s2)

/-- SLD and SST: the address s[sa] + s[sb]; SZ in f5[1:0], S in bit 2, W in bit 3. -/
def sizeOf (f : BitVec 5) : Nat := 2 ^ (f.toNat % 4)
def scalarAddr (s : State) (o : UR) : Nat := (rdS s o.a.toNat + rdS s o.c.toNat).toNat

def execSld (o : UR) (s : State) : Host.Outcome State Fault Refusal :=
  .next (uniformOp s (.sld o) [o.d.toNat, o.a.toNat, o.c.toNat]
    (scalarMem s { va := scalarAddr s o, n := sizeOf o.f, kind := .load, wflag := o.f.getLsbD 3,
                   signed := o.f.getLsbD 2, dst := .uniform o.d.toNat, d := 0, nv := 0, rel := false }))

def execSst (o : UR) (s : State) : Host.Outcome State Fault Refusal :=
  .next (uniformOp s (.sst o) [o.d.toNat, o.a.toNat, o.c.toNat]
    (scalarMem s { va := scalarAddr s o, n := sizeOf o.f, kind := .store, wflag := o.f.getLsbD 3,
                   signed := false, dst := .none, d := (rdS s o.d.toNat).toNat % 256 ^ sizeOf o.f, nv := 0, rel := false }))

/-- SATOM: the operation in f5[2:0], W in bit 3, A in bit 4. CAS compares with the old s[sd] and writes s[sb]. -/
def execSatom (o : UR) (s : State) : Host.Outcome State Fault Refusal :=
  let n := if o.f.getLsbD 3 then 8 else 4
  let op := o.f.toNat % 8
  let low (r : BitVec 6) : Nat := (rdS s r.toNat).toNat % 256 ^ n
  .next (uniformOp s (.satom o) [o.d.toNat, o.a.toNat, o.c.toNat]
    (scalarMem s { va := (rdS s o.a.toNat).toNat, n := n, kind := .atomic op, wflag := true, signed := false,
                   dst := .uniform o.d.toNat, d := if op = 7 then low o.d else low o.c, nv := low o.c,
                   rel := o.f.getLsbD 4 }))

end Sys2Proof.Machine
end

