-- ==== Sys2Proof/Machine/Control.lean ====
section
/-! DEFINITION. Splitting and parking (R172, R174, R368), branches, calls, fibres, windows, barriers, traps and
ordering instructions (R252 to R254, R363 to R376, R393 to R395). -/
namespace Sys2Proof.Machine

/-! ## Entries of a group -/

def gEntKey (g j : Nat) : Nat := entKey (coreOfGroup g) (g % 32 * 8 + j)
def gEnt (s : State) (g j : Nat) : Entry := s.ent (gEntKey g j)
def setGEnt (s : State) (g j : Nat) (e : Entry) : State := s.setEnt (gEntKey g j) e

/-- Entries that a split or a new fibre may take. -/
def freeEntries (s : State) (g : Nat) : List Nat :=
  (List.range 8).filter fun j => j != 0 && (gEnt s g j).st == .free

def entryLanes (s : State) (g : Nat) : DWord := (List.range 8).foldl (fun m j =>
  let e := gEnt s g j
  if e.st == .free then m else m ||| e.lanes) 0

/-- Live fibres in no entry (R171). -/
def parkedLanes (s : State) (g : Nat) : DWord := (s.group g).live &&& ~~~(entryLanes s g)
def hasParked (s : State) (g : Nat) : Bool := parkedLanes s g != 0
def parkedPc (s : State) (g l : Nat) : Nat := ((s.lane.parked.get (fibKey g l)).getD 0).toNat

def setParked (s : State) (g : Nat) (pc : Option Pc) (lanes : List Nat) : State :=
  lanes.foldl (fun t l => { t with lane := { t.lane with parked := t.lane.parked.put (fibKey g l) pc } }) s

def parkAt (s : State) (g : Nat) (lanes : DWord) (pc : Pc) : State :=
  (maskList lanes).foldl (fun t l => { t with lane := { t.lane with parkedAt := t.lane.parkedAt.put (fibKey g l) s.now } })
    (setParked s g (some pc) (maskList lanes))

/-- The time at which the first of the group's parked fibres was parked. -/
def parkSince (s : State) (g : Nat) : Nat :=
  (maskList (parkedLanes s g)).foldl (fun m l => min m (s.lane.parkedAt.get (fibKey g l))) s.now

/-- The function and link words of entry j. -/
def funcOf (s : State) (g j : Nat) : DWord := s.sregOf g (48 + j)
def linkOf (s : State) (g j : Nat) : DWord := s.sregOf g (40 + j)
/-- The entry that holds a fibre; none for one that is parked. -/
def entryOf (s : State) (g l : Nat) : Option Nat :=
  (List.range 8).find? fun j => (gEnt s g j).st != .free && (gEnt s g j).lanes.getLsbD l
/-- The base of a fibre's current window: its handler window in the entry that handles a trap (R225, R279), and of a parked
fibre the window of entry 0, whose words it shares (R368). -/
def fibreBase (s : State) (g l : Nat) : Nat :=
  let gr := s.group g
  let j := (entryOf s g l).getD 0
  if gr.recv.isSome && entryOf s g l == gr.recv then handlerBase gr.depth else 64 * funcWb (funcOf s g j)

/-- Entry `dst` takes entry `src`'s FUNC and LINK, with the function table entry it has read (R368). -/
def copyFunc (s : State) (g src dst : Nat) : State :=
  let s1 := (s.setSregOf g (48 + dst) (funcOf s g src)).setSregOf g (40 + dst) (linkOf s g src)
  s1.updEnt (gEntKey g dst) fun e => { e with fteAt := (gEnt s g src).fteAt, fteRaw := (gEnt s g src).fteRaw }
/-- The parking condition of R368: the entry's words equal entry 0's. -/
def mayPark (s : State) (g j : Nat) : Bool := funcOf s g j == funcOf s g 0 && linkOf s g j == linkOf s g 0

/-- The parked fibres with the lowest PC take entry j (R174). -/
def unparkInto (s : State) (g j : Nat) : State :=
  let l := maskList (parkedLanes s g)
  match l with
  | [] => s
  | a :: t =>
    let pc := t.foldl (fun m x => min m (parkedPc s g x)) (parkedPc s g a)
    let mine := l.filter fun x => parkedPc s g x == pc
    let s1 := setGEnt s g j { st := .ready, parent := 0, pc := BitVec.ofNat 57 pc, lanes := maskOf mine, since := s.now, rotated := true }
    setParked (copyFunc s1 g 0 j) g none mine

/-- An entry whose lanes have all gone: the root stays with LANES 0; any other becomes FREE, its children take its
PARENT, and parked fibres may take it (R173, R174). -/
def releaseEntry (s : State) (g j : Nat) : State :=
  if j = 0 then s.updEnt (gEntKey g 0) fun e => { e with lanes := 0, repst := 0 }
  else
    let up := (gEnt s g j).parent
    let s1 := setGEnt s g j {}
    let s2 := (List.range 8).foldl (fun t k =>
      if k != j && (gEnt t g k).st != .free && (gEnt t g k).parent == j then
        t.updEnt (gEntKey g k) fun e => { e with parent := up }
      else t) s1
    unparkInto s2 g j

/-- Each further target takes an entry, or its lanes park (R172 steps 2 and 3). -/
def splitRest (s : State) (g j : Nat) : List (Nat × DWord) → State
  | [] => s
  | (pc, lanes) :: t =>
    match freeEntries s g with
    | k :: _ =>
      let s1 := setGEnt s g k { st := .ready, parent := j, pc := BitVec.ofNat 57 pc, lanes := lanes, since := s.now }
      splitRest (copyFunc s1 g j k) g j t
    | [] => splitRest (parkAt s g lanes (BitVec.ofNat 57 pc)) g j t

/-- The issuing entry's lanes go to the targets, which rise (R172); it keeps the first. -/
def splitTo (s : State) : List (Nat × DWord) → State
  | [] => s
  | [(pc, _)] => jump s (BitVec.ofNat 57 pc)
  | (pc, lanes) :: t =>
    let s1 := updCur (jump s (BitVec.ofNat 57 pc)) fun e => { e with lanes := lanes }
    endRand (splitRest s1 (curGk s) (curJ s) t)

/-- Insert into a rising list, once. -/
def insertRise (x : Nat) : List Nat → List Nat
  | [] => [x]
  | y :: t => if x < y then x :: y :: t else if x = y then y :: t else y :: insertRise x t

/-- Group lanes by target, targets ascending. -/
def byTarget (l : List (Nat × Nat)) : List (Nat × DWord) :=
  let ts := l.foldr (fun p acc => insertRise p.2 acc) []
  ts.map fun t => (t, maskOf ((l.filter fun p => p.2 == t).map (·.1)))

/-- A control transfer of the issuing entry enters the path digest of a replay pass. -/
def transfer (s : State) (pc n : Nat) : State := addDigest s (curTeam s).job (funcFte (curFunc s)) pc n

/-! ## Branches (R364, R365) -/

def targetOf (pc off unit : Nat) : Nat := (pc + off * unit) % 2 ^ 57

def execBr (o : UB) (s : State) : Host.Outcome State Fault Refusal :=
  .next (uniformOp s (.br o) []
    (if !(ubCond o.k.toNat (condBit s o.k.toNat) o.n) then advance s
     else
      let t := targetOf (curPc s).toNat (sext 19 57 o.off.toNat) (curUnit s)
      if !(inExtent s t) then raise s 0x0C2
      else transfer (jump s (BitVec.ofNat 57 t)) t (maskList (heldLanes s)).length))

/-- The index of each lane (R365). -/
def brxIndex (s : State) (o : UX) (l : Nat) : Nat :=
  if o.e = 0 then (rdS s o.c.toNat).toNat
  else if o.e = 1 then (rdV s l o.h.toNat).toNat
  else b2n ((s.preds (fibKey (curGk s) l)).getLsbD o.m.toNat)

/-- A lane's target, or the cause that it fails with. -/
inductive LaneTarget where
  | at_ (pc : Nat)
  | fail (cause : Nat)
  /-- Its offset lies in a page that is not resident. -/
  | absent (event : DWord)
  deriving DecidableEq, Repr, Inhabited

inductive BrxRes where
  | ok (l : List (Nat × LaneTarget)) (s : State)
  | stop (s : State)

/-- A lane's target: with no function it is relative to the table (R365). -/
def brxTarget (s : State) (t off : Nat) : Option Nat :=
  if funcFte (curFunc s) = 0 then
    let v := (t + off * 4) % 2 ^ 64
    if canonical v && inExtent s (v % 2 ^ 57) then some (v % 2 ^ 57) else none
  else
    let p := fteEntry (curFte s) + off * curUnit s
    if inExtent s p then some p else none

/-- The offset loads of the lanes, in ascending order. -/
def brxLanes (s0 : State) (o : UX) (t count : Nat) : List Nat → State → List (Nat × LaneTarget) → BrxRes
  | [], s, acc => .ok acc s
  | l :: rest, s, acc =>
    let i := brxIndex s0 o l
    if count ≤ i then brxLanes s0 o t count rest s (acc ++ [(l, .fail 0x0C3)])
    else match curRead s ((t + 4 + 4 * i) % 2 ^ 64) 4 with
      | .ok bs s1 =>
        let r := match brxTarget s0 t (leNat bs) with
          | some pc => LaneTarget.at_ pc
          | none => .fail 0x0C2
        brxLanes s0 o t count rest s1 (acc ++ [(l, r)])
      | .range c => brxLanes s0 o t count rest s (acc ++ [(l, .fail c)])
      | .cause c => brxLanes s0 o t count rest s (acc ++ [(l, .fail c)])
      | .absent e s1 => brxLanes s0 o t count rest s1 (acc ++ [(l, .absent e)])
      | .wait s1 => .stop s1

/-- Lanes move to their targets: an emulation handler does not split (R282), and a split that would park lanes
needs entry 0's words (R368). -/
def brxMove (s : State) (l : List (Nat × Nat)) : State :=
  let targets := byTarget l
  if inEmul s && decide (1 < targets.length) then raise s 0x044
  else if (freeEntries s (curGk s)).length + 1 < targets.length && !(mayPark s (curGk s) (curJ s)) then raise s 0x0C5
  else
    let s1 := splitTo s targets
    targets.foldl (fun t p => addDigest t (curTeam s).job (funcFte (curFunc s)) p.1 (maskList p.2).length) s1

def failsOf (l : List (Nat × LaneTarget)) : List (Nat × Nat) :=
  l.filterMap fun p => match p.2 with
    | .fail c => some (p.1, c)
    | .absent _ => some (p.1, 0x110)
    | .at_ _ => none
def targetsOf (l : List (Nat × LaneTarget)) : List (Nat × Nat) :=
  l.filterMap fun p => match p.2 with
    | .at_ t => some (p.1, t)
    | _ => none

/-- The residency event of the lowest lane among some whose offset is not resident. -/
def absentOf (l : List (Nat × LaneTarget)) (f : Nat → Bool) : Option DWord :=
  l.findSome? fun p => match p.2 with
    | .absent e => if f p.1 then some e else none
    | _ => none

/-- Lanes have failed: an offset that is not resident aborts a restartable job; else the cause is the lowest lane's, and its ADDR
that of the offset it loaded (R365). -/
def brxFail (s : State) (o : UX) (t : Nat) (l : List (Nat × LaneTarget)) : State :=
  let f := failsOf l
  let at_ (lane : Nat) : Nat := (t + 4 + 4 * brxIndex s o lane) % 2 ^ 64
  match f with
  | [] => s
  | (lane, c) :: _ =>
    match absentOf l fun x => x == lane || jobRestartable s (curTeam s).job with
    | some e => raiseAbsentIn s e (at_ lane) (maskOf (f.map Prod.fst))
    | none => raiseLanes s f fun x => if c / 64 = 3 then 0 else at_ x

def brxRun (s : State) (o : UX) (t count : Nat) (s1 : State) : State :=
  match brxLanes s o t count (maskList (actLanes s)) s1 [] with
  | .stop s2 => s2
  | .ok l s2 => if (failsOf l).isEmpty then brxMove s2 (targetsOf l) else brxFail s2 o t l

def execBrx (o : UX) (s : State) : Host.Outcome State Fault Refusal :=
  let srcs := if o.e = 1 then fieldSrcs (maskList (actLanes s)) [⟨o.h.toNat, 1, false⟩] else []
  .next (uniformOp s (.brx o) ([o.a.toNat] ++ (if o.e = 0 then [o.c.toNat] else []))
    (withSources s srcs []
      (let t := (rdS s o.a.toNat).toNat
       if t % 4 != 0 then raise s 0x0C3
       else match curRead s t 4 with
        | .range c => raiseFull s c (heldLanes s) (word64 t) 0 false
        | .cause c => raiseFull s c (heldLanes s) (word64 t) 0 false
        | .absent e s1 => raiseAbsent s1 e t
        | .wait s1 => s1
        | .ok bs s1 =>
          let count := leNat bs
          if count = 0 ∨ 256 < count then raise s 0x0C3 else brxRun s o t count s1)))

/-! ## Calls and returns (R366, R367) -/

def setFunc (s : State) (f : DWord) : State := wrS s (funcReg s) f
def setLink (s : State) (l : DWord) : State := wrS s (linkReg s) l
/-- FUNCj with another FTE. -/
def withFte (f : DWord) (va : Nat) : DWord := word64 (f.toNat - funcFte f + bits va 56 5 * 32)
def setFte (s : State) (va f : Nat) : State :=
  updCur (setFunc s (withFte (curFunc s) va)) fun e => { e with fteAt := va, fteRaw := BitVec.ofNat 256 f }

def entry0Parked (s : State) : Bool := curJ s == 0 && hasParked s (curGk s)

/-- The link of a call; none when it is out of reach. -/
def callLink (s : State) : Option DWord :=
  let rp := (nextPc s).toNat
  let f := funcFte (curFunc s)
  if f = 0 then some (word64 (2 ^ 63 + rp))
  else
    let off := (rp - fteEntry (curFte s)) / curUnit s
    if 2 ^ 23 ≤ off ∨ 2 ^ 45 ≤ f then none else some (word64 (off * 2 ^ 40 + bits f 44 5))

def callTo (s : State) (c : Nat) : State :=
  if c % 32 != 0 || decide (2 ^ 45 ≤ c) then raise s 0x0C5
  else match readFte s c with
    | .stop s1 => s1
    | .ok f s1 =>
      match callLink s with
      | none => raise s 0x0C5
      | some link =>
        if entry0Parked s then raise s 0x0C5
        else
          let pc := fteEntry f
          transfer (jump (setFte (setLink s1 link) c f) (BitVec.ofNat 57 pc)) pc (maskList (heldLanes s)).length

def execCall (o : UI) (s : State) : Host.Outcome State Fault Refusal :=
  .next (uniformOp s (.call o) [funcReg s, linkReg s]
    (if funcFte (curFunc s) = 0 then raise s 0x0C5
     else callTo s ((funcFte (curFunc s) + sext 17 64 o.imm.toNat * 32) % 2 ^ 64)))

def execCallx (o : UR) (s : State) : Host.Outcome State Fault Refusal :=
  .next (uniformOp s (.callx o) [o.a.toNat, funcReg s, linkReg s] (callTo s (rdS s o.a.toNat).toNat))

def linkAbs (l : DWord) : Bool := l.getLsbD 63
def linkOff (l : DWord) : Nat := bits l.toNat 62 40
def linkCfte (l : DWord) : Nat := bits l.toNat 39 0 * 32

def retTo (s : State) (link : DWord) : State :=
  let n := (maskList (heldLanes s)).length
  if linkAbs link then
    let pc := link.toNat % 2 ^ 57
    transfer (jump (setFte (setLink s 0) 0 0) (BitVec.ofNat 57 pc)) pc n
  else match readFte s (linkCfte link) with
    | .stop s1 => s1
    | .ok f s1 =>
      let pc := fteEntry f + linkOff link * fteUnit f
      if pc < fteEntry f + fteExtent f then
        transfer (jump (setFte (setLink s1 0) (linkCfte link) f) (BitVec.ofNat 57 pc)) pc n
      else raise s 0x0C2

def execRet (o : UR) (s : State) : Host.Outcome State Fault Refusal :=
  .next (uniformOp s (.ret o) [funcReg s, linkReg s]
    (let link := rdS s (linkReg s)
     if link = 0 then raise s 0x0C6 else if entry0Parked s then raise s 0x0C5 else retTo s link))

/-! ## Fibres (R169, R370, R371) -/

def teamGroup (s : State) (t : Team) (tg : Nat) : Nat := groupKey s.cur.core (t.groups.getD tg 0)
/-- Live fibres of a team, by identifier. -/
def fibreLive (s : State) (t : Team) (f : Nat) : Bool := (s.group (teamGroup s t (f / 64))).live.getLsbD (f % 64)
def freeFibres (s : State) (t : Team) : List Nat := (List.range t.n).filter fun f => !(fibreLive s t f)

/-- The declared windows of fibres are written with zero and full (R68). -/
def clearWindows (s : State) (fks : List Nat) : State :=
  let out (p : Nat) : Bool := !(fks.contains (p / 512) && decide (p % 512 < 256))
  { s with lane := { s.lane with
      reg := s.lane.reg.filter fun p => out p.1
      empty := s.lane.empty.filter fun p => out p.1
      out := s.lane.out.filter fun p => out p.1
      pred := dropKeys s.lane.pred 1 fks } }

/-- New fibres of one team group: their identifiers with their index among those created. -/
def newLanes (tg : Nat) (ids : List (Nat × Nat)) : List (Nat × Nat) :=
  ids.filterMap fun p => if p.1 / 64 = tg then some (p.1 % 64, p.2) else none

/-- Where the new fibres start, with the words they start with and the function table entry read for them. -/
structure Spawn where
  pc : Nat
  func : DWord
  link : DWord
  fteAt : Nat
  fteRaw : BitVec 256
  deriving DecidableEq, Repr, Inhabited

/-- Whether new fibres of a group have a place: the empty root, a FREE entry, or parking with entry 0's words. -/
def spawnFits (s : State) (g : Nat) (p : Spawn) : Bool :=
  (s.group g).live == 0 || !(freeEntries s g).isEmpty || (p.func == funcOf s g 0 && p.link == linkOf s g 0)

def setSpawnWords (s : State) (g j : Nat) (p : Spawn) : State :=
  ((s.setSregOf g (48 + j) p.func).setSregOf g (40 + j) p.link).updEnt (gEntKey g j) fun e =>
    { e with fteAt := p.fteAt, fteRaw := p.fteRaw }

/-- The new fibres of one group become live and take their place. -/
def spawnGroup (s : State) (g tg : Nat) (p : Spawn) (l : List (Nat × Nat)) : State :=
  let base := 64 * funcWb p.func
  let lanes := maskOf (l.map (·.1))
  let s1 := clearWindows s (l.map fun x => fibKey g x.1)
  let s2 := l.foldl (fun t x =>
    setRegs t (fibKey g x.1) base [BitVec.ofNat 32 (64 * tg + x.1), BitVec.ofNat 32 x.2]) s1
  let s3 := s2.updGroup g fun x => { x with live := x.live ||| lanes }
  let e : Entry := { st := .ready, parent := 0, pc := BitVec.ofNat 57 p.pc, lanes := lanes, since := s.now }
  if (s.group g).live == 0 then setSpawnWords (setGEnt s3 g 0 e) g 0 p
  else match freeEntries s g with
    | j :: _ => setSpawnWords (setGEnt s3 g j e) g j p
    | [] => parkAt s3 g lanes (BitVec.ofNat 57 p.pc)

def spawnAll (s : State) (p : Spawn) (t : Team) (ids : List (Nat × Nat)) : State :=
  (List.range 16).foldl (fun u tg =>
    let l := newLanes tg ids
    if l.isEmpty then u else spawnGroup u (teamGroup s t tg) tg p l) s

def fspawnRun (s : State) (o : UR) (p : Spawn) : State :=
  let t := curTeam s
  let count := (rdS s o.a.toNat).toNat
  let free := freeFibres s t
  if count = 0 then advance (wrS s o.d.toNat (~~~0))
  else if free.length < count then raise s 0x0C9
  else
    let ids := (free.take count).mapIdx fun i f => (f, i)
    if (List.range 16).any fun tg => !((newLanes tg ids).isEmpty) && !(spawnFits s (teamGroup s t tg) p) then raise s 0x0C5
    else if !(relDone s (curGk s) (heldLanes s)) then s
    else advance (wrS (spawnAll s p t ids) o.d.toNat (word64 (free.headD 0)))

/-- Where the relative form starts its fibres: ENTRY + SignExtend(s[sb]) × unit, not wrapped (R370). -/
def spawnTarget (s : State) (b : DWord) : Int := (fteEntry (curFte s) : Int) + b.toInt * curUnit s

/-- FSPAWN: relative, or with f5[0] through a function table entry. -/
def execFspawn (o : UR) (s : State) : Host.Outcome State Fault Refusal :=
  .next (uniformOp s (.fspawn o) ([o.d.toNat, o.a.toNat, o.c.toNat] ++ (if o.f.getLsbD 0 then [] else [funcReg s, linkReg s]))
    (if inEmul s then raise s 0x044
     else
      let b := (rdS s o.c.toNat).toNat
      if o.f.getLsbD 0 then
        if b % 32 != 0 || decide (2 ^ 45 ≤ b) then raise s 0x0C5
        else match readFte s b with
          | .stop s1 => s1
          | .ok f s1 =>
            fspawnRun s1 o { pc := fteEntry f, func := withFte 0 b, link := 0, fteAt := b, fteRaw := BitVec.ofNat 256 f }
      else if funcFte (curFunc s) = 0 then raise s 0x0C5
      else
        let t := spawnTarget s (rdS s o.c.toNat)
        if decide (t < 0) || !(inExtent s t.toNat) then raise s 0x0C2
        else fspawnRun s o { pc := t.toNat, func := curFunc s, link := rdS s (linkReg s), fteAt := (curEntry s).fteAt,
                             fteRaw := (curEntry s).fteRaw }))

/-- An access is outstanding into a register of some fibres' declared windows. -/
def windowBusy (s : State) (fks : List Nat) (lo hi : Nat) : Bool :=
  s.lane.out.any fun p => fks.contains (p.1 / 512) && decide (lo ≤ p.1 % 512) && decide (p.1 % 512 < hi)

def fendRun (s : State) : State :=
  let g := curGk s
  let lanes := heldLanes s
  let fks := (maskList lanes).map (fibKey g)
  let s1 := endRand s
  let s2 := { s1 with lane := { s1.lane with
    reg := dropKeys s1.lane.reg 512 fks, empty := dropKeys s1.lane.empty 512 fks, out := dropKeys s1.lane.out 512 fks,
    pred := dropKeys s1.lane.pred 1 fks, predSh := dropKeys s1.lane.predSh 1 fks } }
  let s3 := s2.updGroup g fun x => { x with
    live := x.live &&& ~~~lanes, arrived := x.arrived &&& ~~~lanes, barPass := x.barPass &&& ~~~lanes }
  releaseEntry (updCur s3 fun e => { e with lanes := 0, wake := .none }) g (curJ s)

/-- FEND: never the leader (R170), and never in a handler (R371). -/
def execFend (o : UR) (s : State) : Host.Outcome State Fault Refusal :=
  .next (uniformOp s (.fend o) []
    (if inEmul s then raise s 0x044
     else if inHandler s then raise s 0x0C5
     else if (curGroup s).tgrp = 0 && (heldLanes s).getLsbD 0 then raise s 0x0C8
     else if windowBusy s ((maskList (heldLanes s)).map (fibKey (curGk s))) 0 512 then s
     else fendRun s))

/-! ## Windows (R372) -/

def zeroBlock (s : State) (fks : List Nat) (lo : Nat) : State :=
  let out (p : Nat) : Bool := !(fks.contains (p / 512) && decide (lo ≤ p % 512) && decide (p % 512 < lo + 64))
  { s with lane := { s.lane with
      reg := s.lane.reg.filter fun p => out p.1
      empty := s.lane.empty.filter fun p => out p.1 } }

def execSetwin (o : UI) (s : State) : Host.Outcome State Fault Refusal :=
  let b := o.imm.toNat % 4
  .next (uniformOp s (.setwin o) [funcReg s]
    (let fks := (maskList (heldLanes s)).map (fibKey (curGk s))
     let wb := funcWb (curFunc s)
     if inEmul s then raise s 0x044
     else if inHandler s || decide ((curTeam s).window / 64 ≤ b) then raise s 0x0C7
     else if entry0Parked s then raise s 0x0C5
     else if windowBusy s fks (64 * wb) (64 * wb + 64) then s
     else
      let s1 := setFunc s (word64 ((curFunc s).toNat - wb + b))
      advance (if o.imm.getLsbD 2 then zeroBlock s1 fks (64 * b) else s1)))

/-! ## REP (R252 to R254) -/

/-- REPST of a REP word: count − 1 in bits 22:17, dvd, dva and dvb in 16:13, 12:9 and 8:5. -/
def repstOf (o : UI) (len : Nat) : DWord :=
  let i := o.imm.toNat
  word64 (2 ^ 63 + (len - 1) * 2 ^ 24 + bits i 8 5 * 2 ^ 20 + bits i 12 9 * 2 ^ 16 + bits i 16 13 * 2 ^ 12 + o.d.toNat * 64)

def execRep (o : UI) (s : State) : Host.Outcome State Fault Refusal :=
  .next (uniformWord s (.rep o)
    (if inHandler s then raise s 0x0C4
     else if !(inExtent s (nextPc s).toNat) then raise s 0x0C2
     else match fetchAt s (nextPc s).toNat with
      | .wait s1 => s1
      | .absent e a s1 => raiseAbsent s1 e a
      | .stop c a => raiseFull s c (heldLanes s) (word64 a) 0 false
      | .ok f s1 =>
        if f.word.getLsbD 31 then raise s 0x0C4
        else updCur (advance s1) fun e => { e with repst := repstOf o f.len }))

/-! ## Other control (R373 to R376) -/

/-- YIELD: the rand ends after it. -/
def execYield (o : UR) (s : State) : Host.Outcome State Fault Refusal :=
  .next (uniformOp s (.yield o) [] (endRand (advance s)))

/-- The skein groups of a team. -/
def teamGroups (core : Nat) (t : Team) : List Nat := t.groups.map (groupKey core ·)
/-- Every live fibre of the team has arrived in the round. -/
def barComplete (s : State) (core : Nat) (t : Team) : Bool :=
  (teamGroups core t).all fun g => (s.group g).live &&& ~~~((s.group g).arrived) == 0
/-- The round is over: its fibres may pass. -/
def barRelease (s : State) (core : Nat) (t : Team) : State :=
  (teamGroups core t).foldl (fun u g => u.updGroup g fun x => { x with barPass := x.barPass ||| x.arrived, arrived := 0 }) s

def barPassed (s : State) : State :=
  advance (s.updGroup (curGk s) fun x => { x with barPass := x.barPass &&& ~~~(heldLanes s) })

def execBar (o : UR) (s : State) : Host.Outcome State Fault Refusal :=
  .next (uniformOp s (.bar o) []
    (let lanes := heldLanes s
     if inEmul s then raise s 0x044
     else if lanes &&& ~~~((curGroup s).barPass) == 0 then barPassed s
     else if !(relDone s (curGk s) lanes) then s
     else
      let s1 := s.updGroup (curGk s) fun x => { x with arrived := x.arrived ||| lanes }
      if barComplete s1 s.cur.core (curTeam s) then barPassed (barRelease s1 s.cur.core (curTeam s))
      else yieldFor s1 .bar))

/-- TRAP detail, sN: class 0, TRAUX from sN, RPC at the next unit. -/
def execTrap (o : UI) (s : State) : Host.Outcome State Fault Refusal :=
  .next (uniformOp s (.trap o) [o.d.toNat]
    (raiseFull s (o.imm.toNat % 64) (actLanes s) 0 (rdS s o.d.toNat) true))

def execEret (o : UR) (s : State) : Host.Outcome State Fault Refusal :=
  .next (uniformOp s (.eret o) [] (if inHandler s then eretOp s else raise s 0x0C1))

/-! ## Full bits, fences and line locks (R393 to R395) -/

/-- UFSET: registers v(h6) to v(h6 + m3) in the lanes of s[sa]. -/
def execUfset (o : UX) (s : State) : Host.Outcome State Fault Refusal :=
  let n := o.m.toNat + 1
  .next (uniformOp s (.ufset o) [o.a.toNat]
    (if 64 < o.h.toNat + n then raise s 0x082
     else
      let keys := (maskList (actLanes s &&& rdS s o.a.toNat)).flatMap fun l =>
        (List.range n).flatMap fun i => locKey (locate s l (o.h.toNat + i))
      advance (keys.foldl (fun t k => t.setEmpty k (o.e == 0)) s)))

/-- FENCE: kind in e2, scope in m3; it yields until it completes (R394). -/
def execFence (o : UX) (s : State) : Host.Outcome State Fault Refusal :=
  let kind := o.e.toNat
  .next (uniformOp s (.fence o) []
    (let held := match (curEntry s).wake with
        | .fence _ n => n
        | _ => 0
     -- The number is taken once the fence's own earlier writes have theirs.
     let num := if held = 0 && kind = 3 && relDone s (curGk s) (heldLanes s) then
         (dieVc s (dieOf s.cur.core)).getD (dieOf s.cur.core) 0 + 1 else held
     if fenceDone s (curGk s) (heldLanes s) kind num && (kind != 3 || num != 0) then
      advance (if kind != 1 && decide (4 ≤ o.m.toNat) then l1DropCore s s.cur.core else s)
     else yieldFor s (.fence kind num)))

/-- LLOCK on an address that fails its checks: LDL rises all the same, and the status 4 returns as any other (R25, R161, R395). -/
def lockFails (s : State) (d : Nat) : State :=
  let s1 := endRestart s (curTeamKey s)
  let cap : Capture := { kind := .lock false, n := 8, wflag := true, dst := .uniform d, scalar := true }
  let (id, s2) := startAccess s1 (curIssuer s (heldLanes s)) cap true
  let (r, s3) := (putAcc s2 id { s2.mm.accs.get id with todo := [(0, 1)] }).newId
  advance ((putReq s3 r { src := .lane id 0, kind := .lock false, len := 8, data := 4, core := s.cur.core, group := curGk s,
                          stage := .response, scalar := true, noFill := true }).add .loadReturn r)

/-- A line lock or its release travels to the home of its line. -/
def lockOp (s : State) (free : Bool) (ia : Nat) (d : Option Nat) : State :=
  let w := curIssuer s (heldLanes s)
  let lane : CapLane := { lane := 0, ia := ia, d := (curBank s).lockq }
  let cap : Capture := { kind := .lock free, n := 8, wflag := true,
                         dst := (match d with
                           | some r => .uniform r
                           | none => .none), lanes := [lane], scalar := true }
  let s1 := markSide (endRestart s (curTeamKey s)) (curTeam s).job
  advance (startAccess s1 w cap d.isSome).2

def execLlock (o : UR) (s : State) : Host.Outcome State Fault Refusal :=
  .next (uniformOp s (.llock o) [o.d.toNat, o.a.toNat, o.c.toNat]
    (if 63 ≤ counter (curGroup s) 2 then yieldFor s (.counter 2 62)
     else match rangeCheck (curBank s) (scalarAddr s o) 1 .lock with
      | .error _ => lockFails s o.d.toNat
      | .ok (ia, _) => lockOp s false ia (some o.d.toNat)))

def execLfree (o : UR) (s : State) : Host.Outcome State Fault Refusal :=
  .next (uniformOp s (.lfree o) [o.a.toNat, o.c.toNat]
    (match rangeCheck (curBank s) (scalarAddr s o) 1 .lock with
      | .error _ => advance (endRestart s (curTeamKey s))
      | .ok (ia, _) => lockOp s true ia none))

end Sys2Proof.Machine
end

