-- ==== Sys2Proof/Machine/Special.lean ====
section
/-! DEFINITION. Special registers (R377, Table 135), read by SRD and written by SWR, and PMSEL (R416, R417). -/
namespace Sys2Proof.Machine

/-! ## Priorities (R210) -/

/-- The punnet that launched a job is in PRESSURE (R200). -/
def jobPressed (s : State) (j : Nat) : Bool :=
  match (s.job j).punnet with
  | some (d, n, _, _) => (s.pun (punKey d n)).pressure
  | none => false
def effPrio (s : State) (j : Nat) : Nat := if jobPressed s j then 7 else (s.job j).prio

/-- Table 67. -/
def prioWord (s : State) (t : Team) : DWord :=
  match t.job with
  | none => 0
  | some j =>
    word64 (effPrio s j + (s.job j).prio * 8 + b2n (jobPressed s j) * 64 + b2n (t.back == .draining) * 128)

/-! ## Reading -/

/-- Table 44: FAULT, BUSY and COUNT of the team's channel. -/
def wptr (s : State) (core team k : Nat) : DWord :=
  let c := s.eng.chans.get (core * 4 + k)
  if c.owner == some team then word64 (b2n c.fault * 2 ^ 63 + b2n (!c.queue.isEmpty) * 2 ^ 62 + c.count % 2 ^ 48) else 0

/-- Table 103. -/
def emstat (g : Group) : DWord := word64 (g.emcause.toNat + b2n g.emraise * 2 ^ 15 + g.depth * 2 ^ 16)

def dieId (s : State) : DWord := word64 (s.cfg.device * 256 + s.cur.core % 48 * 4 + dieOf s.cur.core)

def jobIdWord (s : State) : DWord :=
  match (curTeam s).job with
  | some j => word64 ((s.job j).jobid + (s.job j).jobno * 2 ^ 32)
  | none => 0

/-- The trap information registers of Table 74 by their place, 0 TRCAUSE to 5 TRAUX. -/
def trapReg (g : Group) (k : Nat) : DWord :=
  match k with
  | 0 => g.trcause
  | 1 => g.trpc
  | 2 => g.trfpc
  | 3 => g.traddr
  | 4 => g.trmask
  | _ => g.traux

def shadowReg (g : Group) (k : Nat) : DWord := if k < 8 then g.shS.getD k 0 else word64 g.shC.toNat

def rngReg (s : State) (i : Nat) : DWord := (curBank s).rng.get ((i - 0x100) / 4 * 3 + i % 4)

/-- What SRD reads at an index of Table 135. -/
def readSpecial (s : State) (i : Nat) : DWord :=
  let g := curGroup s
  let b := curBank s
  let r := s.cregs s.cur.core
  if i = 0x000 then b.ctxid
  else if i = 0x001 then dieId s
  else if i = 0x002 then jobIdWord s
  else if i = 0x003 then prioWord s (curTeam s)
  else if i = 0x004 then word64 (timeNs s)
  else if i = 0x005 then word64 g.fpmode.toNat
  else if i = 0x006 then g.rpmask
  else if i = 0x007 then (curEntry s).repst
  else if i = 0x008 then (if inEmul s then emstat g else 0)
  else if i = 0x009 then rdS s (linkReg s)
  else if i = 0x00A then word64 (maskBits (rdS s (funcReg s)) 56 5 + funcWb (rdS s (funcReg s)))
  else if i = 0x010 then b.embase
  else if i = 0x011 then b.trapbase
  else if i = 0x012 then r.keyaddr
  else if i = 0x013 then r.keycmd
  else if i < 0x020 then b.feat.getD (i - 0x018) 0
  else if i < 0x028 then devFeat s (i - 0x020)
  else if i < 0x02C then wptr s s.cur.core (curTeamKey s) (i - 0x028)
  else if i < 0x036 then (if inHandler s then trapReg g (i - 0x030) else 0)
  else if i < 0x041 then (if inHandler s then shadowReg g (i - 0x038) else 0)
  else if i = 0x050 then (if s.cur.priv then r.mbstat else 0)
  else if i = 0x051 then (if s.cur.priv then r.dbgcmd else 0)
  else if i = 0x052 then (if s.cur.priv then r.dbgdata else 0)
  else if i < 0x130 then rngReg s i
  else if i < 0x140 then (if s.cur.priv then rngReg s i else 0)
  else if i = 0x200 then r.pmctl
  else r.pmsel

/-- The uniform registers that a special register lies in (R362). -/
def specialRegs (s : State) (i : Nat) : List Nat :=
  if i = 0x009 then [linkReg s] else if i = 0x00A then [funcReg s] else []

def execSrd (o : UI) (s : State) : Host.Outcome State Fault Refusal :=
  let i := o.imm.toNat
  .next (uniformOp s (.srd o) (o.d.toNat :: specialRegs s i) (advance (wrS s o.d.toNat (readSpecial s i))))

/-! ## Writing -/

/-- Registers that only a privileged SWR writes (Table 135). -/
def privSpecial (i : Nat) : Bool :=
  (0x010 ≤ i && i < 0x020) || (0x050 ≤ i && i ≤ 0x052) || decide (0x100 ≤ i)
/-- Registers whose access is RO. -/
def roSpecial (i : Nat) : Bool :=
  i ≤ 0x004 || (0x020 ≤ i && i < 0x02C) || (0x030 ≤ i && i < 0x036 && i != 0x031)

/-- The bits that a register holds of a written value: reserved bits read as zero (R3). -/
def specialHeld (i : Nat) (v : DWord) : DWord :=
  if i = 0x005 then word64 (v.toNat % 4)
  else if i = 0x007 then word64 (maskBits v 63 63 + v.toNat % 2 ^ 26)
  else if i = 0x00A then word64 (maskBits v 56 5 + v.toNat % 4)
  else if i = 0x010 then word64 (maskBits v 59 58 + maskBits v 56 2)
  else if i = 0x011 then word64 (maskBits v 56 2)
  else if i = 0x012 then word64 (maskBits v 51 3)
  else if i = 0x031 then word64 (v.toNat % 2 ^ 57)
  else if i = 0x200 then word64 (maskBits v 13 8 + maskBits v 4 4 + v.toNat % 16)
  else if 0x100 ≤ i && i < 0x140 then
    (if i % 4 = 2 then word64 (maskBits v 51 16 + v.toNat % 256) else word64 (maskBits v 56 16))
  else v

/-- The key command of an OP field (Table 14). -/
def keyEvent (op : Nat) : Instr :=
  match op with
  | 1 => .keyInstallPrivate
  | 2 => .keyInstallShared
  | 3 => .keyRetire
  | 4 => .keyMakeShared
  | 5 => .keyMakePrivate
  | _ => .keyUndefinedOp

/-- A write of KEYCMD starts a command, unless one is in progress (R36); `z` is the address of the record. -/
def writeKeycmd (s : State) (v : DWord) : State :=
  let c := s.cur.core
  let o := (s.cregs c).keycmd
  if busy o then s
  else
    let n := 2 ^ 63 + maskBits o 15 12 + v.toNat % 256
    let s1 := s.updCregs c fun r => { r with keycmd := word64 n }
    let s2 := { s1 with dev := { s1.dev with keyOrder := s1.dev.keyOrder ++ [c] } }
    s2.add (keyEvent (bits v.toNat 10 8)) c (v.toNat % 256) (s.cregs c).keyaddr.toNat

def setFeat (l : List DWord) (n : Nat) (v : DWord) : List DWord :=
  (List.range 8).map fun i => if i = n then v else l.getD i 0

def updCurBank (s : State) (f : Bank → Bank) : State := s.updBank (curBankKey s) f
def updCurGroup (s : State) (f : Group → Group) : State := s.updGroup (curGk s) f

/-- SWR of a shadow word (R281). -/
def writeShadow (s : State) (k : Nat) (v : DWord) : State :=
  if k < 8 then updCurGroup s fun g => { g with shS := setFeat g.shS k v }
  else updCurGroup s fun g => { g with shC := BitVec.ofNat 8 v.toNat }

/-- SWR of a register that is not read-only, already masked. After FUNC the function table entry is read anew (R363). -/
def writeSpecial (s : State) (i : Nat) (v : DWord) : State :=
  if i = 0x005 then updCurGroup s fun g => { g with fpmode := BitVec.ofNat 2 v.toNat }
  else if i = 0x006 then updCurGroup s fun g => { g with rpmask := v }
  else if i = 0x007 then updCur s fun e => { e with repst := v }
  else if i = 0x008 then
    (if inEmul s then updCurGroup s fun g => { g with emraise := v.getLsbD 15, emcause := BitVec.ofNat 10 v.toNat } else s)
  else if i = 0x009 then wrS s (linkReg s) v
  else if i = 0x00A then updCur (wrS s (funcReg s) v) fun e => { e with fteAt := 0 }
  else if i = 0x010 then updCurBank s fun b => { b with embase := v }
  else if i = 0x011 then updCurBank s fun b => { b with trapbase := v }
  else if i = 0x012 then s.updCregs s.cur.core fun r => { r with keyaddr := v }
  else if i = 0x013 then writeKeycmd s v
  else if i < 0x020 then updCurBank s fun b => { b with feat := setFeat b.feat (i - 0x018) v }
  else if i = 0x031 then (if inHandler s then updCurGroup s fun g => { g with trpc := v } else s)
  else if 0x038 ≤ i && i < 0x041 then (if inHandler s then writeShadow s (i - 0x038) v else s)
  else if i = 0x050 then writeMbstat s s.cur.core v
  else if i = 0x051 then writeDbgcmd s s.cur.core v
  else if i = 0x052 then s.updCregs s.cur.core fun r => { r with dbgdata := v }
  else if 0x100 ≤ i && i < 0x140 then
    updCurBank s fun b => { b with rng := b.rng.put ((i - 0x100) / 4 * 3 + i % 4) v }
  else if i = 0x200 then s.updCregs s.cur.core fun r => { r with pmctl := v }
  else if i = 0x201 then s.updCregs s.cur.core fun r => { r with pmsel := v }
  else s

/-- SWR: read-only registers ignore it; a privileged register refuses unprivileged code with 0x381 (R26) and
ends restartability (Table 31); REPST is written only in a handler (R254). -/
def execSwr (o : UI) (s : State) : Host.Outcome State Fault Refusal :=
  let i := o.imm.toNat
  .next (uniformOp s (.swr o) (o.d.toNat :: specialRegs s i)
    (if roSpecial i then advance s
     else if privSpecial i && !s.cur.priv then raise s 0x381
     else if i = 0x007 && !(inHandler s) then raise s 0x0C4
     else
      let s1 := if privSpecial i then endRestart s (curTeamKey s) else s
      advance (writeSpecial s1 i (specialHeld i (rdS s o.d.toNat)))))

/-- PMSEL: sd receives counter k, which is then 0 (R417). Privileged (R26). -/
def execPmsel (o : UR) (s : State) : Host.Outcome State Fault Refusal :=
  let k := o.f.toNat % 4
  .next (uniformOp s (.pmsel o) [o.d.toNat]
    (if !s.cur.priv then raise s 0x381
     else
      let v := (s.cregs s.cur.core).pmcnt.get k
      let s1 := s.updCregs s.cur.core fun r => { r with pmcnt := r.pmcnt.put k 0 }
      advance (wrS s1 o.d.toNat (word64 v))))

end Sys2Proof.Machine
end

