-- ==== Sys2Proof/Machine/Traps.lean ====
section
/-! DEFINITION. The happenings of trap delivery, nesting and repetition (R55, R223 to R228, R252, R255, R269, R277,
R284). -/
namespace Sys2Proof.Machine

/-! ## Delivery -/

/-- The entry that receives a trap: the lowest-numbered whose lanes meet ISSUE (R225). -/
def receiver (s : State) (g : Nat) (t : TrapEntry) : Option Nat :=
  (List.range 8).find? fun j => (gEnt s g j).st != .free && (gEnt s g j).lanes &&& t.issue != 0

/-- No fibre of the group that issued the trap's instruction is live any more (R225). -/
def issueGone (s : State) (g : Nat) (t : TrapEntry) : Bool := (s.group g).live &&& t.issue == 0

/-- Every earlier access of the group has completed or entered the queue (R55). -/
def earlierDone (s : State) (g : Nat) (t : TrapEntry) : Bool :=
  !t.precise || !(s.mm.accs.any fun p => p.2.group == g && decide (p.2.order < t.order))

/-- A team whose entries may be nominated and may take traps: not halted, and not being saved or flushed (R212,
R238). -/
def teamRuns (t : Team) : Bool :=
  !t.waiting && t.halt == 0 && (t.back == .no || t.back == .draining)

/-- The head of a group's queue, when it can be delivered now, with the entry that receives it; none for an entry
means that no fibre of ISSUE is live. -/
def deliverable (s : State) (g : Nat) : Option (TrapEntry × Option Nat) :=
  let gr := s.group g
  match gr.queue, gr.team with
  | t :: _, some team =>
    if gr.recv.isSome || !(teamRuns (s.team team)) || !(earlierDone s g t) then none
    else if issueGone s g t then some (t, none)
    else match receiver s g t with
      | some j => if (gEnt s g j).boundary && (t.precise || !(gEnt s g j).resumed) then some (t, some j) else none
      | none => none
  | _, _ => none

/-- A delivery can come, or there is nothing left to deliver. -/
def deliveryReady (s : State) (g : Nat) : Bool := (s.group g).queue.isEmpty || (deliverable s g).isSome

def groupBank (s : State) (g : Nat) : Bank :=
  s.bank (coreOfGroup g * 4 + (s.team ((s.group g).team.getD 0)).bank)

/-- Count a trap delivered (Table 161), `fte` whether its instruction stood in a function of an object (R445). -/
def countTrap (s : State) (g : Nat) (fte : Bool) : State :=
  let t := s.team ((s.group g).team.getD 0)
  pmCount s (coreOfGroup g) (bankSlot (groupBank s g)) t.job fte 0x11 1

/-- Delivery of a stopping trap lets its tile go on, unless the trap of another fault of the tile is still queued: entries
issued before it stay suppressed (R388). -/
def restartTile (s : State) (g : Nat) (t : TrapEntry) : State :=
  if t.stop && !((s.group g).queue.drop 1).any (fun q => q.stop && q.stile == t.stile) then
    let team := (s.group g).team.getD 0
    { s with eng := { s.eng with
      stopped := s.eng.stopped.put (team * 8 + t.stile) 0
      tiles := s.eng.tiles.map fun p =>
        if p.2.by_.team == team && p.2.tile == t.stile && !p.2.started then (p.1, { p.2 with suppressed := true }) else p } }
  else s

/-- The head leaves the queue and is taken, or kills the job: with no live fibre in ISSUE, or with no handler. -/
def deliverTrap (s : State) (g : Nat) : State :=
  match deliverable s g with
  | none => s
  | some (t, none) => killTeam s ((s.group g).team.getD 0) t.cause
  | some (t, some j) =>
    match handlerEntry (groupBank s g) t.cause with
    | none => killTeam s ((s.group g).team.getD 0) t.cause
    | some pc =>
      let s1 := restartTile (countTrap s g t.fte) g t
      takeTrap (s1.updGroup g fun gr => { gr with queue := gr.queue.drop 1 }) g j t pc

/-- TRAP_DELIVERY: `x` the core, `y` its skein group. -/
def execTrapDelivery (s : State) : Host.Outcome State Fault Refusal :=
  .next (deliverTrap s (groupKey s.cur.x s.cur.y))

/-! ## Nesting (R277, R284) -/

def nestTrap (s : State) (g : Nat) : State :=
  let gr := s.group g
  match gr.nest, gr.recv with
  | some t, some j =>
    let d := gr.depth + 1
    let team := gr.team.getD 0
    if 5 ≤ d ∨ (s.team team).ewin + 1 < d then fatalTeam s team 0x3C2
    else match handlerEntry (groupBank s g) t.cause with
      | none => killTeam s team t.cause
      | some pc => takeNest (countTrap s g t.fte) g j t pc
  | _, _ => s

/-- EMULATION_NEST: `x` the core, `y` its skein group. -/
def execEmulationNest (s : State) : Host.Outcome State Fault Refusal := .next (nestTrap s (groupKey s.cur.x s.cur.y))

/-! ## Repetitions and undefined words -/

/-- A step of −8 to 7 times i, modulo 64. -/
def repStep (d i : Nat) : Nat := (if d < 8 then d * i else (48 + d) * i) % 64

/-- The register fields of a REP target as repetition NEXT issues them (R252). -/
def repWord (w : Nat) (r : DWord) : Nat :=
  let i := repNext r
  let steps := [repStep (bits r.toNat 15 12) i, repStep (bits r.toNat 19 16) i, repStep (bits r.toNat 23 20) i]
  ((regFields w).zip steps).foldl (fun v p => addField v p.1 p.2) w

/-- REP_REPETITION: the target of the issuing entry's REP takes the fields of repetition NEXT; it issues next. -/
def execRepRepetition (s : State) : Host.Outcome State Fault Refusal :=
  .next { s with cur := { s.cur with rep := true, word := BitVec.ofNat 32 (repWord s.cur.word.toNat (curEntry s).repst) } }

/-- UNDEFINED_OPCODE: 0x040 in the active lanes of a lane word, or in the entry's lanes for a uniform word (R269). A
lane word with no active lane does nothing. -/
def undefinedWord (s : State) (w : Word) : State :=
  if w.getLsbD 31 then raiseDecode s 0x040 (heldLanes s)
  else
    let lanes := activeLanes s (bits w.toNat 29 27)
    if lanes.isEmpty then advance s else raiseDecode s 0x040 (maskOf lanes)

def execUndefinedOpcode (w : Word) (s : State) : Host.Outcome State Fault Refusal := .next (undefinedWord s w)

end Sys2Proof.Machine
end

