-- ==== Sys2Proof/Machine/Arbiter.lean ====
section
/-! DEFINITION. Fusion (R173, R254, R368), parked fibres (R174), nomination and arbitration (R175, R212) and waking
(R213). -/
namespace Sys2Proof.Machine

/-! ## Fusion (R173) -/

/-- The entry's lanes have passed the team barrier at which they stand, all or in part. -/
def barStand (s : State) (g : Nat) (e : Entry) : Bool := e.lanes &&& (s.group g).barPass != 0

/-- Two entries of a group may fuse: parent and child or siblings, standing at one PC, with equal function words and, where
repetitions remain, equal REPST (R254), and neither held by a raised trap or running a handler; nor where the lanes of one have
passed a team barrier at which the other's still stand, nor an entry that holds no lane (log entry 29). -/
def mayFuse (s : State) (g i j : Nat) : Bool :=
  let e := gEnt s g i
  let f := gEnt s g j
  i != j && e.st != .free && f.st != .free && e.lanes != 0 && f.lanes != 0 && e.pc == f.pc
  && ((i != 0 && e.parent == j) || (j != 0 && f.parent == i) || (i != 0 && j != 0 && e.parent == f.parent))
  && (e.boundary || e.st == .blocked) && (f.boundary || f.st == .blocked)
  && !e.trapped && !f.trapped && (s.group g).recv.isNone
  && funcOf s g i == funcOf s g j && linkOf s g i == linkOf s g j
  && (e.repst == f.repst || !(repAct e.repst || repAct f.repst))
  && barStand s g e == barStand s g f

/-- An answer that nobody will take: its entry has fused with one that waits for its own. -/
def dropWaitOp (s : State) (w : Wake) : State :=
  match w with
  | .home o => s.updOp o fun x => { x with by_ := .device, live := x.live && !x.answered }
  | _ => s

/-- An entry takes over the answers that another waits for. -/
def moveOps (s : State) (core src dst : Nat) : State :=
  { s with task := { s.task with ops := s.task.ops.map fun p =>
      if p.2.by_ == (.entry core src) then (p.1, { p.2 with by_ := .entry core dst }) else p } }

/-- What the fused entry waits for. -/
def fuseWake (a b : Wake) : Wake :=
  match a, b with
  | .none, w => w
  | w, .none => w
  | .full l, .full m => .full (l ++ m)
  | w, _ => w

/-- The answers that some fibres wait for at an address go to nobody: they join an entry that waits for its own. -/
def dropFibreOps (s : State) (g : Nat) (pc : Pc) (lanes : DWord) : State :=
  { s with task := { s.task with ops := s.task.ops.map fun p =>
      if p.2.group == g && p.2.fpc == pc && p.2.yields && (p.2.issue &&& lanes) != 0 then
        (p.1, { p.2 with by_ := .device, live := p.2.live && !p.2.answered })
      else p } }

/-- An answer that an entry's fibres wait for at its PC is on its way. -/
def awaitsHome (s : State) (g : Nat) (e : Entry) : Bool :=
  s.task.ops.any fun p => p.2.live && p.2.yields && p.2.group == g && p.2.fpc == e.pc && ofEntry p.2 && (p.2.issue &&& e.lanes) != 0

/-- Parked fibres at the entry's PC join it: its function words are entry 0's, and no repetition stands (R254). -/
def joinParked (s : State) (g j : Nat) : State :=
  let e := gEnt s g j
  let mine := (maskList (parkedLanes s g)).filter fun l => parkedPc s g l == e.pc.toNat
  if mine.isEmpty || repAct e.repst || !(mayPark s g j) || e.trapped || barStand s g e then s
  else
    let s1 := if awaitsHome s g e then dropFibreOps s g e.pc (maskOf mine) else s
    setParked (s1.updEnt (gEntKey g j) fun x => { x with lanes := x.lanes ||| maskOf mine }) g none mine

/-- The higher-numbered entry's lanes join the lower-numbered one, and with them the fibres parked there; then the higher one is
FREE (R173). -/
def fuseTwo (s : State) (g i j : Nat) : State :=
  let lo := min i j
  let hi := max i j
  let e := gEnt s g lo
  let f := gEnt s g hi
  let blocked := e.st == .blocked || f.st == .blocked
  let ew := if e.st == .blocked then e.wake else .none
  let fw := if f.st == .blocked then f.wake else .none
  let s0 := if ew != .none then dropWaitOp s fw
    else moveOps s (coreOfGroup g) (g % 32 * 8 + hi) (g % 32 * 8 + lo)
  let s1 := setGEnt s0 g lo { e with
    lanes := e.lanes ||| f.lanes, st := if blocked then .blocked else .ready, wake := fuseWake ew fw,
    boundary := true }
  let s2 := releaseEntry (joinParked (s1.updEnt (gEntKey g hi) fun x => { x with lanes := 0 }) g lo) g hi
  if blocked then s2.post .entryWake (coreOfGroup g) (g % 32 * 8 + lo) else s2

/-- Fuse entry j with every entry that it may fuse with; the fused entry's index. -/
def fuseAll (s : State) (g : Nat) : Nat → Nat → Nat × State
  | 0, j => (j, joinParked s g j)
  | n + 1, j =>
    match (List.range 8).find? fun k => mayFuse s g j k with
    | some k => fuseAll (fuseTwo s g j k) g n (min j k)
    | none => (j, joinParked s g j)

/-- Fusion is tested for every entry of the group that stands at a boundary (R173). -/
def fuseGroup (s : State) (g : Nat) : State :=
  (List.range 8).foldl (fun t j => if (gEnt t g j).st == .free || !(gEnt t g j).boundary then t else (fuseAll t g 8 j).2) s

/-! ## Rotation (R174) -/

/-- The entry's lanes are parked at its PC, and the parked fibres with the lowest PC take it. A parked fibre has arrived at no
barrier (R374); an answer that it waits for stays its own. -/
def rotate (s : State) (g j : Nat) : State :=
  let e := gEnt s g j
  if hasParked s g then
    (parkAt (unparkInto s g j) g e.lanes e.pc).updGroup g fun x => { x with arrived := x.arrived &&& ~~~e.lanes }
  else s

def mayRotate (s : State) (g j : Nat) : Bool :=
  let e := gEnt s g j
  !(repAct e.repst) && !e.trapped && e.lanes != 0 && mayPark s g j && (s.group g).recv.isNone

/-- A blocked entry gives way when no entry is FREE. -/
def rotateBlocked (s : State) (g j : Nat) : State :=
  if (gEnt s g j).st == .blocked && hasParked s g && (freeEntries s g).isEmpty && mayRotate s g j then rotate s g j else s

/-- AGECAP of a core's die in ck (Table 70). -/
def ageCap (s : State) (core : Nat) : Nat :=
  let n := bits (s.die (dieOf core)).schedcfg.toNat 43 32
  16 * (if n = 0 then 1 else n)

/-- Of some entries, the one of highest PC; of several the lowest-numbered (the model's choice, log entry 28). -/
def highestPc (s : State) (g : Nat) : List Nat → Option Nat
  | [] => none
  | j :: t =>
    match highestPc s g t with
    | none => some j
    | some k => if (gEnt s g k).pc.toNat ≤ (gEnt s g j).pc.toNat then some j else some k

/-- The READY entry that gives way to fibres parked longer than the age cap, at its next boundary: it does not issue again before
it has. One that has just taken parked fibres comes to its next boundary after it has issued. -/
def rotatee (s : State) (g : Nat) : Option Nat :=
  if hasParked s g && decide (ageCap s (coreOfGroup g) < s.now - parkSince s g) then
    match highestPc s g ((List.range 8).filter fun j => (gEnt s g j).st == .ready && mayRotate s g j) with
    | some j => if (gEnt s g j).boundary && !(gEnt s g j).rotated then some j else none
    | none => none
  else none

/-- AGE_CAP_ROTATION: `x` the skein group's key. -/
def execAgeCapRotation (s : State) : Host.Outcome State Fault Refusal :=
  .next (match rotatee s s.cur.x with
    | some j => fuseGroup (rotate s s.cur.x j) s.cur.x
    | none => s)

/-! ## Nomination (R175, R212, R238) -/

/-- A group's entries may issue: its team runs, or one of them still has its step. -/
def teamIssues (t : Team) (ent : Nat) : Bool :=
  !t.waiting && (t.back == .no || t.back == .draining) && (t.halt == 0 || (t.stepping && t.steps.contains ent))

/-- Entry j of a group can be nominated. -/
def nominable (s : State) (g j : Nat) : Bool :=
  let e := gEnt s g j
  let gr := s.group g
  e.st == .ready && e.lanes &&& gr.live != 0 && e.boundary && !e.trapped && rotatee s g != some j
  && (match gr.team with
    | some t => teamIssues (s.team t) (g % 32 * 8 + j)
    | none => false)
  && (match gr.recv with
    | some r => r == j && gr.nest.isNone
    | none => match deliverable s g with
      | some (_, some r) => r != j
      | some (_, none) => false
      | none => true)

def groupHolds (s : State) (g : Nat) : Bool :=
  (List.range 4).any fun i => match (s.slotAt (coreOfGroup g * 4 + i)).ent with
    | some e => e / 8 == g % 32
    | none => false

/-- Of some entries, one by a rank: the first that no later one beats. -/
def pickBest (beats : Nat → Nat → Bool) : List Nat → Option Nat
  | [] => none
  | x :: t =>
    match pickBest beats t with
    | none => some x
    | some y => if beats y x then some y else some x

/-- The entry that a group puts forward: the lowest PC, unless an entry has reached the age cap. -/
def nominee (s : State) (g : Nat) : Option Nat :=
  if groupHolds s g then none
  else
    let l := (List.range 8).filter fun j => nominable s g j
    let old := l.filter fun j => decide (ageCap s (coreOfGroup g) ≤ s.now - (gEnt s g j).since)
    if old.isEmpty then pickBest (fun y x => decide ((gEnt s g y).pc.toNat < (gEnt s g x).pc.toNat)) l
    else pickBest (fun y x => decide ((gEnt s g y).since < (gEnt s g x).since)) old

/-- EFF of a group's team; the system kernel's own has none (R210). -/
def groupEff (s : State) (g : Nat) : Nat :=
  match (s.group g).team with
  | some t => (match (s.team t).job with
    | some j => effPrio s j
    | none => 0)
  | none => 0

def coreGroups (s : State) (core : Nat) : List Nat :=
  (s.uni.groups.filter fun p => p.1 / 32 == core && p.2.team.isSome).map (·.1)

/-- The nominees of a core, as entry numbers, by rising group. -/
def nominees (s : State) (core : Nat) : List Nat :=
  (coreGroups s core).filterMap fun g => (nominee s g).map fun j => g % 32 * 8 + j

/-- R212: who takes a free slot. -/
def arbWinner (s : State) (core : Nat) : Option Nat :=
  let l := nominees s core
  let since (e : Nat) : Nat := (s.ent (entKey core e)).since
  let eff (e : Nat) : Nat := groupEff s (groupKey core (e / 8))
  let old := l.filter fun e => decide (ageCap s core ≤ s.now - since e)
  if old.isEmpty then
    pickBest (fun y x => decide (eff x < eff y) || (eff x == eff y && decide (since y < since x))) l
  else pickBest (fun y x => decide (since y < since x)) old

def freeSlot (s : State) (core : Nat) : Option Nat := (List.range 4).find? fun i => (s.slotAt (core * 4 + i)).ent.isNone

/-- The chosen entry fuses where it stands; if it is still READY it takes the slot. -/
def grantSlot (s : State) (core i ent : Nat) : State :=
  let g := groupKey core (ent / 8)
  let (j, s1) := fuseAll s g 8 (ent % 8)
  let e := gEnt s1 g j
  if e.st == .ready then
    let s2 := s1.setSlot (core * 4 + i) { ent := some (ent / 8 * 8 + j), issues := 0 }
    let s3 := setGEnt s2 g j { e with boundary := false, rotated := false, resumed := false }
    match (s3.group g).team with
    | some t => if (s3.team t).stepping then
        s3.updTeam t fun x => { x with steps := x.steps.filter fun k => k != ent && k != ent / 8 * 8 + j } else s3
    | none => s3
  else s1

/-- ISSUE_ARBITRATION: `x` the core. -/
def execIssueArbitration (s : State) : Host.Outcome State Fault Refusal :=
  .next (match freeSlot s s.cur.x, arbWinner s s.cur.x with
    | some i, some e => grantSlot s s.cur.x i e
    | _, _ => s)

/-! ## Waking (R213, Table 69) -/

/-- A stage barrier as one number of 128 bits (Table 48), at an offset of the core's scratchpad. -/
def sbWord (s : State) (core off : Nat) : Nat := leNat (scratchBytes s core off 16)
def sbPhase (s : State) (core off : Nat) : Nat := bits (sbWord s core off) 104 104
def sbErr (s : State) (core off : Nat) : Nat := bits (sbWord s core off) 106 105

def barWake (s : State) (core g : Nat) (lanes : DWord) : Bool :=
  let gr := s.group g
  let l := lanes &&& gr.live
  l &&& ~~~gr.barPass == 0 || l &&& ~~~(gr.arrived ||| gr.barPass) != 0 || barComplete s core (s.team (gr.team.getD 0))

/-- What JOBEND waits for: no other fibre live, every counter 0, no trap queued, every tile entry complete; with the accesses
of the team in flight done and its sequence operations applied, for the commit and the release that follow (R412, R352). -/
def teamQuiet (s : State) (t : Nat) : Bool :=
  let gs := (s.team t).groups.map (groupKey (t / 16) ·)
  (gs.mapIdx fun i g => (s.group g).live == if i = 0 then 1 else 0).all id
  && gs.all (fun g => (s.group g).outst.isEmpty && (s.group g).queue.isEmpty)
  && !(s.eng.tiles.any fun p => p.2.live && !p.2.ended && p.2.by_.team == t)
  && !(s.mm.accs.any fun p => gs.contains p.2.group)
  && !(s.task.ops.any fun p => p.2.live && !p.2.applied && ofEntry p.2 && isSeqOp p.2.kind && gs.contains p.2.group)

/-- No commit of a job's version is on its way. -/
def commitsDone (s : State) (j : Nat) : Bool := !(s.mm.reqs.any fun p => p.2.src == .commit j)

/-- Every write of the job has entered its version lines (R140, R412 step 2). -/
def writesIn (s : State) (j : Nat) : Bool := !(s.mm.reqs.any fun p => p.2.job == some j && isWriteKind p.2.kind && p.2.stage != .done)

def jobendReady (s : State) (t : Nat) : Bool :=
  match (s.team t).job with
  | none => true
  | some j => if (s.job j).committing then commitsDone s j && seenEverywhere s (s.job j).vc else teamQuiet s t && writesIn s j

def wakeHolds (s : State) (core ent : Nat) : Bool :=
  let g := groupKey core (ent / 8)
  let e := s.ent (entKey core ent)
  match e.wake with
  | .none => true
  | .full l => l.all fun k => !(s.isEmpty k)
  | .uniform l => l.all fun k => s.uni.sout.get k == 0
  | .handle h st => (match (s.eng.handles.get h).st with
    | .free => st != 0
    | .filling => st != 1
    | .full => st != 2
    | .draining => st != 3)
  | .counter c n => decide (counter (s.group g) c ≤ n)
  | .barrier off ph => sbPhase s core off != ph || sbErr s core off != 0
  | .bar => barWake s core g e.lanes
  | .home o => (s.op o).answered || !(s.op o).live
  | .fence k n => fenceDone s g (e.lanes &&& (s.group g).live) k n
  | .tile id => (s.eng.tiles.get id).ended || !(s.eng.tiles.get id).live
  | .jobend => jobendReady s ((s.group g).team.getD 0)

/-- A wake can come: the condition holds and no trap is delivered first, or the entry no longer waits. -/
def wakeReady (s : State) (core ent : Nat) : Bool :=
  (s.ent (entKey core ent)).st != .blocked
  || (wakeHolds s core ent && (match deliverable s (groupKey core (ent / 8)) with
    | some (_, some r) => r != ent % 8
    | _ => true))

/-- ENTRY_WAKE: `x` the core, `y` the entry, which reissues its instruction. What it waited for stays noted, for a
FENCE (R140). -/
def execEntryWake (s : State) : Host.Outcome State Fault Refusal :=
  .next (
    let k := entKey s.cur.x s.cur.y
    if (s.ent k).st == .blocked && wakeHolds s s.cur.x s.cur.y then
      s.updEnt k fun e => { e with st := .ready, since := s.now, boundary := true }
    else s)

end Sys2Proof.Machine
end

