-- ==== Sys2Proof/Machine/Engine.lean ====
section
/-! DEFINITION. What every engine shares: whom an operation belongs to, its counter and its traps (R24, R161 to R164),
buffer handles (R150, R151), stage barriers (R154 to R158) and held accesses (R57). -/
namespace Sys2Proof.Machine

/-! ## The starting skein -/

/-- The issuing instruction as the starter of an engine operation. -/
def curStarter (s : State) : Starter :=
  let b := curBank s
  let t := curTeam s
  { core := s.cur.core, team := curTeamKey s, group := curGk s, ent := s.cur.ent, slot := bankSlot b,
    gen := bits b.ctxid.toNat 47 16, rng := b.rng, keyslot := b.keyslot.toNat, job := t.job, priv := s.cur.priv,
    fpc := curPc s, rpc := nextPc s, issue := heldLanes s, order := s.cur.order, tgrp := (curGroup s).tgrp,
    serial := t.serial, handler := inHandler s, fte := funcFte (curFunc s) != 0 }

/-- Where the starting skein's counters and trap queue are: in a skein group, with a saved job, or nowhere any more. -/
inductive OpHome where
  | live (g : Nat)
  | saved (j : Nat)
  | gone
  deriving DecidableEq, Repr, Inhabited

def opHome (s : State) (b : Starter) : OpHome :=
  match b.job with
  | some j =>
    (match (s.job j).at_ with
      | .placed c w => .live (groupKey c ((s.team (c * 16 + w)).groups.getD b.tgrp 0))
      | _ => if (s.job j).live && (s.job j).frame.isSome then .saved j else .gone)
  | none =>
    let t := s.team b.team
    if t.bound && t.serial == b.serial then .live (groupKey b.core (t.groups.getD b.tgrp 0)) else .gone

/-- An operation has completed and is counted off in its class (R161, R164). -/
def finishOp (s : State) (b : Starter) (cls op : Nat) : State :=
  match opHome s b with
  | .live g => opDone s g cls op
  | .saved j => s.updJob j fun x => { x with savedOps := x.savedOps.map fun p =>
      if p.1 == b.tgrp && p.2.cls == cls && p.2.op == op then (p.1, { p.2 with done := true }) else p }
  | .gone => s

/-- The traps of one team group of a saved job: in its frame's queue, and raised since. -/
def savedCount (s : State) (j tg : Nat) : Nat :=
  let jb := s.job j
  let gr := jb.savedGroups.getD tg {}
  gr.handling.toList.length + gr.queue.length + (jb.savedTraps.filter fun p => p.1 == tg).length

/-- An engine trap enters the queue of the starting skein, in its frame while it is saved; the ninth is fatal (R223), and one of
a handler's instruction kills the job (R228). -/
def raiseEng (s : State) (b : Starter) (t : TrapEntry) : State :=
  match opHome s b with
  | .live g => if b.handler then killTeam s ((s.group g).team.getD 0) t.cause else enqueueTrap s g t
  | .saved j =>
    if b.handler then killJob s (some j) t.cause
    else if 8 ≤ savedCount s j b.tgrp then fatalCause s (some j) 0x3C1
    else s.updJob j fun x => { x with savedTraps := x.savedTraps ++ [(b.tgrp, t)] }
  | .gone => s

/-- Its queue entry (Table 73). A cause met at the memory side reports an intermediate address. -/
def engTrap (b : Starter) (cause addr aux : Nat) (ia : Bool) : TrapEntry :=
  { cause := cause, iaBit := ia, fpc := b.fpc, rpc := b.rpc, addr := word64 addr, mask := 1, aux := word64 aux,
    issue := b.issue, order := b.order, fte := b.fte }

/-- Causes whose address is an intermediate address: class 4 from 0x110 and the classes met at a slice. -/
def iaCause (c : Nat) : Bool :=
  (decide (0x110 ≤ c) && decide (c < 0x180)) || (decide (0x340 ≤ c) && decide (c < 0x3C0))

/-- Count an event of a starter's instruction. -/
def pmEng (s : State) (b : Starter) (code n : Nat) : State := pmCount s b.core b.slot b.job b.fte code n

/-- The start edge of Table 42: an instruction that starts an operation is issued once every access that its fibres have made
before it has been performed (log entry 92). -/
def onceSettled (s : State) (act : State) : State := if relDone s (curGk s) (heldLanes s) then act else s

/-! ## Buffer handles (Table 47) -/

def handleKey (core h : Nat) : Nat := core * 64 + h
def State.handle (s : State) (k : Nat) : Handle := s.eng.handles.get k
def State.setHandle (s : State) (k : Nat) (h : Handle) : State :=
  { s with eng := { s.eng with handles := s.eng.handles.put k h } }
def State.updHandle (s : State) (k : Nat) (f : Handle → Handle) : State := s.setHandle k (f (s.handle k))

def fillStart (s : State) (k x : Nat) : State := s.updHandle k fun h => { h with st := .filling, permit := some x }
/-- The fill ends, with its last byte or with a fault. -/
def fillEnd (s : State) (k : Nat) : State :=
  s.updHandle k fun h => if h.st == .filling then { h with st := .full, permit := none } else h
def readStart (s : State) (k : Nat) : State :=
  s.updHandle k fun h => { h with st := .draining, readers := h.readers + 1 }
def readEnd (s : State) (k : Nat) (last : Bool) : State :=
  s.updHandle k fun h =>
    if h.st != .draining then h
    else
      let mark := h.last || last
      if h.readers ≤ 1 then { h with readers := 0, last := false, st := if mark then .free else .full }
      else { h with readers := h.readers - 1, last := mark }

/-- STATE as BUFQ codes it. -/
def stCode : HandleSt → Nat
  | .free => 0
  | .filling => 1
  | .full => 2
  | .draining => 3

/-! ## Handle operand words (R381) -/

def opHandle (w : DWord) : Nat := w.toNat % 64
def opLast (w : DWord) : Bool := w.getLsbD 7
def opOff (w : DWord) : Nat := bits w.toNat 21 8 * 256
def opBad (w : DWord) : Bool := bits w.toNat 63 22 != 0 || w.getLsbD 6

/-- R150 for a handle that an instruction fills or reads: 0x188, then 0x187. -/
def handleCause (s : State) (core team h : Nat) : Option Nat :=
  match (s.handle (handleKey core h)).owner with
  | none => some 0x187
  | some o => if o = team then none else some 0x188

/-- Bytes of a handle operand in the core's scratchpad. -/
def operandAt (s : State) (core team : Nat) (w : DWord) : Nat :=
  (s.team team).sbase + (s.handle (handleKey core (opHandle w))).base + opOff w

/-! ## Stage barriers (Table 48, R155, R158) -/

def sbField (w h l v : Nat) : Nat := w - bits w h l * 2 ^ l + v % 2 ^ (h + 1 - l) * 2 ^ l
def sbTx (w : Nat) : Int := sint 32 w
def sbArr (w : Nat) : Nat := bits w 47 32

/-- R155's evaluation: the object, and whether it has just met underflow. -/
def sbEval (w : Nat) : Nat × Bool :=
  if bits w 106 105 != 0 then (w, false)
  else if sbTx w < 0 then (sbField w 106 105 2, true)
  else if sbTx w = 0 && sbArr w = 0 then
    (sbField (sbField w 104 104 (1 - bits w 104 104)) 47 32 (bits w 63 48), false)
  else (w, false)

def dogKey (core off : Nat) : Nat := core * 2 ^ 18 + off / 16
def sbLimit (w : Nat) : Nat := (if bits w 79 64 = 0 then 100 else bits w 79 64) * 700

/-- The watchdog of a barrier starts again from now. -/
def dogStart (s : State) (core off : Nat) : State :=
  let s1 := { s with eng := { s.eng with dogs := s.eng.dogs.put (dogKey core off) (s.now + 1) } }
  s1.after (sbLimit (sbWord s core off)) .barrierWatchdogTimeout core off (s.now + 1)

/-- One update of a barrier, its evaluation, and the watchdog's restart; true when it met underflow. -/
def sbUpdate (s : State) (core slot off : Nat) (f : Nat → Nat) : Bool × State :=
  let (w, under) := sbEval (f (sbWord s core off))
  let s1 := scratchPuts s core slot off (leBytes 16 w)
  (under, if s.eng.dogs.get (dogKey core off) = 0 then s1 else dogStart s1 core off)

def sbPost (n : Nat) (w : Nat) : Nat := sbField w 31 0 (ofIntN 32 (sbTx w - n))
def sbArrive (w : Nat) : Nat := sbField w 47 32 (sbArr w - 1)

/-- An entry of the core waits for the barrier's present phase. -/
def sbWaited (s : State) (core off : Nat) : Bool :=
  s.uni.ents.any fun p => p.1 / 256 == core && p.2.st == .blocked && p.2.wake == .barrier off (sbPhase s core off)

/-- BARRIER_WATCHDOG_TIMEOUT: `x` the core, `y` the barrier's offset in its scratchpad, `z` when the watchdog last
restarted. -/
def execBarrierWatchdogTimeout (s : State) : Host.Outcome State Fault Refusal :=
  .next (
    let core := s.cur.x
    let off := s.cur.y
    let k := dogKey core off
    if s.eng.dogs.get k != s.cur.z then s
    else
      let s1 := { s with eng := { s.eng with dogs := s.eng.dogs.put k 0 } }
      if !(sbWaited s core off) || sbErr s core off != 0 then s1
      else
        let slot := s.core.scratchBy.get (scratchKey core off) - 1
        scratchPuts s1 core slot off (leBytes 16 (sbField (sbWord s core off) 106 105 1)))

end Sys2Proof.Machine
end

