-- ==== Sys2Proof/Machine/Transfer.lean ====
section
/-! DEFINITION. Copy channels and pickers at work (R142 to R153, R162, R382 to R388): descriptors, chains, runs, permits
and the ends of transfers. Unless said otherwise a happening's `x` is its transfer. -/
namespace Sys2Proof.Machine

def State.xfer (s : State) (id : Nat) : Xfer := s.eng.xfers.get id
def State.setXfer (s : State) (id : Nat) (x : Xfer) : State :=
  { s with eng := { s.eng with xfers := s.eng.xfers.put id x } }
def dropXfer (s : State) (id : Nat) : State := { s with eng := { s.eng with xfers := Sparse.erase s.eng.xfers id } }
def State.chan (s : State) (k : Nat) : Chan := s.eng.chans.get k
def State.updChan (s : State) (k : Nat) (f : Chan → Chan) : State :=
  { s with eng := { s.eng with chans := s.eng.chans.upd k f } }
def chanKey (core k : Nat) : Nat := core * 4 + k
/-- A number for a new engine operation. -/
def State.newEng (s : State) : Nat × State :=
  (s.eng.nextEng, { s with eng := { s.eng with nextEng := s.eng.nextEng + 1 } })

/-! ## Tensor descriptors (Table 45) -/

def esizeOf (fmt : Nat) : Nat := 2 ^ (fmt % 8)

def boxBytes (t : Tensor) : Nat := ((t.box.take t.rank).foldl (· * ·) 1) * t.esz

/-- The descriptor of 128 bytes as read, if it is well formed. Of an unfolding's box three sizes are used (R384). -/
def tensorOf (bs : List Byte) (unfold : Bool) : Option Tensor :=
  let v := leNat bs
  let at_ (off n : Nat) : Nat := bits v (8 * (off + n) - 1) (8 * off)
  let fmt := at_ 8 8
  let rank := bits fmt 6 4 + 1
  let esz := esizeOf fmt
  let extent := (List.range 7).map fun i => at_ (0x10 + 4 * i) 4
  let stride := (List.range 6).map fun i => at_ (0x30 + 8 * i) 8
  let box := (List.range 7).map fun i => at_ (0x60 + 2 * i) 2
  let used := if unfold then 3 else rank
  let t : Tensor := { base := at_ 0 8, esz := esz, rank := rank, fill := bits fmt 63 32, extent := extent,
                      stride := stride, box := box }
  let bad := decide (4 < fmt % 8) || rank == 8 || bit fmt 3 || bits fmt 31 7 != 0 || at_ 0x2C 4 != 0 || at_ 0x6E 18 != 0
    || t.base % esz != 0
    || (extent.take rank).any (fun e => e == 0 || decide (2 ^ 31 ≤ e))
    || (stride.take (rank - 1)).any (fun e => e % esz != 0 || decide (2 ^ 56 ≤ e))
    || (box.take used).any (fun e => e == 0 || decide (1024 < e))
    || (!unfold && decide (2 ^ 24 < boxBytes t))
  if bad then none else some t

/-- Window of an unfolding (Table 148): height, width, strides and dilations. -/
def unfKh (u : Nat) : Nat := bits u 7 4 + 1
def unfKw (u : Nat) : Nat := bits u 3 0 + 1

def unfoldBytes (t : Tensor) (u : Nat) : Nat :=
  t.box.getD 0 1 * t.box.getD 1 1 * t.box.getD 2 1 * unfKw u * unfKh u * t.esz

/-- The coordinates of element `e` of a box, in box order. -/
def boxCoords : List Nat → Nat → List Nat
  | [], _ => []
  | b :: t, e => e % b :: boxCoords t (e / b)

def coordsOf (x : Xfer) (e : Nat) : List Int :=
  let c (i : Nat) : Int := x.coord.getD i 0
  let t := x.tensor
  match x.kind with
  | .unfold =>
    let u := x.unfold
    let k := boxCoords [t.box.getD 0 1, unfKw u, unfKh u, t.box.getD 1 1, t.box.getD 2 1] e
    let g (i : Nat) : Int := (k.getD i 0 : Nat)
    [c 0 + g 0, c 1 + g 3 * (bits u 11 8 + 1 : Nat) + g 1 * (bits u 19 16 + 1 : Nat),
     c 2 + g 4 * (bits u 15 12 + 1 : Nat) + g 2 * (bits u 23 20 + 1 : Nat)]
      ++ (List.range 4).map fun i => c (i + 3)
  | _ => (boxCoords (t.box.take t.rank) e).mapIdx fun (i : Nat) (k : Nat) => c i + (k : Int)

/-- The address of an element inside the tensor (R147). -/
def elementVa (t : Tensor) (xs : List Int) : Option Nat :=
  let l := (xs.take t.rank).mapIdx fun i v => (i, v)
  if l.all fun p => decide (0 ≤ p.2) && decide (p.2 < (t.extent.getD p.1 0 : Nat)) then
    some ((l.foldl (fun a p => a + p.2.toNat * (if p.1 = 0 then t.esz else t.stride.getD (p.1 - 1) 0)) t.base) % 2 ^ 64)
  else none

def fillElement (t : Tensor) : List Byte := (List.range t.esz).map fun i => BitVec.ofNat 8 (t.fill / 256 ^ (i % 4))

/-! ## Reading a run's source -/

/-- The lowest-addressed failing part of a run's elements (R24). -/
def gatherFail (rng : Sparse DWord) (n : Nat) (l : List (Option Nat)) : Option (Nat × Nat) :=
  l.foldl (fun best e => match e with
    | none => best
    | some va => match runCheck rng .engRead (runParts 2 va n) with
      | .ok _ => best
      | .error (c, a) => (match best with
        | some (c0, a0) => if a < a0 then some (c, a) else some (c0, a0)
        | none => some (c, a))) none

def gatherReads (p : Port) (t : Tensor) : List (Option Nat) → Eng (List Byte)
  | [] => pure []
  | none :: r => do
    let y ← gatherReads p t r
    pure (fillElement t ++ y)
  | some va :: r => do
    let b ← engReadVa p va t.esz
    let y ← gatherReads p t r
    pure (b ++ y)

/-- The elements of a run of n bytes from where the transfer stands. -/
def runElements (x : Xfer) (n : Nat) : List (Option Nat) :=
  (List.range (n / x.tensor.esz)).map fun i => elementVa x.tensor (coordsOf x (x.sent / x.tensor.esz + i))

/-- The address that chooses a picker: the destination of a write-back, otherwise the source, which is the descriptor's address
of a tensor transfer (R152, R383; log entry 91). -/
def pickerVa (x : Xfer) : Nat := if x.kind = .writeBack then x.dst else x.src
/-- Its intermediate address, if a range gives it one. -/
def pickerIa (x : Xfer) : Option Nat :=
  match rangeCheck { rng := x.by_.rng } (pickerVa x) 1 (if x.kind = .writeBack then .engWrite else .engRead) with
  | .ok (ia, _) => some ia
  | .error _ => none
/-- The die of a picker's port router; that of the core where no address tells. -/
def pickerDie (x : Xfer) : Nat :=
  match pickerIa x with
  | some ia => homeDie ia
  | none => dieOf x.by_.core

/-- A transfer's accesses: a channel observes from its core's die, a picker from its port router's (Table 38). -/
def xferPort (x : Xfer) : Port := { portOf x.by_ with die := if x.chan.isSome then dieOf x.by_.core else pickerDie x }

/-- The team's allocation in its core's scratchpad. -/
def xferBase (s : State) (x : Xfer) : Nat := (s.team x.by_.team).sbase

def srcBytes (x : Xfer) (n : Nat) : Eng (List Byte) := do
  let s ← get
  let p := xferPort x
  match x.kind with
  | .linear =>
    if x.srcScratch then pure (scratchBytes s x.by_.core (xferBase s x + x.src + x.sent) n)
    else engReadVa p ((x.src + x.sent) % 2 ^ 64) n
  | .writeBack => pure (scratchBytes s x.by_.core (x.src + x.sent) n)
  | _ =>
    let l := runElements x n
    match gatherFail x.by_.rng x.tensor.esz l with
    | some (c, a) => engFail c a
    | none => gatherReads p x.tensor l

/-- The first source address of the run (R388). -/
def runSource (x : Xfer) : Nat :=
  match x.kind with
  | .linear => (x.src + x.sent) % 2 ^ 64
  | .writeBack => 0
  | _ => ((runElements x (min 256 (x.total - x.sent))).filterMap id).headD 0

/-! ## Writing a run -/

/-- Cores whose handles a picker fills: its own, or those of the mask (R153). -/
def targetCores (x : Xfer) : List Nat := if x.mcast.isEmpty then [x.by_.core] else x.mcast

/-- Where the handle's bytes lie on a core. -/
def handleAt (s : State) (core h : Nat) : Nat :=
  let d := s.handle (handleKey core h)
  (match d.owner with
    | some t => (s.team t).sbase
    | none => 0) + d.base

/-- A picker's write into a handle needs its permit; without one the write is lost (R152). -/
def fillWrite (s : State) (id : Nat) (x : Xfer) (core : Nat) (bs : List Byte) : State :=
  let d := s.handle (handleKey core x.handle)
  if d.permit == some id && decide (x.sent + bs.length ≤ d.size) then
    scratchPuts s core x.by_.slot (handleAt s core x.handle + x.sent) bs else s

def destWrite (id : Nat) (x : Xfer) (bs : List Byte) : Eng Unit := do
  let s ← get
  match x.dkind with
  | 0 => engWriteVa (xferPort x) ((x.dst + x.sent) % 2 ^ 64) bs
  | 1 => set (scratchPuts s x.by_.core x.by_.slot (xferBase s x + x.dst + x.sent) bs)
  | _ => set ((targetCores x).foldl (fun t c => fillWrite t id x c bs) s)

/-- One run: its source is read as it is delivered, and wholly before it is written (log entry 93). -/
def runAction (id : Nat) (x : Xfer) (n : Nat) : Eng Unit := do
  let bs ← srcBytes x n
  destWrite id x bs

/-! ## Ends (R161, R162) -/

/-- AUX of a class 6 cause: the channel, or bit 8 and the port of a picker, which serves four slices (Table 74). -/
def engAux (x : Xfer) (cause : Nat) : Nat :=
  if cause / 64 != 6 then 0
  else match x.chan with
    | some k => k % 4
    | none => match pickerIa x with
      | some ia => 256 + sliceOf ia / 4 * 16
      | none => 256

/-- The next transfer of a channel may start. -/
def nextOnChan (s : State) (k : Nat) : State :=
  match (s.chan k).queue with
  | id :: _ => s.add .transferStart id
  | [] => s

def leaveChan (s : State) (id : Nat) (x : Xfer) : State :=
  match x.chan with
  | none => s
  | some k => nextOnChan (s.updChan k fun c => { c with queue := c.queue.filter (· != id) }) k

/-- The handles that the transfer fills reach the end of their fill, and a write-back's reader finishes. -/
def endHandles (s : State) (id : Nat) (x : Xfer) : State :=
  let s1 := if x.dkind = 2 then
      (targetCores x).foldl (fun t c =>
        if (t.handle (handleKey c x.handle)).permit == some id then fillEnd t (handleKey c x.handle) else t) s
    else s
  if x.kind = .writeBack then readEnd s1 (handleKey x.by_.core x.handle) x.lastUse else s1

def setTileEnt (s : State) (id : Nat) (e : TileEnt) : State :=
  { s with eng := { s.eng with tiles := s.eng.tiles.put id e } }

/-- A follow-on's fill has ended: a reader starts on the handle for each operand word that names it (R387). -/
def followReady (s : State) (x : Xfer) : State :=
  match x.follow with
  | none => s
  | some e =>
    let t := s.eng.tiles.get e
    if !t.live then s
    else
      let named := (List.range t.words.length).filter fun i =>
        opHandle (t.words.getD i 0) == x.handle && !(t.reading.contains i)
      let s1 := named.foldl (fun u _ => readStart u (handleKey x.by_.core x.handle)) s
      (setTileEnt s1 e { t with fill := none, reading := t.reading ++ named }).post .arrayEntryStart x.by_.core

/-- The transfer, or its whole chain, is complete. -/
def xferDone (s : State) (id : Nat) (x : Xfer) : State :=
  finishOp (leaveChan (dropXfer s id) id x) x.by_ 0 id

/-- A record's transfer has delivered its last byte: a chain goes on, anything else is complete. -/
def recordDone (s : State) (id : Nat) (x : Xfer) : State :=
  let s1 := followReady (endHandles s id x) x
  if x.chain then s1.setXfer id { x with started := true, sent := x.total, held := none, heldAt := 0 }
  else xferDone s1 id x

def tileKeyOf (team tile : Nat) : Nat := team * 8 + tile

/-- A failed CPYM suppresses its follow-on, if that has not completed already, and stops its tile until the trap is delivered
(R388). -/
def stopTile (s : State) (x : Xfer) : State :=
  match x.follow with
  | none => s
  | some e =>
    let t := s.eng.tiles.get e
    let s1 := { s with eng := { s.eng with
      stopped := s.eng.stopped.put (tileKeyOf x.by_.team x.ftile) (x.by_.order + 1) } }
    if !t.live then s1
    else (setTileEnt s1 e { t with fill := none, suppressed := true }).post .arrayEntryStart x.by_.core

/-- The transfer fails (R162): its trap is queued, FAULT is set, its handle is FULL, its barrier takes ERR 3 and the
operation ends. -/
def xferFail (s : State) (id cause addr : Nat) : State :=
  let x := s.xfer id
  if !x.live then s
  else
    let cpym := x.follow.isSome
    let t := engTrap x.by_ cause (if cpym then runSource x else addr) (engAux x cause) (iaCause cause && !cpym)
    let s1 := raiseEng (stopTile s x) x.by_ { t with stop := cpym, stile := x.ftile }
    if !(s1.xfer id).live then s1
    else
      let s2 := match x.chan with
        | some k => s1.updChan k fun c => { c with fault := true }
        | none => s1
      let s3 := endHandles s2 id x
      let s4 := match x.barrier with
        | some off => (sbUpdate s3 x.by_.core x.by_.slot off fun w => sbField w 106 105 3).2
        | none => s3
      xferDone s4 id x

/-! ## Peers and ports (R93, R453, R454) -/

/-- Where an address that lies outside the device leads: its intermediate address and the peer, or 1,024 + the port. The windows of
the configuration record say which addresses do, for which the manual gives no form (log entry 83). -/
def farAt (s : State) (x : Xfer) (va : Nat) (need : Perm) : Option (Nat × Nat) :=
  if s.cfg.windows.isEmpty then none
  else match rangeCheck { rng := x.by_.rng } (va % 2 ^ 64) 1 need with
    | .ok (ia, _) =>
      (s.cfg.windows.find? fun w => decide (w.1 ≤ ia) && decide (ia < w.1 + w.2.1)).map fun w => (ia, w.2.2)
    | .error _ => none

/-- The source of a linear run, and the destination in memory of any, that lie outside the device. -/
def farSource (s : State) (x : Xfer) : Option (Nat × Nat) :=
  if x.kind == .linear && !x.srcScratch then farAt s x (x.src + x.sent) .engRead else none
def farDest (s : State) (x : Xfer) : Option (Nat × Nat) :=
  if x.dkind = 0 then farAt s x (x.dst + x.sent) .engWrite else none

/-- A copy that leaves the device ends its job's restartability and marks a replay session as it starts (R93, R419). -/
def farStart (s : State) (x : Xfer) : State :=
  if (farDest s { x with sent := 0 }).isSome then
    markSide (match x.by_.job with
      | some j => s.updJob j fun jb => { jb with restartable := false }
      | none => s) x.by_.job
  else s

/-- A run's message leaves; a peer's answer has the limit of R453. -/
def sendFar (s : State) (id : Nat) (x : Xfer) (again : Instr) (target wire : Nat) (m : OutMsg) : State :=
  let s1 := ((emitOut s m).setXfer id { x with wire := wire, wireAt := s.now + 1, held := none, heldAt := 0 }).after 1 again id
  if target < 1024 then s1.after s.cfg.engineLimit .linkOperationTimeout id 1 (s.now + 1) else s1

/-- The answer of a peer or a port to a run: a cause, or what `wireData` holds of a read. -/
def farAnswer (s : State) (id cause : Nat) : State :=
  let x := s.xfer id
  if !x.live || (x.wire != 1 && x.wire != 3) then s
  else if cause != 0 then xferFail s id cause 0
  else s.setXfer id { x with wire := x.wire + 1 }

/-- No answer has come within the limit: 0x115 (R453). -/
def farTimeout (s : State) (id at_ : Nat) : State :=
  let x := s.xfer id
  if x.live && (x.wire == 1 || x.wire == 3) && x.wireAt == at_ then xferFail s id 0x115 0 else s

/-! ## Waiting (R57, R90) -/

def holdXfer (s : State) (id : Nat) (x : Xfer) (again : Instr) (ev : Option DWord) (cause : Nat) : State :=
  if x.held == ev && x.heldAt != 0 then s.after 1 again id
  else ((s.setXfer id { x with held := ev, heldAt := s.now + 1 }).after 1 again id).after s.cfg.engineLimit
    .engineResidencyTimeout id 0 (s.now + 1) (word64 cause)

/-- An access of the transfer cannot be made now. -/
def stallXfer (s : State) (id : Nat) (x : Xfer) (again : Instr) (st : Stall) : State :=
  match st with
  | .fault c a => xferFail s id c a
  | .wait (some n) _ s1 =>
    if jobRestartable s1 x.by_.job then abortJob s1 (x.by_.job.getD 0) n else holdXfer s1 id x again (some n) 0x115
  | .wait none _ s1 => s1.after 1 again id
  | .spill s1 => holdXfer s1 id x again none 0x142

/-- Go on with a transfer unless what it was held on has been faulted. -/
def resumeXfer (s : State) (id : Nat) (x : Xfer) (act : State) : State :=
  match holdState s x.held with
  | .faulted => xferFail s id (faultedCause s (x.held.getD 0)) 0
  | _ => act

/-! ## Starting -/

def runEvent (x : Xfer) : Instr := if x.chan.isSome then .copyRunDeliver else .pickerRunWrite

/-- The bytes of a transfer with its descriptor read, or the cause of R146, R383 and R384. -/
def tensorTotal (s : State) (x : Xfer) (bs : List Byte) : Except Nat (Tensor × Nat) :=
  match tensorOf bs (x.kind == .unfold) with
  | none => .error 0x185
  | some t =>
    let n := if x.kind = .unfold then unfoldBytes t x.unfold else boxBytes t
    if x.kind = .unfold && (decide (t.rank < 3) || bits x.unfold 63 24 != 0 || decide (2 ^ 24 < n)) then .error 0x185
    else if x.dkind = 2 && (targetCores x).any (fun c => decide ((s.handle (handleKey c x.handle)).size < n)) then .error 0x187
    else if x.dkind = 1 && decide ((s.team x.by_.team).ssize < x.dst + n) then .error 0x084
    else .ok (t, n)

def startRun (s : State) (id : Nat) (x : Xfer) (total : Nat) : State :=
  (s.setXfer id { x with started := true, total := total, sent := 0, held := none, heldAt := 0 }).after 1 (runEvent x) id

/-- The descriptor is read when the transfer starts (R146). -/
def startTensor (s : State) (id : Nat) (x : Xfer) : State :=
  if x.src % 64 != 0 then xferFail s id 0x185 0
  else match engReadVa (xferPort x) x.src 128 s with
    | .error st => stallXfer s id x .transferStart st
    | .ok (bs, s1) =>
      match tensorTotal s1 x bs with
      | .error c => xferFail s1 id c 0
      | .ok (t, n) => startRun s1 id { x with tensor := t } n

/-- A chain's record starts its fill when the channel reaches it (R385). -/
def recordFill (s : State) (id : Nat) (x : Xfer) : Option Nat × State :=
  if x.chain && x.dkind == 2 then
    match handleCause s x.by_.core x.by_.team x.handle with
    | some c => (some c, s)
    | none =>
      let k := handleKey x.by_.core x.handle
      if (s.handle k).permit == some id then (none, s)
      else if x.kind == .linear && decide ((s.handle k).size < x.len) then (some 0x187, s)
      else (none, fillStart s k id)
  else (none, s)

/-- A zeroing transfer sets the write pointer to 0 (R142). -/
def armZero (s : State) (x : Xfer) : State :=
  match x.chan with
  | some k => if x.zero && x.record.isNone then s.updChan k fun c => { c with count := 0, fault := false, zeroed := true } else s
  | none => s

def startXfer (s : State) (id : Nat) (x : Xfer) : State :=
  let s0 := if x.started then s else armZero s x
  let s0 := if x.chain && x.record.isNone then s0 else farStart s0 x
  if x.chain && x.record.isNone then (s0.setXfer id { x with started := true, zero := false }).add .chainRecordRead id
  else match recordFill s0 id x with
    | (some c, s1) => xferFail s1 id c 0
    | (none, s1) =>
      match x.kind with
      | .linear => startRun s1 id x x.len
      | .writeBack => startRun s1 id x x.len
      | _ => startTensor s1 id { x with started := true, zero := false }

/-- TRANSFER_START: the transfer, or a record of a chain, begins. -/
def execTransferStart (s : State) : Host.Outcome State Fault Refusal :=
  .next (
    let x := s.xfer s.cur.x
    if !x.live then s else resumeXfer s s.cur.x x (startXfer s s.cur.x x))

/-- It is at the head of its channel, its picker's permits are granted, and the handle of a chain's record is FREE. -/
def startReady (s : State) (id : Nat) : Bool :=
  let x := s.xfer id
  !x.live ||
  (holdState s x.held != .waits
    && (match x.chan with
      | some k => (s.chan k).queue.head? == some id
      | none => x.mcast.all fun c => x.granted.contains c)
    && (!(x.chain && x.record.isSome && x.dkind == 2) || (handleCause s x.by_.core x.by_.team x.handle).isSome
      || (s.handle (handleKey x.by_.core x.handle)).st == .free
      || (s.handle (handleKey x.by_.core x.handle)).permit == some id))

/-! ## Runs -/

/-- A run has been written: WPTR, the counters and the barrier follow (R144, R155). -/
def runWritten (s : State) (id : Nat) (x : Xfer) (n : Nat) : State :=
  let s1 := match x.chan with
    | some k => pmEng (s.updChan k fun c => { c with count := (c.count + n) % 2 ^ 48 }) x.by_ 0x0B 1
    | none => s
  let x1 := { x with sent := x.sent + n, held := none, heldAt := 0, wire := 0, wireData := [] }
  let s2 := s1.setXfer id x1
  let s3 := match x.barrier with
    | none => s2
    | some off =>
      let (under, t) := sbUpdate s2 x.by_.core x.by_.slot off (sbPost n)
      if under then raiseEng t x.by_ (engTrap x.by_ 0x182 0 (engAux x 0x182) false) else t
  if !(s3.xfer id).live then s3
  else if x1.sent < x1.total then s3.after 1 (runEvent x) id
  else
    let s4 := recordDone s3 id x1
    if x.chain then s4.add .chainRecordRead id else s4

/-- A run one end of which lies outside the device: it is asked for, then sent or written, and ends with the answer. No run is
longer than 256 bytes (R453), so none passes the path MTU of a port (R454). -/
def runFar (s : State) (id : Nat) (x : Xfer) (n : Nat) (src dst : Option (Nat × Nat)) : State :=
  match x.wire, src, dst with
  | 0, some (ia, t), _ => sendFar s id x (runEvent x) t 1 (.copyRead id ia n)
  | 4, _, some _ => runWritten s id x n
  | _, _, some (ia, t) =>
    (match (if x.wire = 2 then .ok (x.wireData, s) else srcBytes x n s) with
    | .error st => stallXfer s id x (runEvent x) st
    | .ok (bs, s1) => sendFar s1 id x (runEvent x) t 3 (.copy id ia bs))
  | _, _, none =>
    match destWrite id x (x.wireData.take n) s with
    | .error st => stallXfer s id x (runEvent x) st
    | .ok ((), s1) => runWritten s1 id x n

def runXfer (s : State) (id : Nat) (x : Xfer) : State :=
  let n := min 256 (x.total - x.sent)
  match farSource s x, farDest s x with
  | none, none =>
    (match runAction id x n s with
    | .error st => stallXfer s id x (runEvent x) st
    | .ok ((), s1) => runWritten s1 id x n)
  | src, dst => runFar s id x n src dst

def deliverRun (s : State) : State :=
  let x := s.xfer s.cur.x
  if !x.live then s else resumeXfer s s.cur.x x (runXfer s s.cur.x x)

/-- COPY_RUN_DELIVER: a channel writes its next run. -/
def execCopyRunDeliver (s : State) : Host.Outcome State Fault Refusal := .next (deliverRun s)
/-- PICKER_RUN_WRITE: a picker writes its next run, into every target handle or from a handle to memory. -/
def execPickerRunWrite (s : State) : Host.Outcome State Fault Refusal := .next (deliverRun s)

/-- What the transfer was held on no longer waits, and no answer from outside is due. -/
def runReady (s : State) (id : Nat) : Bool :=
  holdState s (s.xfer id).held != .waits && (s.xfer id).wire != 1 && (s.xfer id).wire != 3

/-! ## Order within one clock period (R151, R156) -/

/-- Channels come in their order, then pickers by port. -/
def xferRank (x : Xfer) : Nat :=
  match x.chan with
  | some k => k % 4
  | none => 4 + (match pickerIa x with
    | some ia => homeDie ia * 16 + sliceOf ia / 4
    | none => 0)

/-- Two transfers change one handle, or post to one barrier. -/
def shareTarget (x y : Xfer) : Bool :=
  x.by_.core == y.by_.core
  && ((x.handle == y.handle && (x.dkind == 2 || x.kind == .writeBack) && (y.dkind == 2 || y.kind == .writeBack))
    || (x.barrier.isSome && x.barrier == y.barrier))

/-- A transfer's happening: its start, or a run. -/
def isXferItem (i : Instr) : Bool :=
  match i with
  | .transferStart | .copyRunDeliver | .pickerRunWrite => true
  | _ => false

/-- A transfer's happening can come now, but for its turn. -/
def xferItemReady (s : State) (h : Happening) : Bool :=
  match h.what with
  | .transferStart => startReady s h.x
  | _ => runReady s h.x

/-- No other transfer that can reach the same handle or barrier now comes before it. -/
def xferTurn (s : State) (id : Nat) : Bool :=
  let x := s.xfer id
  !(s.agenda.any fun g => isXferItem g.what && g.x != id && decide (g.due ≤ s.now) && (s.xfer g.x).live
    && shareTarget (s.xfer g.x) x && decide (xferRank (s.xfer g.x) < xferRank x) && xferItemReady s g)

/-! ## Chains (Table 46, R149) -/

structure Record where
  next : Nat
  ctrl : Nat
  src : Nat
  dst : Nat
  len : Nat
  coord : List Int

def recordOf (bs : List Byte) : Record :=
  let v := leNat bs
  let at_ (off n : Nat) : Nat := bits v (8 * (off + n) - 1) (8 * off)
  { next := at_ 0 8, ctrl := at_ 8 8, src := at_ 0x10 8, dst := at_ 0x18 8, len := at_ 0x20 4,
    coord := (List.range 7).map fun i => sint 32 (at_ (0x24 + 4 * i) 4) }

def recordTensor (r : Record) : Bool := bit r.ctrl 1
def recordBarrier (r : Record) : Option Nat := if bit r.ctrl 2 then some (bits r.ctrl 33 16 * 16) else none
def recordBad (r : Record) : Bool :=
  r.next % 64 != 0 || bit r.ctrl 3 || bits r.ctrl 15 12 != 0 || bits r.ctrl 63 34 != 0 || bits r.ctrl 5 4 == 3
  || (!(recordTensor r) && r.len == 0)

/-- A record that writes memory alone. -/
def recordMemory (r : Record) : Bool := bits r.ctrl 5 4 == 0 && !(bit r.ctrl 2)

/-- The records that a chain has still to perform write memory alone, as far as they can be read. -/
def chainMemory (s : State) (x : Xfer) : Nat → Nat → Bool
  | 0, _ => true
  | n + 1, p =>
    if p = 0 ∨ p % 64 ≠ 0 then true
    else match engReadVa (xferPort x) p 64 s with
      | .error _ => true
      | .ok (bs, _) =>
        let r := recordOf bs
        !(bit r.ctrl 0) || (recordMemory r && chainMemory s x n r.next)

/-- An operation whose destination is memory alone goes on while its team is saved (R164). -/
def memoryOnly (s : State) (x : Xfer) : Bool :=
  if x.chain then (x.record.isNone || (x.dkind == 0 && x.barrier.isNone)) && chainMemory s x 256 x.next
  else x.dkind == 0 && !x.srcScratch && x.barrier.isNone && x.kind != .writeBack && x.mcast.isEmpty

/-- A record of a saved team's chain that does not write memory alone waits for the team (R164). -/
def chainGoes (s : State) (id : Nat) : Bool :=
  let x := s.xfer id
  decide (x.by_.team < 2 ^ 40) || x.record.isSome || chainMemory s x 1 x.next

/-- A record's scratchpad extents lie in the allocation (R72); a tensor's is checked with its descriptor. -/
def recordOutside (s : State) (x : Xfer) (r : Record) : Bool :=
  let size := (s.team x.by_.team).ssize
  (bits r.ctrl 5 4 == 1 && decide (size < r.dst + (if recordTensor r then 0 else r.len)))
  || (match recordBarrier r with
    | some off => decide (size < off + 16)
    | none => false)

/-- The barrier that a record posts to, in the core's scratchpad, if it lies in the allocation. -/
def barrierOf (s : State) (x : Xfer) (r : Record) : Option Nat :=
  match recordBarrier r with
  | some off => if (s.team x.by_.team).ssize < off + 16 then none else some (xferBase s x + off)
  | none => none

/-- The record becomes the transfer in progress. One that fails as it is read fails with its barrier (R162), and a tensor
record where the bank has no tensor transfers is malformed (Table 93). -/
def takeRecord (s : State) (id : Nat) (x : Xfer) (r : Record) : State :=
  let fail := xferFail (s.setXfer id { x with barrier := barrierOf s x r }) id
  if recordBad r || (recordTensor r && !x.boxes) then fail 0x185 0
  else if recordOutside s x r then fail 0x084 0
  else
    let x1 := { x with
      record := some x.next, ctrl := r.ctrl, next := r.next, kind := if recordTensor r then .tensor else .linear,
      dkind := bits r.ctrl 5 4, handle := bits r.ctrl 11 6, src := r.src, dst := r.dst, len := r.len, coord := r.coord,
      barrier := barrierOf s x r, total := 0, sent := 0, held := none, heldAt := 0 }
    (s.setXfer id x1).add .transferStart id

/-- OWN falls in a record that has been performed, then the walk goes on (R149). -/
def closeRecord (s : State) (id : Nat) (x : Xfer) (p : Nat) : State :=
  match engWriteVa (xferPort x) ((p + 8) % 2 ^ 64) (leBytes 8 (x.ctrl - x.ctrl % 2)) s with
  | .error st => stallXfer s id x .chainRecordRead st
  | .ok ((), s1) => (s1.setXfer id { x with record := none, barrier := none, held := none, heldAt := 0 }).add .chainRecordRead id

def walkChain (s : State) (id : Nat) (x : Xfer) : State :=
  match x.record with
  | some p => closeRecord s id x p
  | none =>
    if x.next = 0 then xferDone s id x
    else if x.next % 64 != 0 then xferFail s id 0x185 0
    else match engReadVa (xferPort x) x.next 64 s with
      | .error st => stallXfer s id x .chainRecordRead st
      | .ok (bs, s1) =>
        let r := recordOf bs
        if bit r.ctrl 0 then takeRecord s1 id x r else xferDone s1 id x

/-- CHAIN_RECORD_READ: the record just performed is closed, or the next one is read. -/
def execChainRecordRead (s : State) : Host.Outcome State Fault Refusal :=
  .next (
    let x := s.xfer s.cur.x
    if !x.live then s else resumeXfer s s.cur.x x (walkChain s s.cur.x x))

/-! ## Picker permits (R152, R153) -/

/-- A target core's handle is FREE and configured by a team of the starting team's context. -/
def permitReady (s : State) (id core : Nat) : Bool :=
  let x := s.xfer id
  let h := s.handle (handleKey core x.handle)
  !x.live || (match h.owner with
    | some t => h.st == .free && bankSlot (s.bank (core * 4 + (s.team t).bank)) == x.by_.slot
    | none => false)

/-- PICKER_PERMIT_GRANT: `x` the transfer, `y` the target core, whose fill starts; a linear fill larger than the handle there
fails (R150). -/
def execPickerPermitGrant (s : State) : Host.Outcome State Fault Refusal :=
  .next (
    let x := s.xfer s.cur.x
    if !x.live then s
    else if x.kind == .linear && decide ((s.handle (handleKey s.cur.y x.handle)).size < x.len) then xferFail s s.cur.x 0x187 0
    else
      (fillStart s (handleKey s.cur.y x.handle) s.cur.x).setXfer s.cur.x { x with granted := x.granted ++ [s.cur.y] })

/-- PICKER_PERMIT_TIMEOUT: a permit was not granted within the engine residency limit. -/
def execPickerPermitTimeout (s : State) : Host.Outcome State Fault Refusal :=
  .next (
    let x := s.xfer s.cur.x
    if x.live && !(x.mcast.all fun c => x.granted.contains c) then xferFail s s.cur.x 0x186 0 else s)

end Sys2Proof.Machine
end

