-- ==== Sys2Proof/Machine/Tiles.lean ====
section
/-! DEFINITION. The matrix array: tile order, MMA, ACCZ, ACCLD and ACCST (R177, R307 to R313, R388, R396 to R402). Unless
said otherwise a happening's `x` is its tile entry. -/
namespace Sys2Proof.Machine

/-! ## Tiles -/

def tileBase (team tile : Nat) : Nat := tileKeyOf team tile * 16384

/-- Elements from key i on, absent ones as 0. -/
def expandFrom : Nat → Nat → Sparse DWord → List DWord
  | 0, _, _ => []
  | n + 1, i, [] => 0 :: expandFrom n (i + 1) []
  | n + 1, i, (k, v) :: t => if k = i then v :: expandFrom n (i + 1) t else 0 :: expandFrom n (i + 1) ((k, v) :: t)

/-- The 16,384 elements of a tile, row-major. -/
def getTile (s : State) (team tile : Nat) : List DWord :=
  let b := tileBase team tile
  expandFrom 16384 b (s.core.tiles.filter fun p => decide (b ≤ p.1) && decide (p.1 < b + 16384))

def setTile (s : State) (team tile : Nat) (l : List DWord) : State :=
  let b := tileBase team tile
  let mine := ((List.range 16384).zip l).filterMap fun p => if p.2 = 0 then none else some (b + p.1, p.2)
  { s with core := { s.core with
      tiles := (s.core.tiles.filter fun p => decide (p.1 < b)) ++ mine ++ (s.core.tiles.filter fun p => decide (b + 16384 ≤ p.1)) } }

def zeroTile (s : State) (team tile : Nat) : State := setTile s team tile []

/-! ## MMA (Table 151): forms 0 BF16, 1 FP16, 2 E4M3, 3 E5M2, 4 Q4, 5 I8, 6 I4 -/

def formBits (form : Nat) : Nat := [16, 16, 8, 8, 4, 8, 4].getD form 8
def formBytes (form : Nat) : Nat := 128 * 32 * formBits form / 8
def formCk (form : Nat) : Nat := [16, 16, 8, 8, 4, 8, 4].getD form 8

/-- Element idx of w bits in an operand's bytes; of two in a byte the lower lies in bits 3:0 (R398, R309). -/
def elemAt (w : Nat) (bs : Array Byte) (idx : Nat) : Nat :=
  let b (i : Nat) : Nat := (bs.getD i 0).toNat
  match w with
  | 16 => b (2 * idx) + 256 * b (2 * idx + 1)
  | 8 => b idx
  | _ => b (idx / 2) / 16 ^ (idx % 2) % 16

/-- The formats of A's and B's elements in a floating form; `xb` is bsel[1]. -/
def formFmts (form : Nat) (xb : Bool) : Fmt × Fmt :=
  match form with
  | 0 => (bf16, bf16)
  | 1 => (b16, b16)
  | 2 => (e4m3, if xb then e5m2 else e4m3)
  | _ => (e5m2, if xb then e4m3 else e5m2)

/-- Scale bytes captured from v56 to v63 of 64 lanes (R311): A's of row r and B's of column c, sub-block h. -/
def scaleOf (scales : Array Byte) (b r h : Nat) : Nat := (scales.getD ((b + 2 * h + r / 64) * 64 + r % 64) 0).toNat
/-- Sub-block of element k (Table 116). -/
def subBlock (kb k : Nat) : Nat := if kb = 0 then k / 16 else 0

/-- The values of row r of A, or of column c of B. -/
def rowA (form ka : Nat) (xb : Bool) (scales bs : Array Byte) (r : Nat) : List FVal :=
  (List.range 32).map fun k =>
    let v := elemAt (formBits form) bs (r * 32 + k)
    if form = 4 then q4Val (scaleOf scales 0 r (subBlock ka k)) v else fDecode (formFmts form xb).1 v
def colB (form kb : Nat) (xb dlay : Bool) (scales bs : Array Byte) (c : Nat) : List FVal :=
  (List.range 32).map fun k =>
    let v := elemAt (formBits form) bs (if dlay then c * 32 + k else k * 128 + c)
    if form = 4 then q4Val (scaleOf scales 4 c (subBlock kb k)) v else fDecode (formFmts form xb).2 v

/-- The integers of row r of A, or of column c of B (R313). -/
def intElem (form : Nat) (unsigned : Bool) (v : Nat) : Int :=
  if form = 6 then sint 4 v else if unsigned then (v : Int) else sint 8 v
def introwA (form sel : Nat) (bs : Array Byte) (r : Nat) : List Int :=
  (List.range 32).map fun k => intElem form (bit sel 0) (elemAt (formBits form) bs (r * 32 + k))
def intcolB (form sel : Nat) (dlay : Bool) (bs : Array Byte) (c : Nat) : List Int :=
  (List.range 32).map fun k =>
    intElem form (bit sel 1) (elemAt (formBits form) bs (if dlay then c * 32 + k else k * 128 + c))

/-- R312: all 33 terms exactly, rounded once. -/
def mmaFloat (old : DWord) (a b : List FVal) : DWord :=
  word64 (sumRound b64 .rne (fDecode b64 old.toNat :: List.zipWith fvMul a b))
/-- R313. -/
def mmaInt (old : DWord) (a b : List Int) : DWord :=
  word64 (ofIntN 64 ((old.toNat : Int) + (List.zipWith (· * ·) a b).foldl (· + ·) 0))

/-- The tile after an MMA on the bytes of A and B. -/
def mmaTile (old : List DWord) (form ka kb sel : Nat) (zero dlay : Bool) (scales : List Byte) (a b : List Byte) : List DWord :=
  let sc := scales.toArray
  let aa := a.toArray
  let ba := b.toArray
  let base := if zero then List.replicate 16384 0 else old
  if form = 5 ∨ form = 6 then
    let ra := ((List.range 128).map (introwA form sel aa)).toArray
    let cb := ((List.range 128).map (intcolB form sel dlay ba)).toArray
    ((List.range 16384).zip base).map fun p => mmaInt p.2 (ra.getD (p.1 / 128) []) (cb.getD (p.1 % 128) [])
  else
    let ra := ((List.range 128).map (rowA form ka (bit sel 1) sc aa)).toArray
    let cb := ((List.range 128).map (colB form kb (bit sel 1) dlay sc ba)).toArray
    ((List.range 16384).zip base).map fun p => mmaFloat p.2 (ra.getD (p.1 / 128) []) (cb.getD (p.1 % 128) [])

/-! ## Accumulator formats (Table 152) -/

def accFmt (f : Nat) : Option Fmt :=
  match f with
  | 1 => some b32
  | 2 => some bf16
  | 3 => some b16
  | 4 => some e4m3
  | 5 => some e5m2
  | _ => none
def accSize (f : Nat) : Nat := [8, 4, 2, 2, 1, 1, 8, 4, 2, 1].getD f 1

/-- An element as ACCLD widens it. -/
def accIn (f v : Nat) : DWord :=
  match accFmt f with
  | some g => word64 (widen g b64 v)
  | none => if f = 0 ∨ f = 6 then word64 v else word64 (sext (8 * accSize f) 64 v)

/-- The mode of an RMS field (Table 124); the dynamic mode is the group's at issue. -/
def accMode (rms : Nat) (dyn : Rm) : Rm :=
  match rms with
  | 1 | 6 => .rne
  | 2 | 7 => .rtz
  | 3 => .rup
  | 4 => .rdn
  | _ => dyn

/-- An element as ACCST writes it. -/
def accOut (f rms : Nat) (rm : Rm) (v : DWord) : Nat :=
  match accFmt f with
  | some g => roundF g rm (decide (5 ≤ rms)) (fDecode b64 v.toNat)
  | none =>
    let w := 8 * accSize f
    if f = 0 ∨ f = 6 then v.toNat
    else if rms = 5 then ofIntN w (clampInt (-(2 ^ (w - 1) : Nat)) ((2 ^ (w - 1) : Nat) - 1) v.toInt)
    else v.toNat % 2 ^ w

def rmCode : Rm → Nat
  | .rne => 0
  | .rtz => 1
  | .rup => 2
  | .rdn => 3
def rmOf (n : Nat) : Rm :=
  match n with
  | 0 => .rne
  | 1 => .rtz
  | 2 => .rup
  | _ => .rdn

/-! ## The order of entries (R396) -/

def isMma : TileOp → Bool
  | .mma .. => true
  | _ => false

/-- An earlier entry of the tile allows the next: for an MMA it has ended its occupancy or, if it is no MMA, has
completed; anything else needs it complete. -/
def allows (s : State) (mma : Bool) (e : TileEnt) : Bool :=
  e.ended || (mma && isMma e.op && e.started && decide (e.busyUntil ≤ s.now))

def tileTurn (s : State) (id : Nat) (e : TileEnt) : Bool :=
  (s.eng.tiles.filter fun p => decide (p.1 < id) && p.2.by_.team == e.by_.team && p.2.tile == e.tile).all fun p =>
    allows s (isMma e.op) p.2

def isStopped (s : State) (e : TileEnt) : Bool := e.suppressed || s.eng.stopped.get (tileKeyOf e.by_.team e.tile) != 0
def operandsReady (e : TileEnt) : Bool := e.fill.isNone && e.reading.length == e.words.length

/-- The array performs one entry at a time. -/
def arrayFree (s : State) (core : Nat) : Bool :=
  s.eng.tiles.all fun p => !(p.2.by_.core == core && p.2.started && !p.2.ended && decide (s.now < p.2.busyUntil))

/-- The entry that starts next on a core: the earliest placed that may. -/
def startable (s : State) (core : Nat) : Option Nat :=
  (s.eng.tiles.find? fun p => p.2.by_.core == core && !p.2.started && !p.2.ended && tileTurn s p.1 p.2
    && (isStopped s p.2 || (operandsReady p.2 && arrayFree s core))).map (·.1)

def arrayIdle (s : State) (core : Nat) : Bool := s.eng.tiles.all fun p => p.2.by_.core != core || p.2.started || p.2.ended
/-- An entry can start, or none waits. -/
def arrayReady (s : State) (core : Nat) : Bool := (startable s core).isSome || arrayIdle s core

def State.tileEnt (s : State) (id : Nat) : TileEnt := s.eng.tiles.get id
def dropTileEnt (s : State) (id : Nat) : State := { s with eng := { s.eng with tiles := Sparse.erase s.eng.tiles id } }

/-- Readers that have started on some operand words finish. -/
def endReaders (s : State) (e : TileEnt) (l : List Nat) : State :=
  l.foldl (fun u i =>
    let w := e.words.getD i 0
    readEnd u (handleKey e.by_.core (opHandle w)) (opLast w)) s

/-- The entry is complete; an ACCST stays until its instruction sees it (R402). -/
def entryDone (s : State) (id : Nat) (e : TileEnt) : State :=
  let s1 := match e.op with
    | .accst .. => setTileEnt s id { e with ended := true }
    | _ => dropTileEnt s id
  let s2 := if isMma e.op then finishOp s1 e.by_ 1 id else s1
  s2.post .arrayEntryStart e.by_.core

def dropContrib (s : State) (c : Nat) : State := { s with eng := { s.eng with contribs := Sparse.erase s.eng.contribs c } }

/-- A suppressed entry completes without changing its tile (R388). -/
def suppress (s : State) (id : Nat) (e : TileEnt) : State :=
  let s1 := endReaders s e e.reading
  let s2 := match e.op with
    | .mma .. => pmEng s1 e.by_ 0x0D 1
    | .accred .. => finishOp (dropContrib s1 e.contrib) e.by_ 4 e.contrib
    | _ => s1
  entryDone s2 id e

/-- Occupancy in ck (Table 150). -/
def occupancy : TileOp → Nat
  | .mma form .. => formCk form
  | .accz => 1
  | .accld f => ceilDiv (16384 * accSize f) 1024
  | .accst f .. => ceilDiv (16384 * accSize f) 1024
  | .accred .. => 128
/-- From the end of the occupancy to completion. -/
def afterCk : TileOp → Nat
  | .mma .. => 12
  | .accz => 0
  | .accld _ => 24
  | .accst .. => 24
  | .accred .. => 0

/-- The bytes of operand word i. -/
def operandBytes (s : State) (e : TileEnt) (i n : Nat) : List Byte :=
  scratchBytes s e.by_.core (operandAt s e.by_.core e.by_.team (e.words.getD i 0)) n

/-- What an entry does to its tile as it starts. An ACCST acts at its end. -/
def startEffect (s : State) (e : TileEnt) : State :=
  let team := e.by_.team
  match e.op with
  | .mma form ka kb sel zero dlay scales =>
    let n := formBytes form
    pmEng (setTile s team e.tile (mmaTile (getTile s team e.tile) form ka kb sel zero dlay scales
      (operandBytes s e 0 n) (operandBytes s e 1 n))) e.by_ 0x0C 1
  | .accz => zeroTile s team e.tile
  | .accld f =>
    let z := accSize f
    let bs := (operandBytes s e 0 (16384 * z)).toArray
    setTile s team e.tile ((List.range 16384).map fun i =>
      accIn f (leNat ((List.range z).map fun j => bs.getD (i * z + j) 0)))
  | .accst .. => s
  | .accred zero _ _ =>
    let vals := getTile s team e.tile
    let c := s.eng.contribs.get e.contrib
    let s2 := if c.live then
        { s with eng := { s.eng with contribs := s.eng.contribs.put e.contrib { c with vals := vals } } }.add
          .collectiveContribution e.contrib
      else s
    if zero then zeroTile s2 team e.tile else s2

def beginEntry (s : State) (id : Nat) (e : TileEnt) : State :=
  let n := occupancy e.op
  let s1 := setTileEnt (startEffect s e) id { e with started := true, busyUntil := s.now + n }
  let s2 := pmEng s1 e.by_ 0x0E n
  let s3 := e.reading.foldl (fun u i => u.after n .handleReaderFinish id i) s2
  (s3.after (n + afterCk e.op) .arrayEntryComplete id).after n .arrayEntryStart e.by_.core

/-- ARRAY_ENTRY_START: `x` the core. -/
def execArrayEntryStart (s : State) : Host.Outcome State Fault Refusal :=
  .next (match startable s s.cur.x with
    | none => s
    | some id =>
      let e := s.tileEnt id
      if isStopped s e then suppress s id e else beginEntry s id e)

/-- The rows that ACCST writes. -/
def storeRows (s : State) (e : TileEnt) (f pitch rms : Nat) (rm : Rm) (off : Nat) : State :=
  let z := accSize f
  let l := (getTile s e.by_.team e.tile).toArray
  (List.range 128).foldl (fun u r =>
    scratchPuts u e.by_.core e.by_.slot (off + r * pitch)
      ((List.range 128).flatMap fun c => leBytes z (accOut f rms rm (l.getD (r * 128 + c) 0)))) s

/-- ARRAY_ENTRY_COMPLETE. -/
def execArrayEntryComplete (s : State) : Host.Outcome State Fault Refusal :=
  .next (
    let id := s.cur.x
    let e := s.tileEnt id
    if !e.live || e.ended then s
    else match e.op with
      | .accst f pitch rms rm off zero =>
        let s1 := storeRows s e f pitch rms (rmOf rm) off
        entryDone (if zero then zeroTile s1 e.by_.team e.tile else s1) id e
      | _ => entryDone s id e)

/-- Its readers have finished. -/
def completeReady (s : State) (id : Nat) : Bool := !(s.agenda.any fun h => h.what == .handleReaderFinish && h.x == id)

/-- HANDLE_READER_FINISH: `y` the operand word. -/
def execHandleReaderFinish (s : State) : Host.Outcome State Fault Refusal :=
  .next (
    let e := s.tileEnt s.cur.x
    if e.live then endReaders s e [s.cur.y] else s)

/-! ## Issue of matrix instructions (Table 143) -/

/-- Step 2: the leader's sub-skein, and a tile that the team declares. -/
def matrixCause (s : State) (tile : Nat) : Option Nat :=
  if !((curGroup s).tgrp = 0 && (curEntry s).lanes.getLsbD 0) then some 0x1C1
  else if (curTeam s).tiles ≤ tile then some 0x1C2 else none

/-- Step 6 for some handles: another team's, then unconfigured (R150). -/
def handlesCause (s : State) (hs : List Nat) : Option Nat :=
  let l := hs.map fun h => handleCause s s.cur.core (curTeamKey s) h
  if l.contains (some 0x188) then some 0x188 else if l.contains (some 0x187) then some 0x187 else none

/-- Operand words with the bytes that each needs: their handles, then their extents (R381). -/
def operandsCause (s : State) (l : List (DWord × Nat)) : Option Nat :=
  match handlesCause s (l.map fun p => opHandle p.1) with
  | some c => some c
  | none =>
    if l.any fun p => decide ((s.handle (handleKey s.cur.core (opHandle p.1))).size < opOff p.1 + p.2) then some 0x1C4 else none

/-- A named handle whose state makes a reader wait (Table 47). -/
def readWaits (s : State) (ws : List DWord) : Option Wake :=
  (ws.find? fun w => stCode (s.handle (handleKey s.cur.core (opHandle w))).st < 2).map fun w =>
    let k := handleKey s.cur.core (opHandle w)
    .handle k (stCode (s.handle k).st)

/-- The scale registers that a Q4 form reads (Table 117). -/
def scaleRegs (ka kb : Nat) : List Nat := [56, 57] ++ (if ka = 0 then [58, 59] else []) ++ [60, 61] ++ (if kb = 0 then [62, 63] else [])
def liveLane (s : State) (l : Nat) : Bool := (curGroup s).live.getLsbD l
/-- Where a fibre's scale register lies: it counts from that fibre's own window base (R169, R372). -/
def scaleLoc (s : State) (l r : Nat) : Loc :=
  if (curEntry s).lanes.getLsbD l then locate s l r else .reg (regKey (fibKey (curGk s) l) (fibreBase s (curGk s) l + r))
def scaleWord (s : State) (l r : Nat) : Word :=
  match scaleLoc s l r with
  | .reg k => s.laneReg k
  | _ => 0
/-- Those of them that are empty, in all 64 lanes of team group 0. -/
def scaleEmpty (s : State) (ka kb : Nat) : List Nat :=
  ((List.range 64).filter (liveLane s)).flatMap fun l => (scaleRegs ka kb).flatMap fun r =>
    (locKey (scaleLoc s l r)).filter (s.isEmpty ·)
/-- Byte `sel` of v56 to v63 in 64 lanes; a lane whose fibre has ended reads 0. -/
def scaleBytes (s : State) (sel : Nat) : List Byte :=
  (List.range 8).flatMap fun i => (List.range 64).map fun l =>
    if liveLane s l then BitVec.ofNat 8 ((scaleWord s l (56 + i)).toNat / 256 ^ sel) else 0

/-- An entry takes its place. Only team group 0's leader places entries, so an ACCST that ended unseen at the same level of it
stands behind no instruction any more and is forgotten; one that a trap has interrupted stays for its reissue (R402). -/
def placeEntry (s : State) (e : TileEnt) : Nat × State :=
  let (id, s1) := s.newEng
  let s2 := { s1 with eng := { s1.eng with tiles := s1.eng.tiles.filter fun p =>
    !(p.2.by_.team == e.by_.team && p.2.ended && p.2.by_.handler == inHandler s) } }
  (id, (setTileEnt s2 id { e with live := true }).post .arrayEntryStart e.by_.core)

/-- A reader starts on every operand word. -/
def startReaders (s : State) (core : Nat) (ws : List DWord) : State :=
  ws.foldl (fun u w => readStart u (handleKey core (opHandle w))) s

/-- The array's view of an MMA word. -/
def mmaOf (form : Nat) (o : UM) (scales : List Byte) : TileOp :=
  .mma form o.ka.toNat o.kb.toNat o.s.toNat o.z o.dd scales

def formOf : Instr → Option (Nat × UM)
  | .mmaBf16 o => some (0, o)
  | .mmaFp16 o => some (1, o)
  | .mmaE4m3 o => some (2, o)
  | .mmaE5m2 o => some (3, o)
  | .mmaQ4 o => some (4, o)
  | .mmaI8 o => some (5, o)
  | .mmaI4 o => some (6, o)
  | _ => none

def mmaIssue (s : State) (form : Nat) (o : UM) (ws : List DWord) : State :=
  let b := curStarter s
  let e : TileEnt := { by_ := b, tile := o.t.toNat, words := ws, reading := List.range ws.length,
                       op := mmaOf form o (if form = 4 then scaleBytes s o.s.toNat else []) }
  let (id, s1) := placeEntry (startReaders s s.cur.core ws) e
  advance (opStart s1 (curGk s) 1 id)

/-- R399. -/
def mmaRun (s : State) (form : Nat) (o : UM) : State :=
  let ws := [rdS s o.a.toNat, rdS s o.c.toNat]
  if ws.any opBad then raise s 0x1C3
  else match operandsCause s (ws.map fun w => (w, formBytes form)) with
    | some c => raise s c
    | none =>
      let empties := if form = 4 then scaleEmpty s o.ka.toNat o.kb.toNat else []
      if !empties.isEmpty then yieldFor s (.full empties)
      else match readWaits s ws with
        | some w => yieldFor s w
        | none =>
          if 63 ≤ counter (curGroup s) 1 then yieldFor s (.counter 1 62) else onceSettled s (mmaIssue s form o ws)

/-- A matrix instruction: decode, step 2, then its registers. -/
def matrixOp (s : State) (i : Instr) (tile : Nat) (regs : List Nat) (act : State) : State :=
  uniformWord s i (match matrixCause s tile with
    | some c => raise s c
    | none => withUniform s regs act)

def mmaOp (s : State) (i : Instr) (form : Nat) (o : UM) : State :=
  matrixOp s i o.t.toNat [o.a.toNat, o.c.toNat] (mmaRun s form o)

def execMmaBf16 (o : UM) (s : State) : Host.Outcome State Fault Refusal := .next (mmaOp s (.mmaBf16 o) 0 o)
def execMmaFp16 (o : UM) (s : State) : Host.Outcome State Fault Refusal := .next (mmaOp s (.mmaFp16 o) 1 o)
def execMmaE4m3 (o : UM) (s : State) : Host.Outcome State Fault Refusal := .next (mmaOp s (.mmaE4m3 o) 2 o)
def execMmaE5m2 (o : UM) (s : State) : Host.Outcome State Fault Refusal := .next (mmaOp s (.mmaE5m2 o) 3 o)
def execMmaQ4 (o : UM) (s : State) : Host.Outcome State Fault Refusal := .next (mmaOp s (.mmaQ4 o) 4 o)
def execMmaI8 (o : UM) (s : State) : Host.Outcome State Fault Refusal := .next (mmaOp s (.mmaI8 o) 5 o)
def execMmaI4 (o : UM) (s : State) : Host.Outcome State Fault Refusal := .next (mmaOp s (.mmaI4 o) 6 o)

/-! ## ACCZ, ACCLD and ACCST (R400 to R402) -/

def placeOp (s : State) (tile : Nat) (op : TileOp) (ws : List DWord) : Nat × State :=
  placeEntry (startReaders s s.cur.core ws)
    { by_ := curStarter s, tile := tile, op := op, words := ws, reading := List.range ws.length }

def execAccz (o : UM) (s : State) : Host.Outcome State Fault Refusal :=
  .next (matrixOp s (.accz o) o.t.toNat [] (advance (placeOp s o.t.toNat .accz []).2))

def execAccld (o : UM) (s : State) : Host.Outcome State Fault Refusal :=
  .next (matrixOp s (.accld o) o.t.toNat [o.a.toNat, o.c.toNat]
    (let w := rdS s o.a.toNat
     let c := (rdS s o.c.toNat).toNat
     if opBad w || decide (10 ≤ c) then raise s 0x1C3
     else match operandsCause s [(w, 16384 * accSize c)] with
      | some k => raise s k
      | none =>
        match readWaits s [w] with
        | some k => yieldFor s k
        | none => onceSettled s (advance (placeOp s o.t.toNat (.accld c) [w]).2)))

/-- ACCST's control word (Table 153) is well formed. -/
def accstBad (c : Nat) : Bool :=
  let f := c % 16
  let rms := bits c 6 4
  let pitch := bits c 23 8
  let row := 128 * accSize f
  bits c 63 24 != 0 || bit c 7 || decide (10 ≤ f)
  || (if f = 0 ∨ f = 6 then rms != 0 else if 7 ≤ f then rms != 0 && rms != 5 else false)
  || (pitch != 0 && (decide (pitch < row) || pitch % accSize f != 0))

/-- The entry that this ACCST has placed already. -/
def placedAccst (s : State) : Option (Nat × TileEnt) :=
  s.eng.tiles.find? fun p => p.2.by_.team == curTeamKey s && p.2.by_.fpc == curPc s && p.2.by_.handler == inHandler s
    && (match p.2.op with
      | .accst .. => true
      | _ => false)

def accstPlace (s : State) (o : UM) : State :=
  let c := (rdS s o.c.toNat).toNat
  let off := (rdS s o.a.toNat).toNat
  let f := c % 16
  let z := accSize f
  let pitch := if bits c 23 8 = 0 then 128 * z else bits c 23 8
  if accstBad c then raise s 0x1C3
  else if (curTeam s).ssize < off + 127 * pitch + 128 * z then raise s 0x084
  else if off % z != 0 then raise s 0x085
  else
    let rms := bits c 6 4
    let op : TileOp := .accst f pitch rms (rmCode (accMode rms (curRm s))) ((curTeam s).sbase + off) o.z
    let (id, s1) := placeOp s o.t.toNat op []
    onceSettled s (yieldFor s1 (.tile id))

/-- ACCST yields until its entry completes. -/
def execAccst (o : UM) (s : State) : Host.Outcome State Fault Refusal :=
  .next (matrixOp s (.accst o) o.t.toNat [o.a.toNat, o.c.toNat]
    (match placedAccst s with
      | some (id, e) => if e.ended then advance (dropTileEnt s id) else yieldFor s (.tile id)
      | none => accstPlace s o))

end Sys2Proof.Machine
end

