-- ==== Sys2Proof/Machine/Copy.lean ====
section
/-! DEFINITION. Copy, wait, handle and barrier instructions (R380 to R392). -/
namespace Sys2Proof.Machine

/-! ## Starting a transfer -/

/-- A skein's transfer joins the queue of its channel, which the team owns from then on (R142); the transfer at the
head starts. -/
def joinChan (s : State) (k team id : Nat) : State :=
  let c := s.chan k
  let c1 := if c.owner.isNone then { owner := some team } else c
  let s1 := s.updChan k fun _ => { c1 with queue := c1.queue ++ [id] }
  if c1.queue.isEmpty then s1.add .transferStart id else s1

def chanCause (s : State) (k : Nat) : Option Nat :=
  match (s.chan (chanKey s.cur.core k)).owner with
  | none => none
  | some t => if t = curTeamKey s then none else some 0x184

/-- Where a transfer goes: its channel, its own handle's picker, or the pickers of a multicast, which wait for permits. -/
def launchXfer (s : State) (id : Nat) (x : Xfer) : State :=
  let own := handleKey s.cur.core x.handle
  match x.chan with
  | some k =>
    let s1 := if x.dkind = 2 then fillStart s own id else s
    joinChan s1 k (curTeamKey s) id
  | none =>
    if x.kind = .writeBack then (readStart s own).add .transferStart id
    else if x.mcast.isEmpty then (fillStart s own id).add .transferStart id
    else
      let mine := x.mcast.contains s.cur.core
      let s1 := if mine then fillStart s own id else s
      let s2 := s1.setXfer id { x with granted := if mine then [s.cur.core] else [] }
      let s3 := (x.mcast.filter (· != s.cur.core)).foldl (fun t c => t.add .pickerPermitGrant id c) s2
      (s3.add .transferStart id).after s.cfg.engineLimit .pickerPermitTimeout id

/-- A new copy operation in the CPY class (R383). -/
def startCopy (s : State) (x : Xfer) : Nat × State :=
  let (id, s1) := s.newEng
  let y := { x with live := true }
  (id, opStart (launchXfer (s1.setXfer id y) id y) (curGk s) 0 id)

/-! ## CPY (Tables 145 to 147) -/

structure CpyForm where
  kind : Nat
  dkind : Nat
  sb : Bool
  pk : Bool
  mc : Bool
  ss : Bool
  chan : Nat
  zero : Bool
  a : Nat
  b : Nat

def cpyForm (o : UX) : CpyForm :=
  { kind := o.e.toNat, dkind := o.h.toNat % 4, sb := o.h.getLsbD 2, pk := o.h.getLsbD 3, mc := o.h.getLsbD 4,
    ss := o.h.getLsbD 5, chan := o.m.toNat % 4, zero := o.m.getLsbD 2, a := o.a.toNat, b := o.c.toNat }

/-- Registers read from sa and from sb (Table 146). -/
def cpyRegsA (f : CpyForm) : Nat := [1, 5, 6, 1].getD f.kind 1
def cpyRegsB (f : CpyForm) : Nat := if f.mc then 3 else 2
def regRun (r n : Nat) : List Nat := (List.range n).map (r + ·)

/-- Coordinates c0 to c6 of s[sa+1] to s[sa+4]. -/
def cpyCoord (s : State) (a : Nat) : List Int :=
  (List.range 7).map fun i => sint 32 ((rdS s (a + 1 + i / 2)).toNat / 2 ^ (32 * (i % 2)))

def ctlLen (c : DWord) : Nat := c.toNat % 2 ^ 32
def ctlBar (c : DWord) : Nat := bits c.toNat 49 32 * 16
/-- KIND 0 and 3 use LEN. -/
def usesLen (f : CpyForm) : Bool := f.kind == 0 || f.kind == 3

/-- The die of the picker that a word names, by its address (R152). -/
def cpyDie (s : State) (f : CpyForm) : Nat :=
  if f.pk then pickerDie { by_ := { (default : Starter) with core := s.cur.core, rng := (curBank s).rng }, src := (rdS s f.a).toNat }
  else dieOf s.cur.core

def coreAbsent (s : State) (die i : Nat) : Bool :=
  decide (s.cfg.cores.getD die 0 ≤ i) || (s.cregs (die * 48 + i)).offline

/-- Step 4's 0x087. -/
def cpyValues (s : State) (f : CpyForm) : Bool :=
  let c := rdS s f.b
  let m := rdS s (f.b + 2)
  bits c.toNat 63 50 != 0 || (usesLen f && ctlLen c == 0)
  || (f.dkind == 2 && bits (rdS s (f.b + 1)).toNat 63 6 != 0)
  || (f.mc && (m == 0 || bits m.toNat 63 48 != 0 || (maskList m).any fun i => coreAbsent s (cpyDie s f) i))

/-- Step 5's 0x084: a tensor's destination is checked at its offset alone. -/
def cpyExtents (s : State) (f : CpyForm) : Bool :=
  let c := rdS s f.b
  let size := (curTeam s).ssize
  let n := if usesLen f then ctlLen c else 1
  (f.ss && decide (size < (rdS s f.a).toNat + n)) || (f.dkind == 1 && decide (size < (rdS s (f.b + 1)).toNat + n))
  || (f.sb && decide (size < ctlBar c + 16))

/-- Cores that a multicast names, on the picker's die (R153). -/
def cpyCores (s : State) (f : CpyForm) : List Nat :=
  if f.mc then (maskList (rdS s (f.b + 2))).map (cpyDie s f * 48 + ·) else []

/-- The fill that CPY starts on a handle of its own core; a multicast may name only others. -/
def fillsOwn (s : State) (f : CpyForm) : Bool := f.dkind == 2 && (!f.mc || (cpyCores s f).contains s.cur.core)
def destHandle (s : State) (f : CpyForm) : Nat := (rdS s (f.b + 1)).toNat % 64

/-- A handle that is filled, with the bytes of a linear fill: R150. -/
def fillCause (s : State) (h : Nat) (len : Option Nat) : Option Nat :=
  match handleCause s s.cur.core (curTeamKey s) h with
  | some c => some c
  | none => match len with
    | some n => if (s.handle (handleKey s.cur.core h)).size < n then some 0x187 else none
    | none => none

/-- Step 6. -/
def cpyOwners (s : State) (f : CpyForm) : Option Nat :=
  let c := rdS s f.b
  let chan := if f.pk then none else chanCause s f.chan
  match chan with
  | some k => some k
  | none =>
    if fillsOwn s f then fillCause s (destHandle s f) (if f.kind = 0 then some (ctlLen c) else none)
    else if f.kind = 3 then operandsCause s [(rdS s f.a, ctlLen c)]
    else none

/-- A fill waits unless its handle is FREE (Table 47). -/
def fillWaits (s : State) (h : Nat) : Option Wake :=
  let k := handleKey s.cur.core h
  if (s.handle k).st = .free then none else some (.handle k (stCode (s.handle k).st))

/-- Step 7. -/
def cpyWaits (s : State) (f : CpyForm) : Option Wake :=
  let h := if fillsOwn s f then fillWaits s (destHandle s f) else if f.kind = 3 then readWaits s [rdS s f.a] else none
  match h with
  | some w => some w
  | none => if 63 ≤ counter (curGroup s) 0 then some (.counter 0 62) else none

/-- The transfer that CPY starts. -/
def cpyXfer (s : State) (f : CpyForm) : Xfer :=
  let c := rdS s f.b
  let base := (curTeam s).sbase
  { by_ := curStarter s, chan := if f.pk then none else some (chanKey s.cur.core f.chan), zero := f.zero && !f.pk
    kind := (match f.kind with
      | 0 => .linear
      | 1 => .tensor
      | 2 => .unfold
      | _ => .writeBack)
    dkind := f.dkind, srcScratch := f.ss
    src := if f.kind = 3 then operandAt s s.cur.core (curTeamKey s) (rdS s f.a) else (rdS s f.a).toNat
    dst := (rdS s (f.b + 1)).toNat
    handle := if f.kind = 3 then opHandle (rdS s f.a) else if f.dkind = 2 then destHandle s f else 0
    len := if usesLen f then ctlLen c else 0
    coord := if f.kind = 1 ∨ f.kind = 2 then cpyCoord s f.a else []
    unfold := if f.kind = 2 then (rdS s (f.a + 5)).toNat else 0
    barrier := if f.sb then some (base + ctlBar c) else none
    mcast := cpyCores s f, lastUse := f.kind == 3 && opLast (rdS s f.a) }

/-- A cause of a copy at issue, with its channel or picker in AUX (Table 74). -/
def raiseCopy (s : State) (x : Xfer) (cause : Nat) : State :=
  raiseFull s cause (heldLanes s) 0 (word64 (engAux x cause)) false

/-- Steps 4 to 8 of Table 143. -/
def cpyRun (s : State) (f : CpyForm) : State :=
  if cpyValues s f then raise s 0x087
  else if f.kind == 3 && opBad (rdS s f.a) then raise s 0x1C3
  else if cpyExtents s f then raise s 0x084
  else match cpyOwners s f with
    | some c => raiseCopy s (cpyXfer s f) c
    | none => match cpyWaits s f with
      | some w => yieldFor s w
      | none => onceSettled s (advance (startCopy s (cpyXfer s f)).2)

/-- Step 3: groups of registers from sa and sb. -/
def withGroups (s : State) (ra rb : List Nat) (act : State) : State :=
  if (ra ++ rb).any (63 < ·) then raise s 0x082 else withUniform s (ra ++ rb) act

def execCpy (o : UX) (s : State) : Host.Outcome State Fault Refusal :=
  let f := cpyForm o
  .next (uniformWord s (.cpy o)
    (withGroups s (regRun f.a (cpyRegsA f)) (regRun f.b (cpyRegsB f)) (cpyRun s f)))

/-- The walk that CPYC starts. -/
def cpycXfer (s : State) (o : UX) : Xfer :=
  { by_ := curStarter s, chan := some (chanKey s.cur.core (o.m.toNat % 4)), zero := o.m.getLsbD 2, chain := true,
    boxes := featBit s 16, next := (rdS s o.a.toNat).toNat }

/-- CPYC: a chain on a channel (R385). -/
def execCpyc (o : UX) (s : State) : Host.Outcome State Fault Refusal :=
  .next (uniformOp s (.cpyc o) [o.a.toNat]
    (let x := cpycXfer s o
     match chanCause s (o.m.toNat % 4) with
      | some c => raiseCopy s x c
      | none => if 63 ≤ counter (curGroup s) 0 then yieldFor s (.counter 0 62) else onceSettled s (advance (startCopy s x).2)))

/-! ## CPYM (R386, R387) -/

/-- The follow-on MMA of a word, if it keeps the conditions of R386 on its own: its form and fields. -/
def followForm (w : Nat) : Option (Instr × Nat × UM) :=
  match rawDecode w 0 with
  | none => none
  | some i => match formOf i with
    | none => none
    | some (n, m) => if m.b || !(reservedOk i) || !(unusedOk i) then none else some (i, n, m)

/-- The follow-on's effect at issue: its place in the tile order. -/
def cpymIssue (s : State) (f : CpyForm) (form : Nat) (m : UM) (ws : List DWord) : State :=
  let h := destHandle s f
  let (x, s1) := startCopy s (cpyXfer s f)
  let others := (List.range ws.length).filter fun i => opHandle (ws.getD i 0) != h
  let s2 := startReaders s1 s.cur.core (others.map fun i => ws.getD i 0)
  let e : TileEnt := { by_ := curStarter s, tile := m.t.toNat, words := ws, reading := others, follow := true, fill := some x,
                       op := mmaOf form m (if form = 4 then scaleBytes s m.s.toNat else []) }
  let (id, s3) := placeEntry s2 e
  let s4 := s3.setXfer x { s3.xfer x with follow := some id, ftile := m.t.toNat }
  advance (opStart s4 (curGk s) 1 id)

/-- Step 7: the destination, the other handle, the scale registers and the counters. -/
def cpymWaits (s : State) (f : CpyForm) (form : Nat) (m : UM) (ws : List DWord) : Option Wake :=
  let h := destHandle s f
  match fillWaits s h with
  | some w => some w
  | none => match readWaits s (ws.filter fun w => opHandle w != h) with
    | some w => some w
    | none =>
      let e := if form = 4 then scaleEmpty s m.ka.toNat m.kb.toNat else []
      if !e.isEmpty then some (.full e)
      else if 63 ≤ counter (curGroup s) 0 then some (.counter 0 62)
      else if 63 ≤ counter (curGroup s) 1 then some (.counter 1 62)
      else none

/-- Steps 5 to 8: the channel, every handle's owner, every handle's configuration, then the operands' extents. -/
def cpymLast (s : State) (f : CpyForm) (form : Nat) (m : UM) (ws : List DWord) : State :=
  let c := rdS s f.b
  if cpyExtents s f then raise s 0x084
  else
    let chan := if f.pk then none else chanCause s f.chan
    let h := destHandle s f
    let all := [chan, handlesCause s (h :: ws.map opHandle), fillCause s h (if f.kind = 0 then some (ctlLen c) else none),
                operandsCause s (ws.map fun w => (w, formBytes form))]
    match all.filterMap id with
    | k :: _ => raiseCopy s (cpyXfer s f) k
    | [] => match cpymWaits s f form m ws with
      | some w => yieldFor s w
      | none => onceSettled s (cpymIssue s f form m ws)

/-- Step 4 for the follow-on, whose operand words lie in registers of its own. -/
def cpymRun (s : State) (f : CpyForm) : State :=
  let w := rdS s (f.b + 2)
  if cpyValues s f || bits w.toNat 63 32 != 0 then raise s 0x087
  else match followForm (w.toNat % 2 ^ 32) with
    | none => raise s 0x1C3
    | some (i, form, m) =>
      withUniform s [m.a.toNat, m.c.toNat]
        (let ws := [rdS s m.a.toNat, rdS s m.c.toNat]
         if ws.any opBad || !(ws.any fun x => opHandle x == destHandle s f) then raise s 0x1C3
         else if !(featuresPresent s i 1) then raiseDecode s 0x043 (heldLanes s)
         else cpymLast s f form m ws)

/-- The form of a CPYM as a CPY into a handle. -/
def cpymForm (o : UX) : CpyForm := { cpyForm o with dkind := 2, mc := false, ss := false }

def execCpym (o : UX) (s : State) : Host.Outcome State Fault Refusal :=
  let f := cpymForm o
  .next (uniformWord s (.cpym o)
    (if !((curGroup s).tgrp = 0 && (curEntry s).lanes.getLsbD 0) then raise s 0x1C1
     else if 63 < f.b + 2 then raise s 0x082
     else withUniform s [f.b + 2]
      (if (curTeam s).tiles ≤ bits (rdS s (f.b + 2)).toNat 22 20 then raise s 0x1C2
       else withGroups s (regRun f.a (cpyRegsA f)) (regRun f.b 3) (cpymRun s f))))

/-! ## WAITC, BUFQ and BUFSET (R389 to R391) -/

def execWaitc (o : UX) (s : State) : Host.Outcome State Fault Refusal :=
  .next (uniformOp s (.waitc o) []
    (if counter (curGroup s) o.m.toNat ≤ o.h.toNat then advance s else yieldFor s (.counter o.m.toNat o.h.toNat)))

/-- Table 149. -/
def bufqWord (h : Handle) : DWord :=
  if h.owner.isNone then 0
  else word64 (h.base / 256 * 2 ^ 32 + h.size / 256 * 2 ^ 16 + h.readers * 16 + 4 + stCode h.st)

def ownedByOther (s : State) (h : Nat) : Bool := handleCause s s.cur.core (curTeamKey s) h == some 0x188

def execBufq (o : UI) (s : State) : Host.Outcome State Fault Refusal :=
  let h := o.imm.toNat % 64
  .next (uniformOp s (.bufq o) [o.d.toNat]
    (if ownedByOther s h then raise s 0x188
     else advance (wrS s o.d.toNat (bufqWord (s.handle (handleKey s.cur.core h))))))

def handleYield (s : State) (k : Nat) : State := yieldFor s (.handle k (stCode (s.handle k).st))

def execBufsetCfg (o : UX) (s : State) : Host.Outcome State Fault Refusal :=
  let h := o.h.toNat
  .next (uniformOp s (.bufsetCfg o) [o.a.toNat, o.c.toNat]
    (let base := (rdS s o.a.toNat).toNat
     let size := (rdS s o.c.toNat).toNat
     let k := handleKey s.cur.core h
     if size < 256 ∨ 2 ^ 22 < size then raise s 0x087
     else if (curTeam s).ssize < base + size then raise s 0x084
     else if base % 256 != 0 || size % 256 != 0 then raise s 0x085
     else if ownedByOther s h then raise s 0x188
     else if (s.handle k).st != .free then handleYield s k
     else advance (s.setHandle k { owner := some (curTeamKey s), base := base, size := size })))

/-- A release of a handle that is FREE or FULL; DRAINING waits until its readers have finished. -/
def execBufsetRel (o : UX) (s : State) : Host.Outcome State Fault Refusal :=
  let h := o.h.toNat
  .next (uniformOp s (.bufsetRel o) []
    (let k := handleKey s.cur.core h
     if ownedByOther s h then raise s 0x188
     else match (s.handle k).st with
      | .free => advance (s.setHandle k {})
      | .full => advance (s.setHandle k {})
      | _ => handleYield s k))

/-! ## Stage barriers (R392) -/

/-- Steps 5's check of a barrier's 16 bytes. -/
def barrierCause (s : State) (off : Nat) : Option Nat :=
  if (curTeam s).ssize < off + 16 then some 0x084 else if off % 16 != 0 then some 0x085 else none

/-- The barrier of the team at an offset, in its core's scratchpad. -/
def barrierAt (s : State) (off : Nat) : Nat := (curTeam s).sbase + off

def curSlotNo (s : State) : Nat := bankSlot (curBank s)

/-- The object that SBINIT writes. -/
def sbInitial (v : Nat) : Nat := bits v 31 16 * 2 ^ 64 + v % 2 ^ 16 * 2 ^ 48 + v % 2 ^ 16 * 2 ^ 32

def execSbinit (o : UX) (s : State) : Host.Outcome State Fault Refusal :=
  .next (uniformOp s (.sbinit o) [o.a.toNat, o.c.toNat]
    (let v := (rdS s o.c.toNat).toNat
     let off := (rdS s o.a.toNat).toNat
     if v % 2 ^ 16 = 0 ∨ 1024 < v % 2 ^ 16 ∨ 2 ^ 32 ≤ v then raise s 0x087
     else match barrierCause s off with
      | some c => raise s c
      | none =>
        let at_ := barrierAt s off
        let s1 := scratchPuts s s.cur.core (curSlotNo s) at_ (leBytes 16 (sbInitial v))
        advance (if s.eng.dogs.get (dogKey s.cur.core at_) = 0 then s1 else dogStart s1 s.cur.core at_)))

/-- One announcement: an overflow sets ERR to 2 and traps (R155). -/
def execSbexpect (o : UX) (s : State) : Host.Outcome State Fault Refusal :=
  .next (uniformOp s (.sbexpect o) [o.a.toNat, o.c.toNat]
    (let n := (rdS s o.c.toNat).toNat
     let off := (rdS s o.a.toNat).toNat
     if n = 0 ∨ 2 ^ 31 ≤ n then raise s 0x087
     else match barrierCause s off with
      | some c => raise s c
      | none =>
        let at_ := barrierAt s off
        let up := sbTx (sbWord s s.cur.core at_) + n
        if (2 ^ 31 : Int) ≤ up then
          raise (sbUpdate s s.cur.core (curSlotNo s) at_ fun w => sbField w 106 105 2).2 0x182
        else
          let (under, s1) := sbUpdate s s.cur.core (curSlotNo s) at_ fun w => sbField w 31 0 (ofIntN 32 up)
          if under then raise s1 0x182 else advance s1))

/-- Arrivals one after another, each an update of its own. -/
def sbArrives (s : State) (core slot off : Nat) : Nat → State
  | 0 => s
  | n + 1 => sbArrives (sbUpdate s core slot off fun w => if sbArr w = 0 then w else sbArrive w).2 core slot off n

def execSbarrive (o : UX) (s : State) : Host.Outcome State Fault Refusal :=
  .next (uniformOp s (.sbarrive o) [o.a.toNat]
    (let off := (rdS s o.a.toNat).toNat
     match barrierCause s off with
      | some c => raise s c
      | none =>
        let at_ := barrierAt s off
        if sbErr s s.cur.core at_ != 0 then raise s 0x183
        else if !(relDone s (curGk s) (actLanes s)) then s
        else advance (sbArrives s s.cur.core (curSlotNo s) at_ (if o.e = 1 then 1 else (maskList (actLanes s)).length))))

/-- What a wait on a barrier in error raises: 0x181 when the watchdog ended it while this entry was blocked, with
what was still to come (R158, Table 74). -/
def sbError (s : State) (off : Nat) : State :=
  let at_ := barrierAt s off
  let w := sbWord s s.cur.core at_
  let blocked := match (curEntry s).wake with
    | .barrier b _ => b == at_
    | _ => false
  if blocked && sbErr s s.cur.core at_ == 1 then
    raiseFull s 0x181 (heldLanes s) (word64 off) (word64 (w % 2 ^ 32 * 2 ^ 32 + sbArr w)) false
  else raise s 0x183

/-- It returns once the earlier reads have, since it acquires (R126, R140). -/
def execSbwait (o : UX) (s : State) : Host.Outcome State Fault Refusal :=
  .next (uniformOp s (.sbwait o) [o.a.toNat]
    (let off := (rdS s o.a.toNat).toNat
     let p := o.m.toNat % 2
     match barrierCause s off with
      | some c => raise s c
      | none =>
        let at_ := barrierAt s off
        if sbErr s s.cur.core at_ != 0 then sbError s off
        else if sbPhase s s.cur.core at_ != p then (if acquireDone s (curGk s) (heldLanes s) then advance s else s)
        else
          let s1 := pmCur s 0x12 1
          let s2 := if sbWaited s s.cur.core at_ then s1 else dogStart s1 s.cur.core at_
          yieldFor s2 (.barrier at_ p)))

end Sys2Proof.Machine
end

