-- ==== Sys2Proof/Machine/MemEvents.lean ====
section
/-! DEFINITION. Requests on their way to memory and back (R46, R49, R54, R57 to R61, R87 to R92, R130,
R136 to R139, R343, R348, R462): the near slice, the home slice, held requests, collapses, clocked writes,
remote reads and the return to the lane. Unless said otherwise a happening's `x` is its request. -/
namespace Sys2Proof.Machine

def findReq (s : State) (id : Nat) : Option Req := (s.mm.reqs.find? fun p => p.1 == id).map (·.2)
def findAcc (s : State) (id : Nat) : Option Access := (s.mm.accs.find? fun p => p.1 == id).map (·.2)
/-- A request is over. Where it was a write, loads that its core sent out meanwhile may have been served before it, and fill no
line (R76, R132). -/
def dropReq (s : State) (id : Nat) : State :=
  let s1 := { s with mm := { s.mm with reqs := Sparse.erase s.mm.reqs id } }
  match findReq s id with
  | some r => if isWriteKind r.kind then dropLineFills s1 r.core r.slot (r.ia / 128) else s1
  | none => s1
def dropAcc (s : State) (id : Nat) : State := { s with mm := { s.mm with accs := Sparse.erase s.mm.accs id } }

/-! ## A lane's answer (R54, R343, R462) -/

inductive UnitRes where
  | data (off v : Nat)
  | failed (cause : Nat) (addr : DWord)
  | notres (event : DWord)
  deriving DecidableEq, Repr, Inhabited

def capIa (a : Access) (lane : Nat) : Nat :=
  match a.cap.lanes.find? fun c => c.lane == lane with
  | some c => c.ia
  | none => 0

def addUnit (a : Access) (lane : Nat) (r : UnitRes) : Access :=
  let a1 := { a with todo := a.todo.upd lane fun n => n - 1 }
  match r with
  | .data off v => { a1 with got := a1.got.upd lane fun g => g + v * 256 ^ off }
  | .failed c ad =>
    if a1.failed.any (fun f => f.1 == lane) then a1 else { a1 with failed := a1.failed ++ [(lane, c, ad)] }
  | .notres e =>
    if a1.notres.getLsbD lane then a1
    else { a1 with notres := a1.notres ||| word64 (2 ^ lane), events := a1.events ++ [(lane, e)] }

/-- The registers that hold n bytes read, sign-extended or not (R343, R360). -/
def laneWords (c : Capture) (v : Nat) : Nat → List Word
  | 0 => []
  | 1 => [BitVec.ofNat 32 (if c.signed then sext (8 * c.n) 32 v else v)]
  | k + 2 => BitVec.ofNat 32 v :: laneWords c (v / 2 ^ 32) (k + 1)

/-- The access is still outstanding into a register: its return was not cancelled (R239). -/
def outTo (s : State) (fk id i : Nat) : Bool := decide (i < 512) && s.outOf (regKey fk i) == id

/-- Number 60 of a handler's access: it sets p1 to p7 of the level below, which are in the shadow while a handler of depth 1 runs
(R279, R281). -/
def writePreds (s : State) (fk i : Nat) (v : Word) : State :=
  if i = 512 then s
  else if i = 513 && (s.group (fk / 64)).recv.isSome then
    { s with lane := { s.lane with predSh := s.lane.predSh.put fk (BitVec.ofNat 8 v.toNat &&& 0xFE) } }
  else s.setPreds fk (BitVec.ofNat 8 v.toNat)

def writeDst (s : State) (fk id : Nat) : List Nat → List Word → State
  | i :: is, v :: vs =>
    writeDst (if outTo s fk id i then (s.setLaneReg (regKey fk i) v).setOut (regKey fk i) 0
      else if 512 ≤ i then writePreds s fk i v else s) fk id is vs
  | _, _ => s

/-- No access is outstanding into the registers any more; they stay empty (R462, R56). -/
def clearDst (s : State) (fk id : Nat) : List Nat → State
  | [] => s
  | i :: is => clearDst (if outTo s fk id i then s.setOut (regKey fk i) 0 else s) fk id is

def setSout (s : State) (g r v : Nat) : State :=
  { s with uni := { s.uni with sout := s.uni.sout.put (g * 64 + r) v } }

def isLockKind : AccKind → Bool
  | .lock _ => true
  | _ => false

def isAtomicKind : AccKind → Bool
  | .atomic _ => true
  | _ => false

/-- A scalar result: SLD extends as its size says, SATOM by zeros (R360, R361). -/
def uniformValue (c : Capture) (v : Nat) : DWord :=
  word64 (if c.signed then sext (8 * c.n) 64 v else v)

/-- A lane has all its answers. -/
def laneDone (s : State) (id : Nat) (a : Access) (lane : Nat) : State :=
  let fk := fibKey a.group lane
  let failed := a.failed.any fun f => f.1 == lane
  let absent := a.notres.getLsbD lane
  let v := a.got.get lane
  match a.cap.dst with
  | .none => s
  | .lanes regs =>
    if failed || absent then clearDst s fk id regs else writeDst s fk id regs (laneWords a.cap v regs.length)
  | .uniform r =>
    if absent || s.uni.sout.get (a.group * 64 + r) != id then s
    else
      let s1 := setSout s a.group r 0
      if failed then s1 else s1.setSregOf a.group r (uniformValue a.cap v)

/-- The lowest-numbered of some failing lanes. -/
def lowestFail (l : List (Nat × Nat × DWord)) : Option (Nat × Nat × DWord) :=
  l.foldl (fun b f => match b with
    | none => some f
    | some g => if f.1 < g.1 then some f else b) none

def accTrap (a : Access) (cause : Nat) (addr mask aux : DWord) (ia : Bool) (cap : Option Capture) : TrapEntry :=
  { cause := cause, iaBit := ia, cap := cap, fpc := a.fpc, rpc := a.rpc, addr := addr, mask := mask, aux := aux,
    issue := a.issue, order := a.order, priv := a.priv, fte := a.fte }

/-- A memory-side trap of a repetition freezes REPST at the next one: the entry issues none before the delivery, and after the
last repetition NEXT is LAST + 1 (R255). -/
def freezeRep (s : State) (a : Access) : State :=
  if !(repAct a.repst) then s
  else (List.range 8).foldl (fun t j =>
    let k := entKey (coreOfGroup a.group) (a.group % 32 * 8 + j)
    let e := t.ent k
    if e.st == .free || e.lanes &&& a.issue == 0 then t
    else if repAct e.repst then
      (freeSlots t (coreOfGroup a.group) (a.group % 32 * 8 + j)).updEnt k fun x => { x with trapped := true, boundary := true }
    else if e.repst == repAdvance a.repst then t.updEnt k fun x => { x with repst := repSetNext x.repst (repLast x.repst + 1) }
    else t) s

/-- A memory-side trap: in a handler it kills the job (R228). -/
def raiseAcc (s : State) (a : Access) (t : TrapEntry) : State :=
  if a.handler then killTeam s ((s.group a.group).team.getD 0) t.cause else enqueueTrap (freezeRep s a) a.group t

/-- Every lane has been answered: the traps of R462 and R54 enter the queue, then LDL falls (R161). -/
def finishAccess (s : State) (id : Nat) (a : Access) : State :=
  -- Failing lanes of KVX and KVXR are captured for ERET (R353).
  let again := a.cap.lanes.filter fun c => a.failed.any fun f => f.1 == c.lane
  let s1 := match lowestFail a.failed with
    | none => s
    | some (_, c, ad) =>
      raiseAcc s a (accTrap a c ad (maskOf (a.failed.map (·.1))) 0 a.iaFail
        (if isKvx a.cap.kind then some { a.cap with lanes := again } else none))
  let absent := a.notres &&& ~~~(maskOf (a.failed.map (·.1))) &&& ~~~a.cancelled
  let s2 := match lowest absent with
    | none => s1
    | some l =>
      let ev := match a.events.find? fun e => e.1 == l with
        | some e => e.2
        | none => 0
      let eventOf (l : Nat) : DWord := (a.events.find? fun e => e.1 == l).elim 0 fun e => e.2
      let cap := { a.cap with
        acq := a.acq, drops := a.drops
        lanes := (a.cap.lanes.filter fun c => absent.getLsbD c.lane).map fun c => { c with event := eventOf c.lane } }
      raiseAcc s1 a (accTrap a 0x110 (word64 (capIa a l)) absent ev true (some cap))
  let s3 := if a.drops then l1DropCore (dropAcc s2 id) a.core else dropAcc s2 id
  if a.counted then opDone s3 a.group 2 id else s3

/-- One event of a lane is answered. -/
def answerUnit (s : State) (acc lane : Nat) (r : UnitRes) : State :=
  match findAcc s acc with
  | none => s
  | some a =>
    let a1 := addUnit a lane r
    let s1 := putAcc s acc a1
    let s2 := if a1.todo.get lane = 0 then laneDone s1 acc a1 lane else s1
    if a1.todo.isEmpty then finishAccess s2 acc a1 else s2

/-- A store that is not performed leaves no bytes in the L1, where its issue put them: the core's line is dropped (R76, R132). -/
def l1Undo (s : State) (r : Req) : State :=
  match r.kind, r.src with
  | .store, .lane _ _ =>
    if r.scratch then s else l1Put (l1Put s (l1Key r.core r.slot r.ia) []) (l1Key r.core r.slot (r.ia + r.len - 1)) []
  | _, _ => s

/-- A request has failed at a slice. A prefetch is dropped; an engine's write leaves its place, and the engine meets the cause as
it makes the write anew. Where it is a commit, its version line is discarded and the job ends as it would have (the model's
choice, log entry 17). -/
def failReq (s : State) (id : Nat) (r : Req) (cause : Nat) : State :=
  let s1 := l1Undo (dropReq s id) r
  match r.src with
  | .lane acc lane =>
    let ia := match findAcc s acc with
      | some a => capIa a lane
      | none => 0
    answerUnit s1 acc lane (.failed cause (word64 ia))
  | .commit j => setVer s1 (verKey j (r.ia / 256)) default
  | _ => s1

/-- A write or prefetch needs no value back. -/
def endReq (s : State) (id : Nat) (r : Req) : State :=
  let s1 := dropReq s id
  match r.src with
  | .lane acc lane => answerUnit s1 acc lane (.data 0 0)
  | .engine _ => putReq s1 id { r with stage := .done }
  | _ => s1

/-! ## Logging of a replay pass (R419, R447) -/

/-- A write that the device makes at a page's home for a session: made, not to be made now, or not to be made at all. -/
inductive PutRes where
  | ok (s : State)
  | wait (s : State)
  | fail

/-- Bytes of one run within a page. A page that is duplicated starts its collapse (R58); one that is not resident or is being
migrated is waited for (R57). -/
def homePut (s : State) (se : Session) (ia : Nat) (bs : List Byte) : PutRes :=
  match homeXl s ia .write se.keyslot true with
  | (.serve _ _ _, s1) => .ok (devPut s1 ia bs)
  | (.collapse epa dm page _, s1) => .ok (devPut (startCollapse s1 (homeDie ia) epa dm page).2 ia bs)
  | (.notResident page sz g ridx, s1) =>
    (match notResident s1 ia page sz g ridx se.slot (dieOf se.core) none with
      | (.fault _, _) => .fail
      | (_, s2) => .wait s2)
  | (.heldM, s1) => .wait s1
  | _ => .fail

def sessPuts (se : Session) : List (Nat × Nat) → List Byte → State → PutRes
  | [], _, s => .ok s
  | (ia, n) :: t, bs, s =>
    match homePut s se ia (bs.take n) with
    | .ok s1 => sessPuts se t (bs.drop n) s1
    | r => r

/-- The intermediate addresses of a session's bytes; none where a range check fails. -/
def sessRuns (se : Session) (va n : Nat) (perm : Perm) : Option (List (Nat × Nat)) :=
  match runCheck se.bankRng perm (runParts (n / 65536 + 2) va n) with
  | .ok l => some l
  | .error _ => none

/-- Bytes written at a virtual address of a session. -/
def sessPut (s : State) (se : Session) (va : Nat) (bs : List Byte) : PutRes :=
  match sessRuns se va bs.length .store with
  | some l => sessPuts se l bs s
  | none => .fail

/-- Before a pass's first write to a line, its address and committed value enter the log. With the log full the write goes
unlogged and the session will end; so it does where the log's own bytes cannot be written (the model's choice, log entry 108). -/
def logLine (s : State) (job : Option Nat) (line : Nat) : State :=
  match job with
  | none => s
  | some j =>
    let d := replayDie s j
    let se := s.task.sessions.get d
    if !(s.job j).replay || !se.live || se.logged.contains line then s
    else if se.logcap ≤ se.logged.length then setSession s d { se with overflow := true }
    else match sessPut s se (se.log + 264 * se.logged.length) (leBytes 8 (line * 256) ++ devBytes s (line * 256) 256) with
      | .ok s1 => setSession s1 d { se with logged := se.logged ++ [line] }
      | _ => setSession s d { se with overflow := true }

/-! ## Performing at a slice -/

/-- SC hits and misses of data reads (R445): hit on the reader's die, hit on another, miss. -/
def countSc (s : State) (r : Req) (d : Nat) (hit : Bool) : State :=
  match r.src with
  | .lane acc lane =>
    match findAcc s acc with
    | none => s
    | some a =>
    if a.probed.getLsbD lane then s
    else
      let s1 := { s with mm := { s.mm with accs := s.mm.accs.put acc { a with probed := a.probed ||| BitVec.ofNat 64 (2 ^ lane) } } }
      pmCount s1 r.core r.slot r.job r.fte (if !hit then 0x0A else if d = dieOf r.core then 0x08 else 0x09) 1
  | _ => s

/-- The line of `sz` bytes at an address, as the slice that serves the request holds it; none that holds bytes of the job's own
version (R75, R76). -/
def lineFill (s : State) (r : Req) (d pa sz base : Nat) (key : Option Nat) : List (Nat × List Byte) :=
  if ownVersion s r.job base sz then []
  else [(base, (List.range sz).map fun i => scByte s d (r.ia / 256) (pa / 256) key (base % 256 + i))]

/-- The lines that the issuing core's cache takes: the load's own, and for a prefetch those of the whole 256-byte line (R346). -/
def fillLines (s : State) (r : Req) (d pa : Nat) (key : Option Nat) : List (Nat × List Byte) :=
  let all (sz : Nat) := (List.range (256 / sz)).flatMap fun i => lineFill s r d pa sz (r.ia / 256 * 256 + i * sz) key
  match r.kind with
  | .load => if r.nol1 then [] else lineFill s r d pa 128 (r.ia / 128 * 128) key
  | .const => lineFill s r d pa 64 (r.ia / 64 * 64) key
  | .pref 1 => if r.nol1 then [] else all 128
  | .pref 2 => all 64
  | _ => []

/-- Lines served for a request enter the caches of its core, unless the job has written there since, or a store of the core is on
its way there (R75, R76, R132). -/
def cachePut (s : State) (r : Req) : State :=
  if r.noFill then s
  else r.fill.foldl (fun t p =>
    if ownVersion t r.job p.1 p.2.length then t
    else match r.kind with
      | .const => kcPut t (kcKey r.core r.bank p.1) p.2
      | .pref 2 => kcPut t (kcKey r.core r.bank p.1) p.2
      | _ => if lineBusy t r.core r.slot (p.1 / 128) then t else l1Put t (l1Key r.core r.slot p.1) p.2) s

/-! ### Line locks (R82 to R85) -/

def lockCount (s : State) (d slot : Nat) : Nat := (s.die d).locks.get slot
def setLockCount (s : State) (d slot n : Nat) : State := s.updDie d fun x => { x with locks := x.locks.put slot n }
/-- A lock ends; its owner's count falls. -/
def unlockLine (s : State) (k : Nat) : State :=
  match (s.scLine k).lock with
  | none => s
  | some o => setLockCount (s.setScLine k { s.scLine k with lock := none }) (k / 2 ^ 44) o (lockCount s (k / 2 ^ 44) o - 1)

/-- The status of LLOCK at its home, in the order of Table 28; the request carries LOCKQ. -/
def lockStatus (s : State) (r : Req) (d pa : Nat) : Nat :=
  let line := r.ia / 256
  let full := decide (ways s d - 2 ≤ ((linesOfSet s d line).filter fun p => p.2.lock.isSome).length)
  match regionOf s pa with
  | .direct _ => 3
  | _ =>
    if (s.scLine (scKey d line)).lock.isSome then 1
    else if r.data ≤ lockCount s d r.slot || full then 2 else 0

/-- LLOCK waits while the ways of its set hold version lines that cannot be spilled (R90). -/
def lockWaits (s : State) (r : Req) (d pa : Nat) : Bool :=
  r.kind == .lock false && lockStatus s r d pa == 0
    && !(wayRoom s d (r.ia / 256) || (s.scLine (scKey d (r.ia / 256))).held)

def lockAt (s : State) (r : Req) (d pa : Nat) (key : Option Nat) : Req × State :=
  let st := lockStatus s r d pa
  let k := scKey d (r.ia / 256)
  if st = 0 then
    let (s0, miss) := scTouch s d (r.ia / 256) (pa / 256) key
    let s1 := countMiss s0 d r.ia miss
    ({ r with data := 0 }, setLockCount (s1.setScLine k { s1.scLine k with lock := some r.slot }) d r.slot (lockCount s d r.slot + 1))
  else ({ r with data := st }, s)

/-- LFREE at the home (R85). -/
def lfreeAt (s : State) (r : Req) (d : Nat) : State :=
  let k := scKey d (r.ia / 256)
  if (s.scLine k).lock == some r.slot then unlockLine s k else s

/-- A read is served at die d: its value and, for a load or a constant load, the line to fill. -/
def readAt (s : State) (r : Req) (d pa : Nat) (key : Option Nat) : Req × State :=
  match r.kind with
  | .lock false => lockAt s r d pa key
  | .lock true => (r, lfreeAt s r d)
  | _ =>
  let hit := (s.scLine (scKey d (r.ia / 256))).held
  let s0 := countSc s r d hit
  let (bs, s1) := serveRead s0 d r.ia pa key r.job r.len
  ({ r with data := leNat bs, fill := fillLines s1 r d pa key, clock := lineClock s1 d (r.ia / 256) }, s1)

/-- An atomic at its home (R92, R348): the job's version line is committed first; then one event reads and
writes. -/
def atomicAt (s : State) (r : Req) (op pa : Nat) (key : Option Nat) : Req × State :=
  let d := homeDie r.ia
  let line := r.ia / 256
  let hit := (s.scLine (scKey d line)).held
  let s0 := countSc s r d hit
  let own := match r.job with
    | some j => (s.mm.vers.get (verKey j line)).held
    | none => false
  let s1 := if own then verCommitAt (logLine s0 r.job line) d (r.job.getD 0) line pa key else s0
  let (bs, s2) := serveRead s1 d r.ia pa key none r.len
  let old := leNat bs
  let s3 := match atomicValue op r.len old r.data r.nv with
    | none => s2
    | some v => serveWrite (logLine s2 r.job line) d r.ia pa key (leBytes r.len v)
  let s4 := match r.src with
    | .lane _ _ => pmCount s3 r.core r.slot r.job r.fte 0x10 1
    | _ => s3
  ({ r with data := old, clock := lineClock s4 d line }, s4)

/-- A write of any kind is performed at its home; an atomic answers with the old value. -/
def performAt (s : State) (r : Req) (pa : Nat) (key : Option Nat) : Req × State :=
  match r.kind with
  | .atomic op => atomicAt s r op pa key
  | .commit j => (r, verCommitAt (logLine s (some j) (r.ia / 256)) (homeDie r.ia) j (r.ia / 256) pa key)
  | _ => (r, homeWrite s r.job r.ia pa key (leBytes r.len r.data))

/-- The answer sets out for the issuing core: a remote one waits for the reader's clock (R139). -/
def respond (s : State) (id : Nat) (r : Req) : State :=
  let s1 := putReq s id { r with stage := .response }
  if homeDie r.ia = r.die then s1.add .loadReturn id else s1.add .readResponseDeliver id

/-- A performed write: an atomic of a lane returns its old value, anything else is done. -/
def afterWrite (s : State) (id : Nat) (r : Req) : State :=
  match r.kind, r.src with
  | .atomic _, .lane _ _ => respond s id r
  | _, _ => endReq s id r

/-- Later accesses of the fibre to the unit are made by a die that has seen a write numbered after they issued (R124, R139). -/
def raiseClocks (s : State) (id : Nat) (r : Req) (v : List Nat) : State :=
  { s with mm := { s.mm with reqs := s.mm.reqs.map fun p =>
      if id < p.1 && sameUnit r p.2 then (p.1, { p.2 with vc := vcMax p.2.vc v }) else p } }

/-- A clocked write takes its number and sets out (R137, R138). Performed on its own die, it is performed at
once and the other dies get notices; otherwise it travels to its home as data. A store is complete for its
agent when it is numbered, and a job's store when it has entered its version line (R140). -/
def numberWrite (s : State) (id : Nat) (r : Req) (pa : Nat) (key : Option Nat) : State :=
  let (v, s0) := takeNumber s r.die
  let s1 := raiseClocks s0 id r v
  let h := homeDie r.ia
  if h = r.die then
    let (r1, s2) := performAt (sendItems s1 r.die h v none) r pa key
    afterWrite (lineClockUp s2 h (r.ia / 256) v) id r1
  else
    let s2 := sendItems (if r.kind == .store then takeRoom s1 r.job r.ia else s1) r.die h v (some id)
    let r1 := { r with stage := .clocked, clock := v, pa := pa, key := key }
    match r.kind, r.job, r.src with
    | .store, none, .lane acc lane => answerUnit (putReq s2 id { r1 with src := .device }) acc lane (.data 0 0)
    | _, _, _ => putReq s2 id r1

/-- Whether this write stops on the job's quota or the spill area (R89, R90). -/
def stopOf (s : State) (r : Req) : VerStop :=
  match r.kind, r.job with
  | .store, some j => verStop s (homeDie r.ia) j (r.ia / 256)
  | _, _ => .ok

/-- A write that has been translated at its home: into the device-register region, or to memory, where a write
from another die or to a page that was HOME is clocked. -/
def writeHome (s : State) (id : Nat) (r : Req) (pa : Nat) (key : Option Nat) : State :=
  match stopOf s r with
  | .quota => failReq s id r 0x141
  | .noSpace =>
    let t := s.now + s.cfg.engineLimit
    let s1 := (putReq s id { r with stage := .heldSpill t, pa := pa, key := key }).post .heldRequestRetry id
    if s1.agenda.any (fun h => h.what == .versionSpillTimeout && h.x == id) then s1
    else s1.after s.cfg.engineLimit .versionSpillTimeout id
  | .ok =>
    if homeDie r.ia = r.die && !r.clkd then
      let (r1, s1) := performAt s r pa key
      afterWrite (ownClock s1 (homeDie r.ia) r.ia) id r1
    else if numberFull s r.die || numberHeld s r.die id r then
      (putReq s id { r with stage := .toNumber, pa := pa, key := key }).post .heldRequestRetry id
    else numberWrite s id r pa key

/-- The bytes that a store's unit writes to the device registers: with the unit after it, where both lie in one register, as
one write (R451, log entry 16). None: the unit before it wrote them. -/
def regStore (s : State) (r : Req) (pa : Nat) : Option (List Byte) :=
  if pa % 8 = 4 && r.len == 4 && decide (4 ≤ r.off) then none
  else
    let own := leBytes r.len r.data
    if pa % 8 = 0 && r.len == 4 then
      match s.mm.reqs.find? fun p => p.2.src == r.src && p.2.kind == .store && p.2.off == r.off + 4 with
      | some p => some (own ++ leBytes p.2.len p.2.data)
      | none => some own
    else some own

/-- The device-register region (R451). -/
def deviceHome (s : State) (id : Nat) (r : Req) (pa : Nat) : State :=
  if !r.priv then failReq s id r 0x381
  else match r.kind with
    | .atomic _ => failReq s id r 0x117
    | .store =>
      endReq (match regStore s r pa with
        | some bs => regPut s pa bs
        | none => s) id r
    | .pref _ => endReq s id r
    | _ => respond s id { r with data := leNat (regBytes s pa r.len) }

/-- A request served on die d at a physical address. A read of another die's agent waits for its clock first. LLOCK of a
device-register page answers 4, for which Table 28 names no status (the model's choice, log entry 89). -/
def serveReq (s : State) (id : Nat) (r : Req) (d pa : Nat) (key : Option Nat) : State :=
  match regionOf s pa with
  | .device =>
    if isLockKind r.kind then respond s id { r with data := 4 }
    else if r.priv && d != r.die && !(isWriteKind r.kind) then
      (putReq s id { r with stage := .awaitClock, pa := pa, key := key }).add .remoteReadServe id
    else deviceHome s id r pa
  | _ =>
    match r.kind with
    | .store => writeHome s id r pa key
    | .atomic _ =>
      match poisonCause s d (r.ia / 256) (pa / 256) r.job with
      | some c => failReq s id r c
      | none => writeHome s id r pa key
    | .commit _ => writeHome s id r pa key
    | _ =>
      match (if isLockKind r.kind then none else poisonCause s d (r.ia / 256) (pa / 256) r.job) with
      | some c => failReq s id r c
      | none =>
        if lockWaits s r d pa then
          (putReq s id { r with stage := .heldTable }).post .heldRequestRetry id
        else if d = r.die then
          let (r1, s1) := readAt s r d pa key
          (putReq s1 id { r1 with stage := .response }).add .loadReturn id
        else (putReq s id { r with stage := .awaitClock, pa := pa, key := key }).add .remoteReadServe id

/-- LLOCK on a line that cannot be reached answers 4; LFREE has no effect (R25, R82). So it does where the frame or the walk is
unbacked (the model's choice, log entry 89). -/
def lockMiss (s : State) (id : Nat) (r : Req) : State := respond s id { r with data := 4 }

def needOf : AccKind → Need
  | .store => .write
  | .commit _ => .write
  | .atomic _ => .atomic
  | _ => .read

/-- A not-resident page: the request is answered, held or failed (R49); a prefetch is dropped (R346), a commit waits for the
page, and an engine's write leaves its place, so that the engine itself meets the page (R57). -/
def absentHome (s : State) (id : Nat) (r : Req) (page sz : Nat) (g : Bool) (ridx : Nat) : State :=
  match r.kind, r.src with
  | .pref _, _ => dropReq s id
  | _, .engine _ => dropReq s id
  | _, _ =>
    match notResident s r.ia page sz g ridx r.slot r.die r.job with
    | (.event n, s1) =>
      (match r.src with
        | .commit _ => (putReq s1 id { r with stage := .heldResidency n 0 }).post .heldRequestRetry id
        | _ => (putReq s1 id { r with stage := .response }).add .notResidentResponse id 0 0 n)
    | (.hold, s1) => (putReq s1 id { r with stage := .heldTable }).post .heldRequestRetry id
    | (.fault c, s1) => failReq s1 id r c

/-- A request that waited past its key check is not checked again (R34, R37): it is served through its page's entry. -/
def pastKey (s : State) (r : Req) (x : Xl) : Xl :=
  match x, r.key with
  | .fault c, some k =>
    if c = 0x382 ∨ c = 0x383 then
      match walk s (homeDie r.ia) r.ia with
      | .leaf _ _ w0 w1 =>
        if pteKey w0 != k then x
        else if pteP w0 then servePa s (homeDie r.ia) (pagePa w0 r.ia) (some k)
        else .notResident (pageBase w0 r.ia) (pteSz w0) (pteG w0) (pteRidx w1)
      | _ => x
    else x
  | _, _ => x

/-- It keeps the place of an engine's writes in the hold queue, and writes nothing itself. -/
def placeOnly (r : Req) : Bool :=
  (match r.src with
    | .engine _ => true
    | _ => false) && r.len == 0

/-- The home branch of R46 for a request. A read that reaches the home during a collapse waits for its end (R58). -/
def homeStep (s : State) (id : Nat) (r : Req) : State :=
  let priv := r.priv || (match r.src with
    | .commit _ => true
    | _ => false)
  let (x, s1) := homeXl s r.ia (needOf r.kind) r.keyslot priv
  match pastKey s1 r x with
  | .serve d pa key =>
    if collapsing s1 r.ia then holdReq s1 id { r with key := key } (.heldCollapse (homePage s1 r.ia))
    else if placeOnly r then endReq s1 id r
    else serveReq s1 id r d pa key
  | .collapse epa dm page key =>
    holdReq (startCollapse s1 (homeDie r.ia) epa dm page).2 id { r with clkd := true, key := some key } (.heldCollapse page)
  | y =>
    if isLockKind r.kind then lockMiss s1 id r
    else match y with
    | .fault c => failReq s1 id r c
    | .forward => failReq s1 id r 0x113
    | .notResident page sz g ridx => absentHome s1 id r page sz g ridx
    | .heldM => holdReq s1 id r .heldM
    | .serve _ _ _ => s1
    | .collapse _ _ _ _ => s1

/-! ## The happenings -/

/-- An event in the scratchpad of the core (R73, R121). -/
def scratchStep (s : State) (id : Nat) (r : Req) : State :=
  match r.kind with
  | .store => endReq (scratchPuts s r.core r.slot r.ia (leBytes r.len r.data)) id r
  | _ => (putReq s id { r with stage := .response, data := leNat (scratchBytes s r.core r.ia r.len) }).add .loadReturn id

/-- R46, near slice: served from a local copy, failed, or forwarded to the home. A lane that ERET performs, whose event has been
faulted meanwhile, fails (R50, R65). -/
def nearStep (s : State) (id : Nat) (r : Req) : State :=
  if r.scratch then scratchStep s id r
  else if r.event != 0 && holdState s (some r.event) == .faulted then failReq s id r (faultedCause s r.event)
  else if r.die = homeDie r.ia then homeStep s id { r with stage := .home }
  else
    if isLockKind r.kind then (putReq s id { r with stage := .home }).add .requestAtHomeSlice id
    else match nearXl s r.die r.ia (needOf r.kind) r.keyslot r.priv with
    | (.serve d pa key, s1) => serveReq s1 id r d pa key
    | (.fault c, s1) => failReq s1 id r c
    | (_, s1) => (putReq s1 id { r with stage := .home }).add .requestAtHomeSlice id

def execRequestAtNearSlice (s : State) : Host.Outcome State Fault Refusal :=
  .next (match findReq s s.cur.x with
    | some r => if r.stage = .near then nearStep s s.cur.x r else s
    | none => s)

def execRequestAtHomeSlice (s : State) : Host.Outcome State Fault Refusal :=
  .next (match findReq s s.cur.x with
    | some r => if r.stage = .home then homeStep s s.cur.x r else s
    | none => s)

def isHeld : Stage → Bool
  | .stalled => true
  | .heldM => true
  | .heldCollapse _ => true
  | .heldTable => true
  | .heldResidency _ _ => true
  | .heldSpill _ => true
  | .toNumber => true
  | _ => false

/-- A held request goes on: past translation towards its number or its version line, failed with its residency event (R50, R65), or
translated afresh (R49, R61). -/
def retryHeld (s : State) (id : Nat) (r : Req) : State :=
  match r.stage with
  | .heldSpill _ => writeHome s id r r.pa r.key
  | .toNumber => writeHome s id r r.pa r.key
  | .heldResidency n _ =>
    if holdState s (some n) == .faulted then failReq s id r (faultedCause s n) else homeStep s id { r with stage := .home }
  | _ => homeStep s id { r with stage := .home }

def execHeldRequestRetry (s : State) : Host.Outcome State Fault Refusal :=
  .next (match findReq s s.cur.x with
    | some r => if isHeld r.stage then retryHeld s s.cur.x r else s
    | none => s)

def execVersionSpillTimeout (s : State) : Host.Outcome State Fault Refusal :=
  .next (match findReq s s.cur.x with
    | some r => match r.stage with
      | .heldSpill _ => failReq s s.cur.x r 0x142
      | _ => s
    | none => s)

/-- R54: the agent learns that a page is not resident, `v` the residency event. A restartable job is aborted
(R52). -/
def execNotResidentResponse (s : State) : Host.Outcome State Fault Refusal :=
  .next (match findReq s s.cur.x with
    | none => s
    | some r =>
      let s1 := l1Undo (dropReq s s.cur.x) r
      match r.src with
      | .lane acc lane =>
        if jobRestartable s r.job then abortJob s1 (r.job.getD 0) s.cur.v
        else answerUnit s1 acc lane (.notres s.cur.v)
      | _ => s1)

def execRemoteReadServe (s : State) : Host.Outcome State Fault Refusal :=
  .next (match findReq s s.cur.x with
    | none => s
    | some r =>
      if regionOf s r.pa == .device then deviceHome s s.cur.x r r.pa
      else if lockWaits s r (homeDie r.ia) r.pa then (putReq s s.cur.x { r with stage := .heldTable }).post .heldRequestRetry s.cur.x
      else match (if isLockKind r.kind then none else poisonCause s (homeDie r.ia) (r.ia / 256) (r.pa / 256) r.job) with
      | some c => failReq s s.cur.x r c
      | none =>
        let (r1, s1) := readAt s r (homeDie r.ia) r.pa r.key
        (putReq s1 s.cur.x { r1 with stage := .response }).add .readResponseDeliver s.cur.x)

def execReadResponseDeliver (s : State) : Host.Outcome State Fault Refusal :=
  .next (match findReq s s.cur.x with
    | none => s
    | some _ => s.add .loadReturn s.cur.x)

/-- R343: a lane's data returns; the line it was served from may enter the core's cache. -/
def execLoadReturn (s : State) : Host.Outcome State Fault Refusal :=
  .next (match findReq s s.cur.x with
    | none => s
    | some r =>
      let s1 := dropReq s s.cur.x
      let s2 := cachePut s1 r
      match r.src with
      | .lane acc lane => answerUnit s2 acc lane (.data r.off r.data)
      | _ => s2)

/-! ### Collapse (R58, R59) -/

def findCollapse (s : State) (id : Nat) : Option Collapse := (s.mm.collapses.find? fun p => p.1 == id).map (·.2)
def putCollapses (s : State) (m : Sparse Collapse) : State := { s with mm := { s.mm with collapses := m } }

/-- The page-table entry of a page on a die, wherever it is mapped there. -/
def pageEntry (s : State) (d ia : Nat) : Option (Nat × DWord) :=
  match walk s d ia with
  | .leaf _ epa w0 _ => some (epa, w0)
  | _ => none

/-- Drop a die's cached translations of a page without a write-back of misses of its own copy. -/
def dropCopyTlb (s : State) (d page : Nat) (w0 : DWord) : State := tlbInvalidate s d page (2 ^ pageLog (pteSz w0))

/-- COLLAPSE_INVALIDATE: `x` the collapse, `y` the copy die, which clears V of its COPY entry and
acknowledges. -/
def execCollapseInvalidate (s : State) : Host.Outcome State Fault Refusal :=
  .next (match findCollapse s s.cur.x with
    | none => s
    | some c =>
      let s1 := match pageEntry s s.cur.y c.page with
        | some (epa, w0) =>
          if pteDup w0 = 2 then
            let t := dropCopyTlb s s.cur.y c.page w0
            walkPut t epa (w0 &&& ~~~1)
          else s
        | none => s
      s1.add .collapseAck s.cur.x s.cur.y)

/-- Requests in the order in which they were held. -/
def byHold : List (Nat × Req) → List (Nat × Req)
  | [] => []
  | p :: t => insertHold p (byHold t)
where
  insertHold (p : Nat × Req) : List (Nat × Req) → List (Nat × Req)
    | [] => [p]
    | q :: t => if p.2.heldAt ≤ q.2.heldAt then p :: q :: t else q :: insertHold p t

/-- Held requests are released, and go on in that order (R58, R61). -/
def releaseInOrder (s : State) (f : Req → Bool) : State :=
  (byHold (s.mm.reqs.filter fun p => f p.2)).foldl (fun t p => homeStep t p.1 { p.2 with stage := .home }) s

/-- Requests that waited for a page's collapse. -/
def releaseCollapse (s : State) (home page : Nat) : State :=
  releaseInOrder s fun r => homeDie r.ia == home && r.stage == .heldCollapse page

/-- The home entry becomes PLAIN. -/
def plainEntry (s : State) (home epa page : Nat) : State :=
  let w0 := walkWord s epa
  let s1 := dropCopyTlb s home page w0
  walkPut s1 epa (w0 &&& ~~~(word64 (0x3F * 2 ^ 16)))

/-- One KIND 2 record for each freed copy; a record that finds the ring full is written later (R59). -/
def freedCopy (s : State) (home page sz d : Nat) : State :=
  if rqFull s home then s.add .collapseAck 0 d home (word64 (page + sz)) else rqPost s home page sz 2 0 0xFFFFFFFF 0 d 0

/-- COLLAPSE_ACK: `x` the collapse, `y` the die. With `x` 0 it is the record of a copy freed earlier. -/
def execCollapseAck (s : State) : Host.Outcome State Fault Refusal :=
  .next (
    if s.cur.x = 0 then freedCopy s s.cur.z (s.cur.v.toNat / 65536 * 65536) (s.cur.v.toNat % 4) s.cur.y
    else match findCollapse s s.cur.x with
    | none => s
    | some c =>
      let left := c.todo.filter (· != s.cur.y)
      if left.isEmpty then
        let sz := pteSz (walkWord s c.entry)
        let s1 := plainEntry (putCollapses s (Sparse.erase s.mm.collapses s.cur.x)) c.home c.entry c.page
        let s2 := c.copies.foldl (fun t d => freedCopy t c.home c.page sz d) s1
        releaseCollapse s2 c.home c.page
      else putCollapses s (s.mm.collapses.put s.cur.x { c with todo := left }))

/-! ### Clocked items (R138) -/

def findItem (s : State) (id : Nat) : Option Item := (s.mm.items.find? fun p => p.1 == id).map (·.2)
def inqKeyLen (s : State) (d e : Nat) : Nat := ((s.die d).inq.get e).length

/-- CLOCKED_ITEM_ARRIVE: `x` the die, `y` the item, which enters the queue of its source die. -/
def execClockedItemArrive (s : State) : Host.Outcome State Fault Refusal :=
  .next (match findItem s s.cur.y with
    | none => s
    | some it =>
      (s.updDie s.cur.x fun d => { d with inq := d.inq.put it.src (d.inq.get it.src ++ [s.cur.y]) }).add .clockedItemApply s.cur.x s.cur.y)

/-- Both conditions of R138 for an item at die d. -/
def itemReady (s : State) (d : Nat) (it : Item) : Bool :=
  let vc := dieVc s d
  let at_ (l : List Nat) (i : Nat) : Nat := l.getD i 0
  at_ vc it.src == (at_ it.clock it.src + 2 ^ 32 - 1) % 2 ^ 32
    && (List.range 4).all fun f => f == d || f == it.src || vcGe (at_ vc f) (at_ it.clock f)

/-- Perform the write that an item carries. A versioned one took its room with its number (R90). -/
def applyWrite (s : State) (d : Nat) (it : Item) (id : Nat) : State :=
  match findReq s id with
  | none => s
  | some r =>
    let (r1, s1) := performAt s r r.pa r.key
    let s2 := lineClockUp s1 d (r.ia / 256) it.clock
    match r.kind, r.src with
    | .atomic _, .lane _ _ =>
      (putReq s2 id { r1 with stage := .response, clock := lineClock s2 d (r.ia / 256) }).add .readResponseDeliver id
    | _, _ => endReq s2 id r

/-- CLOCKED_ITEM_APPLY: `x` the die, `y` the item. -/
def execClockedItemApply (s : State) : Host.Outcome State Fault Refusal :=
  .next (match findItem s s.cur.y with
    | none => s
    | some it =>
      let d := s.cur.x
      let s1 := { s with mm := { s.mm with items := Sparse.erase s.mm.items s.cur.y } }
      let s2 := s1.updDie d fun x => { x with inq := x.inq.put it.src ((x.inq.get it.src).filter (· != s.cur.y)) }
      let s3 := match it.req with
        | some id => applyWrite s2 d it id
        | none => s2
      setVc s3 d it.src (it.clock.getD it.src 0))

/-! ## When these happenings can come -/

/-- The request would be served in the device-register region. -/
def toDevice (s : State) (r : Req) : Bool :=
  !r.scratch && (match (xlate s r.die r.ia (needOf r.kind) r.keyslot r.priv).1 with
    | .serve _ pa _ => regionOf s pa == .device
    | _ => false)

/-- Accesses of one fibre to device registers are completed one by one (R124). -/
def deviceClear (s : State) (id : Nat) (r : Req) : Bool :=
  !(toDevice s r) || !(s.mm.reqs.any fun p =>
    decide (p.1 < id) && p.2.group == r.group && (laneOf p.2).isSome && (p.2.scalar || r.scalar || laneOf p.2 == laneOf r) && toDevice s p.2)

def nearReady (s : State) (id : Nat) : Bool :=
  match findReq s id with
  | some r => unitClear s id r && laneTurn s id r && deviceClear s id r
  | none => true

/-- A held request can go on. -/
def retryReady (s : State) (id : Nat) : Bool :=
  match findReq s id with
  | none => true
  | some r =>
    match r.stage with
    | .stalled => !(queueFull s r.ia)
    | .heldTable =>
      (match (homeXl s r.ia (needOf r.kind) r.keyslot r.priv).1 with
        | .notResident page sz g ridx =>
          (match (notResident s r.ia page sz g ridx r.slot r.die r.job).1 with
            | .hold => false
            | _ => true)
        | _ => true)
    | .heldResidency n _ => holdState s (some n) != .waits
    | .heldCollapse _ => !(collapsing s r.ia) && !(s.mm.reqs.any fun p =>
        p.2.stage == r.stage && homeDie p.2.ia == homeDie r.ia && decide (p.2.heldAt < r.heldAt))
    | .heldSpill _ => stopOf s r != .noSpace
    | .toNumber => !(numberFull s r.die) && !(numberHeld s r.die id r)
    | _ => true

/-- R139: the home has applied what the reader's die had seen at issue. -/
def remoteReady (s : State) (id : Nat) : Bool :=
  match findReq s id with
  | none => true
  | some r =>
    let h := homeDie r.ia
    r.vc.isEmpty || (List.range 4).all fun f => f == h || vcGe ((dieVc s h).getD f 0) (r.vc.getD f 0)

/-- R139: the reader's die has seen what the line has seen. -/
def deliverReady (s : State) (id : Nat) : Bool :=
  match findReq s id with
  | none => true
  | some r => r.clock.isEmpty || (List.range 4).all fun f => f == r.die || vcGe ((dieVc s r.die).getD f 0) (r.clock.getD f 0)

/-- Items of one source die arrive in the order of their numbers, while the queue of 512 has room (R138). -/
def arriveReady (s : State) (d item : Nat) : Bool :=
  match findItem s item with
  | none => true
  | some it =>
    let n := inqKeyLen s d it.src
    decide (n < 512) && it.clock.getD it.src 0 == ((dieVc s d).getD it.src 0 + n + 1) % 2 ^ 32

def applyReady (s : State) (d item : Nat) : Bool :=
  match findItem s item with
  | none => true
  | some it => itemReady s d it

end Sys2Proof.Machine
end

