-- ==== Sys2Proof/Machine/Collective.lean ====
section
/-! DEFINITION. Reductions: ACCRED, the collective engines and their rounds (R166, R314, R403, R404, R430). Unless said
otherwise a happening's `x` is its contribution. -/
namespace Sys2Proof.Machine

def State.contrib (s : State) (id : Nat) : Contrib := s.eng.contribs.get id
def State.setContrib (s : State) (id : Nat) (c : Contrib) : State :=
  { s with eng := { s.eng with contribs := s.eng.contribs.put id c } }
def State.round (s : State) (r : Nat) : Round := s.eng.rounds.get r
def State.setRound (s : State) (r : Nat) (v : Round) : State :=
  { s with eng := { s.eng with rounds := s.eng.rounds.put r v } }
def dropRound (s : State) (r : Nat) : State := { s with eng := { s.eng with rounds := Sparse.erase s.eng.rounds r } }

/-! ## The tree of R314 -/

def redAdd (int : Bool) (a b : DWord) : DWord := if int then a + b else word64 (addF64 a.toNat b.toNat)
/-- Contributions in rank order. -/
def insertRank (p : Nat × List DWord) : List (Nat × List DWord) → List (Nat × List DWord)
  | [] => [p]
  | q :: t => if p.1 < q.1 then p :: q :: t else q :: insertRank p t

/-- Ten levels for up to 1,024 ranks. -/
def roundResult (r : Round) : List DWord :=
  (reduceTree (List.zipWith (redAdd r.int)) 10 (r.ranks.map (·.2))).getD []

/-! ## Ends of contributions -/

/-- A contribution is complete. -/
def contribDone (s : State) (id : Nat) (c : Contrib) : State :=
  match c.dec with
  | some d => decAnswer (dropContrib s id) d 0
  | none => finishOp (dropContrib s id) c.by_ 4 id

/-- A contribution fails: its trap is queued, then it is counted off (R162). -/
def contribFail (s : State) (id : Nat) (c : Contrib) (cause addr : Nat) : State :=
  match c.dec with
  | some d => decAnswer (dropContrib s id) d cause
  | none => finishOp (raiseEng (dropContrib s id) c.by_ (engTrap c.by_ cause addr 0 (iaCause cause))) c.by_ 4 id

/-- The accesses of the engine that performs a contribution's round, on the die on which it runs (Table 38). -/
def contribPort (s : State) (c : Contrib) : Port :=
  match c.dec with
  | some d => decPort (s.dec d)
  | none => { portOf c.by_ with die := homeDie c.key }

/-- A contribution cannot go on now. -/
def stallContrib (s : State) (id : Nat) (c : Contrib) (again : Instr) (st : Stall) : State :=
  match st with
  | .fault k a => contribFail s id c k a
  | .wait ev _ s1 =>
    match ev with
    | some n =>
      if c.dec.isNone && jobRestartable s1 c.by_.job then abortJob s1 (c.by_.job.getD 0) n
      else if c.held == some n then s1.after 1 again id
      else ((s1.setContrib id { c with held := some n, heldAt := s1.now + 1 }).after 1 again id).after s.cfg.engineLimit
        .engineResidencyTimeout id 2 (s1.now + 1) 0x115
    | none => s1.after 1 again id
  | .spill s1 =>
    if c.heldAt != 0 && c.held.isNone then s1.after 1 again id
    else ((s1.setContrib id { c with held := none, heldAt := s1.now + 1 }).after 1 again id).after s.cfg.engineLimit
      .engineResidencyTimeout id 2 (s1.now + 1) 0x142

/-- What a contribution was held on is over: it goes on, or fails with the event's fault. -/
def resumeContrib (s : State) (id : Nat) (c : Contrib) (act : State) : State :=
  match holdState s c.held with
  | .faulted => contribFail s id c (faultedCause s (c.held.getD 0)) 0
  | _ => act

/-! ## Rounds (R404) -/

def openRound (s : State) (key : Nat) : Option Nat := (s.eng.rounds.find? fun p => p.2.live && p.2.key == key).map (·.1)
def roundsOf (s : State) (die : Nat) : Nat := (s.eng.rounds.filter fun p => p.2.live && p.2.die == die).length

/-- A reduction descriptor (Table 154) that is well formed. -/
def descRound (bs : List Byte) (die key : Nat) : Option Round :=
  let v := leNat bs
  let n := bits v 79 64
  let flags := bits v 87 80
  let dest := bits v 63 0
  if n = 0 ∨ 1024 < n ∨ 4 ≤ flags ∨ bits v 255 88 ≠ 0 ∨ dest % 8 ≠ 0 then none
  else some { live := true, die := die, key := key, n := n, int := bit flags 0, rootOnly := bit flags 1, dest := dest }

def newRound (s : State) (r : Round) : Nat × State :=
  let (id, s1) := s.newEng
  (id, s1.setRound id r)

/-- All ranks are in: every receiver gets its copy, and the key is free for a new round. -/
def closeRound (s : State) (rid : Nat) : State :=
  let r := s.round rid
  if r.ranks.length < r.n then s
  else
    let vals := roundResult r
    r.members.foldl (fun t m =>
      let c := t.contrib m
      if c.live then (t.setContrib m { c with vals := vals, joined := true }).add .collectiveResultWritten m else t)
      (dropRound s rid)

/-- A contribution enters a round: its rank is checked, its elements are taken in. One that receives nothing is complete. -/
def joinRound (s : State) (rid id : Nat) (c : Contrib) : State :=
  let r := s.round rid
  if r.n ≤ c.rank then contribFail s id c 0x1C5 0
  else if r.ranks.any (fun p => p.1 == c.rank) then contribFail s id c 0x1C6 0
  else
    let receives := !r.rootOnly || c.rank == 0
    let s1 := s.setRound rid { r with
      ranks := insertRank (c.rank, c.vals) r.ranks, joined := r.joined ++ [id], members := if receives then r.members ++ [id] else r.members }
    let dest := if c.dec.isSome then c.dest else r.dest
    let s2 := if receives then
        s1.setContrib id { c with key := r.key, dest := dest, receives := true, joined := true, vals := [], held := none, heldAt := 0 }
      else contribDone s1 id c
    closeRound s2 rid

/-- An ACCRED's rows reach the engine of the descriptor's home die. -/
def arriveAccred (s : State) (id : Nat) (c : Contrib) : State :=
  if c.desc % 32 != 0 then contribFail s id c 0x1C5 0
  else match rangeCheck { rng := c.by_.rng } c.desc 32 .engRead with
    | .error k => contribFail s id c k c.desc
    | .ok (ia, _) =>
      match openRound s ia with
      | some r => joinRound s r id c
      | none =>
        if 64 ≤ roundsOf s (homeDie ia) then s.after 1 .collectiveContribution id
        else match engReadVa { portOf c.by_ with die := homeDie ia } c.desc 32 s with
          | .error st => stallContrib s id c .collectiveContribution st
          | .ok (bs, s1) => match descRound bs (homeDie ia) ia with
            | none => contribFail s1 id c 0x1C5 0
            | some r =>
              if r.n ≤ c.rank then contribFail s1 id c 0x1C5 0 else
              let (rid, s2) := newRound s1 r
              joinRound s2 rid id c

/-- The key of an O.COLL: a collective's name, apart from every intermediate address. -/
def collKey (name : Nat) : Nat := 2 ^ 64 + name

/-- An O.COLL's vector joins the round of its key, with the size that its own block gives; other devices of the group are
told. -/
def arriveColl (s : State) (id d : Nat) (c : Contrib) : State :=
  let s1 := if s.cfg.peers.isEmpty || !((s.dec d).live) then s else emitOut s (.collective (word64 c.key) c.rank c.vals)
  match openRound s1 (collKey c.key) with
  | some r => joinRound s1 r id c
  | none =>
    if 64 ≤ roundsOf s1 (s.dec d).die then s.after 1 .collectiveContribution id
    else
      let n := bits c.desc 15 0
      if n ≤ c.rank then contribFail s1 id c 0x1C5 0 else
      let (rid, s2) := newRound s1 { live := true, die := (s.dec d).die, key := collKey c.key, n := n,
                                     int := bit c.desc 16, rootOnly := bit c.desc 17, dest := c.dest }
      joinRound s2 rid id c

/-- COLLECTIVE_CONTRIBUTION. -/
def execCollectiveContribution (s : State) : Host.Outcome State Fault Refusal :=
  .next (
    let id := s.cur.x
    let c := s.contrib id
    if !c.live || c.joined then s
    else resumeContrib s id c (match c.dec with
      | some d => arriveColl s id d c
      | none => arriveAccred s id c))

def valsBytes (l : List DWord) : List Byte := l.flatMap fun v => leBytes 8 v.toNat

/-- A pass's direct writes of a collective's result are logged as any write is (R419). -/
def logResult (s : State) (c : Contrib) : State :=
  match c.dec with
  | none => s
  | some d =>
    let lines := ((runCheck (s.dec d).bankRng .engWrite (runParts (c.vals.length / 8192 + 2) c.dest (8 * c.vals.length))).toOption.getD []).flatMap
      fun p => (granules (p.2 / 256 + 2) p.1 p.2).map fun q => q.1 / 256
    lines.foldl (fun t l => logLine t (some (s.dec d).job) l) s

/-- COLLECTIVE_RESULT_WRITTEN: the result is written for one receiving contribution, which is complete once every die has applied
the writes (R129, R430; log entry 106). -/
def execCollectiveResultWritten (s : State) : Host.Outcome State Fault Refusal :=
  .next (
    let id := s.cur.x
    let c := s.contrib id
    if !c.live then s
    else if c.written then contribDone s id c
    else resumeContrib s id c (match engWriteVa (contribPort s c) c.dest (valsBytes c.vals) (logResult s c) with
      | .error st => stallContrib s id c .collectiveResultWritten st
      | .ok ((), s1) =>
        (s1.setContrib id { c with written := true, vc := dieVc s1 (contribPort s c).die, held := none, heldAt := 0 }).add .collectiveResultWritten id))

/-- The result can be written, or has been and stands on every die. -/
def resultReady (s : State) (id : Nat) : Bool :=
  let c := s.contrib id
  if c.written then seenEverywhere s c.vc else holdState s c.held != .waits

/-- The round of a joined contribution that still waits for ranks. -/
def waitingRound (s : State) (id : Nat) : Option Nat :=
  (s.eng.rounds.find? fun p => p.2.live && p.2.joined.contains id).map (·.1)

/-- COLLECTIVE_LIMIT_EXPIRE: a round that is not complete fails in every contributor that has not completed, though the
contribution whose limit it is has; one that has not reached a round fails alone. -/
def execCollectiveLimitExpire (s : State) : Host.Outcome State Fault Refusal :=
  .next (
    let id := s.cur.x
    let c := s.contrib id
    match waitingRound s id with
    | some r =>
      (s.round r).members.foldl (fun t m =>
        let k := t.contrib m
        if k.live then contribFail t m k 0x18A 0 else t) (dropRound s r)
    | none => if !c.live || c.joined then s else contribFail s id c 0x18A 0)

/-! ## ACCRED -/

/-- At issue: COL rises, restartability ends (R93) and the entry takes its place. -/
def accredIssue (s : State) (o : UX) : State :=
  let (cid, s0) := (endRestart s (curTeamKey s)).newEng
  let rank := (rdS s o.c.toNat).toNat
  let desc := (rdS s o.a.toNat).toNat
  let c : Contrib := { live := true, by_ := curStarter s, desc := desc, rank := rank, since := s.now }
  let s1 := (s0.setContrib cid c).after s.cfg.collLimit .collectiveLimitExpire cid
  let e : TileEnt := { by_ := curStarter s, tile := o.h.toNat % 8, op := .accred (o.m.getLsbD 0) desc rank, contrib := cid }
  advance (opStart (placeEntry s1 e).2 (curGk s) 4 cid)

def execAccred (o : UX) (s : State) : Host.Outcome State Fault Refusal :=
  .next (matrixOp s (.accred o) (o.h.toNat % 8) [o.a.toNat, o.c.toNat]
    (if bits (rdS s o.c.toNat).toNat 63 16 != 0 then raise s 0x087
     else if 63 ≤ counter (curGroup s) 4 then yieldFor s (.counter 4 62)
     else onceSettled s (accredIssue s o)))

end Sys2Proof.Machine
end

