-- ==== Sys2Proof/Machine/Homes.lean ====
section
/-! DEFINITION. Operations that an instruction sends to a home, and their answers (R406), with the event instructions and
the happenings at an event home (R188 to R195, R407 to R409). -/
namespace Sys2Proof.Machine

/-! ## Sending (R406) -/

/-- The issuing instruction's operation. -/
def curOp (s : State) (kind : HomeKind) (target addr : DWord) (dst : Option Nat) (yields : Bool) : HomeOp :=
  let b := curBank s
  { kind := kind, target := target, by_ := .entry s.cur.core s.cur.ent, slot := bankSlot b,
    gen := bits b.ctxid.toNat 47 16, priv := s.cur.priv, die := dieOf s.cur.core, bankRng := b.rng,
    keyslot := b.keyslot.toNat, fpc := curPc s, rpc := nextPc s, issue := heldLanes s, order := s.cur.order,
    group := curGk s, addr := addr, dst := dst, yields := yields, handler := inHandler s,
    fte := funcFte (curFunc s) != 0, vc := dieVc s (dieOf s.cur.core) }

/-- The mark of an operation's outstanding destination, apart from those of accesses. -/
def opMark (id : Nat) : Nat := 2 ^ 40 + id

/-- Send it: its destination is outstanding until the answer, and `ev` happens at the home. -/
def sendOp (s : State) (o : HomeOp) (ev : Instr) : Nat × State :=
  let (id, s1) := s.newOp o
  let s2 := match o.dst with
    | some r => { s1 with uni := { s1.uni with sout := s1.uni.sout.put (o.group * 64 + r) (opMark id) } }
    | none => s1
  (id, s2.add ev id)

def dropOp (s : State) (id : Nat) : State := { s with task := { s.task with ops := Sparse.erase s.task.ops id } }

/-- The operation that the issuing instruction has sent already for its fibres, which wait for it in whatever entry they stand. -/
def findOp (s : State) : Option (Nat × HomeOp) :=
  s.task.ops.find? fun p => p.2.live && p.2.yields && ofEntry p.2 && (p.2.issue &&& heldLanes s) != 0
    && p.2.group == curGk s && p.2.fpc == curPc s && p.2.handler == inHandler s

/-- The home has applied an operation: its answer sets out. -/
def opReply (s : State) (id cause : Nat) (value : DWord) : State :=
  (s.updOp id fun o => { o with applied := true, waiting := false, cause := cause, value := value }).add .homeAnswer id

/-- The trap of a cause that a home raises. -/
def raiseOp (s : State) (o : HomeOp) : State :=
  if o.handler then killTeam s ((s.group o.group).team.getD 0) o.cause
  else enqueueTrap s o.group { cause := o.cause, fpc := o.fpc, rpc := o.rpc, addr := o.addr, mask := 1,
                               issue := o.issue, order := o.order, fte := o.fte }

/-- Whether the answer shows an event resolved: an acquire at GROUP scope (Table 41). -/
def acquires (o : HomeOp) : Bool :=
  match o.kind with
  | .wait => o.cause == 0
  | .get => o.cause == 0
  | .poll => o.cause == 0 && bits o.value.toNat 63 62 == 2
  | _ => false

/-- An instruction that yielded and meets a cause at its home has issued, and goes on without being issued again (R445). -/
def countCaused (s : State) (o : HomeOp) : State :=
  pmCount s (coreOfGroup o.group) o.slot (s.team ((s.group o.group).team.getD 0)).job o.fte 0x03 1

/-- The answer reaches the issuing entry: the destination, or a trap; an entry that yielded goes on. After a cause it
goes on at the next unit. A poll that found its event resolved holds its fibres' later accesses until the earlier reads have
returned, and then drops the core's L1 lines (R126, R140). -/
def answerEntry (s : State) (id core ent : Nat) (o : HomeOp) : State :=
  let s1 := match o.dst with
    | some r =>
      let t := { s with uni := { s.uni with sout := s.uni.sout.put (o.group * 64 + r) 0 } }
      if o.cause = 0 then t.setSregOf o.group r o.value else t
    | none => s
  let s2 := if acquires o && o.yields then l1DropCore s1 core else s1
  let s3 := if o.cause = 0 then s2 else raiseOp s2 o
  let k := entKey core ent
  let waits := (s3.ent k).st == .blocked && (s3.ent k).wake == .home id
  if (s3.op id).by_ != .entry core ent then dropOp s3 id
  else if !o.yields then
    (if acquires o then (s3.updOp id fun x => { x with answered := true }).add .homeAnswer id else dropOp s3 id)
  else if o.cause != 0 && waits then
    (dropOp (countCaused s3 o) id).updEnt k fun e => { e with pc := o.rpc, st := .ready, wake := .none, since := s.now, boundary := true }
  else (s3.updOp id fun x => { x with answered := true }).post .entryWake core ent

/-- A job's watch on another device is answered, or its signal there. -/
def answerJob (s : State) (id j : Nat) (o : HomeOp) : State :=
  match o.kind with
  | .jobSignal _ _ => if o.cause = 0 then accountDone (dropOp s id) j else accountJob (dropOp s id) j 1 o.cause
  | _ => (s.updOp id fun x => { x with answered := true }).post .jobEligible j

/-- HOME_ANSWER: `x` the operation. -/
def execHomeAnswer (s : State) : Host.Outcome State Fault Refusal :=
  .next (if s.cur.z = 1 then farAnswer s s.cur.x s.cur.y else
    let id := s.cur.x
    let o := s.op id
    if !o.live then s
    else match o.by_ with
      | .entry core ent =>
        if o.answered && o.kind == .poll then l1DropCore (dropOp s id) core else answerEntry s id core ent o
      | .dec d =>
        match o.kind with
        | .wait => (dropOp s id).updDec d fun x => { x with waitSeen := some o.cause }
        | .arm _ => ((dropOp s id).updDec d fun x => { x with armSeen := some o.cause }).add .eventArm d
        | _ => decAnswer (dropOp s id) d o.cause
      | .stream k => (dropOp s id).updStream k fun x => { x with watch := if o.cause = 0 then 2 else 3 }
      | .job j => answerJob s id j o
      | .peer => dropOp (emitOut s (.opAnswer o.target o.cause o.value)) id
      | .device => dropOp s id)

/-- A poll that has been answered acquires once the fibres' earlier reads have returned. -/
def answerReady (s : State) (id : Nat) : Bool :=
  let o := s.op id
  !(o.answered && o.kind == .poll)
    || (!(captureOpen s o.group o.issue) && (accOf s o.group o.issue).all fun p => p.2.cap.kind == .store)

/-- An instruction that yields until its home answers: sent once, then completed by `act` on the answer. -/
def yieldOp (s : State) (send : State) (act : HomeOp → State → State) : State :=
  match findOp s with
  | none => send
  | some (id, o) =>
    if !o.answered then yieldFor s (.home id)
    else if o.cause != 0 then advance (dropOp s id)
    else act o (dropOp s id)

/-- Send and yield. -/
def sendYield (s : State) (o : HomeOp) (ev : Instr) : State :=
  let (id, s1) := sendOp s o ev
  yieldFor s1 (.home id)

/-! ## Order at a home (R352, R406) -/

/-- The sequences in whose order an operation stands: a fork in two (R413). -/
def seqTargets (o : HomeOp) : List Nat :=
  match o.kind with
  | .seqFork child => [o.target.toNat, child]
  | _ => [o.target.toNat]

/-- Two operations go to one entry: of an event, or a sequence. -/
def sameTarget (a b : HomeOp) : Bool :=
  isSeqOp a.kind == isSeqOp b.kind
  && (if isSeqOp a.kind then (seqTargets a).any (fun t => (seqTargets b).contains t)
      else evEntry a.target == evEntry b.target)

/-- An operation that its instruction makes a release (Table 41). -/
def releases : HomeKind → Bool
  | .signal _ => true
  | .deposit _ _ => true
  | _ => false

/-- Every die has applied what a release's die had seen when it was made, so that whoever meets the release sees the writes
before it (R127, R140; log entry 106). -/
def releaseSeen (s : State) (o : HomeOp) : Bool := !(releases o.kind) || seenEverywhere s o.vc

/-- No earlier operation of its skein group to the same entry is still on its way, and the writes before a release are seen. -/
def opReady (s : State) (id : Nat) : Bool :=
  let o := s.op id
  !o.live || (releaseSeen s o && !(s.task.ops.any fun p => decide (p.1 < id) && p.2.live && !p.2.applied && !p.2.waiting
    && p.2.group == o.group && ofEntry p.2 && ofEntry o && sameTarget p.2 o))

/-- Operations that reach one event entry in the same cycle: signals first, then FUTREGs, then faults (R193). -/
def eventRank : Instr → Nat
  | .eventSignal => 0
  | .eventFutreg => 1
  | .eventFault => 2
  | _ => 3

def eventOf (s : State) (h : Happening) : DWord := if h.what = .eventFault then h.v else (s.op h.x).target

/-- No operation that goes before it in its cycle can be applied at its entry. -/
def eventTurn (s : State) (h : Happening) : Bool :=
  !(s.agenda.any fun g => g.due == h.due && decide (eventRank g.what < eventRank h.what)
    && evEntry (eventOf s g) == evEntry (eventOf s h) && opReady s g.x)

/-! ## At an event home -/

/-- An operation on another device waits for its answer, at most the engine residency limit (R453). -/
def awaitRemote (s : State) (id : Nat) : State :=
  (s.updOp id fun x => { x with waiting := true }).after s.cfg.engineLimit .linkOperationTimeout id

/-- LINK_OPERATION_TIMEOUT: `x` the operation, still unanswered, or with `y` 1 the transfer whose run is (R453). A watch is answered only when its event changes
(R195), and has no limit. -/
def execLinkOperationTimeout (s : State) : Host.Outcome State Fault Refusal :=
  .next (if s.cur.y = 1 then farTimeout s s.cur.x s.cur.z else
         let o := s.op s.cur.x
         if o.live && o.waiting && !o.applied then opReply s s.cur.x 0x206 0 else s)

/-- The value that a signal carries. -/
def signalValue : HomeKind → Option Nat
  | .signal v => some v
  | .dispatcherSignal v => some v
  | .jobSignal _ v => some v
  | _ => none

/-- EVENT_SIGNAL: `x` the operation, a signal of an instruction, of a job or a record to another device, of such a device, or
through the event port. -/
def execEventSignal (s : State) : Host.Outcome State Fault Refusal :=
  .next (
    let id := s.cur.x
    let o := s.op id
    if !o.live then s
    else match signalValue o.kind with
      | some v =>
        if evElsewhere s o.target then awaitRemote (emitOut s (.event 0 o.target (word64 v))) id
        else
          let (c, s1) := signalEvent s o.target v o.slot o.priv
          opReply s1 id (c.getD 0) 0
      | none => dropOp s id)

/-- EVENT_FAULT: `v` the event. -/
def execEventFault (s : State) : Host.Outcome State Fault Refusal := .next (evFault s s.cur.v)

/-- EVENT_FUTREG: `x` the operation. -/
def execEventFutreg (s : State) : Host.Outcome State Fault Refusal :=
  .next (
    let id := s.cur.x
    let o := s.op id
    if !o.live then s
    else match o.kind with
      | .futreg node =>
        if !(evLocal s o.target) then awaitRemote (emitOut s (.event 3 o.target (word64 node))) id
        else if evForeign s o.target o.slot o.priv then opReply s id 0x207 0
        else match evFutreg s o.target node { slot := o.slot, gen := o.gen, rng := o.bankRng, keyslot := o.keyslot } with
          | (.ok st, s1) => opReply s1 id 0 (word64 st)
          | (.error c, s1) => opReply s1 id c 0
      | _ => dropOp s id)

/-- What a wait, a get or a poll finds (R191, R192, R408): its answer, or nothing yet. -/
def waitAnswer (s : State) (o : HomeOp) : Option (Nat × DWord) :=
  match o.kind, evalWait s o.target o.slot o.priv with
  | _, .cause c => some (c, 0)
  | .poll, .open_ => some (0, word64 (evW0 s o.target))
  | .poll, .resolved w => some (0, word64 w)
  | .poll, .faulted w => some (0, word64 w)
  | _, .open_ => none
  | _, .resolved w => some (0, word64 (evValue w))
  | _, .faulted _ => some (0x203, 0)

/-- EVENT_WAIT: `x` the operation; an event still open keeps a watch. -/
def execEventWait (s : State) : Host.Outcome State Fault Refusal :=
  .next (
    let id := s.cur.x
    let o := s.op id
    if !o.live || o.applied then s
    else if !(evLocal s o.target) then
      (let s1 := emitOut s (.event 2 o.target 0)
       if o.kind == .poll then awaitRemote s1 id else s1.updOp id fun x => { x with waiting := true })
    else match waitAnswer s o with
      | some (c, v) =>
        if o.by_ == .peer then s.add .remoteWatchAnswer id else opReply s id c v
      | none =>
        let t := s.updOp id fun x => { x with waiting := true }
        { t with task := { t.task with watches := t.task.watches ++ [{ name := o.target, op := id }] } })

/-- What the home answers to the watch or the poll of another device (R191, R192, R195): a cause, or the state word as it stands
for the name's generation; nothing while a watched event is open. -/
def watchReply (s : State) (o : HomeOp) : Option OutMsg :=
  match evalWait s o.target o.slot o.priv with
  | .cause c => some (.opAnswer o.target c 0)
  | .resolved w => some (.watchAnswer o.target (word64 w))
  | .faulted w => some (.watchAnswer o.target (word64 w))
  | .open_ => if o.kind == .poll then some (.watchAnswer o.target (word64 (evW0 s o.target))) else none

/-- What a wait makes of the state word that another device has answered (R408): a poll's word, a wait's value, or 0x203. -/
def watchValue (o : HomeOp) (word : DWord) : Nat × DWord :=
  if o.kind == .poll then (0, word)
  else if evStateOf word.toNat == .faulted then (0x203, 0)
  else (0, word64 (evValue word.toNat))

/-- REMOTE_WATCH_ANSWER: `x` the operation. At the home of its event the watch of another device is answered; at the waiter the
answer arrives, `y` the cause that it met there, or 0, and `v` the event's state word (Table 57), or the status of a
registration. -/
def execRemoteWatchAnswer (s : State) : Host.Outcome State Fault Refusal :=
  .next (
    let id := s.cur.x
    let o := s.op id
    if !o.live then s
    else if evLocal s o.target then
      (match watchReply s o with
        | none => s
        | some m => dropOp (emitOut s m) id)
    else if s.cur.y != 0 then opReply s id s.cur.y 0
    else match o.kind with
      | .wait => opReply s id (watchValue o s.cur.v).1 (watchValue o s.cur.v).2
      | .get => opReply s id (watchValue o s.cur.v).1 (watchValue o s.cur.v).2
      | .poll => opReply s id (watchValue o s.cur.v).1 (watchValue o s.cur.v).2
      | _ => opReply s id 0 s.cur.v)

/-! ## The event instructions (R407 to R409) -/

/-- The event of a name exists for the issuing entry: another device's needs F_REMEV in the effective mask (R267). -/
def eventPresent (s : State) (n : DWord) : Bool := evReachable s n && (evLocal s n || featBit s 42)

/-- Step 4: a name on a device that is absent or cannot be reached. -/
def withEvent (s : State) (n : DWord) (act : State) : State :=
  if eventPresent s n then act else raiseFull s 0x206 1 n 0 false

/-- What ends restartability and a replay session's record of side effects (R93). -/
def sideEffect (s : State) : State := markSide (endRestart s (curTeamKey s)) (curTeam s).job

/-- A signal leaves the core once the release that it makes is complete; nothing waits for its answer. -/
def signalOp (s : State) (n : DWord) (value : Nat) : State :=
  withEvent s n
    (if !(relDone s (curGk s) (heldLanes s)) then s
     else
      let s1 := sideEffect s
      advance (sendOp s1 (curOp s1 (.signal value) n n none false) .eventSignal).2)

def execEvsig (o : UR) (s : State) : Host.Outcome State Fault Refusal :=
  .next (uniformOp s (.evsig o) [o.a.toNat] (signalOp s (rdS s o.a.toNat) 0))

def execFutres (o : UR) (s : State) : Host.Outcome State Fault Refusal :=
  .next (uniformOp s (.futres o) [o.a.toNat, o.c.toNat]
    (let v := (rdS s o.c.toNat).toNat
     if bits v 63 48 != 0 then raise s 0x087 else signalOp s (rdS s o.a.toNat) v))

/-- The acquire of a wait that has returned completes with the earlier reads (R140). -/
def waitDone (s0 : State) (_ : HomeOp) (s : State) : State :=
  if acquireDone s0 (curGk s0) (heldLanes s0) then advance (l1DropCore s s.cur.core) else s0

def waitOp (s : State) (kind : HomeKind) (n : DWord) (dst : Option Nat) : State :=
  yieldOp s (withEvent s n (sendYield s (curOp s kind n n dst true) .eventWait)) (waitDone s)

def execEvwait (o : UR) (s : State) : Host.Outcome State Fault Refusal :=
  .next (uniformOp s (.evwait o) [o.a.toNat] (waitOp s .wait (rdS s o.a.toNat) none))

def execFutget (o : UR) (s : State) : Host.Outcome State Fault Refusal :=
  .next (uniformOp s (.futget o) [o.d.toNat, o.a.toNat] (waitOp s .get (rdS s o.a.toNat) (some o.d.toNat)))

def execEvpoll (o : UR) (s : State) : Host.Outcome State Fault Refusal :=
  .next (uniformOp s (.evpoll o) [o.d.toNat, o.a.toNat]
    (let n := rdS s o.a.toNat
     withEvent s n (if acquireOpen s (heldLanes s) then s
       else advance (sendOp s (curOp s .poll n n (some o.d.toNat) false) .eventWait).2)))

/-- A check of Table 9 and R22 at issue, with the address in ADDR (R55). -/
def raiseAddr (s : State) (cause va : Nat) : State := raiseFull s cause 1 (word64 va) 0 false

def execFutreg (o : UR) (s : State) : Host.Outcome State Fault Refusal :=
  .next (uniformOp s (.futreg o) [o.d.toNat, o.a.toNat, o.c.toNat]
    (let n := rdS s o.a.toNat
     let va := (rdS s o.c.toNat).toNat
     if va % 64 != 0 then raise s 0x087
     else withEvent s n
      (match rangeCheck (curBank s) va 64 .store with
        | .error c => raiseAddr s c va
        | .ok (ia, _) =>
          let s1 := sideEffect s
          advance (sendOp s1 (curOp s1 (.futreg ia) n n (some o.d.toNat) false) .eventFutreg).2)))

end Sys2Proof.Machine
end

