-- ==== Sys2Proof/Machine/Sequence.lean ====
section
/-! DEFINITION. Sequence memory: pools, blocks, chains and spans (R95 to R117), the sequence instructions (R413), KVX and
KVXR (R351 to R353), and the commands of O.SEQ (R436). -/
namespace Sys2Proof.Machine

/-! ## Tables in memory -/

/-- Accesses of a home to its tables: at intermediate addresses, with the bank's key slot and privilege (R96), and
never versioned (R110). Reads of a pool's descriptor, of a chain and of a codebook go through the slices of the die whose
home or SAU makes them; everything else, and every change, is made at its own home. -/
structure SeqBy where
  slot : Nat := 0
  gen : Nat := 0
  keyslot : Nat := 0
  priv : Bool := false
  job : Option Nat := none
  deriving DecidableEq, Repr, Inhabited

def seqPort (w : SeqBy) (ia : Nat) : Port := { die := homeDie ia, slot := w.slot, keyslot := w.keyslot, priv := w.priv }
def tabRead (w : SeqBy) (ia n : Nat) : Eng (List Byte) := engRead (seqPort w ia) ia n
def tabNat (w : SeqBy) (ia n : Nat) : Eng Nat := engNat (seqPort w ia) ia n
def tabWrite (w : SeqBy) (ia : Nat) (bs : List Byte) : Eng Unit := engWrite (seqPort w ia) ia bs
def tabPut (w : SeqBy) (ia n v : Nat) : Eng Unit := tabWrite w ia (leBytes n v)
/-- A read that die `d` makes, through its own slices (R46). -/
def farRead (w : SeqBy) (d ia n : Nat) : Eng (List Byte) := engRead { seqPort w ia with die := d } ia n
def seqFail {α : Type} (cause : Nat) : Eng α := engFail cause 0

/-- Field of `n` bytes at an offset. -/
def at8 (v off n : Nat) : Nat := bits v (8 * (off + n) - 1) (8 * off)

def poolOf (at_ v : Nat) : Pool :=
  let g := at8 v 8 8
  { at_ := at_, bs := 4096 * 2 ^ (g % 4), nl := bits g 15 8 + 1, nh := bits g 22 16 + 1, ng := bits g 29 24 + 1,
    area := bits (at8 v 0x10 8) 51 16 * 65536, cb := bits (at8 v 0x18 8) 51 12 * 4096,
    mbase := bits (at8 v 0x20 8) 51 12 * 4096, nb := at8 v 0x28 4, freecnt := at8 v 0x2C 4, head := at8 v 0x30 4 % 2 ^ 24 }

/-- R96. -/
def poolBad (w : SeqBy) (v : Nat) : Bool :=
  let o := at8 v 0 8
  let g := at8 v 8 8
  let p := poolOf 0 v
  !(bit o 63) || decide (p.bs < 128 * p.nh * p.ng) || p.nb % 256 != 0 || decide (p.nb < 256) || decide (16777216 < p.nb)
  || bits o 62 48 != 0 || bits o 15 6 != 0 || bits g 7 2 != 0 || bit g 23 || bits g 63 30 != 0 || at8 v 0x34 12 != 0
  || (!w.priv && (o % 64 != w.slot || bits o 47 16 != w.gen))

/-- The pool of a sequence, read from the sequence home on die `d` with the checks of R96. -/
def readPool (w : SeqBy) (d p : Nat) : Eng Pool := do
  let s ← get
  let a := s.cfg.poolTable + 64 * p
  let bs ← farRead w d a 64
  let v := leNat bs
  if poolBad w v then seqFail 0x241 else pure (poolOf a v)

def savePool (w : SeqBy) (p : Pool) : Eng Unit := do
  tabPut w (p.at_ + 0x2C) 4 p.freecnt
  tabPut w (p.at_ + 0x30) 4 p.head

/-! ## Blocks (Table 34, R98, R99) -/

def mdAt (p : Pool) (b : Nat) : Nat := p.mbase + 16 * b
def getLive (w : SeqBy) (p : Pool) (b : Nat) : Eng Nat := tabNat w (mdAt p b) 8
def setLive (w : SeqBy) (p : Pool) (b v : Nat) : Eng Unit := tabPut w (mdAt p b) 8 v
def getRef (w : SeqBy) (p : Pool) (b : Nat) : Eng Nat := tabNat w (mdAt p b + 12) 2
def setRef (w : SeqBy) (p : Pool) (b v : Nat) : Eng Unit := tabPut w (mdAt p b + 12) 2 v
def getNext (w : SeqBy) (p : Pool) (b : Nat) : Eng Nat := tabNat w (mdAt p b + 8) 3
def setNext (w : SeqBy) (p : Pool) (b v : Nat) : Eng Unit := tabPut w (mdAt p b + 8) 3 v

/-- The end of the free list. -/
def listEnd : Nat := 0xFFFFFF

/-- Take k blocks; a list that ends, leaves the pool or loops is malformed. -/
def takeBlocks (w : SeqBy) : Nat → Pool → Eng (Pool × List Nat)
  | 0, p => pure (p, [])
  | k + 1, p => do
    if p.head = listEnd ∨ p.nb ≤ p.head then seqFail 0x241
    else
      let b := p.head
      let r ← getRef w p b
      if r ≠ 0 then seqFail 0x241
      else
        let nx ← getNext w p b
        setRef w p b 1
        setLive w p b 0
        let (p1, l) ← takeBlocks w k { p with head := nx, freecnt := p.freecnt - 1 }
        pure (p1, b :: l)

/-- Reserve (R98). -/
def reserve (w : SeqBy) (p : Pool) (k : Nat) : Eng (Pool × List Nat) := do
  if p.freecnt < k then seqFail 0x242
  else if k = 0 then pure (p, [])
  else
    let (p1, l) ← takeBlocks w k p
    savePool w p1
    pure (p1, l)

/-- Release. The manual gives no release of a block whose count is 0 already; here the count stays 0 and the block is pushed
(log entry 90). -/
def releaseBlock (w : SeqBy) (p : Pool) (b : Nat) : Eng Pool := do
  let r ← getRef w p b
  setRef w p b (r - 1)
  if r ≤ 1 then
    setNext w p b p.head
    let p1 := { p with head := b, freecnt := p.freecnt + 1 }
    savePool w p1
    pure p1
  else pure p

/-- Release several, in turn. -/
def releaseAll (w : SeqBy) : List Nat → Pool → Eng Pool
  | [], p => pure p
  | b :: t, p => do
    let p1 ← releaseBlock w p b
    releaseAll w t p1

/-- Byte o of layer L's block b (R99). -/
def blockAt (p : Pool) (l b o : Nat) : Nat :=
  p.area + l * p.nb * p.bs + b / 256 * (p.bs / 256) * 65536 + o / 256 * 65536 + b % 256 * 256 + o % 256

def copyOwn (w : SeqBy) (j dst : Nat) : Sparse (Option Byte) → Eng Unit
  | [] => pure ()
  | (o, some b) :: t => do
    engWrite { seqPort w dst with job := some j } (dst + o) [b]
    copyOwn w j dst t
  | (_, none) :: t => copyOwn w j dst t

/-- The runs of a granule's bytes that the job's version does not hold: offset and bytes. -/
def committedRuns (own : Sparse (Option Byte)) : Nat → List Byte → List (Nat × List Byte)
  | _, [] => []
  | o, b :: t =>
    let r := committedRuns own (o + 1) t
    if (own.get o).isSome then r
    else match r with
      | (o1, l) :: more => if o1 = o + 1 then (o, b :: l) :: more else (o, [b]) :: r
      | [] => [(o, [b])]

def copyRuns (w : SeqBy) (dst : Nat) : List (Nat × List Byte) → Eng Unit
  | [] => pure ()
  | (o, bs) :: t => do
    tabWrite w (dst + o) bs
    copyRuns w dst t

/-- One granule, copied at the control home on die `d`: the bytes that the job's version holds are its versioned writes, the
others are written directly with their committed value (R110). -/
def copyGran (w : SeqBy) (d src dst : Nat) : Eng Unit := do
  let bs ← farRead w d src 256
  let s ← get
  let own := match w.job with
    | some j => (s.mm.vers.get (verKey j (src / 256))).bytes
    | none => []
  copyRuns w dst (committedRuns own 0 bs)
  copyOwn w (w.job.getD 0) dst own

def copyGrans (w : SeqBy) (d : Nat) : List (Nat × Nat) → Eng Unit
  | [] => pure ()
  | (a, b) :: t => do
    copyGran w d a b
    copyGrans w d t

/-- CopyBlock: every layer, by the control home of the block. -/
def copyBlock (w : SeqBy) (p : Pool) (b b2 : Nat) : Eng Unit :=
  copyGrans w (homeDie (mdAt p b)) ((List.range p.nl).flatMap fun l => (List.range (p.bs / 256)).map fun i =>
    (blockAt p l b (256 * i), blockAt p l b2 (256 * i)))

/-! ## Sequences (Tables 35 and 36) -/

structure Span where
  slot : Nat
  len : Nat
  ph : Nat
  cix : Nat
  cell : Nat
  tag : Nat
  deriving DecidableEq, Repr, Inhabited

structure SeqRec where
  at_ : Nat := 0
  id : Nat := 0
  pool : Nat := 0
  tag : Nat := 0
  tail : Nat := 0
  slots : Nat := 0
  nextPh : Nat := 0
  cap : Nat := 0
  chainAt : Nat := 0
  spans : List Span := []
  chain : List Nat := []
  deriving DecidableEq, Repr, Inhabited

def startCell (x : Span) : Nat := 64 * x.cix + x.cell
def endCell (x : Span) : Nat := startCell x + x.len
def tailCell (q : SeqRec) : Nat := 64 * q.chain.length + q.tail - 64

def spanOf (v i : Nat) : Span :=
  let o := 0x40 + 16 * i
  { slot := at8 v o 4, len := at8 v (o + 4) 4, ph := at8 v (o + 8) 4, cix := at8 v (o + 12) 2, cell := at8 v (o + 14) 1 % 64,
    tag := at8 v (o + 15) 1 % 16 }
def spanBytes (x : Span) : List Byte :=
  leBytes 4 x.slot ++ leBytes 4 x.len ++ leBytes 4 x.ph ++ leBytes 2 x.cix ++ leBytes 1 x.cell ++ leBytes 1 x.tag

def seqEntry (s : State) (id : Nat) : Nat := s.cfg.seqTable + 512 * id
/-- An identifier of 20 bits that names an entry of the table: 1 to its length (R104, Table 170). -/
def seqNamed (s : State) (id : Nat) : Bool := id != 0 && decide (id ≤ s.cfg.seqLen) && decide (id < 2 ^ 20)

/-- FIRSTSLOT of each span is the running sum of the lengths. -/
def slotsRun : Nat → List Span → Bool
  | _, [] => true
  | n, x :: t => x.slot == n && slotsRun (n + x.len) t
/-- No two spans share a cell. -/
def spansApart : List Span → Bool
  | [] => true
  | x :: t => (t.all fun y => decide (endCell x ≤ startCell y) || decide (endCell y ≤ startCell x) || x.len == 0 || y.len == 0)
      && spansApart t

/-- The invariants of R105, chain entries apart. -/
def headerBad (v id : Nat) : Bool :=
  let nspan := at8 v 6 1
  let nchain := at8 v 0x10 4
  let cap := at8 v 0x14 4
  let slots := at8 v 8 4
  let spans := (List.range nspan).map (spanOf v)
  let tail := 64 * nchain + at8 v 7 1 - 64
  at8 v 0 4 % 2 ^ 20 != id || decide (28 < nspan) || decide (cap < nchain) || decide (65536 < cap)
  || !(slotsRun 0 spans) || slots != (spans.map Span.len).foldl (· + ·) 0
  || (slots == 0) != (nchain == 0 && nspan == 0)
  || spans.any (fun x => decide (tail < endCell x)) || !(spansApart spans)

def words4 : Nat → List Byte → List Nat
  | 0, _ => []
  | n + 1, bs => leNat (bs.take 4) % 2 ^ 24 :: words4 n (bs.drop 4)

/-- Read an entry with the checks of R105. -/
def readSeq (w : SeqBy) (id : Nat) : Eng (SeqRec × Pool) := do
  let s ← get
  if !(seqNamed s id) then seqFail 0x240
  else
    let a := seqEntry s id
    let v ← tabNat w a 512
    if !(bit v 31) then seqFail 0x240
    else
      let d := homeDie a
      let p ← readPool w d (at8 v 4 1)
      if headerBad v id then seqFail 0x247
      else
        let n := at8 v 0x10 4
        let ca := bits (at8 v 0x18 8) 51 2 * 4
        let cb ← (if n = 0 then pure [] else farRead w d ca (4 * n))
        let chain := words4 n cb
        if chain.any (p.nb ≤ ·) then seqFail 0x247
        else pure ({ at_ := a, id := id, pool := at8 v 4 1, tag := at8 v 5 1 % 16, tail := at8 v 7 1, slots := at8 v 8 4,
                     nextPh := at8 v 0xC 4, cap := at8 v 0x14 4, chainAt := ca,
                     spans := (List.range (at8 v 6 1)).map (spanOf v), chain := chain }, p)

/-- Write an entry back. -/
def saveSeq (w : SeqBy) (q : SeqRec) : Eng Unit := do
  tabWrite w (q.at_ + 4) (leBytes 1 q.pool ++ leBytes 1 q.tag ++ leBytes 1 q.spans.length ++ leBytes 1 q.tail
    ++ leBytes 4 q.slots ++ leBytes 4 q.nextPh ++ leBytes 4 q.chain.length)
  tabWrite w (q.at_ + 0x40) (q.spans.flatMap spanBytes)
  tabWrite w q.chainAt (q.chain.flatMap (leBytes 4))

/-! ## Appending (R111) -/

/-- Bits lo to lo + n - 1. -/
def runMask (lo n : Nat) : Nat := (2 ^ n - 1) * 2 ^ lo

/-- New blocks take up to 64 tokens each. -/
def fillNew (w : SeqBy) (p : Pool) : Nat → List Nat → Eng Unit
  | _, [] => pure ()
  | n, b :: t => do
    setLive w p b (runMask 0 (min n 64))
    fillNew w p (n - min n 64) t

def lastExtends (q : SeqRec) : Bool :=
  match q.spans.getLast? with
  | some x => x.tag == q.tag && endCell x == tailCell q
  | none => false

/-- A tail block that another chain names is copied before it is changed. -/
def ownTail (w : SeqBy) (p : Pool) (b r : Nat) (fresh : List Nat) : Eng (Nat × List Nat) := do
  match fresh with
  | [] => pure (b, [])
  | b2 :: t =>
    if r > 1 then
      copyBlock w p b b2
      let lv ← getLive w p b
      setLive w p b2 lv
      setRef w p b (r - 1)
      pure (b2, t)
    else pure (b, fresh)

def lengthen : List Span → Nat → List Span
  | [], _ => []
  | [x], n => [{ x with len := x.len + n }]
  | x :: t, n => x :: lengthen t n

/-- The spans, slots, phases and chain after n tokens. -/
def appended (q : SeqRec) (n : Nat) (chain fresh : List Nat) : SeqRec :=
  let room := if q.chain.isEmpty then 0 else 64 - q.tail
  let fromTail := q.tail < 64 && !q.chain.isEmpty
  let x : Span := { slot := q.slots, len := n, ph := q.nextPh,
                    cix := if fromTail then q.chain.length - 1 else q.chain.length, cell := if fromTail then q.tail else 0,
                    tag := q.tag }
  { q with
    spans := if lastExtends q then lengthen q.spans n else q.spans ++ [x]
    slots := q.slots + n, nextPh := q.nextPh + n, chain := chain ++ fresh
    tail := if n ≤ room then q.tail + n else (if (n - room) % 64 = 0 then 64 else (n - room) % 64) }

/-- Cells left in the tail block, and the new blocks that n tokens need beyond them. -/
def tailRoom (q : SeqRec) : Nat := if q.chain.isEmpty then 0 else 64 - q.tail
def newBlocks (q : SeqRec) (n : Nat) : Nat := ceilDiv (n - tailRoom q) 64

/-- An append's first part, at the pool home: its checks, and the reservation of its blocks; one more where the tail block is
shared now. -/
def appendReserve (w : SeqBy) (id n : Nat) : Eng (Nat × List Nat) := do
  let (q, p) ← readSeq w id
  if q.nextPh + n - 1 > 0xFFFFFFFE ∨ q.slots + n > 0xFFFFFFFF then seqFail 0x245
  else if !(lastExtends q) && q.spans.length == 28 then seqFail 0x243
  else if q.cap < q.chain.length + newBlocks q n then seqFail 0x244
  else
    let r ← (if tailRoom q > 0 then getRef w p (q.chain.getLastD 0) else pure 0)
    let (_, l) ← reserve w p (newBlocks q n + (if r > 1 then 1 else 0))
    pure (q.pool, l)

/-- The second part, at the control homes, with the blocks reserved: the slot and the phase of the first token. The block
reserved for a copy comes first, and is returned where the tail block is no longer shared. -/
def seqAppend (w : SeqBy) (id n : Nat) (l : List Nat) : Eng DWord := do
  let (q, p) ← readSeq w id
  let room := tailRoom q
  let fresh := l.drop (l.length - newBlocks q n)
  let b := q.chain.getLastD 0
  let r ← (if room > 0 then getRef w p b else pure 0)
  let (b1, spare) ← (if room > 0 then ownTail w p b r (l.take (l.length - newBlocks q n))
    else pure (b, l.take (l.length - newBlocks q n)))
  if room > 0 then
    let lv ← getLive w p b1
    setLive w p b1 (lv ||| runMask q.tail (min n room))
  else pure ()
  fillNew w p (n - room) fresh
  saveSeq w (appended q n (if q.chain.isEmpty then [] else q.chain.dropLast ++ [b1]) fresh)
  let _ ← releaseAll w spare.reverse p
  pure (word64 (q.slots + q.nextPh * 2 ^ 32))

/-! ## Forking (R113) -/

def raiseRefs (w : SeqBy) (p : Pool) : List Nat → Eng Unit
  | [] => pure ()
  | b :: t => do
    let r ← getRef w p b
    if r ≥ 0xFFFF then seqFail 0x246
    else
      setRef w p b (r + 1)
      raiseRefs w p t

def seqForkTo (w : SeqBy) (id child : Nat) : Eng DWord := do
  let (q, p) ← readSeq w id
  if child = id then seqFail 0x249
  else
    let (t, _) ← readSeq w child
    if t.slots ≠ 0 then seqFail 0x249
    else if t.cap < q.chain.length then seqFail 0x244
    else
      raiseRefs w p q.chain
      saveSeq w { q with at_ := t.at_, id := t.id, cap := t.cap, chainAt := t.chainAt }
      pure 0

/-! ## Tags (R112, R114) -/

def seqTag (w : SeqBy) (id tag : Nat) : Eng DWord := do
  let (q, _) ← readSeq w id
  saveSeq w { q with tag := tag }
  pure 0

/-- The cells of some spans in chain entry j. -/
def cellsIn (xs : List Span) (j : Nat) : Nat :=
  xs.foldl (fun m x =>
    let lo := max (startCell x) (64 * j)
    let hi := min (endCell x) (64 * (j + 1))
    if lo < hi then m ||| runMask (lo - 64 * j) (hi - lo) else m) 0

def keepOf (live m : Nat) : Nat := live - (live &&& m)

/-- How many blocks must be copied because another chain names them. -/
def copiesFor (w : SeqBy) (p : Pool) (xs : List Span) : Nat → List Nat → Eng Nat
  | _, [] => pure 0
  | j, b :: t => do
    let live ← getLive w p b
    let r ← getRef w p b
    let n ← copiesFor w p xs (j + 1) t
    let m := cellsIn xs j
    pure (if m ≠ 0 ∧ keepOf live m ≠ 0 ∧ r > 1 then n + 1 else n)

/-- The chain with the retired cells taken out: each entry as it stands afterwards, none where it is removed, the pool, and
the reserved blocks left over. A block with live tokens left whose count is 0 is changed in place, as one named once is: the
manual gives it no reservation (log entry 90). -/
def retireChain (w : SeqBy) (xs : List Span) : Nat → List Nat → List Nat → Pool → Eng (List (Option Nat) × Pool × List Nat)
  | _, [], fresh, p => pure ([], p, fresh)
  | j, b :: t, fresh, p => do
    let m := cellsIn xs j
    if m = 0 then
      let (l, e) ← retireChain w xs (j + 1) t fresh p
      pure (some b :: l, e)
    else
      let live ← getLive w p b
      let r ← getRef w p b
      let keep := keepOf live m
      if keep = 0 then
        let p1 ← releaseBlock w p b
        let (l, e) ← retireChain w xs (j + 1) t fresh p1
        pure (none :: l, e)
      else match (if r ≤ 1 then [] else fresh) with
        | [] =>
          setLive w p b keep
          let (l, e) ← retireChain w xs (j + 1) t fresh p
          pure (some b :: l, e)
        | b2 :: rest =>
          copyBlock w p b b2
          setLive w p b2 keep
          setRef w p b (r - 1)
          let (l, e) ← retireChain w xs (j + 1) t rest p
          pure (some b2 :: l, e)

/-- The remaining spans with CHAINIX and FIRSTSLOT recomputed. -/
def resettle (gone : List Nat) : Nat → List Span → List Span
  | _, [] => []
  | n, x :: t =>
    { x with slot := n, cix := x.cix - (gone.filter fun j => j < x.cix).length } :: resettle gone (n + x.len) t

/-- The spans of a tag. -/
def taggedBy (q : SeqRec) (tag : Nat) : List Span := q.spans.filter fun x => x.tag == tag

/-- A retirement's first part, at the pool home: a block reserved for each that must be copied now. -/
def retireReserve (w : SeqBy) (id tag : Nat) : Eng (Nat × List Nat) := do
  let (q, p) ← readSeq w id
  let cp ← copiesFor w p (taggedBy q tag) 0 q.chain
  let (_, l) ← reserve w p cp
  pure (q.pool, l)

/-- The second part, at the control homes: the tokens retired and the entries removed. -/
def seqRetire (w : SeqBy) (id tag : Nat) (blocks : List Nat) : Eng DWord := do
  let (q, p) ← readSeq w id
  let xs := taggedBy q tag
  if xs.isEmpty then pure 0
  else
    let (l, p1, spare) ← retireChain w xs 0 q.chain blocks p
    let gone := (List.range l.length).filter fun j => (l.getD j none).isNone
    let chain := l.filterMap (fun x => x)
    let total := (xs.map Span.len).foldl (· + ·) 0
    let lastGone := gone.contains (q.chain.length - 1)
    saveSeq w { q with
      chain := chain, spans := resettle gone 0 (q.spans.filter fun x => x.tag != tag), slots := q.slots - total
      tail := if lastGone then (if chain.isEmpty then 0 else 64) else q.tail }
    let _ ← releaseAll w spare.reverse p1
    pure (word64 (total + gone.length * 2 ^ 32))

/-! ## Creating and destroying (R116, R436) -/

def seqDestroyAt (w : SeqBy) (id : Nat) : Eng DWord := do
  let (q, p) ← readSeq w id
  let _ ← releaseAll w q.chain p
  saveSeq w { q with chain := [], spans := [], slots := 0, tail := 0, nextPh := 0, tag := 0 }
  tabPut w q.at_ 4 id
  pure 0

def seqCreateAt (w : SeqBy) (id pool chain cap : Nat) : Eng DWord := do
  let s ← get
  if !(seqNamed s id) then seqFail 0x240
  else
    let a := seqEntry s id
    let v ← tabNat w a 4
    if bit v 31 then seqFail 0x24B
    else
      let _ ← readPool w (homeDie a) pool
      tabWrite w a (leBytes 4 (2 ^ 31 + id) ++ leBytes 4 pool ++ leBytes 12 0 ++ leBytes 4 cap ++ leBytes 8 chain)
      tabWrite w (a + 0x40) (leBytes 448 0)
      pure 0

/-! ## Translation (R106, R351) -/

def spanAt (f : Span → Nat) (l : List Span) (x : Nat) : Option Span :=
  l.find? fun y => decide (f y ≤ x) && decide (x < f y + y.len)

/-- The cell word of a token of a span. -/
def cellWord (q : SeqRec) (x : Span) (k : Nat) : Nat :=
  let c := x.cell + k
  q.chain.getD (x.cix + c / 64) 0 + c % 64 * 2 ^ 24

/-- KVX: cell and phase of a slot, none beyond SLOTS. -/
def slotCell (q : SeqRec) (x : Nat) : Option (Nat × Nat) :=
  if q.slots ≤ x then none
  else (spanAt Span.slot q.spans x).map fun y => (cellWord q y (x - y.slot), y.ph + (x - y.slot))
/-- KVXR: cell and slot of a phase. -/
def phaseCell (q : SeqRec) (x : Nat) : Nat × Nat :=
  match spanAt Span.ph q.spans x with
  | some y => (cellWord q y (x - y.ph), y.slot + (x - y.ph))
  | none => (0xFFFFFFFF, 0xFFFFFFFF)

/-! ## At the sequence home (R108) -/

/-- The job whose agent an operation is. -/
def opJob (s : State) (o : HomeOp) : Option Nat :=
  match o.by_ with
  | .entry _ _ => (s.team ((s.group o.group).team.getD 0)).job
  | _ => none

def opBy (s : State) (o : HomeOp) : SeqBy := { slot := o.slot, gen := o.gen, keyslot := o.keyslot, priv := o.priv, job := opJob s o }

/-- One lane's answer returns to it; a failure is reported with the identifier and the operand (R353). -/
def kvxLane (s : State) (acc : Nat) (core g lane : Nat) (v : Nat × Nat) : State :=
  let (id, s1) := s.newId
  let r : Req := { src := .lane acc lane, len := 8, core := core, group := g, stage := .response, data := v.1 + v.2 * 2 ^ 32 }
  (putReq s1 id r).add .loadReturn id
def kvxFail (s : State) (acc : Nat) (l : CapLane) (cause : Nat) : State :=
  answerUnit s acc l.lane (.failed cause (word64 (l.ia % 2 ^ 20 * 2 ^ 32 + l.d)))

def kvxAnswers (s : State) (acc core g : Nat) (reverse : Bool) (q : SeqRec) : List CapLane → State
  | [] => s
  | l :: t =>
    let s1 := if reverse then kvxLane s acc core g l.lane (phaseCell q l.d)
      else match slotCell q l.d with
        | some v => kvxLane s acc core g l.lane v
        | none => kvxFail s acc l 0x248
    kvxAnswers s1 acc core g reverse q t

/-- A home operation has failed: it changes nothing (R117), so what it reserved is returned before it answers. -/
def opFailed (s : State) (id : Nat) (o : HomeOp) (cause : Nat) : State :=
  match o.kind with
  | .kvx acc _ lanes => lanes.foldl (fun t l => kvxFail t acc l cause) (dropOp s id)
  | _ =>
    if (o.blocks.getD []).isEmpty then opReply s id cause 0
    else if o.cause != 0 then
      -- The return has been held for the limit: the operation is answered, and its blocks go back when they can.
      let (b, s1) := s.newOp { o with by_ := .device, held := none, heldAt := 0 }
      opReply (s1.after 1 .sequenceOpApply b) id cause 0
    else (s.updOp id fun x => { x with cause := cause, held := none }).after 1 .sequenceOpApply id

def holdOp (s : State) (id : Nat) (o : HomeOp) (again : Instr) (ev : Option DWord) (cause : Nat) : State :=
  if o.held == ev && o.heldAt != 0 then s.after 1 again id
  else ((s.updOp id fun x => { x with begun := true, held := ev, heldAt := s.now + 1 }).after 1 again id).after s.cfg.engineLimit
    .engineResidencyTimeout id 3 (s.now + 1) (word64 cause)

def stallOp (s : State) (id : Nat) (o : HomeOp) (again : Instr) (st : Stall) : State :=
  match st with
  | .fault c _ => opFailed s id o c
  | .wait (some n) _ s1 =>
    if jobRestartable s1 (opJob s1 o) then abortJob s1 ((opJob s1 o).getD 0) n else holdOp s1 id o again (some n) 0x115
  | .wait none _ s1 => (s1.updOp id fun x => { x with begun := true }).after 1 again id
  | .spill s1 => holdOp s1 id o again none 0x142

def resumeOp (s : State) (id : Nat) (o : HomeOp) (act : State) : State :=
  match holdState s o.held with
  | .faulted => opFailed s id o (faultedCause s (o.held.getD 0))
  | _ => act

/-- What an operation reserves before it changes anything, with its pool. -/
def seqReserve (w : SeqBy) (id : Nat) : HomeKind → Eng (Nat × List Nat)
  | .seqApp n => appendReserve w id n
  | .spanRet t => retireReserve w id t
  | _ => pure (0, [])

/-- The reserved blocks of a failed operation are returned in reverse order to the pool from which they came, whatever has become
of the sequence (R111, R117). -/
def returnBlocks (w : SeqBy) (id pool : Nat) (l : List Nat) : Eng Unit := do
  let s ← get
  let a := s.cfg.poolTable + 64 * pool
  let bs ← farRead w (homeDie (seqEntry s id)) a 64
  let _ ← releaseAll w l.reverse (poolOf a (leNat bs))

/-- What an operation computes with the blocks that it has reserved, other than a translation. -/
def seqAction (w : SeqBy) (id : Nat) (l : List Nat) : HomeKind → Eng DWord
  | .seqApp n => seqAppend w id n l
  | .seqFork child => seqForkTo w id child
  | .spanTag t => seqTag w id t
  | .spanRet t => seqRetire w id t l
  | .seqCreate pool chain cap => seqCreateAt w id pool chain cap
  | .seqDestroy => seqDestroyAt w id
  | _ => pure 0

/-- One step of an operation, all of it or nothing (R108, R117): it reserves at the pool home what it may need, and with
that acts at the homes of what it changes in a later step (R109). -/
def applySeq (s : State) (id : Nat) (o : HomeOp) : State :=
  let w := opBy s o
  let q := o.target.toNat
  let stall := stallOp s id o .sequenceOpApply
  match o.kind, o.blocks with
  | .kvx acc reverse lanes, _ =>
    (match atomically (readSeq w q) s with
      | .error st => stall st
      | .ok ((r, _), _) => kvxAnswers (dropOp s id) acc (o.group / 32) o.group reverse r lanes)
  | k, none =>
    (match atomically (seqReserve w q k) s with
      | .error st => stall st
      | .ok ((p, l), s1) => (s1.updOp id fun x => { x with begun := true, blocks := some l, pool := p, held := none, heldAt := 0 }).after 1
          .sequenceOpApply id)
  | k, some l =>
    if o.cause = 0 then
      match atomically (seqAction w q l k) s with
      | .error st => stall st
      | .ok (v, s1) => opReply s1 id 0 v
    else match atomically (returnBlocks w q o.pool l) s with
      | .error (.fault _ _) => opReply s id o.cause 0
      | .error (.wait (some n) _ s1) => holdOp s1 id o .sequenceOpApply (some n) 0x115
      | .error (.wait none _ s1) => s1.after 1 .sequenceOpApply id
      | .error (.spill s1) => s1.after 1 .sequenceOpApply id
      | .ok (_, s1) => opReply s1 id o.cause 0

/-- SEQUENCE_OP_APPLY: `x` the operation. -/
def execSequenceOpApply (s : State) : Host.Outcome State Fault Refusal :=
  .next (
    let o := s.op s.cur.x
    if !o.live || o.applied then s
    else if o.cause != 0 then applySeq s s.cur.x o
    else resumeOp s s.cur.x o (applySeq s s.cur.x o))

def changesSeq : HomeKind → Bool
  | .kvx .. => false
  | _ => true

/-- An ATTQ scores the sequence, has come to the head of its order, or stands before the operation in its group's order
(R108, R352). -/
def attqBefore (s : State) (o : HomeOp) : Bool :=
  s.eng.attqs.any fun p => p.2.live && (seqTargets o).contains p.2.seq
    && (if p.2.admitted then changesSeq o.kind && !p.2.todo.isEmpty
        else p.2.begun || (p.2.by_.group == o.group && decide (p.2.by_.order < o.order)))

/-- Another operation on one of these sequences has begun, and is not through (R108). -/
def begunBefore (s : State) (id : Nat) (seqs : List Nat) : Bool :=
  s.task.ops.any fun p => p.1 != id && p.2.live && !p.2.applied && isSeqOp p.2.kind && p.2.begun && p.2.cause == 0
    && (seqTargets p.2).any fun t => seqs.contains t

/-- It can be taken, but for the order within a cycle. -/
def seqFree (s : State) (id : Nat) : Bool :=
  let o := s.op id
  !o.live || o.applied || (holdState s o.held != .waits
    && (o.begun || (opReady s id && !(attqBefore s o) && !(begunBefore s id (seqTargets o)))))

/-- Operations that come to the homes in one cycle are taken in ascending order of sequence identifier (R109). -/
def seqReady (s : State) (h : Happening) : Bool :=
  let q := (s.op h.x).target.toNat
  seqFree s h.x && !(s.agenda.any fun g => g.what == .sequenceOpApply && g.due == h.due
    && decide ((s.op g.x).target.toNat < q) && seqFree s g.x)

/-! ## The sequence instructions (R413) -/

/-- Send an operation on the sequence of s[sa]; `low` is what ADDR gives below the identifier. An acquire before it holds it
(R129, R349). -/
def seqSend (s : State) (kind : HomeKind) (id low : Nat) (dst : Option Nat) : State :=
  if acquireOpen s (heldLanes s) then s
  else
    let s1 := sideEffect s
    advance (sendOp s1 (curOp s1 kind (word64 id) (word64 (id * 2 ^ 32 + low)) dst false) .sequenceOpApply).2

/-- The identifier in a register; non-zero bits above it raise 0x240 at issue. -/
def withSeqId (s : State) (r : Nat) (act : Nat → State) : State :=
  let v := (rdS s r).toNat
  if 2 ^ 20 ≤ v then raise s 0x240 else act v

def execSeqapp (o : UR) (s : State) : Host.Outcome State Fault Refusal :=
  .next (uniformOp s (.seqapp o) [o.d.toNat, o.a.toNat, o.c.toNat]
    (withSeqId s o.a.toNat fun id =>
      let n := (rdS s o.c.toNat).toNat
      if n = 0 ∨ 4096 < n then raise s 0x087 else seqSend s (.seqApp n) id 0 (some o.d.toNat)))

def execSeqfork (o : UR) (s : State) : Host.Outcome State Fault Refusal :=
  .next (uniformOp s (.seqfork o) [o.a.toNat, o.c.toNat]
    (withSeqId s o.a.toNat fun id => withSeqId s o.c.toNat fun child => seqSend s (.seqFork child) id 0 none))

def execSpantag (o : UR) (s : State) : Host.Outcome State Fault Refusal :=
  .next (uniformOp s (.spantag o) [o.a.toNat, o.c.toNat]
    (withSeqId s o.a.toNat fun id =>
      let t := (rdS s o.c.toNat).toNat
      if 16 ≤ t then raise s 0x087 else seqSend s (.spanTag t) id t none))

def execSpanret (o : UR) (s : State) : Host.Outcome State Fault Refusal :=
  .next (uniformOp s (.spanret o) [o.d.toNat, o.a.toNat, o.c.toNat]
    (withSeqId s o.a.toNat fun id =>
      let t := (rdS s o.c.toNat).toNat
      if 16 ≤ t then raise s 0x087 else seqSend s (.spanRet t) id t (some o.d.toNat)))

/-! ## KVX and KVXR (R351) -/

def kvxForm (o : LR) (reverse : Bool) : MemForm :=
  { d := o.d.toNat, a := o.a, sb := 0, fa := o.fa, x := none, n := 8, regs := 2, dsts := 2, kind := .kvx reverse,
    wflag := true, signed := false, scope := 0 }

def kvxOp (s : State) (i : Instr) (o : LR) (reverse : Bool) : State :=
  let src : List Field := [⟨o.a.toNat, 1, o.fa⟩, ⟨o.v.toNat, 1, o.fb⟩]
  laneWord s i o.p fun lanes =>
    if !(fieldsFit (⟨o.d.toNat, 2, false⟩ :: src)) then raiseFull s 0x082 (maskOf lanes) 0 0 false
    else withSources s (fieldSrcs lanes src) (fieldSrcs lanes [⟨o.d.toNat, 2, false⟩])
      (if 63 ≤ counter (curGroup s) 2 then yieldFor s (.counter 2 62)
       else if acquireOpen s (maskOf lanes) then s
       else
        let m := kvxForm o reverse
        let cap : Capture := { kind := m.kind, n := 8, wflag := true, dst := curDst s m lanes, lanes := lanes.map fun l =>
          { lane := l, ia := (rdV s l o.a.toNat).toNat, d := (rdV s l o.v.toNat).toNat } }
        advance (startAccess s (curIssuer s (maskOf lanes)) cap true).2)

def execKvx (o : LR) (s : State) : Host.Outcome State Fault Refusal := .next (kvxOp s (.kvx o) o false)
def execKvxr (o : LR) (s : State) : Host.Outcome State Fault Refusal := .next (kvxOp s (.kvxr o) o true)

end Sys2Proof.Machine
end

