-- ==== Sys2Proof/Machine/Attq.lean ====
section
/-! DEFINITION. Attention: ATTQ, the slice attention units and the merge tree (R102, R108, R165, R315, R316, R414, R415),
and the engine residency limit (R57, R90). Unless said otherwise a happening's `x` is its ATTQ. -/
namespace Sys2Proof.Machine

def State.attq (s : State) (id : Nat) : AttQuery := s.eng.attqs.get id
def State.setAttq (s : State) (id : Nat) (a : AttQuery) : State :=
  { s with eng := { s.eng with attqs := s.eng.attqs.put id a } }
def dropAttq (s : State) (id : Nat) : State := { s with eng := { s.eng with attqs := Sparse.erase s.eng.attqs id } }

def attBy (a : AttQuery) : SeqBy :=
  { slot := a.by_.slot, gen := a.by_.gen, keyslot := a.by_.keyslot, priv := a.by_.priv, job := a.by_.job }

/-! ## Ends -/

/-- ADDR of an ATTQ's cause (R406): the identifier above bits 37:20 of s[sa]. -/
def attAddr (a : AttQuery) : Nat := a.seq * 2 ^ 32 + bits a.sa.toNat 37 20

/-- Its handles: the result's fill ends and the query's reader finishes. -/
def attHandles (s : State) (id : Nat) (a : AttQuery) : State :=
  let r := handleKey a.by_.core a.handle
  let s1 := if (s.handle r).permit == some id then fillEnd s r else s
  readEnd s1 (handleKey a.by_.core (opHandle a.word)) (opLast a.word)

def attDone (s : State) (id : Nat) (a : AttQuery) : State := finishOp (attHandles (dropAttq s id) id a) a.by_ 3 id

/-- A failure at the home or in an SAU: an engine fault (R162, R415). -/
def attFail (s : State) (id : Nat) (a : AttQuery) (cause : Nat) : State :=
  let s1 := raiseEng s a.by_ (engTrap a.by_ cause (attAddr a) (if cause / 64 = 6 then 256 else 0) false)
  if !(s1.attq id).live then s1 else attDone s1 id a

def stallAttq (s : State) (id : Nat) (a : AttQuery) (st : Stall) (again : State → State) : State :=
  match st with
  | .fault c _ => attFail s id a c
  | .wait (some n) _ s1 =>
    if jobRestartable s1 a.by_.job then abortJob s1 (a.by_.job.getD 0) n
    else if a.held == some n then again s1
    else (again (s1.setAttq id { a with begun := true, held := some n, heldAt := s1.now + 1 })).after s.cfg.engineLimit
      .engineResidencyTimeout id 1 (s1.now + 1) 0x115
  | .wait none _ s1 => again (s1.setAttq id { a with begun := true })
  | .spill s1 => again s1

def resumeAttq (s : State) (id : Nat) (a : AttQuery) (act : State) : State :=
  match holdState s a.held with
  | .faulted => attFail s id a (faultedCause s (a.held.getD 0))
  | _ => act

/-! ## Admission (R108, R415) -/

/-- The slice position 64 × die + slice at which a block of the layer is scored (R99). -/
def blockPos (p : Pool) (l b : Nat) : Nat :=
  let ia := blockAt p l b 0
  homeDie ia * 64 + sliceOf ia % 64

def readLives (w : SeqBy) (p : Pool) : List Nat → Eng (List (Nat × Nat))
  | [] => pure []
  | b :: t => do
    let v ← getLive w p b
    let l ← readLives w p t
    pure ((b, v) :: l)

/-- What the home checks and reads. -/
def attAdmit (s : State) (a : AttQuery) : Eng (Pool × List (Nat × Nat)) := do
  let w := attBy a
  let (q, p) ← readSeq w a.seq
  let d := 8 * p.ng
  if p.nl ≤ a.layer ∨ p.nh ≤ a.head then seqFail 0x24A
  else if (s.handle (handleKey a.by_.core (opHandle a.word))).size < opOff a.word + a.heads * 4 * d then seqFail 0x1C4
  else if (s.handle (handleKey a.by_.core a.handle)).size < a.heads * 4 * (d + 2) then seqFail 0x187
  else
    let l ← readLives w p q.chain
    pure (p, l)

/-- ATTQ_ADMIT. -/
def execAttqAdmit (s : State) : Host.Outcome State Fault Refusal :=
  .next (
    let id := s.cur.x
    let a := s.attq id
    if !a.live || a.admitted then s
    else resumeAttq s id a (match atomically (attAdmit s a) s with
      | .error st => stallAttq s id a st fun t => t.after 1 .attqAdmit id
      | .ok ((p, l), s1) =>
        let todo := l.foldr (fun b t => insertRise (blockPos p a.layer b.1) t) []
        let s2 := s1.setAttq id { a with admitted := true, pool := p, blocks := l, todo := todo, held := none, heldAt := 0 }
        if todo.isEmpty then s2.add .attqResultLand id else todo.foldl (fun t g => t.add .sauPartialDone id g) s2))

/-- No earlier operation of its group on the sequence is still on its way, and none that has begun (R108). -/
def admitReady (s : State) (id : Nat) : Bool :=
  let a := s.attq id
  !a.live || a.admitted || (holdState s a.held != .waits && (a.begun || !(begunBefore s 0 [a.seq]))
    && !(s.task.ops.any fun p => p.2.live && !p.2.applied && isSeqOp p.2.kind && p.2.group == a.by_.group
      && ofEntry p.2 && decide (p.2.order < a.by_.order) && (seqTargets p.2).contains a.seq))

/-! ## Scoring (R102, R316) -/

/-- Byte of a block as an agent of the ATTQ's job. -/
def blockByte (w : SeqBy) (p : Pool) (l b o n : Nat) : Eng (List Byte) :=
  let ia := blockAt p l b o
  engRead { seqPort w ia with job := w.job } ia n

def blockBytes (w : SeqBy) (p : Pool) (l b : Nat) : List (Nat × Nat) → Eng (List Byte)
  | [] => pure []
  | (o, n) :: t => do
    let x ← blockByte w p l b o n
    let y ← blockBytes w p l b t
    pure (x ++ y)

/-- A run of n bytes from o, cut at multiples of 256. -/
def blockRun (o n : Nat) : List (Nat × Nat) := granules 2 o n

/-- A codebook's entries: 256 of 8 bfloat16 channels (R101), read by an SAU of die `d` as an agent of the ATTQ's job. -/
def readCodebook (w : SeqBy) (d : Nat) (p : Pool) (l h k : Nat) : Eng (Array Byte) := do
  let ia := p.cb + ((l * p.nh + h) * 2 + k) * 4096
  let b ← engRead { seqPort w ia with die := d, job := w.job } ia 4096
  pure b.toArray

def cbChan (cb : Array Byte) (i c : Nat) : Nat :=
  (cb.getD (16 * i + 2 * c) 0).toNat + 256 * (cb.getD (16 * i + 2 * c + 1) 0).toNat

/-- An element of a query head, binary32. -/
def queryAt (q : Array Byte) (i : Nat) : Nat := leNat ((List.range 4).map fun j => q.getD (4 * i + j) 0)

/-- T[g][i] for one index i. -/
def lutEntry (q cb : Array Byte) (base g i : Nat) : Nat :=
  sumRound b32 .rne ((List.range 8).map fun c =>
    fvMul (fDecode b32 (queryAt q (base + 8 * g + c))) (fDecode bf16 (cbChan cb i c)))

/-- score(q) of R415: the raw score, scaled and rounded again. -/
def scoreOf (scale : Nat) (q cb : Array Byte) (base : Nat) (keys : List Nat) : Nat :=
  let raw := sumRound b32 .rne ((List.range keys.length).map fun g => fDecode b32 (lutEntry q cb base g (keys.getD g 0)))
  fMul b32 .rne scale raw

/-- V(q): widened exactly. -/
def valueOf (cb : Array Byte) (idx : List Nat) : List Nat :=
  idx.flatMap fun i => (List.range 8).map fun c => widen bf16 b32 (cbChan cb i c)

def toNats (l : List Byte) : List Nat := l.map BitVec.toNat

/-- The live positions of one block, in ascending order, merged into each head's triple. -/
def scorePositions (w : SeqBy) (p : Pool) (a : AttQuery) (q ck cv : Array Byte) (b : Nat) :
    List Nat → List Triple → Eng (List Triple)
  | [], t => pure t
  | pos :: rest, t => do
    let o := (pos * p.nh + a.head) * p.ng
    let ks ← blockBytes w p a.layer b (blockRun o p.ng)
    let vs ← blockBytes w p a.layer b (blockRun (64 * p.nh * p.ng + o) p.ng)
    let v := valueOf cv (toNats vs)
    let t1 := t.mapIdx fun i x => merge x ⟨scoreOf a.scale q ck (i * 8 * p.ng) (toNats ks), 0x3F800000, v⟩
    scorePositions w p a q ck cv b rest t1

def scoreBlocks (w : SeqBy) (p : Pool) (a : AttQuery) (q ck cv : Array Byte) : List (Nat × Nat) → List Triple → Eng (List Triple)
  | [], t => pure t
  | (b, live) :: rest, t => do
    let t1 ← scorePositions w p a q ck cv b ((List.range 64).filter (bit live)) t
    scoreBlocks w p a q ck cv rest t1

/-- The partial triples of all heads at one slice position. -/
def sauPartial (s : State) (a : AttQuery) (g : Nat) : Eng (List Triple × Nat) := do
  let w := attBy a
  let p := a.pool
  let q := (scratchBytes s a.by_.core (operandAt s a.by_.core a.by_.team a.word) (a.heads * 32 * p.ng)).toArray
  let ck ← readCodebook w (g / 64) p a.layer a.head 0
  let cv ← readCodebook w (g / 64) p a.layer a.head 1
  let mine := a.blocks.filter fun b => blockPos p a.layer b.1 == g
  let t ← scoreBlocks w p a q ck cv mine (List.replicate a.heads (tripleEmpty (8 * p.ng)))
  pure (t, mine.length)

def tripleList (t : Triple) : List Nat := t.m :: t.s :: t.o

/-- SAU_PARTIAL_DONE: `y` the slice position. -/
def execSauPartialDone (s : State) : Host.Outcome State Fault Refusal :=
  .next (
    let id := s.cur.x
    let g := s.cur.y
    let a := s.attq id
    if !a.live || !(a.todo.contains g) then s
    else resumeAttq s id a (match sauPartial s a g s with
      | .error st => stallAttq s id a st fun t => t.after 1 .sauPartialDone id g
      | .ok ((l, n), s1) =>
        let todo := a.todo.filter (· != g)
        let s2 := s1.setAttq id { a with
          todo := todo, parts := a.parts.put g (l.map tripleList), held := none, heldAt := 0 }
        let s3 := pmEng s2 a.by_ 0x0F n
        if todo.isEmpty then s3.add .attqResultLand id else s3))

/-- What the ATTQ was held on no longer waits. -/
def sauReady (s : State) (id : Nat) : Bool := holdState s (s.attq id).held != .waits

/-! ## The root (R165, R415) -/

/-- RoundFP32_RNE(a / b). -/
def fDiv (a b : Nat) : Nat :=
  match fDecode b32 a, fDecode b32 b with
  | .nan, _ => b32.nan
  | _, .nan => b32.nan
  | .inf _, .inf _ => b32.nan
  | .inf x, .fin y _ _ => fInf b32 (x != y)
  | .fin x _ _, .inf y => fSigned b32 (x != y) 0
  | .fin x m e, .fin y n f =>
    if n = 0 then (if m = 0 then b32.nan else fInf b32 (x != y))
    else if m = 0 then fSigned b32 (x != y) 0
    else roundReal b32 .rne false (x != y) (m * 2 ^ 64 / n) (e - f - 64) (m * 2 ^ 64 % n != 0)

def tripleOf (d : Nat) (l : List Nat) : Triple :=
  match l with
  | m :: s :: o => ⟨m, s, o⟩
  | _ => tripleEmpty d

/-- The fixed tree over slice positions i × 2^n to (i + 1) × 2^n - 1. -/
def treeAt (f : Nat → Triple) : Nat → Nat → Triple
  | 0, i => f i
  | n + 1, i => merge (treeAt f n (2 * i)) (treeAt f n (2 * i + 1))

def rootOf (a : AttQuery) (d i : Nat) : Triple :=
  treeAt (fun g => tripleOf d ((a.parts.get g).getD i [])) 8 0

/-- With N the root's vector is divided by its sum. -/
def finishRoot (a : AttQuery) (t : Triple) : Triple :=
  if a.norm && t.s != 0 then { t with o := t.o.map fun x => fDiv x t.s } else t

def rootBytes (t : Triple) : List Byte := (tripleList t).flatMap (leBytes 4)

/-- ATTQ_RESULT_LAND: every head's root is written into the result handle. -/
def execAttqResultLand (s : State) : Host.Outcome State Fault Refusal :=
  .next (
    let id := s.cur.x
    let a := s.attq id
    if !a.live || !a.todo.isEmpty then s
    else
      let bs := (List.range a.heads).flatMap fun i => rootBytes (finishRoot a (rootOf a (8 * a.pool.ng) i))
      let h := s.handle (handleKey a.by_.core a.handle)
      attDone (if h.permit == some id then scratchPuts s a.by_.core a.by_.slot (handleAt s a.by_.core a.handle) bs else s) id a)

/-! ## ATTQ -/

def attIssue (s : State) (o : UX) : State :=
  let v := (rdS s o.a.toNat).toNat
  let word := rdS s o.c.toNat
  let (id, s1) := s.newEng
  let a : AttQuery :=
    { live := true, by_ := curStarter s, seq := v % 2 ^ 20, layer := bits v 27 20, head := bits v 34 28,
      heads := bits v 37 35 + 1, scale := (rdS s (o.a.toNat + 1)).toNat, word := word, handle := o.h.toNat,
      norm := o.m.getLsbD 0, sa := rdS s o.a.toNat }
  let s2 := readStart (s1.setAttq id a) (handleKey s.cur.core (opHandle word))
  let s3 := fillStart s2 (handleKey s.cur.core a.handle) id
  advance ((opStart s3 (curGk s) 3 id).add .attqAdmit id)

def execAttq (o : UX) (s : State) : Host.Outcome State Fault Refusal :=
  .next (uniformWord s (.attq o)
    (withGroups s [o.a.toNat, o.a.toNat + 1] [o.c.toNat]
      (let word := rdS s o.c.toNat
       if bits (rdS s o.a.toNat).toNat 63 38 != 0 || bits (rdS s (o.a.toNat + 1)).toNat 63 32 != 0 then raise s 0x087
       else if opBad word then raise s 0x1C3
       else match handlesCause s [opHandle word, o.h.toNat] with
        | some c => raise s c
        | none => match readWaits s [word], fillWaits s o.h.toNat with
          | some w, _ => yieldFor s w
          | none, some w => yieldFor s w
          | none, none => if 63 ≤ counter (curGroup s) 3 then yieldFor s (.counter 3 62) else onceSettled s (attIssue s o))))

/-! ## The engine residency limit -/

/-- ENGINE_RESIDENCY_TIMEOUT: `x` what is held, `y` its kind (0 a transfer, 1 an ATTQ, 2 a contribution, 3 an operation at
a home, 4 a record's engine), `z` since when, and `v` the cause that it fails with. -/
def execEngineResidencyTimeout (s : State) : Host.Outcome State Fault Refusal :=
  .next (
    let id := s.cur.x
    let c := s.cur.v.toNat
    let z := s.cur.z
    match s.cur.y with
    | 0 => if (s.xfer id).live && (s.xfer id).heldAt == z then xferFail s id c 0 else s
    | 1 => if (s.attq id).live && (s.attq id).heldAt == z then attFail s id (s.attq id) c else s
    | 2 => if (s.contrib id).live && (s.contrib id).heldAt == z then contribFail s id (s.contrib id) c 0 else s
    | 4 => if (s.dec id).live && (s.dec id).heldAt == z then decAnswer s id c else s
    | _ => if (s.op id).live && !(s.op id).applied && (s.op id).heldAt == z then opFailed s id (s.op id) c else s)

end Sys2Proof.Machine
end

