-- ==== Sys2Proof/Machine/Records.lean ====
section
/-! DEFINITION. Operator records: their fields, checks, tiling and arming, and the sources that records come from
(R185 to R187, R190, R194, R271, R421 to R428). -/
namespace Sys2Proof.Machine

/-! ## Fields (Table 164) -/

def recCode (r : BitVec 256) : Nat := bits r.toNat 7 0
def recPrio (r : BitVec 256) : Nat := bits r.toNat 10 8
def recIdem (r : BitVec 256) : Bool := r.getLsbD 11
def recHw (r : BitVec 256) : Bool := r.getLsbD 12
def recHs (r : BitVec 256) : Bool := r.getLsbD 13
def recSeq (r : BitVec 256) : Nat := bits r.toNat 31 16
def recRidx (r : BitVec 256) : Nat := bits r.toNat 51 32
/-- The routine index with the tiling rule. -/
def recRoutine (r : BitVec 256) : Nat := bits r.toNat 63 32
def recShape (r : BitVec 256) : Nat := bits r.toNat 63 62
def recOrder (r : BitVec 256) : Nat := bits r.toNat 61 60
def recDies (r : BitVec 256) : Nat := bits r.toNat 55 52
def recWait (r : BitVec 256) : DWord := word64 (bits r.toNat 127 64)
def recSignal (r : BitVec 256) : DWord := word64 (bits r.toNat 191 128)
def recArg (r : BitVec 256) : Nat := bits r.toNat 255 192

/-- Codes that make tile jobs, and codes that an engine performs (Table 167). -/
def isJobCode (c : Nat) : Bool := [1, 2, 3, 4, 14].contains c
def isEngineCode (c : Nat) : Bool := [5, 9, 10].contains c

/-! ## Sources (R422, R427) -/

inductive SrcKind where
  | m | q | o | c
  deriving DecidableEq, Repr, Inhabited
def srcKind : Source → SrcKind
  | .stream .. => .m
  | .queue .. => .q
  | .opsub _ => .o
  | .replay _ => .o
  | _ => .c

/-- STREAM of Tables 62 and 63. -/
def srcStream : Source → Nat
  | .stream _ n => n
  | .queue _ q => q
  | _ => 0xFFFF

def accepts (code : Nat) (k : SrcKind) : Bool :=
  match code with
  | 0x7 => k == .m || k == .q
  | 0x8 => k == .m || k == .q
  | 0xB => k == .m
  | 0xD => k == .m
  | 0xE => k == .m
  | 0xF => k == .m || k == .q
  | _ => true

def streamAddr (s : State) (die n : Nat) : Nat := s.cfg.sbase.getD die 0 + 32 * n
def queueAddr (s : State) (die q : Nat) : Nat := s.cfg.qbase.getD die 0 + 64 * q
/-- CTL of a memory stream (Table 55) or a remote queue (Table 207). -/
def streamCtl (s : State) (die n : Nat) : Nat := devNat s (streamAddr s die n) 8
def queueCtl (s : State) (die q : Nat) : Nat := devNat s (queueAddr s die q) 8
def ctlSlot (ctl : Nat) : Nat := ctl % 64
def ctlRing (ctl : Nat) : Nat := bits ctl 10 8
def srcKey (die n : Nat) : Nat := die * 256 + n

/-! ## Contexts (R15, R19, R422) -/

def ctxWord (s : State) (slot off : Nat) : Nat := devNat s (ctxAddr s slot + off) 8
def ctxGen (s : State) (slot : Nat) : Nat := bits (ctxWord s slot 0) 47 16
def ctxLive (s : State) (slot : Nat) : Bool := bit (ctxWord s slot 8) 0

/-- The ranges of a context: XRNG12 to XRNG15 are always those of descriptor 0 (R19). -/
def ctxRanges (s : State) (slot : Nat) : Sparse DWord :=
  let own := devBytes s (ctxAddr s slot + 0x80) 384
  let sys := devBytes s (ctxAddr s 0 + 0x80) 384
  (List.range 48).foldl (fun m k =>
    m.put k (specialHeld (0x100 + k / 3 * 4 + k % 3)
      (word64 (leNat (((if 12 ≤ k / 3 then sys else own).drop (8 * k)).take 8))))) []

/-- A record in the context of a slot, as its descriptor stands (R422). -/
def decIn (s : State) (d : Dec) (slot gen : Nat) : Dec :=
  { d with slot := slot, gen := gen, bankRng := ctxRanges s slot, keyslot := ctxWord s slot 0x18 % 256 }

/-! ## Checks of R426: the record's own fields -/

def reservedSet (r : BitVec 256) : Bool :=
  let c := recCode r
  bits r.toNat 15 14 != 0 || (!(recHw r) && recWait r != 0) || (!(recHs r) && recSignal r != 0)
  || (if isJobCode c then bits r.toNat 59 (if c = 14 then 58 else 56) != 0 || decide (2 ≤ recOrder r) || recShape r == 3
      else recRoutine r != 0)

/-- The limits of R427 to R435 on the fields of each code. -/
def fieldsBad (s : State) (r : BitVec 256) (src : Source) : Bool :=
  let arg := recArg r
  match recCode r with
  | 0x0 => recHw r || recHs r || arg != 0
  | 0x1 => recShape r == 2
  | 0x2 => recShape r != 2
  | 0x3 => recShape r != 2
  | 0x4 => recShape r != 2
  | 0x6 => !(recHs r) || bits arg 63 48 != 0
  | 0x7 => !(recHw r)
  | 0xB => !(recHw r) || recHs r || arg % 32 != 0 || decide (2 ^ 52 ≤ arg)
  | 0xC => decide (2 ^ 19 ≤ arg)
  | 0xD => bits arg 63 48 != 0 || bits arg 15 6 != 0
  | 0xE => recShape r != 0 || (match src with
    | .stream die n => ctlSlot (streamCtl s die n) != 0
    | _ => true)
  | _ => false

/-- Bytes of the block that the device reads. -/
def blockLen (r : BitVec 256) : Nat :=
  match recCode r with
  | 0x5 => 40
  | 0x9 => 32
  | 0xA => 24
  | c => if !(isJobCode c) || recShape r = 0 then 0
    else if recShape r = 1 then 64
    else if c = 3 then 72 else 80

/-- ARG is a canonical virtual address but for O.FEED (R422); where the device reads a block there, the read itself says so. -/
def argBad (r : BitVec 256) : Bool := recCode r != 0xB && blockLen r == 0 && !(canonical (recArg r))

/-- The cause of a record before its argument block is read: 0x204 or 0x20C. -/
def recCause (s : State) (r : BitVec 256) (src : Source) : Option Nat :=
  if 16 ≤ recCode r then some 0x204
  else if reservedSet r || argBad r || !(accepts (recCode r) (srcKind src)) || fieldsBad s r src then some 0x20C
  else none

/-! ## Checks of R426: the argument block -/

def blockBits (b : List Byte) (off n : Nat) : Nat := leNat ((b.drop off).take n)

/-- Extents of SHAPE 2, none where a field breaks its limit (Table 168). -/
def blockExtents (code : Nat) (b : List Byte) : Option (List Nat) :=
  let f (off n : Nat) : Nat := blockBits b (64 + off) n
  let dim (x : Nat) : Bool := decide (1 ≤ x) && decide (x ≤ 2 ^ 23)
  match code with
  | 2 => if dim (f 0 4) && dim (f 4 4) && dim (f 8 4) && decide (1 ≤ f 12 2) && decide (f 12 2 ≤ 64) && f 14 2 == 0
    then some [ceilDiv (f 0 4) 128, ceilDiv (f 4 4) 128, f 12 2, 1] else none
  | 3 => if 1 ≤ f 1 1 ∧ f 1 1 ≤ 128 ∧ 1 ≤ f 2 2 ∧ f 4 4 = 0 then some [f 1 1, f 2 2, 1, 1] else none
  | _ => if 1 ≤ f 0 8 ∧ f 0 8 ≤ 2 ^ 40 ∧ f 8 4 % 256 = 0 ∧ 256 ≤ f 8 4 ∧ f 8 4 ≤ 2 ^ 24 ∧ f 12 4 = 0
    then some [ceilDiv (f 0 8) (f 8 4), 1, 1, 1] else none

def extentsOf (r : BitVec 256) (b : List Byte) : Option (List Nat) :=
  if recShape r = 0 then some [1, 1, 1, 1]
  else if recShape r = 1 then some ((List.range 4).map fun i => blockBits b (2 * i) 2)
  else blockExtents (recCode r) b

def extentsOk (e : List Nat) : Bool :=
  e.all (fun x => decide (1 ≤ x) && decide (x ≤ 65535)) && decide (e.foldl (· * ·) 1 ≤ 2 ^ 24)

/-- Whether an engine's block breaks a limit (R430, R436, R437). -/
def engineBlockBad (s : State) (code : Nat) (b : List Byte) : Bool :=
  let f (off n : Nat) : Nat := blockBits b off n
  match code with
  | 5 => !(decide (1 ≤ f 8 2) && decide (f 8 2 ≤ 1024)) || decide (4 ≤ f 12 1) || f 13 3 != 0
    || !(decide (1 ≤ f 16 4) && decide (f 16 4 ≤ 2 ^ 24)) || f 20 4 != 0 || f 24 8 % 8 != 0 || f 32 8 % 8 != 0
  | 9 => decide (2 ≤ f 0 1) || f 2 2 != 0 || f 20 12 != 0 || f 4 4 == 0 || decide (s.cfg.seqLen < f 4 4)
    || (f 0 1 == 0 && (f 8 8 % 4 != 0 || decide (65536 < f 16 4)))
  | _ => decide (2 ^ 14 ≤ f 0 8) || !(decide (1 ≤ f 8 4) && decide (f 8 4 ≤ 65535)) || f 13 3 != 0
    || !(decide (1 ≤ f 12 1) && decide (f 12 1 ≤ 16)) || f 16 8 % 16 != 0

def blockBad (s : State) (r : BitVec 256) (b : List Byte) : Bool :=
  if isEngineCode (recCode r) then engineBlockBad s (recCode r) b
  else if b.isEmpty then false
  else match extentsOf r b with
    | none => true
    | some e => !(extentsOk e) || blockBits b 0x38 8 != 0 || (recHs r && blockBits b 8 8 != 0)

/-! ## Tiling (R423 to R425) -/

/-- Tile coordinates of a job number. -/
def tileIn : List Nat → Nat → List Nat
  | [], _ => []
  | e :: t, j => j % e :: tileIn t (j / e)
def tileOf (r : BitVec 256) (e : List Nat) (j : Nat) : List Nat :=
  if recOrder r = 1 then (tileIn e.reverse j).reverse else tileIn e j

/-- The name that an event family of the grid header gives to a tile; none where the family is absent. -/
def familyName (b : List Byte) (off : Nat) (t : List Nat) : Option DWord :=
  let base := blockBits b off 8
  if base = 0 then none
  else
    let step : Int := ((List.range 4).map fun i => sint 16 (blockBits b (off + 8 + 2 * i) 2) * ((t.getD i 0 : Nat) : Int)).foldl (· + ·) 0
    let idx := (((bits base 51 32 : Nat) : Int) + step).emod (2 ^ 20)
    some (word64 (base - bits base 51 32 * 2 ^ 32 + idx.toNat * 2 ^ 32))

/-- One job of a record: its tile, the events it waits on and the one it signals. -/
structure RecUnit where
  tile : List Nat := [0, 0, 0, 0]
  waits : List DWord := []
  signal : DWord := 0
  deriving DecidableEq, Repr, Inhabited

def unitAt (r : BitVec 256) (b : List Byte) (t : List Nat) : RecUnit :=
  let fam (off : Nat) : List DWord := if b.isEmpty then [] else (familyName b off t).toList
  { tile := t, waits := (if recHw r then [recWait r] else []) ++ fam 0x18 ++ fam 0x28,
    signal := match fam 8 with
      | n :: _ => n
      | [] => if recHs r then recSignal r else 0 }

/-- The jobs of a record in job-number order; an engine's work is one. -/
def recUnits (r : BitVec 256) (b : List Byte) : List RecUnit :=
  if isJobCode (recCode r) then
    let e := (extentsOf r b).getD []
    (List.range (e.foldl (· * ·) 1)).map fun j => unitAt r b (tileOf r e j)
  else if isEngineCode (recCode r) then [unitAt r [] [0, 0, 0, 0]]
  else []

/-- Count a signalled name, in order of the first job that names it. -/
def countName (n : DWord) : List (DWord × Nat) → List (DWord × Nat)
  | [] => [(n, 1)]
  | p :: t => if p.1 = n then (n, p.2 + 1) :: t else p :: countName n t

/-- O.SIGNAL and O.END signal their SIGNAL themselves; no other record without jobs signals one (R431, R463; log entry 42). -/
def signalsAlone (r : BitVec 256) : Bool := recHs r && recSignal r != 0 && (recCode r == 6 || recCode r == 15)

/-- What the record arms: every distinct name with its count (R425). A replayed record arms nothing (R419). -/
def recArms (d : Dec) (b : List Byte) : List (DWord × Nat) :=
  match d.src with
  | .replay _ => []
  | _ =>
    let u := recUnits d.rcd b
    if signalsAlone d.rcd then [(recSignal d.rcd, 1)]
    else u.foldl (fun l x => if x.signal = 0 then l else countName x.signal l) []

/-- The first name that cannot be armed, with its cause. -/
def armFailure (s : State) (slot : Nat) (l : List (DWord × Nat)) (remote : Bool := true) : Option Nat :=
  l.findSome? fun p => match armCheck s p.1 slot false remote with
    | .fail c => some c
    | _ => none

/-! ## The whole check -/

inductive Checked where
  | ok (block : List Byte) (s : State)
  | fail (cause : Nat)
  | absent (event : DWord) (s : State)
  | wait (s : State)

/-- The code, the record's own fields, then its argument block, which is read as an engine read through the context's
ranges (R422, R426). -/
def checkRecord (s : State) (d : Dec) : Checked :=
  match recCause s d.rcd d.src with
  | some c => .fail c
  | none =>
    match engReadVa (decPort d) (recArg d.rcd) (blockLen d.rcd) s with
    | .error (.fault c _) => .fail c
    | .error (.wait (some n) _ s1) => .absent n s1
    | .error (.wait none _ s1) => .wait s1
    | .error (.spill s1) => .wait s1
    | .ok (b, s1) => if blockBad s d.rcd b then .fail 0x20C else .ok b s1

/-! ## Ends of a record -/

/-- The record's source may go on, and the record is done with. A replayed record that makes no grid ends its pass (R419), and a
parent that has ended may have waited for it (R181). -/
def finishDec (s : State) (d : Nat) : State :=
  let free (r : SrcRt) : SrcRt := if r.hold == some d then { r with hold := none } else r
  let c := recCode (s.dec d).rcd
  let s1 := match (s.dec d).src with
    | .stream die n => s.updStream (srcKey die n) free
    | .queue die q => s.updQueue (srcKey die q) free
    | .replay die => if (isJobCode c || isEngineCode c) && (s.dec d).stage != 0 then s else s.add .replayPassEnd die
    | _ => s
  let s2 := { s1 with task := { s1.task with decs := Sparse.erase s1.task.decs d } }
  match (s.dec d).parentJob with
  | some p => if (s2.job p).ended && !(liveChildren s2 p) then s2.add .parentRetire p 1 else s2
  | none => s2

/-- A completion record that no grid stands for. -/
def writeRecord (s : State) (d : Dec) (status cause : Nat) : State :=
  reportGrid s { src := d.src, stream := srcStream d.src, seq := recSeq d.rcd, slot := d.slot, gen := d.gen,
                 ring := d.ring, die := d.die, status := status, fcause := cause }

/-- A memory stream goes dry, or waits to be opened again. -/
def dryStream (s : State) (die n : Nat) : State := s.post .streamFlow die n

/-- The records of a queue that are not yet decoded are dropped (R197). -/
def dropQueue (s : State) (die q : Nat) : State :=
  let a := queueAddr s die q
  let s1 := devPutNat s (a + 0x1C) 4 (devNat s (a + 0x20) 4)
  let s2 := { s1 with task := { s1.task with
    spill := s1.task.spill.put die ((s1.task.spill.get die).filter fun p => p.2.1 != q) } }
  s2.updQueue (srcKey die q) fun r => { r with buf := [], backed := [], ctx := none }

/-- LIVE falls in the descriptor of a source, which reads nothing further. -/
def clearLive (s : State) (src : Source) : State :=
  let clear (a : Nat) : State := devPutNat s a 8 (devNat s a 8 % 2 ^ 63)
  match src with
  | .stream die n => ((clear (streamAddr s die n)).updStream (srcKey die n) fun r => { r with ctx := none }).unpost fun h =>
      h.what == .streamRecordRead && h.x == die && h.y == n
  | .queue die q => dropQueue (clear (queueAddr s die q)) die q
  | _ => s

/-- A stream fault (R186): LIVE falls and one record is written; the source reads nothing further. -/
def streamFault (s : State) (d : Dec) (cause : Nat) : State :=
  let s1 := writeRecord (clearLive s d.src) d 4 cause
  match d.src with
  | .stream die n => dryStream s1 die n
  | _ => s1

/-- What the dispatcher answers an OPSUB with: it has taken the record, or a cause. -/
def answerOpsub (s : State) (d : Dec) (cause : Nat) : State :=
  if d.op = 0 then s else if (s.op d.op).live then opReply s d.op cause 0 else s

/-- A record with an undefined code or malformed (R271, R426), by its source. -/
def refuseRecord (s : State) (id : Nat) (cause : Nat) : State :=
  let d := s.dec id
  match srcKind d.src with
  | .o => finishDec (answerOpsub s d cause) id
  | _ => finishDec (writeRecord s d 1 cause) id

/-- A record whose signal cannot be armed (R190, R194, R411). -/
def refuseArming (s : State) (id : Nat) (cause : Nat) : State :=
  let d := s.dec id
  match srcKind d.src with
  | .m => streamFault (finishDec s id) d cause
  | .q => streamFault (finishDec s id) d cause
  | .o => finishDec (answerOpsub s d cause) id
  | .c => finishDec (writeRecord s d 1 cause) id

/-! ## Decoding (R187) -/

/-- The happening of each code. -/
def codeEvent (c : Nat) : Instr :=
  match c with
  | 0x0 => .oNop
  | 0x1 => .oRun
  | 0x2 => .oGemm
  | 0x3 => .oAttn
  | 0x4 => .oCopy
  | 0x5 => .oColl
  | 0x6 => .oSignal
  | 0x7 => .oWait
  | 0x8 => .oFence
  | 0x9 => .oSeq
  | 0xA => .oNode
  | 0xB => .oFeed
  | 0xC => .oPrio
  | 0xD => .oCtx
  | 0xE => .oRegen
  | _ => .oEnd

/-- A name of the record is armed: the next one, or the record itself. -/
def armedOne (s : State) (id : Nat) (rest : List (DWord × Nat)) : State :=
  let s1 := s.setDec id { s.dec id with arms := rest, armSeen := none }
  if rest.isEmpty then s1.add .recordDecode id else s1.add .eventArm id

/-- An arming goes to the device of its name, which answers it (R195). -/
def armRemote (s : State) (id : Nat) (n : DWord) (count : Nat) : State :=
  let d := s.dec id
  let (o, s1) := s.newOp { kind := .arm count, target := n, by_ := .dec id, slot := d.slot, gen := d.gen, die := d.die }
  awaitRemote (armNow s1 n count) o

/-- EVENT_ARM: `x` the record; the first name that it has still to arm. -/
def execEventArm (s : State) : Host.Outcome State Fault Refusal :=
  .next (
    let id := s.cur.x
    let d := s.dec id
    match d.arms, d.armSeen with
    | [], _ => s
    | _ :: rest, some 0 => armedOne s id rest
    | _, some c => refuseArming s id c
    | (n, count) :: rest, none =>
      match armCheck s n d.slot false with
      | .fail c => refuseArming s id c
      | .waits => s.add .eventArm id
      | .remote => armRemote s id n count
      | .armed => armedOne (armNow s n count) id rest)

/-- Whether an arming can be made, or fails, now (R190). -/
def armReady (s : State) (id : Nat) : Bool :=
  match (s.dec id).arms with
  | [] => true
  | (n, _) :: _ => (s.dec id).armSeen.isSome || armCheck s n (s.dec id).slot false != .waits

/-- The dispatcher gives a job its number: JOBID, and the place at the tail of its queue. -/
def newJob (s : State) (j : Job) : Nat × State :=
  let id := s.task.nextJob
  let serial := s.task.serial.get j.die
  let t := s.task
  let s1 := { s with task := { t with
    nextJob := id + 1, serial := t.serial.put j.die ((serial + 1) % 2 ^ 30), back := t.back + 1 } }
  (id, (s1.setJob id { j with live := true, jobid := j.die * 2 ^ 30 + serial, order := (t.back : Int) }).post .jobEligible id)

def tileWord (t : List Nat) : DWord := word64 (leNat (t.flatMap fun x => leBytes 2 x))

/-- The die of a job: the decoding die, or the dies of DIES in turn. -/
def jobDie (d : Dec) (j : Nat) : Nat :=
  let l := (List.range 4).filter fun i => bit (recDies d.rcd) i
  if l.isEmpty || !(isJobCode (recCode d.rcd)) then d.die else l.getD (j % l.length) d.die

/-- A grid of a record's jobs, each entered into its die's queue (R180, R187, R423). -/
def makeGrid (s : State) (id : Nat) : State :=
  let d := s.dec id
  let r := d.rcd
  let units := recUnits r d.block
  let gid := s.task.nextGrid
  let parent := match d.parentJob with
    | some p => (s.job p).jobid
    | none => 0xFFFFFFFF
  let g : Grid := { live := true, src := d.src, stream := srcStream d.src, seq := recSeq r, slot := d.slot, gen := d.gen,
                    ring := d.ring, die := d.die, njobs := units.length, left := units.length,
                    parentJob := d.parentJob, replay := d.replay }
  let s1 := (s.setGrid gid g)
  let s2 := { s1 with task := { s1.task with nextGrid := gid + 1 } }
  let engine := if isEngineCode (recCode r) then some id else none
  let job (u : RecUnit) (k : Nat) : Job :=
    { grid := gid, jobno := k, slot := d.slot, gen := d.gen, prio := recPrio r,
      idem := recIdem r && isJobCode (recCode r) && recCode r != 14, depth := d.depth, routine := recRoutine r,
      arg := word64 (recArg r), signal := if d.replay.isSome then 0 else u.signal, tile := tileWord u.tile,
      parent := parent, parentJob := d.parentJob, stream := srcStream d.src, seq := recSeq r, ring := d.ring,
      die := jobDie d k, waits := if d.replay.isSome then [] else u.waits,
      regen := if recCode r = 14 then bits r.toNat 57 56 + 1 else 0, replay := d.replay.isSome, engine := engine }
  (units.mapIdx fun k u => (k, u)).foldl (fun t p =>
    let (jid, t1) := newJob t (job p.2 p.1)
    if engine.isSome then t1.updDec id fun x => { x with job := jid } else t1) s2

/-- A record's engine or its decoder makes an access that is held, at most for the engine residency limit (R57, R90). -/
def holdDec (s : State) (id : Nat) (again : Instr) (ev : Option DWord) (cause : Nat) : State :=
  let d := s.dec id
  if d.held == ev && d.heldAt != 0 then s.after 1 again id
  else ((s.setDec id { d with held := ev, heldAt := s.now + 1 }).after 1 again id).after s.cfg.engineLimit
    .engineResidencyTimeout id 4 (s.now + 1) (word64 cause)

/-- The page of the argument block is not resident: the decoder's read is held as an engine's is, and a hold that lasts too long
or whose event is faulted ends the record (R57; log entry 103). -/
def holdBlock (s : State) (id : Nat) (event : DWord) : State :=
  let d := s.dec id
  match d.answer, holdState s d.held with
  | some k, _ => refuseRecord s id k
  | none, .faulted => refuseRecord s id (faultedCause s (d.held.getD 0))
  | none, _ => holdDec s id .recordDecode (some event) 0x115

/-- The first step of decoding: the checks, then the arming of what the record names. -/
def decodeStart (s : State) (id : Nat) : State :=
  let d := s.dec id
  match checkRecord s d with
  | .fail 0x204 => s.add .operatorCodeUndefined id
  | .fail c => refuseRecord s id c
  | .absent n s1 => holdBlock s1 id n
  | .wait s1 => s1.after 1 .recordDecode id
  | .ok b s1 =>
    let arms := recArms d b
    let s2 := s1.setDec id { d with stage := 1, block := b, arms := arms, held := none, heldAt := 0, answer := none }
    match srcKind d.src, armFailure s2 d.slot arms with
    | .c, some c => refuseArming s2 id c
    | .o, some c => refuseArming s2 id c
    | _, _ => if arms.isEmpty then s2.add .recordDecode id else s2.add .eventArm id

/-- OPERATOR_CODE_UNDEFINED: `x` the record (R271). -/
def execOperatorCodeUndefined (s : State) : Host.Outcome State Fault Refusal :=
  .next (if (s.dec s.cur.x).live then refuseRecord s s.cur.x 0x204 else s)

/-- An engine's unit of work has ended with a cause, or 0: its job retires, as done or killed (R427, R463). -/
def engineEnd (s : State) (id cause : Nat) : State :=
  let d := s.dec id
  let s1 := finishDec s id
  if !(s1.job d.job).live then s1
  else if cause = 0 then retireJob s1 d.job 0 0
  else retireJob (faultEvent s1 (s1.job d.job).signal d.slot) d.job 1 cause

/-- The other device has answered the signal of an O.SIGNAL or an O.END, whose source has gone on: O.END's record is written with
what it met, O.SIGNAL's only where it met a cause (R463). -/
def reportSignal (s : State) (id : Nat) : State :=
  let d := s.dec id
  match d.answer with
  | none => s
  | some 0 => finishDec (if recCode d.rcd = 0xF then writeRecord s d 0 0 else s) id
  | some k => finishDec (writeRecord s d 1 k) id

/-- RECORD_DECODE: `x` the record. Once everything it names is armed the dispatcher has taken it: an engine's work is queued
as one job, and every other code is performed. Later the record meets the end of its engine's work. -/
def execRecordDecode (s : State) : Host.Outcome State Fault Refusal :=
  .next (
    let id := s.cur.x
    let d := s.dec id
    let c := recCode d.rcd
    if !d.live then s
    else if d.stage = 9 then finishDec (writeRecord s d d.done d.cause) id
    else if d.stage = 8 then reportSignal s id
    else if d.stage = 0 then decodeStart s id
    else if d.stage = 1 then
      let s1 := answerOpsub (s.setDec id { d with stage := 2 }) d 0
      if isEngineCode c then
        let s2 := makeGrid s1 id
        let free (r : SrcRt) : SrcRt := if r.hold == some id && c != 10 then { r with hold := none } else r
        (match d.src with
          | .stream die n => s2.updStream (srcKey die n) free
          | .queue die q => s2.updQueue (srcKey die q) free
          | _ => s2)
      else s1.add (codeEvent c) id
    else match d.answer with
      | some k => if c = 10 && k = 0 then (s.setDec id { d with answer := none }).add .oNode id else engineEnd s id k
      | none => s)

/-- An OPSUB's record is taken once the lines of the job's version have been committed and its release is complete
(R180, R411). -/
def decodeReady (s : State) (id : Nat) : Bool :=
  let d := s.dec id
  let o := s.op d.op
  match d.src, d.stage with
  | .opsub j, 0 => commitsDone s j && (d.op == 0 || !o.live || (relDone s o.group o.issue && seenEverywhere s o.vc))
  | _, _ => true

/-! ## Memory streams (R185, R186) -/

/-- FEEDEV of a dry stream: whether the stream goes on, with the cause it meets, or 0. -/
inductive Feed where
  | open_ | send
  | ends (cause : Nat)
  deriving DecidableEq, Repr, Inhabited

def feedState (s : State) (die n : Nat) : Feed :=
  let ev := word64 (devNat s (streamAddr s die n + 0x10) 8)
  if !(evReachable s ev) then .ends 0x206
  else if evLocal s ev then
    match evalWait s ev 0 true with
    | .open_ => .open_
    | .resolved _ => .ends 0
    | .faulted _ => .ends 0x203
    | .cause c => .ends c
  else match (s.stream (srcKey die n)).watch with
    | 0 => .send
    | 1 => .open_
    | 2 => .ends 0
    | _ => .ends 0x203

def flowReady (s : State) (die n : Nat) : Bool :=
  bit (streamCtl s die n) 63 && (s.stream (srcKey die n)).hold.isNone && feedState s die n != .open_

/-- A record that stands for a source between records. -/
def sourceDec (s : State) (die n : Nat) : Dec :=
  let ctl := streamCtl s die n
  let seq := devNat s (streamAddr s die n + 0x18) 2
  let slot := match (s.stream (srcKey die n)).ctx with
    | some c => c.1
    | none => ctlSlot ctl
  let gen := match (s.stream (srcKey die n)).ctx with
    | some (_, some g) => g
    | _ => ctxGen s slot
  { rcd := BitVec.ofNat 256 (seq * 65536), src := .stream die n, die := die, slot := slot, gen := gen, ring := ctlRing ctl }

/-- STREAM_FLOW: `x` the die, `y` the stream. -/
def execStreamFlow (s : State) : Host.Outcome State Fault Refusal :=
  .next (
    let die := s.cur.x
    let n := s.cur.y
    let k := srcKey die n
    if 64 ≤ n then s
    else if !(flowReady s die n) then dryStream s die n
    else
      let gen := bits (streamCtl s die n) 47 16
      let s0 := s.updStream k fun r => if r.gen = gen then r else { r with ctx := none, gen := gen }
      match feedState s die n with
      | .send =>
        let ev := word64 (devNat s (streamAddr s die n + 0x10) 8)
        let (_, s1) := sendOp s0 { kind := .wait, target := ev, by_ := .stream k, priv := true, die := die } .eventWait
        dryStream (s1.updStream k fun r => { r with watch := 1 }) die n
      | .ends 0 => (s0.updStream k fun r => { r with watch := 0 }).post .streamRecordRead die n
      | .ends c => streamFault (s0.updStream k fun r => { r with watch := 0 }) (sourceDec s0 die n) c
      | .open_ => s)

/-- A source's next record goes to its dispatcher, which takes no other of that source before it lets the source go on. -/
def takeRecordOf (s : State) (d : Dec) : State :=
  let (id, s1) := submitRecord s d
  let set (r : SrcRt) : SrcRt := { r with hold := some id }
  match d.src with
  | .stream die n => s1.updStream (srcKey die n) set
  | .queue die q => s1.updQueue (srcKey die q) set
  | _ => s1

/-- A flowing memory stream reads its next record (R186). -/
def readStream (s : State) (die n : Nat) : State :=
  let a := streamAddr s die n
  if !(bit (streamCtl s die n) 63) then dryStream s die n
  else
    let next := bits (devNat s (a + 8) 8) 51 5 * 32
    match engRead (sysPort die) next 32 s with
    | .error (.fault c _) => streamFault s (sourceDec s die n) c
    | .error (.wait (some _) _ s1) => streamFault s1 (sourceDec s1 die n) 0x110
    | .error (.wait none _ s1) => s1.after 1 .streamRecordRead die n
    | .error (.spill s1) => s1.after 1 .streamRecordRead die n
    | .ok (bs, s1) =>
      let d := sourceDec s1 die n
      let rcd := bytesToRec bs
      if recSeq rcd != recSeq d.rcd then streamFault s1 d 0
      else
        let s2 := devPutNat (devPutNat s1 (a + 8) 8 ((next + 32) % 2 ^ 52)) (a + 0x18) 2 (recSeq rcd + 1)
        (takeRecordOf s2 (decIn s2 { d with rcd := rcd } d.slot d.gen)).post .streamRecordRead die n

/-! ## Remote queues: what the dispatcher takes (R196, R197) -/

def queueCap (s : State) (die q : Nat) : Nat := devNat s (queueAddr s die q + 0x18) 4
/-- Records in the backing area. -/
def queueBacked (s : State) (die q : Nat) : Nat :=
  let a := queueAddr s die q
  (devNat s (a + 0x20) 4 + 2 ^ 32 - devNat s (a + 0x1C) 4) % 2 ^ 32
/-- Entries of the die's spill area that hold records of a queue, with the records' places in the order of arrival. -/
def queueSpilled (s : State) (die q : Nat) : List (Nat × Nat) :=
  ((s.task.spill.get die).filter fun p => p.2.1 == q).map fun p => (p.1, p.2.2)
/-- An entry of the spill area: the record, the queue in byte 32, and the arrival count from byte 40 (log entry 97). -/
def spillAt (s : State) (die e : Nat) : Nat := s.cfg.spbase.getD die 0 + 64 * e
/-- LIVE is set and the generation is that of the queue's records. -/
def queueLive (s : State) (die q : Nat) : Bool :=
  bit (queueCtl s die q) 63 && devNat s (queueAddr s die q + 8) 4 == (s.queue (srcKey die q)).gen
def backAt (s : State) (die q i : Nat) : Nat :=
  bits (devNat s (queueAddr s die q + 0x10) 8) 51 5 * 32 + 32 * (i % max 1 (queueCap s die q))

/-- The next record in the order of arrival, which is that of the backing area, then the spill area, then later packets: its
place, and taking it from the buffer, the backing area or the spill area. -/
def queueHeads (s : State) (die q : Nat) : List (Nat × BitVec 256 × State) :=
  let k := srcKey die q
  let a := queueAddr s die q
  let r := s.queue k
  let h := devNat s (a + 0x1C) 4
  (r.buf.take 1).map (fun p => (p.1, p.2, s.updQueue k fun x => { x with buf := x.buf.drop 1 }))
  ++ (if 0 < queueBacked s die q then
      [(r.backed.headD 0, bytesToRec (devBytes s (backAt s die q h) 32),
        (devPutNat s (a + 0x1C) 4 ((h + 1) % 2 ^ 32)).updQueue k fun x => { x with backed := x.backed.drop 1 })]
    else [])
  ++ ((queueSpilled s die q).take 1).map fun p => (p.2, bytesToRec (devBytes s (spillAt s die p.1) 32),
      { s with task := { s.task with spill := s.task.spill.put die ((s.task.spill.get die).filter fun x => x.1 != p.1) } })

def nextOfQueue (s : State) (die q : Nat) : Option (BitVec 256 × State) :=
  (queueHeads s die q).foldl (fun (b : Option (Nat × BitVec 256 × State)) x => match b with
    | some y => if x.1 < y.1 then some x else b
    | none => some x) none |>.map (·.2)

def readQueue (s : State) (die q : Nat) : State :=
  if !(queueLive s die q) then dropQueue s die q
  else match nextOfQueue s die q with
    | none => s
    | some (rcd, s1) =>
      let ctl := queueCtl s die q
      let slot := ctlSlot ctl
      let d := decIn s1 { rcd := rcd, src := .queue die q, die := die, ring := ctlRing ctl } slot (ctxGen s1 slot)
      (takeRecordOf s1 d).post .streamRecordRead die (256 + q)

/-- STREAM_RECORD_READ: `x` the die, `y` the memory stream, or 256 plus the remote queue. -/
def execStreamRecordRead (s : State) : Host.Outcome State Fault Refusal :=
  .next (if s.cur.y < 64 then readStream s s.cur.x s.cur.y
         else if s.cur.y < 256 then s else readQueue s s.cur.x (s.cur.y - 256))

/-- A source reads on once the record before lets it, and a queue only while it is resident. -/
def readReady (s : State) (die n : Nat) : Bool :=
  if n < 256 then (s.stream (srcKey die n)).hold.isNone
  else (s.queue (srcKey die (n - 256))).hold.isNone && (s.queue (srcKey die (n - 256))).resident

end Sys2Proof.Machine
end

