-- ==== Sys2Proof/Machine/Operators.lean ====
section
/-! DEFINITION. What each operator code does once its record is decoded (R427 to R437, R463). A happening's `x` is its
record. -/
namespace Sys2Proof.Machine

/-! ## Work operators (R428, R429): the record is expanded into tile jobs -/

def expand (s : State) (id : Nat) : State :=
  if (s.dec id).live then finishDec (makeGrid s id) id else s

def execORun (s : State) : Host.Outcome State Fault Refusal := .next (expand s s.cur.x)
def execOGemm (s : State) : Host.Outcome State Fault Refusal := .next (expand s s.cur.x)
def execOAttn (s : State) : Host.Outcome State Fault Refusal := .next (expand s s.cur.x)
def execOCopy (s : State) : Host.Outcome State Fault Refusal := .next (expand s s.cur.x)
def execORegen (s : State) : Host.Outcome State Fault Refusal := .next (expand s s.cur.x)
def execONop (s : State) : Host.Outcome State Fault Refusal := .next (finishDec s s.cur.x)

/-! ## Stream control (R431 to R435) -/

/-- A record of a replay session: its wait and signal fields are ignored (R419). -/
def isReplay : Source → Bool
  | .replay _ => true
  | _ => false

/-- What a record's own WAIT has come to: 0 resolved, a cause, or nothing yet; and whether a watch is still to be left. -/
inductive DecWait where
  | open_ | send
  | ends (cause : Nat)
  deriving DecidableEq, Repr, Inhabited

def decWait (s : State) (id : Nat) : DecWait :=
  let d := s.dec id
  let n := recWait d.rcd
  if !(recHw d.rcd) || isReplay d.src then .ends 0
  else match d.waitSeen with
    | some c => .ends c
    | none =>
      if !(evReachable s n) then .ends 0x206
      else if evLocal s n then
        match evalWait s n d.slot false with
        | .open_ => .open_
        | .resolved _ => .ends 0
        | .faulted _ => .ends 0x203
        | .cause c => .ends c
      else if s.task.ops.any (fun p => p.2.live && p.2.by_ == .dec id && p.2.kind == .wait) then .open_ else .send

/-- Grids of a source that are not yet retired. -/
def liveGrids (s : State) (src : Source) : List Nat := (s.task.grids.filter fun p => p.2.live && p.2.src == src).map (·.1)

def hold (s : State) (id : Nat) : State := if (s.dec id).live then s.add .streamHoldEnd id else s

def execOSignal (s : State) : Host.Outcome State Fault Refusal := .next (hold s s.cur.x)
def execOWait (s : State) : Host.Outcome State Fault Refusal := .next (hold s s.cur.x)
/-- The grids decoded earlier from the same source are awaited. -/
def holdGrids (s : State) (id : Nat) : State :=
  hold (s.updDec id fun d => { d with grids := liveGrids s d.src }) id
def execOFence (s : State) : Host.Outcome State Fault Refusal := .next (holdGrids s s.cur.x)
def execOEnd (s : State) : Host.Outcome State Fault Refusal := .next (holdGrids s s.cur.x)

/-- Whether a hold can end, or has still a watch to leave. -/
def holdOver (s : State) (id : Nat) : Bool :=
  let d := s.dec id
  match recCode d.rcd with
  | 0x8 => !(d.grids.any fun g => (s.grid g).live)
  | 0xF => !(d.grids.any fun g => (s.grid g).live)
  | _ => decWait s id != .open_

/-- The signal of an O.SIGNAL or an O.END goes to another device; its answer finds a record that stands for the report (R463). -/
def signalAway (s : State) (d : Dec) (value : Nat) : State :=
  let id := s.task.nextDec
  let s1 := s.setDec id { d with live := true, stage := 8, answer := none }
  let s2 := { s1 with task := { s1.task with nextDec := id + 1 } }
  (sendOp s2 { kind := .dispatcherSignal value, target := recSignal d.rcd, by_ := .dec id, slot := d.slot, gen := d.gen,
               die := d.die } .eventSignal).2

/-- O.END (R431): its signal, its record, and LIVE falls. -/
def endSource (s : State) (id : Nat) : State :=
  let d := s.dec id
  let signals := recHs d.rcd && recSignal d.rcd != 0
  let s2 := if signals && evElsewhere s (recSignal d.rcd) then signalAway (clearLive s d.src) d 0
    else
      let (c, s1) := if signals then signalEvent s (recSignal d.rcd) 0 d.slot false else (none, s)
      writeRecord (clearLive s1 d.src) d (if c.isSome then 1 else 0) (c.getD 0)
  let s3 := finishDec s2 id
  match d.src with
  | .stream die n => dryStream s3 die n
  | _ => s3

/-- O.SIGNAL: a faulted WAIT faults its event. -/
def signalSource (s : State) (id cause : Nat) : State :=
  let d := s.dec id
  if isReplay d.src then finishDec s id
  else if cause != 0 then finishDec (faultEvent s (recSignal d.rcd) d.slot) id
  else if evElsewhere s (recSignal d.rcd) then finishDec (signalAway s d (recArg d.rcd)) id
  else match signalEvent s (recSignal d.rcd) (recArg d.rcd) d.slot false with
    | (some c, s1) => finishDec (writeRecord s1 d 1 c) id
    | (none, s1) => finishDec s1 id

/-- O.WAIT: a WAIT that faults is a stream fault. -/
def waitSource (s : State) (id cause : Nat) : State :=
  let d := s.dec id
  if cause = 0 then finishDec s id else streamFault (finishDec s id) d cause

/-- A watch on another device is left for a record. -/
def leaveWatch (s : State) (id : Nat) : State :=
  let d := s.dec id
  (sendOp s { kind := .wait, target := recWait d.rcd, by_ := .dec id, slot := d.slot, gen := d.gen, die := d.die } .eventWait).2

/-- What the dies' clocked writes have come to. -/
def numbered (s : State) : List Nat := (List.range 4).map fun d => (dieVc s d).getD d 0

/-- A hold ends once every die has applied the writes numbered by then: an acquire of what the source awaited, and a release where
it signals (R433; log entry 106). -/
def holdSeen (s : State) (id : Nat) : Bool := holdOver s id && seenEverywhere s (s.dec id).vc

/-- STREAM_HOLD_END. -/
def execStreamHoldEnd (s : State) : Host.Outcome State Fault Refusal :=
  .next (
    let id := s.cur.x
    let c := recCode (s.dec id).rcd
    if !(s.dec id).live then s
    else if !(holdOver s id) then s.add .streamHoldEnd id
    else if (s.dec id).vc.isEmpty && decWait s id != .send then
      (s.updDec id fun d => { d with vc := numbered s }).add .streamHoldEnd id
    else if c = 0x8 then finishDec s id
    else if c = 0xF then endSource s id
    else match decWait s id with
      | .send => (leaveWatch s id).add .streamHoldEnd id
      | .ends k => if c = 0x6 then signalSource s id k else waitSource s id k
      | .open_ => s.add .streamHoldEnd id)

/-- O.FEED (R186, R432): the stream is dry, and goes on at ARG once its new FEEDEV resolves. -/
def execOFeed (s : State) : Host.Outcome State Fault Refusal :=
  .next (
    let id := s.cur.x
    let d := s.dec id
    match d.src with
    | .stream die n =>
      let a := streamAddr s die n
      let s1 := devPutNat (devPutNat s (a + 0x10) 8 (recWait d.rcd).toNat) (a + 8) 8 (recArg d.rcd)
      let s2 := s1.unpost fun h => h.what == .streamRecordRead && h.x == die && h.y == n
      dryStream (finishDec s2 id) die n
    | _ => finishDec s id)

/-- A job of a grid takes a new priority: queued, it goes to the tail of the new queue; resident, its BASE changes. -/
def setPrio (s : State) (prio j : Nat) : State :=
  let n := s.task.back
  match (s.job j).at_ with
  | .queued => { s with task := { s.task with back := n + 1 } }.updJob j fun x => { x with prio := prio, order := (n : Int) }
  | .placed _ _ => s.updJob j fun x => { x with prio := prio }
  | _ => s

/-- O.PRIO (R434). -/
def execOPrio (s : State) : Host.Outcome State Fault Refusal :=
  .next (
    let id := s.cur.x
    let d := s.dec id
    let arg := recArg d.rcd
    let gs := (liveGrids s d.src).filter fun g => (s.grid g).seq == arg % 65536
    let js := (s.task.jobs.filter fun p => p.2.live && gs.contains p.2.grid).map (·.1)
    finishDec (js.foldl (fun t j => setPrio t (bits arg 18 16) j) s) id)

/-- O.CTX (R435). -/
def execOCtx (s : State) : Host.Outcome State Fault Refusal :=
  .next (
    let id := s.cur.x
    let d := s.dec id
    let arg := recArg d.rcd
    match d.src with
    | .stream die n =>
      finishDec (s.updStream (srcKey die n) fun r => { r with ctx := some (arg % 64, some (bits arg 47 16)) }) id
    | _ => finishDec s id)

/-! ## Engine operators (R430, R436, R437) -/

/-- A record's engine operation at a home. -/
def decOp (s : State) (id : Nat) (kind : HomeKind) (target : DWord) : HomeOp :=
  let d := s.dec id
  { kind := kind, target := target, by_ := .dec id, slot := d.slot, gen := d.gen, die := d.die, bankRng := d.bankRng,
    keyslot := d.keyslot }

/-- Its engine cannot make an access now. -/
def engineStall (s : State) (id : Nat) (again : Instr) (st : Stall) : State :=
  match st with
  | .fault c _ => engineEnd s id c
  | .wait (some n) _ s1 => holdDec s1 id again (some n) 0x115
  | .wait none _ s1 => s1.after 1 again id
  | .spill s1 => holdDec s1 id again none 0x142

/-- Go on with a record's engine unless it has met a cause already, or what it was held on has been faulted. -/
def resumeDec (s : State) (id : Nat) (act : State) : State :=
  let d := s.dec id
  if !d.live || d.answer.isSome then s
  else match holdState s d.held with
    | .faulted => engineEnd s id (faultedCause s (d.held.getD 0))
    | _ => act

/-- What was held has been served. -/
def releaseDec (s : State) (id : Nat) : State := s.updDec id fun d => { d with held := none, heldAt := 0 }

/-- O.COLL: the engine reads SRC and joins the round of KEY. -/
def execOColl (s : State) : Host.Outcome State Fault Refusal :=
  .next (
    let id := s.cur.x
    let d := s.dec id
    let f (off n : Nat) : Nat := blockBits d.block off n
    resumeDec s id (match engReadVa (decPort d) (f 24 8) (8 * f 16 4) s with
      | .error st => engineStall s id .oColl st
      | .ok (bs, s0) =>
        let s1 := releaseDec s0 id
        let vals := (List.range (f 16 4)).map fun i => word64 (leNat ((bs.drop (8 * i)).take 8))
        let (cid, s2) := s1.newEng
        let c : Contrib := { live := true, dec := some id, key := f 0 8, desc := f 8 2 + f 12 1 * 65536, rank := f 10 2,
                             vals := vals, dest := f 32 8, since := s.now }
        ((s2.setContrib cid c).after s.cfg.collLimit .collectiveLimitExpire cid).add .collectiveContribution cid))

/-- The translated CHAIN: where the checked bytes begin, or where an empty array's address would lie (R436); 0 where no range holds
it (the model's choice, log entry 107). -/
def chainIa (d : Dec) (va cap : Nat) (parts : List (Nat × Nat)) : Nat :=
  if cap = 0 then
    (match rngSelect { rng := d.bankRng } va with
      | some r => rngIa { rng := d.bankRng } r va
      | none => 0)
  else (parts.headD (0, 0)).1

/-- O.SEQ: one command at the sequence home. CHAIN is translated as a write of CHAINCAP × 4 bytes. -/
def execOSeq (s : State) : Host.Outcome State Fault Refusal :=
  .next (
    let id := s.cur.x
    let d := s.dec id
    let f (off n : Nat) : Nat := blockBits d.block off n
    let target := word64 (f 4 4)
    let s := markSide s (some d.job)
    resumeDec s id (
      if f 0 1 = 1 then (sendOp s (decOp s id .seqDestroy target) .sequenceOpApply).2
      else match engRun (decPort d) .engWrite (f 8 8) (4 * f 16 4) s with
        | .error st => engineStall s id .oSeq st
        | .ok (parts, s0) =>
          let s1 := releaseDec s0 id
          (sendOp s1 (decOp s1 id (.seqCreate (f 1 1) (chainIa d (f 8 8) (f 16 4) parts) (f 16 4)) target) .sequenceOpApply).2))

/-- O.NODE: its records are deposited in order, one after the other (R437). -/
def execONode (s : State) : Host.Outcome State Fault Refusal :=
  .next (
    let id := s.cur.x
    let d := s.dec id
    let f (off n : Nat) : Nat := blockBits d.block off n
    let size := 16 * f 12 1
    let s := markSide s (some d.job)
    resumeDec s id (
      if f 8 4 ≤ d.done then engineEnd s id 0
      else match engReadVa (decPort d) (f 16 8 + size * d.done) size s with
        | .error st => engineStall s id .oNode st
        | .ok (bs, s1) =>
          let s2 := s1.setDec id { d with done := d.done + 1, held := none, heldAt := 0 }
          (sendOp s2 (decOp s2 id (.deposit (f 12 1) bs) (word64 (f 0 8))) .punnetDeposit).2))

end Sys2Proof.Machine
end

