-- ==== Sys2Proof/Machine/Punnets.lean ====
section
/-! DEFINITION. Punnets (R198 to R200, R410) and the arrival side of remote queues (R196, R197). -/
namespace Sys2Proof.Machine

/-! ## Punnet descriptors (Table 59) -/

def punField (s : State) (die n off k : Nat) : Nat := devNat s (punAddr s die n + off) k
def punValid (s : State) (die n : Nat) : Bool := bit (punField s die n 5 1) 0
def punRsz (s : State) (die n : Nat) : Nat := punField s die n 6 1
def punCount (s : State) (die n : Nat) : Nat := punField s die n 7 1 + 1
def punTimer (s : State) (die n : Nat) : Nat := punField s die n 8 2 * 700
def punHigh (s : State) (die n : Nat) : Nat := punField s die n 0xA 2
def punCap (s : State) (die n : Nat) : Nat := punField s die n 0xE 2
def punArea (s : State) (die n : Nat) : Nat := punField s die n 0x10 8

/-! ## Launch (R199) -/

/-- The die of a launched job: the first of the DIES of ROUTINE's tiling rule, or the punnet's own (R198, R423). -/
def launchDie (s : State) (die n : Nat) : Nat :=
  ((List.range 4).find? fun i => bit (punField s die n 0 4) (20 + i)).getD die

/-- A job for the oldest records of the batch, a grid of its own on ring 0 (R203). It has no grid header, so that whatever SHAPE
says it is one job whose tile is zero (log entry 98). -/
def launch (s : State) (die n count : Nat) : State :=
  let k := punKey die n
  let p := s.pun k
  let slot := punField s die n 4 1 % 64
  let gen := ctxGen s slot
  let gid := s.task.nextGrid
  let s1 := s.setGrid gid { live := true, src := .punnet die n, slot := slot, gen := gen, die := die, njobs := 1, left := 1 }
  let s2 := { s1 with task := { s1.task with nextGrid := gid + 1 } }
  let s3 := s2.setPun k { p with launched := p.launched + count, batch := p.batch - count, timer := false, stamp := p.stamp + 1 }
  let j : Job := { grid := gid, slot := slot, gen := gen, prio := bits (punField s die n 5 1) 3 1,
                   routine := punField s die n 0 4, signal := word64 (punField s die n 0x18 8), die := launchDie s die n,
                   arg := Config.punnetArg (p.launched % max 1 (punCap s die n) * (16 * punRsz s die n)) count,
                   punnet := some (die, n, p.launched, count) }
  (newJob s3 j).2

/-- The count test, which also stops the timer. -/
def countTest (s : State) (die n : Nat) : State :=
  if (s.pun (punKey die n)).batch = punCount s die n then launch s die n (punCount s die n) else s

/-! ## Deposits (R198, R200) -/

inductive Deposit where
  | apply | blocked
  | fail (cause : Nat)
  deriving DecidableEq, Repr, Inhabited

def opPunnet (o : HomeOp) : Nat × Nat := (bits o.target.toNat 13 12, bits o.target.toNat 11 0)

def depositState (s : State) (o : HomeOp) (rsz : Nat) : Deposit :=
  let (die, n) := opPunnet o
  let p := s.pun (punKey die n)
  if !(punValid s die n) || punRsz s die n != rsz then .fail 0x208
  else if p.pressure || decide (punCap s die n ≤ p.depth) then .blocked
  else .apply

def depositReady (s : State) (id : Nat) : Bool :=
  let o := s.op id
  match o.kind with
  | .deposit rsz _ => !o.live || o.applied || (releaseSeen s o && depositState s o rsz != .blocked)
  | _ => true

/-- The deposit is applied: its record is written where the count of deposits puts it. -/
def deposit (s : State) (die n : Nat) (data : List Byte) : Eng Unit := do
  let p := s.pun (punKey die n)
  engWrite (sysPort die) (punArea s die n + p.total % max 1 (punCap s die n) * data.length) data
  let s1 ← get
  let fresh := p.batch == 0
  let p1 : PunRt := { p with
    total := p.total + 1, depth := p.depth + 1, batch := p.batch + 1,
    stamp := if fresh then p.stamp + 1 else p.stamp, timer := fresh || p.timer,
    pressure := p.pressure || decide (punHigh s die n ≤ p.depth + 1) }
  let s2 := s1.setPun (punKey die n) p1
  let s3 := if fresh then s2.after (punTimer s die n) .punnetTimerExpire die n p1.stamp else s2
  set (countTest s3 die n)

/-- PUNNET_DEPOSIT: `x` the operation. A punnet found not VALID counts its deposits from none. A deposit that is refused is not
applied; once the punnet leaves PRESSURE its NODEPUT is answered with 1, and is made again (R200). -/
def execPunnetDeposit (s : State) : Host.Outcome State Fault Refusal :=
  .next (
    let id := s.cur.x
    let o := s.op id
    let (die, n) := opPunnet o
    if !o.live || o.applied then s
    else match o.kind with
      | .deposit rsz data =>
        (match depositState s o rsz with
          | .fail c =>
            opReply (if punValid s die n then s else s.setPun (punKey die n) { s.pun (punKey die n) with total := 0, launched := 0 }) id c 0
          | .blocked => (s.updOp id fun x => { x with waiting := true }).add .punnetDeposit id
          | .apply => if o.waiting && o.yields then opReply s id 0 1 else match deposit s die n data s with
            | .error (.fault c _) => opReply s id c 0
            | .error (.wait _ _ s1) => s1.after 1 .punnetDeposit id
            | .error (.spill s1) => s1.after 1 .punnetDeposit id
            | .ok ((), s1) => opReply s1 id 0 0)
      | _ => dropOp s id)

/-- PUNNET_TIMER_EXPIRE: `x` the die, `y` the punnet, `z` the timer's start. -/
def execPunnetTimerExpire (s : State) : Host.Outcome State Fault Refusal :=
  .next (
    let p := s.pun (punKey s.cur.x s.cur.y)
    if p.timer && p.stamp == s.cur.z && decide (0 < p.batch) then launch s s.cur.x s.cur.y p.batch else s)

/-- NODEPUT (R410): the source bytes are read at issue; the release completes before the record leaves. -/
def nodeputSend (s : State) (o : UX) (word : DWord) (data : List Byte) : State :=
  if !(relDone s (curGk s) (heldLanes s)) then s
  else
    let s1 := sideEffect s
    sendYield s1 (curOp s1 (.deposit (o.h.toNat % 16 + 1) data) word word none true) .punnetDeposit

def nodeputRun (s : State) (o : UX) : State :=
  let word := rdS s o.c.toNat
  let size := 16 * (o.h.toNat % 16 + 1)
  let a := (rdS s o.a.toNat).toNat
  if bits word.toNat 63 14 != 0 then raise s 0x087
  else if o.e = 0 then
    (if (curTeam s).ssize < a + size then raise s 0x084
     else if a % 16 != 0 then raise s 0x085
     else nodeputSend s o word (scratchBytes s s.cur.core ((curTeam s).sbase + a) size))
  else match curRead s a size with
    | .range c => raiseAddr s c a
    | .cause c => raiseFull s c (heldLanes s) (word64 a) 0 false
    | .absent e s1 => raiseAbsent s1 e a
    | .wait s1 => s1
    | .ok bs s1 => nodeputSend s1 o word bs

def execNodeput (o : UX) (s : State) : Host.Outcome State Fault Refusal :=
  .next (uniformOp s (.nodeput o) [o.a.toNat, o.c.toNat]
    (yieldOp s (nodeputRun s o) fun op s1 => if op.value = 1 then nodeputRun s1 o else advance s1))

/-! ## Remote queues: packets and residency (R196, R197) -/

def residents (s : State) (die : Nat) : List Nat :=
  (List.range 256).filter fun q => (s.queue (srcKey die q)).resident

/-- A place among the 32: free, or that of the least recently pushed queue whose buffer is empty. -/
def queuePlace (s : State) (die : Nat) : Option (Option Nat) :=
  let l := residents s die
  if l.length < 32 then some none
  else match (pickBest (fun y x => decide ((s.queue (srcKey die y)).pushedAt < (s.queue (srcKey die x)).pushedAt))
      (l.filter fun q => (s.queue (srcKey die q)).buf.isEmpty)) with
    | some q => some (some q)
    | none => none

/-- A queue that still has records while it is swapped out is re-admitted later. -/
def swapOut (s : State) (die q : Nat) : State :=
  let s1 := s.updQueue (srcKey die q) fun r => { r with resident := false }
  if 0 < queueBacked s die q || !(queueSpilled s die q).isEmpty then s1.post .queueReadmit die q else s1

def makeResident (s : State) (die q : Nat) : Option State :=
  if (s.queue (srcKey die q)).resident then some s
  else match queuePlace s die with
    | none => none
    | some v =>
      let s1 := match v with
        | some o => swapOut s die o
        | none => s
      some ((s1.updQueue (srcKey die q) fun r => { r with resident := true }).post .streamRecordRead die (256 + q))

/-- A record takes the lowest free entry of the die's spill area, `no` its place in the order of arrival. -/
def spillRecord (s : State) (die q no : Nat) (rcd : BitVec 256) : State :=
  let l := s.task.spill.get die
  let e := ((List.range (l.length + 1)).find? fun e => !(l.any fun p => p.1 == e)).getD 0
  let s1 := devPut s (spillAt s die e) (leBytes 32 rcd.toNat ++ leBytes 8 q ++ leBytes 8 no)
  { s1 with task := { s1.task with spill := s1.task.spill.put die (l ++ [(e, q, no)]) } }

/-- One record of a packet: into the buffer, the backing area or the spill area; whether it spilled. -/
def queuePush (s : State) (die q : Nat) (rcd : BitVec 256) : Bool × State :=
  let r := s.queue (srcKey die q)
  let no := s.task.arrived.get die + 1
  let s0 := { s with task := { s.task with arrived := s.task.arrived.put die no } }
  if !r.resident then (true, spillRecord s0 die q no rcd)
  else if r.buf.length < 64 then (false, s0.updQueue (srcKey die q) fun x => { x with buf := x.buf ++ [(no, rcd)] })
  else if queueBacked s die q < queueCap s die q then
    let a := queueAddr s die q
    let t := devNat s (a + 0x20) 4
    (false, (devPutNat (devPut s0 (backAt s die q t) (leBytes 32 rcd.toNat)) (a + 0x20) 4 ((t + 1) % 2 ^ 32)).updQueue (srcKey die q)
      fun x => { x with backed := x.backed ++ [no] })
  else (true, spillRecord s0 die q no rcd)

def queuePushAll (s : State) (die q : Nat) : List (BitVec 256) → Bool × State
  | [] => (false, s)
  | r :: t =>
    let (b, s1) := queuePush s die q r
    let (c, s2) := queuePushAll s1 die q t
    (b || c, s2)

def spillCap (s : State) (die : Nat) : Nat := s.cfg.spsize.getD die 0 / 64

/-- The status of a packet, with its effect. Of a packet of which only some records fit the buffer and the backing area those are
appended and the rest spill (the model's choice, log entry 107). -/
def packetStatus (s : State) (die q gen : Nat) (recs : List (BitVec 256)) : Nat × State :=
  let a := queueAddr s die q
  if !(bit (queueCtl s die q) 63) || devNat s (a + 8) 4 != gen then (1, s)
  else
    let s0 := if (s.queue (srcKey die q)).gen = gen then s
      else (dropQueue s die q).updQueue (srcKey die q) fun r => { r with gen := gen }
    let s1 := ((makeResident s0 die q).getD s0).updQueue (srcKey die q) fun r => { r with pushedAt := s.tick + 1 }
    let (spilled, s3) := queuePushAll s1 die q recs
    let s2 := s3.post .streamRecordRead die (256 + q)
    if !spilled then (0, s2)
    else if spillCap s die < (s2.task.spill.get die).length then (3, s)
    else (2, s2.post .queueReadmit die q)

/-- QUEUE_PUSH_PACKET: a handle and one to eight records; the answer goes back to the peer. -/
def execQueuePushPacket (handle : DWord) (recs : List (BitVec 256)) (s : State) : Host.Outcome State Fault Refusal :=
  .next (
    let (st, s1) := packetStatus s (bits handle.toNat 53 52) (bits handle.toNat 47 40) (handle.toNat % 2 ^ 32) recs
    emitOut s1 (.queueStatus handle st))

/-- QUEUE_READMIT: `x` the die, `y` the queue. -/
def execQueueReadmit (s : State) : Host.Outcome State Fault Refusal :=
  .next (
    let die := s.cur.x
    let q := s.cur.y
    if !(queueLive s die q) then dropQueue s die q
    else (makeResident s die q).getD (s.post .queueReadmit die q))

def readmitReady (s : State) (die q : Nat) : Bool :=
  !(queueLive s die q) || (s.queue (srcKey die q)).resident || (queuePlace s die).isSome

end Sys2Proof.Machine
end

