-- ==== Sys2Proof/Machine/Jobs.lean ====
section
/-! DEFINITION. Tile jobs from the dispatcher's queues to a worker team and a routine's first instruction
(R16, R18, R71, R74, R178, R179, R187, R201, R206 to R209, R286). -/
namespace Sys2Proof.Machine

/-! ## The dependence check (R187, R195, R65) -/

inductive JobWait where
  | open_ | send | ok | fault
  deriving DecidableEq, Repr, Inhabited

/-- A residency event of this device (R50). -/
def isResidency (s : State) (n : DWord) : Bool :=
  evLocal s n && decide (s.cfg.rqFirst.getD (evDie n) 0 ≤ evIndex n)
  && decide (evIndex n < s.cfg.rqFirst.getD (evDie n) 0 + s.cfg.rqLen.getD (evDie n) 64)

def jobWatch (s : State) (j : Nat) (n : DWord) : Option HomeOp :=
  (s.task.ops.find? fun p => p.2.live && p.2.by_ == .job j && p.2.target == n).map (·.2)

/-- What one wait event has come to; a cause at its home retires the job as a faulted event does. -/
def jobWait (s : State) (j : Nat) (n : DWord) : JobWait :=
  if !(evReachable s n) then .fault
  else if evLocal s n then
    match evalWait s n (s.job j).slot (isResidency s n) with
    | .open_ => .open_
    | .resolved _ => .ok
    | _ => .fault
  else match jobWatch s j n with
    | none => .send
    | some o => if !o.answered then .open_ else if o.cause = 0 then .ok else .fault

/-- A job's dependence check can be made: no wait is open, one has faulted, or a watch is still to be left on another device. -/
def eligibleReady (s : State) (j : Nat) : Bool :=
  let jb := s.job j
  let l := jb.waits.map (jobWait s j)
  !jb.live || jb.at_ != .queued || jb.eligible || l.contains .send || l.contains .fault || !(l.contains .open_)

/-- Jobs of one queue that wait for no event pass the check in the queue's order (R187, R207). -/
def inTurn (s : State) (j : Nat) : Bool :=
  let jb := s.job j
  !(jb.live && jb.at_ == .queued && !jb.eligible) || !(s.task.jobs.any fun p =>
    p.2.live && p.2.at_ == .queued && !p.2.eligible && p.2.waits.isEmpty && p.2.die == jb.die && p.2.prio == jb.prio
      && decide (p.2.order < jb.order))

/-- Regeneration has failed for a page that the job waited for: once it is requeued, the second time the page fails it
(R65). -/
def regenFailed (s : State) (j : Nat) (n : DWord) : State :=
  let page := rqPage s n * 16
  s.updJob j fun x =>
    let w := x.waits.filter (· != n)
    if x.badPages.contains page then { x with waits := w, failPages := page :: x.failPages }
    else { x with waits := w, badPages := page :: x.badPages }

def dropWatches (s : State) (j : Nat) : State :=
  { s with task := { s.task with ops := s.task.ops.filter fun p => p.2.by_ != .job j } }

/-- A job that is not run: its punnet's records are freed, its frame and shadow area released, and it retires. -/
def retireUnrun (s : State) (j status : Nat) : State :=
  let jb := s.job j
  let s1 := freeRecords (dropSaved (verDiscard (leavePlace (dropWatches s j) j) j) j) j
  retireJob (freeShadow (freeFrames s1 jb.slot j) jb.slot j) j status 0

/-- JOB_ELIGIBLE: `x` the job. An engine's unit is not placed, and starts with no check of its context's LIVE or generation: R16
names placement alone, and the model's choice is to take it at its word (log entry 99). -/
def execJobEligible (s : State) : Host.Outcome State Fault Refusal :=
  .next (
    let j := s.cur.x
    let jb := s.job j
    let faulted := jb.waits.filter fun n => jobWait s j n == .fault
    let regen := faulted.filter fun n => isResidency s n && rqKind s n == 1
    if !jb.live || jb.at_ != .queued || jb.eligible then s
    else match jb.waits.find? fun n => jobWait s j n == .send with
      | some n =>
        let o : HomeOp := { kind := .wait, target := n, by_ := .job j, slot := jb.slot, gen := jb.gen, die := jb.die }
        ((sendOp s o .eventWait).2).post .jobEligible j
      | none =>
        if !(eligibleReady s j) then s.post .jobEligible j
        else match regen with
          | n :: _ => (regenFailed s j n).post .jobEligible j
          | [] =>
            if !faulted.isEmpty then retireUnrun (if jb.replay then s else faultEvent s jb.signal jb.slot) j 3
            else
              let s1 := (dropWatches s j).updJob j fun x => { x with eligible := true }
              match jb.engine with
              | some d => s1.add (codeEvent (recCode (s1.dec d).rcd)) d
              | none => s1.post .mailboxDeliver jb.die)

/-! ## Delivery to a mailbox (R201, R203, R207, R208) -/

/-- Jobs of a die that have passed the dependence check. -/
def eligibleJobs (s : State) (die : Nat) : List Nat :=
  (s.task.jobs.filter fun p =>
    p.2.live && p.2.at_ == .queued && p.2.eligible && p.2.die == die && p.2.engine.isNone).map (·.1)

/-- A job whose ring can take no more records, its die's backlog being full (R203). -/
def ringBlocked (s : State) (j : Nat) : Bool :=
  ringFull (s.ring (s.job j).ring) && decide (256 ≤ (s.task.backlog.get (s.grid (s.job j).grid).die).length)

/-- The job that moves next: of the highest queue that holds one, the first that its ring does not stop. -/
def nextJob (s : State) (die : Nat) : Option Nat :=
  let l := eligibleJobs s die
  let top := l.foldl (fun m j => max m (s.job j).prio) 0
  pickBest (fun y x => decide ((s.job y).order < (s.job x).order))
    (l.filter fun j => (s.job j).prio == top && !(ringBlocked s j))

def freeMail (s : State) (core : Nat) : Option Nat := (List.range 16).find? fun n => !((s.cregs core).mbstat.getLsbD n)

/-- Full mailbox slots and resident user teams. -/
def heldJobs (s : State) (core : Nat) : Nat :=
  ((List.range 16).filter fun n => (s.cregs core).mbstat.getLsbD n).length
  + ((List.range 16).filter fun w => (s.team (core * 16 + w)).job.isSome).length

def mailCore (s : State) (die : Nat) : Option Nat :=
  let l := ((List.range (s.cfg.cores.getD die 0)).map fun i => die * 48 + i).filter fun c =>
    !((s.cregs c).offline) && (freeMail s c).isSome
  pickBest (fun y x => decide (heldJobs s y < heldJobs s x)) l

def mailReady (s : State) (die : Nat) : Bool :=
  (eligibleJobs s die).isEmpty || ((nextJob s die).isSome && (mailCore s die).isSome)

/-- Table 62. -/
def jobRecord (jb : Job) : List Byte :=
  leBytes 4 jb.jobid ++ leBytes 4 jb.grid ++ leBytes 4 jb.jobno ++ leBytes 1 jb.slot
  ++ leBytes 1 (jb.prio + b2n jb.idem * 8 + b2n jb.nonRestart * 16) ++ leBytes 1 jb.depth ++ leBytes 1 jb.aborts
  ++ leBytes 4 jb.gen ++ leBytes 4 jb.routine ++ leBytes 8 jb.arg.toNat ++ leBytes 8 jb.signal.toNat
  ++ leBytes 8 jb.tile.toNat ++ leBytes 4 jb.parent ++ leBytes 2 jb.stream ++ leBytes 2 jb.seq ++ leBytes 1 jb.ring
  ++ leBytes 7 0

def mailOff (n : Nat) : Nat := 0x3C0000 + 64 * n

/-- MAILBOX_DELIVER: `x` the die. -/
def execMailboxDeliver (s : State) : Host.Outcome State Fault Refusal :=
  .next (
    let die := s.cur.x
    match nextJob s die, mailCore s die with
    | some j, some c =>
      let n := (freeMail s c).getD 0
      let s1 := (scratchPuts s c 0 (mailOff n) (jobRecord (s.job j))).updCregs c fun r =>
        { r with mbstat := r.mbstat ||| BitVec.ofNat 64 (2 ^ n) }
      let s2 := { s1 with task := { s1.task with mail := s1.task.mail.put c (s1.task.mail.get c ++ [(n, j)]) } }
      let s3 := s2.updJob j fun x => { x with at_ := .mailbox c n, mailAt := s.now }
      let s4 := ((pollCore s3 c).post .preemptPriorityTrigger c).post .preemptTimesliceTrigger c
      if (eligibleJobs s4 die).isEmpty then s4 else s4.post .mailboxDeliver die
    | _, _ => if (eligibleJobs s die).isEmpty then s else s.post .mailboxDeliver die)

/-! ## Banks (R18, R19) -/

def bankBound (s : State) (core k : Nat) : Bool :=
  (List.range 16).any fun w => (s.team (core * 16 + w)).bound && (s.team (core * 16 + w)).bank == k

/-- The bank for a context: one that holds it as its descriptor stands, or an unbound one to load. -/
def bankFor (s : State) (core slot : Nat) : Option (Nat × Bool) :=
  let id := word64 (maskBits (word64 (ctxWord s slot 0)) 47 16 + slot)
  let hit := (List.range 4).find? fun k =>
    let b := s.bank (core * 4 + k)
    b.held && b.ctxid == id && b.rgen == word64 (ctxWord s slot 0x10)
  match hit with
  | some k => some (k, false)
  | none =>
    let l := (List.range 4).filter fun k => !(bankBound s core k)
    match l.find? fun k => !((s.bank (core * 4 + k)).held) with
    | some k => some (k, true)
    | none =>
      (pickBest (fun y x => decide ((s.bank (core * 4 + y)).unboundAt < (s.bank (core * 4 + x)).unboundAt)) l).map fun k =>
        (k, true)

def featWords (l : List Byte) : List DWord := (List.range 8).map fun i => word64 (leNat ((l.drop (8 * i)).take 8))

/-- A bank as its context's descriptor loads it. -/
def bankOf (s : State) (slot : Nat) : Bank :=
  { held := true, ctxid := word64 (maskBits (word64 (ctxWord s slot 0)) 47 16 + slot), rgen := word64 (ctxWord s slot 0x10),
    keyslot := BitVec.ofNat 8 (ctxWord s slot 0x18), lockq := devNat s (ctxAddr s slot + 0x70) 4,
    embase := specialHeld 0x010 (word64 (ctxWord s slot 0x60)), trapbase := specialHeld 0x011 (word64 (ctxWord s slot 0x68)),
    feat := featWords (devBytes s (ctxAddr s slot + 0x20) 64), rng := ctxRanges s slot }

def loadBank (s : State) (core k slot : Nat) : State := kcDropBank (s.setBank (core * 4 + k) (bankOf s slot)) core k

/-! ## The routine (R178, R179, R363) -/

/-- The function table entry of a routine, through the context's routine table (R422). -/
def routineVa (s : State) (slot routine : Nat) : Option Nat :=
  (s.cfg.routines.find? fun p => p.1 == slot * 2 ^ 20 + routine % 2 ^ 20).map (·.2)

inductive Routine where
  | ok (va f : Nat) (s : State)
  | fail (cause : Nat)
  | wait (s : State)

def readRoutine (s : State) (core : Nat) (j : Nat) : Routine :=
  let jb := s.job j
  let b := bankOf s jb.slot
  match routineVa s jb.slot jb.routine with
  | none => .fail 0x282
  | some va =>
    match syncRead s { core := core, bank := b, priv := true, l1 := true } va 32 .load with
    | .range _ => .fail 0x282
    | .cause c => .fail c
    | .absent _ s1 => .wait s1
    | .wait s1 => .wait s1
    | .ok bs s1 =>
      let f := leNat bs
      let coded := (b.feat.getD 0 0 &&& devFeat s 0).getLsbD 2
      if fteBad f || (fteCoded f && !coded) then .fail 0x0C5 else .ok va f s1

/-! ## Grants (R71, R176, R209, R286) -/

/-- What a team needs: its size, tiles, scratchpad bytes and declared window. -/
structure Needs where
  n : Nat := 1
  tiles : Nat := 0
  scratch : Nat := 0
  window : Nat := 64
  deriving DecidableEq, Repr, Inhabited

def roundGrant (n : Nat) : Nat := (n + 16383) / 16384 * 16384

/-- A mask with emulated accumulators (R286). -/
def emulMask (s : State) (feat : DWord) : Bool := bits (feat &&& devFeat s 0).toNat 13 8 == 0
/-- The mask of the bank in which a job of the context would be placed. -/
def placeMask (s : State) (core slot : Nat) : DWord :=
  match bankFor s core slot with
  | some (k, false) => (s.bank (core * 4 + k)).feat.getD 0 0
  | _ => word64 (ctxWord s slot 0x20)
def emulTiles (s : State) (core slot : Nat) : Bool := emulMask s (placeMask s core slot)
/-- A resident team has emulated accumulators. -/
def teamEmul (s : State) (t : Nat) : Bool := emulMask s ((s.bank (coreOfTeam t * 4 + (s.team t).bank)).feat.getD 0 0)

def frameSize (s : State) (slot : Nat) : Nat := devNat s (ctxAddr s slot + 0x208) 4 * 65536
def frameAt (s : State) (slot n : Nat) : Nat := bits (ctxWord s slot 0x200) 51 16 * 65536 + n * frameSize s slot

/-- A new team's needs are its routine's; a saved one's size and grant are those of its frame's header (R234). -/
def needsOf (s : State) (j f : Nat) : Needs :=
  let jb := s.job j
  match jb.frame with
  | none => { n := fteTeam f, tiles := fteTiles f, scratch := roundGrant (fteScratch f), window := fteWindow f }
  | some k =>
    let a := frameAt s jb.slot k
    { n := devNat s (a + 0x48) 2, tiles := fteTiles f, scratch := devNat s (a + 0x50) 4, window := fteWindow f }

/-- Emulation windows of a fibre (Table 99, R235): those EMBASE allots at placement, or those a saved team's first live fibre
had (its record's m_f ÷ 64). -/
def ewinOf (s : State) (j embase window : Nat) : Nat :=
  let jb := s.job j
  match jb.frame with
  | none => bits embase 59 58
  | some k =>
    let a := frameAt s jb.slot k
    let n := devNat s (a + 0x4A) 1
    let fibres := (devBytes s (a + 4096 + 2048 * n) (1024 * n))
    match (List.range (64 * n)).find? fun i => (fibres.getD (16 * i + 7) 0).getLsbD 7 with
    | some i => (fibres.getD (16 * i + 10) 0).toNat - window / 64 - 1
    | none => 0

def freeGroups (s : State) (core : Nat) : List Nat := (List.range 32).filter fun g => (s.group (groupKey core g)).team.isNone

/-- The lowest free run of the user part of a core's scratchpad, in units of 16 KiB, given the teams that hold some. -/
def findRun (held : List (Nat × Nat)) (size : Nat) : Option Nat :=
  ((List.range 240).map (· * 16384)).find? fun b =>
    decide (b + size ≤ 240 * 16384) && held.all fun p => decide (b + size ≤ p.1) || decide (p.1 + p.2 ≤ b) || p.2 == 0

def heldScratch (s : State) (core : Nat) (except_ : List Nat) : List (Nat × Nat) :=
  ((List.range 16).filter fun w => (s.team (core * 16 + w)).bound && !(except_.contains (core * 16 + w))).map fun w =>
    ((s.team (core * 16 + w)).sbase, (s.team (core * 16 + w)).ssize)

/-- Another job of the context holds its tile shadow area. -/
def shadowTaken (s : State) (core j f : Nat) : Bool :=
  let jb := s.job j
  let h := s.task.shadow.get jb.slot
  emulTiles s core jb.slot && fteTiles f != 0 && h != 0 && h != j + 1

/-- Everything can be granted at once on a core, once the teams of `gone` have left it. -/
def canGrant (s : State) (core j f : Nat) (gone : List Nat) : Bool :=
  let q := needsOf s j f
  let freed := (gone.map fun t => (s.team t).groups.length).foldl (· + ·) 0
  let banks := (bankFor s core (s.job j).slot).isSome || (List.range 4).any fun k =>
    (List.range 16).all fun w =>
      !((s.team (core * 16 + w)).bound && (s.team (core * 16 + w)).bank == k) || gone.contains (core * 16 + w)
  let worker := !gone.isEmpty || (List.range s.cfg.workers).any fun w => (s.team (core * 16 + w)).waiting
  banks && worker && !(shadowTaken s core j f) && decide (ceilDiv q.n 64 ≤ (freeGroups s core).length + 1 + (freed - gone.length))
  && (findRun (heldScratch s core gone) q.scratch).isSome

/-- The mailbox job that goes first: of highest effective priority, and of these the earliest delivered (R209). -/
def bestMail (s : State) (core : Nat) : Option (Nat × Nat) :=
  let l := s.task.mail.get core
  match pickBest (fun y x => decide (effPrio s (l.getD y (0, 0)).2 > effPrio s (l.getD x (0, 0)).2)) (List.range l.length) with
  | some i => l[i]?
  | none => none

/-- The job's context is no longer the one it was made in (R16). -/
def jobStale (s : State) (j : Nat) : Bool := !(ctxLive s (s.job j).slot) || ctxGen s (s.job j).slot != (s.job j).gen

/-- A worker team can take the best job of its core: the lowest-numbered that waits does. -/
def takeReady (s : State) (core w : Nat) : Bool :=
  (s.team (core * 16 + w)).waiting
  && !((List.range w).any fun v => (s.team (core * 16 + v)).waiting)
  && (match bestMail s core with
    | none => false
    | some (_, j) => jobStale s j || (match readRoutine s core j with
      | .ok _ f _ => canGrant s core j f []
      | _ => true))

/-! ## Routine entry (R74, R169, R179, R440) -/

/-- Bytes of the grant that another context wrote last read as zero. -/
def cleanGrant (s : State) (core slot base size : Nat) : State :=
  let foreign (k : Nat) : Bool :=
    decide (scratchKey core base ≤ k) && decide (k < scratchKey core (base + size)) && s.core.scratchBy.get k != slot + 1
  { s with core := { s.core with
      scratch := s.core.scratch.filter fun p => !(foreign p.1)
      scratchBy := s.core.scratchBy.filter fun p => !(foreign p.1) } }

/-- What an earlier generation of the slot wrote belongs to another context. -/
def noteContext (s : State) (core slot gen : Nat) : State :=
  let k := core * 64 + slot
  let t := { s with core := { s.core with scratchGen := s.core.scratchGen.put k (gen + 1) } }
  if s.core.scratchGen.get k = gen + 1 then t
  else { t with core := { t.core with
    scratchBy := t.core.scratchBy.filter fun p => !(p.1 / 2 ^ 22 == core && p.2 == slot + 1) } }

/-- The team's groups: its own, and the lowest free ones. -/
def newGroups (s : State) (core w n : Nat) : List Nat :=
  let own := (s.team (core * 16 + w)).groups.headD 0
  own :: (freeGroups s core).take (ceilDiv n 64 - 1)

/-- Placement of a job: bank, groups, tiles and scratchpad are the team's. -/
def placeTeam (s : State) (core w j : Nat) (q : Needs) : State :=
  let jb := s.job j
  let t := core * 16 + w
  let (k, load) := (bankFor s core jb.slot).getD (0, false)
  let s1 := if load then loadBank s core k jb.slot else s
  let base := (findRun (heldScratch s core []) q.scratch).getD 0
  let s2 := cleanGrant (noteContext s1 core jb.slot jb.gen) core jb.slot base q.scratch
  let gs := newGroups s core w q.n
  let tm : Team := { job := some j, bank := k, bound := true, n := q.n, tiles := q.tiles, sbase := base, ssize := q.scratch,
                     window := q.window, ewin := ewinOf s j (s1.bank (core * 4 + k)).embase.toNat q.window, groups := gs, placedAt := s.now, serial := s.task.nextPlace, ranBefore := jb.ran,
                     frame := jb.frame }
  let s3 := { s2.setTeam t tm with task := { s2.task with nextPlace := s2.task.nextPlace + 1 } }
  l1DropCore (s3.updJob j fun x =>
    { x with at_ := .placed core w, served := false, forced := x.forced || decide (8 ≤ x.aborts) }) core

/-- Uniform registers and condition bits that a routine finds with no defined value (R440; log entry 1). -/
def freeUniform (s : State) (gk : Nat) : State :=
  let (c, s1) := s.fresh
  (((List.range 38).map (· + 2)) ++ ((List.range 8).map (· + 56))).foldl (fun t r =>
    let (v, t1) := t.fresh
    t1.setSregOf gk r v) (s1.updGroup gk fun x => { x with conds := c.setWidth 8 })

/-- A new team's tiles hold whatever their last writer left, which is not said to be any team's (R299; log entry 1); so do
the tiles of one whose accumulators are emulated, to which none is allotted (R286). -/
def freeTiles (s : State) (t n : Nat) : State :=
  (List.range n).foldl (fun u k =>
    { setTile u t k ((List.range 16384).map fun i => Config.freeWord (u.free + i)) with free := u.free + 16384 }) s

/-- Fibres 0 to n − 1 stand at the routine's first word, each with its identifier in v0 and 0 in v1. -/
def enterGroup (s : State) (core t tg g n j va f : Nat) : State :=
  let gk := groupKey core g
  let jb := s.job j
  let lanes := List.range (min 64 (n - 64 * tg))
  let s1 := dropGroups s [gk]
  let s2 := s1.setGroup gk { team := some t, tgrp := tg, live := maskOf lanes }
  let s3 := clearWindows s2 (lanes.map fun l => fibKey gk l)
  let s4 := lanes.foldl (fun u l => setRegs u (fibKey gk l) 0 [BitVec.ofNat 32 (64 * tg + l), 0]) s3
  let s5 := s4.setEnt (entKey core (8 * g))
    { st := .ready, pc := BitVec.ofNat 57 (fteEntry f), lanes := maskOf lanes, since := s.now, fteAt := va, fteRaw := BitVec.ofNat 256 f }
  let s6 := ((freeUniform s5 gk).setSregOf gk 48 (withFte 0 va)).setSregOf gk 40 (word64 (2 ^ 63 + s.cfg.waitReturn % 2 ^ 57))
  addDigest ((s6.setSregOf gk 0 jb.arg).setSregOf gk 1 jb.tile) (some j) va (fteEntry f) lanes.length

def enterRoutine (s : State) (core w j va f : Nat) : State :=
  let t := core * 16 + w
  let tm := s.team t
  (tm.groups.mapIdx fun tg g => (tg, g)).foldl (fun u p => enterGroup u core t p.1 p.2 tm.n j va f)
    ((freeTiles s t tm.tiles).updJob j fun x => { x with restartable := x.idem && !x.nonRestart })

/-- The placed job takes the shadow area (R286). -/
def takeShadow (s : State) (t j f : Nat) : State :=
  let jb := s.job j
  if teamEmul s t && fteTiles f != 0 then
    { s with task := { s.task with shadow := s.task.shadow.put jb.slot (j + 1) } }
  else s

/-! ## Completion rings (R203, R204) -/

/-- The oldest record of a die's backlog whose ring has room. -/
def drainable (s : State) (die : Nat) : Option (Nat × BitVec 256) :=
  (s.task.backlog.get die).find? fun p => !(ringFull (s.ring p.1))

/-- COMPLETION_BACKLOG_DRAIN: `x` the die. -/
def execCompletionBacklogDrain (s : State) : Host.Outcome State Fault Refusal :=
  .next (
    let die := s.cur.x
    match drainable s die with
    | none => if (s.task.backlog.get die).isEmpty then s else s.post .completionBacklogDrain die
    | some p =>
      let rest := (s.task.backlog.get die).erase p
      let s1 := ringAppend { s with task := { s.task with backlog := s.task.backlog.put die rest } } p.1 p.2
      if rest.isEmpty then s1 else s1.post .completionBacklogDrain die)

/-- MSIX_TIMEOUT: `x` the ring, `y` the message before which it began to count. -/
def execMsixTimeout (s : State) : Host.Outcome State Fault Refusal :=
  .next (
    let r := s.ring s.cur.x
    if r.stamp == s.cur.y && r.since != 0 then sendMsix s s.cur.x else s)

/-- PARENT_RETIRE: `x` the last grid of a parent's children, or with `y` set the parent; its signal and accounting follow
(R181). -/
def execParentRetire (s : State) : Host.Outcome State Fault Refusal :=
  .next (
    match if s.cur.y = 1 then some s.cur.x else (s.grid s.cur.x).parentJob with
    | some p =>
      let jb := s.job p
      if jb.live && jb.ended && !(liveChildren s p) then settleJob s p jb.status jb.cause else s
    | none => s)

/-! ## OPSUB (R180, R411) -/

/-- The lines that a job's version holds are committed at their homes (R91, R180). -/
def commitVersion (s : State) (core j : Nat) (b : Bank) : State :=
  (versionLines s j).foldl (fun t line =>
    let (id, t1) := t.newId
    let r : Req := { src := .commit j, kind := .commit j, ia := line * 256, len := 256, core := core, die := dieOf core,
                     slot := bankSlot b, job := some j, keyslot := b.keyslot.toNat, vc := dieVc t (dieOf core) }
    (putReq t1 id r).add .requestAtNearSlice id) s

/-- The record of an OPSUB or a REPLAY in the issuing job's context, with the generation that its descriptor gives (R422). -/
def curDec (s : State) (rcd : BitVec 256) : Dec :=
  let b := curBank s
  let j := (curTeam s).job
  let jb := s.job (j.getD 0)
  { rcd := rcd, src := .opsub (j.getD 0), die := dieOf s.cur.core, slot := bankSlot b, gen := ctxGen s (bankSlot b),
    bankRng := b.rng, keyslot := b.keyslot.toNat, depth := jb.depth + 1, ring := jb.ring, parentJob := j }

/-- The checks of R411 in their order: a cause, the block to come, or not now. -/
def checkOpsub (s : State) (d : Dec) (check : Checked → State) : State :=
  match checkRecord s d with
  | .fail c => raise s c
  | .absent e s1 => raiseAbsent s1 e (recArg d.rcd)
  | .wait s1 => s1
  | .ok b s1 =>
    if 11 ≤ d.depth then raise s 0x201
    else match armFailure s1 d.slot (recArms d b) (featBit s 42) with
      | some c => raise s c
      | none => check (.ok b s1)

/-- The parent's writes enter its version before its lines are committed: its child sees every one of them (R180). The release
completes before the record leaves (Table 41). -/
def opsubSend (s : State) (d : Dec) (va : DWord) : State :=
  if !((curTeam s).job.all (writesIn s)) || !(relDone s (curGk s) (heldLanes s)) then s
  else
  let s1 := endRestart (markSide s (curTeam s).job) (curTeamKey s)
  let s2 := match (curTeam s1).job with
    | some j => commitVersion s1 s.cur.core j (curBank s1)
    | none => s1
  let (id, s3) := s2.newOp (curOp s2 .opsub va va none true)
  yieldFor (submitRecord s3 { d with op := id }).2 (.home id)

/-- A 32-byte record is read at issue as a load. -/
def readRecordAt (s : State) (va n : Nat) (k : List Byte → State → State) : State :=
  match curRead s va n with
  | .range c => raiseAddr s c va
  | .cause c => raiseFull s c (heldLanes s) (word64 va) 0 false
  | .absent e s1 => raiseAbsent s1 e va
  | .wait s1 => s1
  | .ok bs s1 => k bs s1

def execOpsub (o : UR) (s : State) : Host.Outcome State Fault Refusal :=
  .next (uniformOp s (.opsub o) [o.a.toNat]
    (yieldOp s
      (let va := (rdS s o.a.toNat).toNat
       if va % 32 != 0 then raise s 0x087
       else readRecordAt s va 32 fun bs s1 =>
        let d := curDec s1 (bytesToRec bs)
        checkOpsub s1 d fun c => match c with
          | .ok _ s2 => opsubSend s2 d (word64 va)
          | _ => s1)
      fun _ s1 => advance s1))

/-! ## JOBEND (R412) -/

/-- The run time of a retired job enters the estimate table (R218): the routine's last eight, most recently used first.
A use is such an entry: a lookup for Remaining moves nothing (the model's choice, log entry 113). -/
def enterEstimate (s : State) (die routine ran : Nat) : State :=
  let l := s.task.est.get die
  let old := match l.find? fun p => p.1 == routine with
    | some p => p.2
    | none => []
  let new := (routine, (ran :: old).take 8) :: l.filter fun p => p.1 != routine
  { s with task := { s.task with est := s.task.est.put die (new.take 256) } }

def runTime (s : State) (t : Nat) : Nat := (s.team t).ranBefore + (s.now - (s.team t).placedAt)

/-- Steps 2 to 5: the version is committed, and what the job's die had seen when it was is seen on every die, so that the signal
is the release that Table 41 makes of it (R127, R140; log entry 106). -/
def jobEnd (s : State) (t j : Nat) : State :=
  let jb := s.job j
  let s1 := enterEstimate s jb.die jb.routine (runTime s t)
  let s2 := freeRecords (verDiscard (stopTeam s1 t false) j) j
  retireJob (freeShadow (freeFrames s2 jb.slot j) jb.slot j) j 0 0

def execJobend (o : UR) (s : State) : Host.Outcome State Fault Refusal :=
  .next (uniformOp s (.jobend o) []
    (let t := curTeamKey s
     if inEmul s then raise s 0x044
     else if !s.cur.priv then raise s 0x381
     else match (curTeam s).job with
      | none => raise s 0x209
      | some j =>
        let seen := dieVc s (dieOf s.cur.core)
        if !(jobendReady s t) then yieldFor s .jobend
        else if !((s.job j).committing) && !((versionLines s j).isEmpty && seenEverywhere s seen) then
          yieldFor ((commitVersion s s.cur.core j (curBank s)).updJob j fun x => { x with committing := true, vc := seen }) .jobend
        else markDone (jobEnd s t j)))

end Sys2Proof.Machine
end

