-- ==== Sys2Proof/Machine/Frames.lean ====
section
/-! DEFINITION. A saved team's frame: what a save writes and a resume reads (R164, R234 to R236). -/
namespace Sys2Proof.Machine

def padTo (n : Nat) (l : List Byte) : List Byte := (l ++ List.replicate (n - l.length) 0).take n

/-! ## Fields -/

def stateCode : EntSt → Nat
  | .free => 0
  | .ready => 1
  | .blocked => 2

/-- Table 52. -/
def packEntry (e : Entry) : List Byte :=
  leBytes 16 (stateCode e.st * 2 ^ 124 + e.parent * 2 ^ 121 + e.pc.toNat * 2 ^ 64 + e.lanes.toNat)

/-- Table 73, with the index of the capture that the trap holds. -/
def packTrap (t : TrapEntry) (capix : Nat) : List Byte :=
  padTo 64 (leBytes 2 (t.cause % 1024 + t.stile % 8 * 2 ^ 11 + b2n t.iaBit * 2 ^ 14 + b2n t.stop * 2 ^ 15)
    ++ leBytes 1 capix ++ leBytes 1 0 ++ leBytes 8 t.fpc.toNat ++ leBytes 8 t.rpc.toNat ++ leBytes 8 t.addr.toNat
    ++ leBytes 8 t.mask.toNat ++ leBytes 8 t.aux.toNat ++ leBytes 8 t.issue.toNat)

/-- The operation of a capture, in its own 64 bytes. -/
def captureCode : AccKind → Nat
  | .load => 0
  | .store => 1
  | .const => 2
  | .pref l => 3 + l
  | .atomic op => 16 + op
  | .kvx r => 32 + b2n r
  | .commit _ => 34
  | .lock f => 35 + b2n f

/-- The operation that a code stands for. -/
def captureKind (n : Nat) : AccKind :=
  if n = 0 then .load else if n = 1 then .store else if n = 2 then .const
  else if n < 16 then .pref (n - 3) else if n < 32 then .atomic (n - 16)
  else if n < 34 then .kvx (n == 33) else if n = 34 then .commit 0 else .lock (n == 36)

/-- The registers of a destination, with its kind: none, lane registers, or a uniform register. -/
def dstField : AccDst → Nat × List Nat
  | .none => (0, [])
  | .lanes l => (1, l)
  | .uniform r => (2, [r])

def fieldDst (kind : Nat) (l : List Nat) : AccDst :=
  if kind = 1 then .lanes l else if kind = 2 then .uniform (l.headD 0) else .none

/-- The lanes of a capture that meet a condition. -/
def captureMask (c : Capture) (f : CapLane → Bool) : Nat := (maskOf ((c.lanes.filter f).map (·.lane))).toNat

/-- A capture of Table 77: 64 bytes of operation, width, destination and lanes, then addresses and operands by lane. In the
first 64 (log entry 94): 0 the operation, 1 the bytes of a lane, 2 its flags, 3 and 4 the destination's kind and registers, 8 and
16 the lanes and those that keep out of the L1, from 24 the registers of the destination. -/
def packCapture (c : Capture) : List Byte :=
  let lane (l : Nat) : CapLane := (c.lanes.find? fun x => x.lane == l).getD {}
  let (kind, regs) := dstField c.dst
  padTo 64 (leBytes 1 (captureCode c.kind) ++ leBytes 1 c.n
      ++ leBytes 1 (b2n c.wflag + 2 * b2n c.signed + 4 * b2n c.scalar + 8 * b2n c.rel) ++ leBytes 1 kind ++ leBytes 1 regs.length
      ++ leBytes 3 0 ++ leBytes 8 (captureMask c fun _ => true) ++ leBytes 8 (captureMask c (·.nol1)) ++ regs.flatMap fun r => leBytes 2 r)
  ++ (List.range 64).flatMap (fun l => leBytes 8 (lane l).ia)
  ++ padTo 2496 ((List.range 64).flatMap fun l => leBytes 16 (lane l).d ++ leBytes 16 (lane l).nv)

/-- A group's trap queue: the trap being handled stays at its head until ERET (R227). -/
def queueOf (gr : Group) : List TrapEntry := gr.handling.toList ++ gr.queue

/-- Captures held by the queued traps of a team's groups, in order. -/
def teamCaptures (s : State) (gs : List Nat) : List Capture := gs.flatMap fun g => (queueOf (s.group g)).filterMap (·.cap)

/-- The queue of a group, `k` captures standing before its own. -/
def packQueue : Nat → List TrapEntry → List Byte
  | _, [] => []
  | k, t :: r => packTrap t (if t.cap.isSome then k else 0xFF) ++ packQueue (if t.cap.isSome then k + 1 else k) r

def counterBytes (g : Group) : List Byte := (List.range 5).map fun c => BitVec.ofNat 8 (counter g c)

/-- Table 78. -/
def packGroup (s : State) (g k : Nat) : List Byte :=
  let gr := s.group g
  let ents := (List.range 8).map fun j => gEnt s g j
  padTo 0x400
    ((List.range 64).flatMap (fun r => leBytes 8 (s.sregOf g r).toNat)
      ++ [gr.conds] ++ counterBytes gr ++ leBytes 1 (b2n gr.recv.isSome) ++ leBytes 1 gr.fpmode.toNat
      ++ leBytes 8 gr.rpmask.toNat ++ ents.flatMap packEntry ++ ents.flatMap (fun e => leBytes 8 e.repst.toNat)
      ++ (List.range 8).flatMap (fun i => leBytes 8 (gr.shS.getD i 0).toNat) ++ padTo 8 [gr.shC]
      ++ (List.range 6).flatMap (fun i => leBytes 8 (trapReg gr i).toNat) ++ leBytes 8 (emstat gr).toNat)
  ++ padTo 0x400 (padTo 0x200 (packQueue k (queueOf gr)))

/-- Where the blocks of 64 registers of a fibre's allotment lie: its declared window, its handler window and its emulation
windows (R235). -/
def fibreBlocks (window ewin : Nat) : List Nat :=
  (List.range (window / 64)).map (64 * ·) ++ (List.range (1 + ewin)).map fun i => 256 + 64 * i

def teamBlocks (tm : Team) : List Nat := fibreBlocks tm.window tm.ewin

def packFibre (s : State) (bl : List Nat) (g l : Nat) : List Byte :=
  let gr := s.group g
  if !(gr.live.getLsbD l) then List.replicate 16 0
  else
    let pc := match entryOf s g l with
      | some j => (gEnt s g j).pc.toNat
      | none => parkedPc s g l
    let inH := gr.recv.isSome && entryOf s g l == gr.recv
    padTo 16 (leBytes 8 (pc + 2 ^ 63) ++ [s.preds (fibKey g l), s.lane.predSh.get (fibKey g l)]
      ++ leBytes 1 bl.length ++ leBytes 1 (b2n inH))

/-- A block of registers: 64 values, then their full bits. -/
def packBlock (s : State) (fk base : Nat) : List Byte :=
  let full := (List.range 64).filter fun i => !(s.isEmpty (regKey fk (base + i)))
  (List.range 64).flatMap (fun i => leBytes 4 (s.laneReg (regKey fk (base + i))).toNat) ++ leBytes 8 (maskOf full).toNat

/-- The registers of a group's live fibres. -/
def packRegs (s : State) (bl : List Nat) (g : Nat) : List Byte :=
  (maskList (s.group g).live).flatMap fun l =>
    bl.flatMap fun b => packBlock s (fibKey g l) b

/-- Blocks of registers of live fibres, M of R235. -/
def regBlocks (s : State) (bl gs : List Nat) : Nat :=
  (gs.map fun g => (maskList (s.group g).live).length * bl.length).foldl (· + ·) 0

def teamGs (s : State) (t : Nat) : List Nat := (s.team t).groups.map (groupKey (coreOfTeam t) ·)

/-- T of R235: the team's declared tiles, none where they are emulated (R286). -/
def tilesKept (s : State) (t : Nat) : Nat := if teamEmul s t then 0 else (s.team t).tiles

/-- S of R235. -/
def savedSize (s : State) (t : Nat) : Nat :=
  let tm := s.team t
  let gs := teamGs s t
  4096 + 3072 * gs.length + 3072 * (teamCaptures s gs).length + 256 * ceilDiv (264 * regBlocks s (teamBlocks tm) gs) 256
    + 131072 * tilesKept s t + tm.ssize

def packHandle (s : State) (t core h : Nat) : List Byte :=
  let x := s.handle (handleKey core h)
  if x.owner == some t then leBytes 4 (stCode x.st) ++ leBytes 4 x.base ++ leBytes 4 x.size ++ leBytes 4 1 else List.replicate 16 0

def packChan (s : State) (t core k : Nat) : List Byte :=
  if (s.chan (chanKey core k)).owner == some t then leBytes 8 1 ++ leBytes 8 (wptr s core t k).toNat else List.replicate 16 0

/-- The frame's bytes (Table 77). -/
def packTeam (s : State) (t j : Nat) : List Byte :=
  let tm := s.team t
  let core := coreOfTeam t
  let gs := teamGs s t
  let caps := teamCaptures s gs
  let before (i : Nat) : Nat := (teamCaptures s (gs.take i)).length
  padTo 0x100 (leBytes 4 0x51534156 ++ leBytes 4 (savedSize s t) ++ jobRecord (s.job j) ++ leBytes 2 tm.n
      ++ leBytes 1 gs.length ++ leBytes 1 (tilesKept s t) ++ leBytes 2 caps.length ++ leBytes 2 0 ++ leBytes 4 tm.ssize ++ leBytes 4 0
      ++ leBytes 8 (runTime s t))
  ++ (List.range 64).flatMap (packHandle s t core ·)
  ++ padTo 0xB00 ((List.range 4).flatMap (packChan s t core ·))
  ++ (gs.mapIdx fun i g => packGroup s g (before i)).flatten
  ++ gs.flatMap (fun g => (List.range 64).flatMap (packFibre s (teamBlocks tm) g ·))
  ++ caps.flatMap packCapture
  ++ padTo (256 * ceilDiv (264 * regBlocks s (teamBlocks tm) gs) 256) (gs.flatMap (packRegs s (teamBlocks tm) ·))
  ++ (List.range (tilesKept s t)).flatMap (fun a => (getTile s t a).flatMap fun v => leBytes 8 v.toNat)
  ++ scratchBytes s core tm.sbase tm.ssize

/-! ## Quiescence (R164) -/

/-- An operation that only waits is made again when its entry reissues. -/
def onlyWaits (o : HomeOp) : Bool :=
  o.yields && !o.applied && (match o.kind with
    | .wait => true
    | .get => true
    | .deposit .. => true
    | _ => false)

def teamOps (s : State) (t : Nat) : List (Nat × HomeOp) :=
  let core := coreOfTeam t
  s.task.ops.filter fun p => p.2.live && (match p.2.by_ with
    | .entry c e => c == core && (s.team t).groups.contains (e / 8)
    | _ => false)

/-- Nothing of the team is outstanding that a save waits for, and no cause is about to nest (R284). -/
def saveQuiet (s : State) (t : Nat) : Bool :=
  let gs := teamGs s t
  !(s.mm.accs.any fun p => gs.contains p.2.group)
  && !(s.eng.tiles.any fun p => p.2.live && !p.2.ended && p.2.by_.team == t)
  && !(s.eng.attqs.any fun p => p.2.live && p.2.by_.team == t)
  && !(s.eng.xfers.any fun p => p.2.live && p.2.by_.team == t && !(memoryOnly s p.2))
  && gs.all (fun g => (s.group g).nest.isNone)
  && (teamOps s t).all fun p => onlyWaits p.2 || (p.2.yields && p.2.answered)

/-! ## What leaves with the save -/

/-- A team's mark on operations that go on for a saved job, and its channels. -/
def savedTeam (j : Nat) : Nat := 2 ^ 40 + j
def savedChan (j k : Nat) : Nat := 2 ^ 40 + 4 * j + k

def mapVals {α : Type} (f : α → α) (m : Sparse α) : Sparse α := m.map fun p => (p.1, f p.2)

/-- Transfers and contributions of `t` become `u`'s, with its ended ACCST entries (R402), and their channels follow `ch`. -/
def moveEngines (s : State) (t u : Nat) (ch : Nat → Nat) : State :=
  { s with eng := { s.eng with
      xfers := mapVals (fun x => if x.by_.team == t then { x with by_ := { x.by_ with team := u }, chan := x.chan.map ch } else x) s.eng.xfers
      contribs := mapVals (fun c => if c.by_.team == t && c.dec.isNone then { c with by_ := { c.by_ with team := u } } else c)
        s.eng.contribs
      tiles := mapVals (fun e => if e.by_.team == t && e.ended then { e with by_ := { e.by_ with team := u } } else e) s.eng.tiles } }

def moveChan (s : State) (src dst : Nat) (owner : Nat) : State :=
  let c := s.chan src
  { s with eng := { s.eng with chans := (Sparse.erase s.eng.chans src).put dst { c with owner := some owner } } }

/-- Channels of a team that is saved: what is delivered meanwhile is counted from 0. -/
def parkChans (s : State) (t j : Nat) : State :=
  (List.range 4).foldl (fun u k =>
    let a := chanKey (coreOfTeam t) k
    if (u.chan a).owner == some t then
      (moveChan u a (savedChan j k) (savedTeam j)).updChan (savedChan j k) fun c =>
        { c with count := 0, fault := false, zeroed := false }
    else u) s

/-- The operations at homes of a team that is saved: those that only wait are dropped, answers not yet taken are kept. -/
def parkOps (s : State) (t j : Nat) : State :=
  (teamOps s t).foldl (fun u p =>
    match p.2.by_ with
    | .entry core e =>
      if onlyWaits p.2 && !p.2.answered then dropOp u p.1
      else (u.updOp p.1 fun o => { o with by_ := .device }).updJob j fun x =>
        { x with savedHome := x.savedHome ++ [((u.group (groupKey core (e / 8))).tgrp, e % 8, p.1)] }
    | _ => u) s

/-- SAVE's state beside the frame. -/
def keepTeam (s : State) (t j : Nat) : State :=
  let gs := teamGs s t
  let ops := gs.flatMap fun g => (s.group g).outst.map fun o => ((s.group g).tgrp, o)
  s.updJob j fun x => { x with
    savedGroups := gs.map fun g => s.group g, savedEnts := gs.map fun g => (List.range 8).map fun k => gEnt s g k,
    savedOps := ops, savedTraps := [], savedHome := [], ran := runTime s t }

/-! ## Resume (R236) -/

def unpackTrap (t : TrapEntry) (v : Nat) : TrapEntry :=
  { t with cause := v % 1024, stile := bits v 13 11, iaBit := bit v 14, stop := bit v 15, fpc := BitVec.ofNat 57 (bits v 88 32),
           rpc := BitVec.ofNat 57 (bits v 152 96), addr := word64 (bits v 223 160), mask := word64 (bits v 287 224),
           aux := word64 (bits v 351 288), issue := word64 (bits v 415 352) }

/-- A capture as the frame holds it; `old` is the capture that was saved in its place, whose residency events stand. -/
def unpackCapture (old : Capture) (event : DWord) (bs : List Byte) : Capture :=
  let f (off n : Nat) : Nat := blockBits bs off n
  let lane (l : Nat) : CapLane :=
    { lane := l, ia := f (64 + 8 * l) 8, d := f (576 + 32 * l) 16, nv := f (592 + 32 * l) 16, nol1 := bit (f 16 8) l,
      event := ((old.lanes.find? fun x => x.lane == l).map (·.event)).getD event }
  { kind := captureKind (f 0 1), n := f 1 1, wflag := bit (f 2 1) 0, signed := bit (f 2 1) 1, scalar := bit (f 2 1) 2,
    rel := bit (f 2 1) 3, acq := old.acq, drops := old.drops, dst := fieldDst (f 3 1) ((List.range (min 20 (f 4 1))).map fun i => f (24 + 2 * i) 2),
    lanes := (maskList (word64 (f 8 8))).map lane }

/-- The queue as the frame holds it: each entry whose ISSUE is not 0, with the capture that its CAPIX names. The place in the
issue order and the instruction are those of the trap saved in its place. -/
def unpackQueue (caps : List Byte) (old : List TrapEntry) (bs : List Byte) : List TrapEntry :=
  (List.range 8).filterMap fun i =>
    let b := (bs.drop (64 * i)).take 64
    let o := old.getD i {}
    let t := unpackTrap o (leNat b)
    let ix := blockBits b 2 1
    if t.issue = 0 then none
    else some { t with cap :=
      if ix = 0xFF then none else some (unpackCapture (o.cap.getD {}) t.aux ((caps.drop (3072 * ix)).take 3072)) }

/-- Operations of one class that a count stands for: of those saved the newest, and where it names more, ones that never end
(R234). -/
def takeCount (cls n : Nat) (l : List Outst) : List Outst :=
  let mine := l.filter fun o => o.cls == cls
  countOff cls (mine.drop (mine.length - n) ++ List.replicate (n - mine.length) { cls := cls })

/-- The counters of a resumed group (R236): the frame's counts, lowered by the completions that came meanwhile. -/
def resumeCounts (l : List Outst) (counts : Nat) : List Outst :=
  (List.range 5).flatMap fun c => takeCount c (bits counts (8 * c + 7) (8 * c)) l

def unpackEntry (e : Entry) (v rep now : Nat) : Entry :=
  { e with st := if bits v 125 124 = 0 then .free else .ready, parent := bits v 123 121, pc := BitVec.ofNat 57 (bits v 120 64),
           lanes := word64 (bits v 63 0), repst := word64 (bits rep 63 63 * 2 ^ 63 + rep % 2 ^ 26), wake := .none, boundary := true, since := now, fteAt := 0 }

/-- A group block. -/
def unpackGroup (gr : Group) (t : Nat) (bs caps : List Byte) (live handler : DWord) (ops : List Outst) : Group :=
  let f (off n : Nat) : Nat := blockBits bs off n
  let em := f 0x348 8
  let queue := unpackQueue caps (queueOf gr) (bs.drop 0x400)
  let inH := bit (f 0x206 1) 0
  let holder := (List.range 8).find? fun j => f (0x210 + 16 * j + 15) 1 / 16 % 4 != 0 && word64 (f (0x210 + 16 * j) 8) &&& handler != 0
  { gr with
    team := some t, live := live, conds := BitVec.ofNat 8 (f 0x200 1), fpmode := BitVec.ofNat 2 (f 0x207 1),
    rpmask := word64 (f 0x208 8), shS := (List.range 8).map fun i => word64 (f (0x2D0 + 8 * i) 8),
    shC := BitVec.ofNat 8 (f 0x310 1), trcause := word64 (f 0x318 8 % 2 ^ 19), trpc := word64 (f 0x320 8 % 2 ^ 57),
    trfpc := word64 (f 0x328 8 % 2 ^ 57),
    traddr := word64 (f 0x330 8), trmask := word64 (f 0x338 8), traux := word64 (f 0x340 8), emraise := bit em 15,
    emcause := BitVec.ofNat 10 em, replay := none, outst := resumeCounts ops (f 0x201 5),
    recv := if inH then holder else none, depth := if inH then bits em 18 16 else 0,
    handling := if inH then queue.head? else none, queue := if inH then queue.drop 1 else queue }

def unpackBlock (s : State) (fk base : Nat) (bs : List Byte) : State :=
  (List.range 64).foldl (fun u i =>
    (u.setLaneReg (regKey fk (base + i)) (BitVec.ofNat 32 (blockBits bs (4 * i) 4))).setEmpty (regKey fk (base + i))
      (!(bit (blockBits bs 256 8) i))) s

/-- The register blocks of one fibre, and what is left of the region. -/
def unpackFibre (s : State) (fk : Nat) : List Nat → List Byte → State × List Byte
  | [], bs => (s, bs)
  | b :: t, bs => unpackFibre (unpackBlock s fk b (bs.take 264)) fk t (bs.drop 264)

/-- One fibre record: its predicates, and its PC where no entry holds it. -/
def unpackRecord (s : State) (g l v : Nat) : State :=
  let fk := fibKey g l
  let s1 := s.setPreds fk (BitVec.ofNat 8 (bits v 71 64))
  let s2 := { s1 with lane := { s1.lane with predSh := s1.lane.predSh.put fk (BitVec.ofNat 8 (bits v 79 72)) } }
  if (entryOf s2 g l).isSome then s2 else parkAt s2 g (maskOf [l]) (BitVec.ofNat 57 (bits v 56 0))

/-- The mark of a uniform register whose SLD or SATOM is held in a capture (R56, R70), apart from those of accesses. -/
def capMark : Nat := 2 ^ 60

/-- The uniform destinations of captured accesses are outstanding again. -/
def markCaptured (s : State) (g : Nat) (l : List TrapEntry) : State :=
  l.foldl (fun u t => match t.cap with
    | some c => (match c.dst with
      | .uniform r => if c.lanes.isEmpty then u else setSout u g r capMark
      | _ => u)
    | none => u) s

/-- The window that the handler of a resumed group interrupted, from FUNCj as its delivery kept it (R369). -/
def resumeWb (s : State) (g : Nat) : State :=
  match (s.group g).recv with
  | some j => (match liveLanesOf s g j with
    | lane :: _ => s.updGroup g fun x => { x with
        wb := BitVec.ofNat 2 (s.laneReg (regKey (fibKey g lane) (handlerBase 1 + 60))).toNat }
    | [] => s)
  | none => s

/-- One team group of a saved team, and what is left of the registers' region. -/
def resumeGroup (s : State) (t tg : Nat) (g : Nat) (j : Nat) (bl : List Nat) (block fibres caps regs : List Byte) : State × List Byte :=
  let jb := s.job j
  let rec_ (l : Nat) : Nat := blockBits fibres (16 * l) 16
  let live := maskOf ((List.range 64).filter fun l => bit (rec_ l) 63)
  let handler := maskOf ((List.range 64).filter fun l => bit (rec_ l) 88)
  let gr0 := unpackGroup (jb.savedGroups.getD tg {}) t block caps live handler ((jb.savedOps.filter fun p => p.1 == tg).map (·.2))
  let more := (jb.savedTraps.filter fun p => p.1 == tg).map (·.2)
  let gr := { gr0 with queue := more.foldl (fun q x => insertTrap x q) gr0.queue }
  let s1 := (dropGroups s [g]).setGroup g gr
  let s2 := (List.range 64).foldl (fun u r => u.setSregOf g r (word64 (blockBits block (8 * r) 8))) s1
  let ents := jb.savedEnts.getD tg []
  let s3 := (List.range 8).foldl (fun u i =>
    setGEnt u g i (unpackEntry (ents.getD i {}) (blockBits block (0x210 + 16 * i) 16) (blockBits block (0x290 + 8 * i) 8) s.now)) s2
  let lanes := maskList live
  let s4 := lanes.foldl (fun u l => unpackRecord u g l (rec_ l)) s3
  let (s5, rest) := lanes.foldl (fun p l => unpackFibre p.1 (fibKey g l) bl p.2) (s4, regs)
  let s5 := markCaptured (resumeWb s5 g) g (queueOf gr)
  let s6 := if gr.queue.isEmpty then s5 else s5.post .trapDelivery (coreOfGroup g) (g % 32)
  ((jb.savedHome.filter fun p => p.1 == tg).foldl (fun u p =>
    u.updOp p.2.2 fun o => { o with by_ := .entry (coreOfGroup g) (g % 32 * 8 + p.2.1), group := g }) s6, rest)

def unpackHandle (s : State) (t core h v : Nat) : State :=
  if bits v 127 96 = 0 then s
  else s.setHandle (handleKey core h)
    { owner := some t, base := bits v 63 32, size := bits v 95 64,
      st := match bits v 31 0 with
        | 0 => .free
        | 1 => .filling
        | 2 => .full
        | _ => .draining }

/-- A channel comes back under its number, with the count that the frame holds and what was delivered meanwhile; one armed
meanwhile counts from there (R144). -/
def unparkChan (s : State) (t core j k v : Nat) : State :=
  if v % 2 ^ 64 = 0 then s
  else
    let c := s.chan (savedChan j k)
    let w := v / 2 ^ 64
    (moveChan s (savedChan j k) (chanKey core k) t).updChan (chanKey core k) fun x =>
      if c.zeroed then { x with zeroed := false }
      else { x with count := (bits w 47 0 + c.count) % 2 ^ 48, fault := bit w 63 || c.fault }

/-- The groups of a saved team in order. -/
def resumeGroups (s : State) (t j : Nat) (bl : List Nat) (blocks fibres caps regs : List Byte) : Nat → List Nat → State
  | _, [] => s
  | tg, g :: r =>
    let (s1, rest) := resumeGroup s t tg g j bl (blocks.take 2048) (fibres.take 1024) caps regs
    resumeGroups s1 t j bl (blocks.drop 2048) (fibres.drop 1024) caps rest (tg + 1) r

/-- The stop marks of queued traps stand again (R388). -/
def restoreStops (s : State) (t : Nat) : State :=
  let l := (teamGs s t).flatMap fun g => (s.group g).queue.filter (·.stop)
  l.foldl (fun u x => { u with eng := { u.eng with stopped := u.eng.stopped.put (tileKeyOf t x.stile) (x.order + 1) } }) s

/-- A placed team takes its frame's state. -/
def unpackTeam (s : State) (t j : Nat) (bs : List Byte) : State :=
  let tm := s.team t
  let core := coreOfTeam t
  let gs := teamGs s t
  let n := gs.length
  let caps := blockBits bs 0x4C 2
  let regsAt := 4096 + 3072 * n + 3072 * caps
  let s1 := resumeGroups s t j (teamBlocks tm) (bs.drop 4096) (bs.drop (4096 + 2048 * n)) (bs.drop (4096 + 3072 * n)) (bs.drop regsAt) 0 gs
  let tilesAt := regsAt + 256 * ceilDiv (264 * regBlocks s1 (teamBlocks tm) gs) 256
  let kept := blockBits bs 0x4B 1
  let s2 := (List.range kept).foldl (fun u a =>
    setTile u t a ((List.range 16384).map fun i => word64 (blockBits bs (tilesAt + 131072 * a + 8 * i) 8))) (freeTiles s1 t tm.tiles)
  let s3 := scratchPuts s2 core (s.job j).slot tm.sbase ((bs.drop (tilesAt + 131072 * kept)).take tm.ssize)
  let s4 := (List.range 64).foldl (fun u h => unpackHandle u t core h (blockBits bs (0x100 + 16 * h) 16)) s3
  let s5 := (List.range 4).foldl (fun u k => unparkChan u t core j k (blockBits bs (0x500 + 16 * k) 16)) s4
  let s6 := moveEngines (restoreStops s5 t) (savedTeam j) t fun ck => if 2 ^ 40 ≤ ck then chanKey core (ck % 4) else ck
  let s7 := s6.updTeam t fun x => { x with ranBefore := blockBits bs 0x58 8 }
  if gs.any fun g => decide (8 < (queueOf (s7.group g)).length) then fatalTeam s7 t 0x3C1
  else s7.updJob j fun x => { x with savedGroups := [], savedEnts := [], savedOps := [], savedTraps := [], savedHome := [] }

/-- The handles and channels that a saved team holds are free on a core. -/
def resumeFits (s : State) (core j : Nat) : Bool :=
  match (s.job j).frame with
  | none => true
  | some k =>
    let a := frameAt s (s.job j).slot k
    (List.range 64).all (fun h => devNat s (a + 0x10C + 16 * h) 4 == 0 || (s.handle (handleKey core h)).owner.isNone)
    && (List.range 4).all fun c => devNat s (a + 0x500 + 16 * c) 8 == 0 || (s.chan (chanKey core c)).owner.isNone

end Sys2Proof.Machine
end

