-- ==== Sys2Proof/Machine/Preempt.lean ====
section
/-! DEFINITION. A worker team takes a job (R178, R209, R236), and jobs sent back: triggers, victims, drain, flush-and-restart
and save (R215 to R221, R233). -/
namespace Sys2Proof.Machine

/-! ## Taking a job (R16, R178, R179, R209, R236) -/

/-- A job that cannot enter its routine is killed before any fibre issues (R179). -/
def takeRefused (s : State) (j cause : Nat) : State := killJob s (some j) cause

/-- Who writes and reads a frame: the device, through the key slot of the context's bank, which is tested as for the context's
own accesses (R233, R34). With translation off no page has a key. -/
def framePort (s : State) (die slot keyslot a : Nat) : Port :=
  { die := die, slot := slot, keyslot := keyslot, priv := !(ptEn s (homeDie a)) || !(ptEn s die) }

/-- The frame of a saved job, read through its context's key slot. -/
def readFrame (s : State) (core j : Nat) : Except Stall (List Byte × State) :=
  match (s.job j).frame with
  | none => .ok ([], s)
  | some k =>
    let a := frameAt s (s.job j).slot k
    let p := framePort s (dieOf core) (s.job j).slot (ctxWord s (s.job j).slot 0x18 % 256) a
    engRead p a (devNat s (a + 4) 4) s

/-! ## Forced unload (R296, R297; log entry 102) -/

/-- The PCs that a group's part of a frame holds: its live fibres', its split entries', its queued traps' FPC and RPC, and TRPC. -/
def groupPcs (block fibres : List Byte) : List Nat :=
  let pc (b : List Byte) (off : Nat) : Nat := blockBits b off 8 % 2 ^ 57
  ((List.range 64).filter fun l => bit (blockBits fibres (16 * l) 8) 63).map (fun l => pc fibres (16 * l))
  ++ ((List.range 8).filter fun j => blockBits block (0x210 + 16 * j + 15) 1 / 16 % 4 != 0).map (fun j => pc block (0x218 + 16 * j))
  ++ ((List.range 8).filter fun i => blockBits block (0x400 + 64 * i + 44) 8 != 0).flatMap (fun i =>
      [pc block (0x400 + 64 * i + 4), pc block (0x400 + 64 * i + 12)])
  ++ (if bit (blockBits block 0x206 1) 0 then [pc block 0x320] else [])

/-- TRPC and TRFPC of the outer levels of emulation, in the registers of a frame (Table 104), for each live fibre with the
depth of its group: emulation windows come after the declared window and the handler's, 264 bytes for each 64 registers. -/
def nestPcs (window ewin : Nat) : List Nat → List Byte → List Nat
  | [], _ => []
  | d :: r, regs =>
    ((List.range (d - 1)).flatMap fun i =>
      let b := regs.drop (264 * (window / 64 + 1 + i))
      [blockBits b 76 8 % 2 ^ 57, blockBits b 84 8 % 2 ^ 57]) ++ nestPcs window ewin r (regs.drop (264 * (window / 64 + 1 + ewin)))

/-- Every PC that a frame holds (R296). -/
def framePcs (window ewin : Nat) (bs : List Byte) : List Nat :=
  let g := blockBits bs 0x4A 1
  let fibres (i : Nat) : List Byte := (bs.drop (4096 + 2048 * g + 1024 * i)).take 1024
  let live (i : Nat) : Nat := ((List.range 64).filter fun l => bit (blockBits (fibres i) (16 * l) 8) 63).length
  let depth (i : Nat) : Nat := bits (blockBits bs (4096 + 2048 * i + 0x348) 8) 18 16
  (List.range g).flatMap (fun i => groupPcs ((bs.drop (4096 + 2048 * i)).take 2048) (fibres i))
  ++ nestPcs window ewin ((List.range g).flatMap fun i => List.replicate (live i) (depth i))
    (bs.drop (4096 + 3072 * g + 3072 * blockBits bs 0x4C 2))

/-- A loaded object as a context has it: its function table's addresses and its text's. -/
structure Loaded where
  slot : Nat
  tableLo : Nat
  tableHi : Nat
  textLo : Nat
  textHi : Nat
  window : Nat
  ewin : Nat
  deriving DecidableEq, Repr, Inhabited

/-- A job references an object: its ROUTINE names one of the object's functions, or its frame holds a PC in the text. A frame
that cannot be read now counts as one that does (log entry 102). -/
def references (s : State) (o : Loaded) (j : Nat) : Bool :=
  let jb := s.job j
  jb.live && !jb.ended && jb.slot == o.slot
  && ((match routineVa s jb.slot jb.routine with
      | some va => decide (o.tableLo ≤ va) && decide (va < o.tableHi)
      | none => false)
    || (match jb.frame, jb.at_, readFrame s 0 j with
      | some _, .placed .., _ => false
      | some _, _, .ok (bs, _) => (framePcs o.window o.ewin bs).any fun a => decide (o.textLo ≤ a) && decide (a < o.textHi)
      | some _, _, .error _ => true
      | none, _, _ => false))

/-- A forced unload kills every job that references the object, queued and saved ones too. It is the loader's, so no step
makes it: system software's part, the pages, is not the machine's. -/
def forcedUnload (s : State) (o : Loaded) : State :=
  ((s.task.jobs.map (·.1)).filter (references s o)).foldl (fun u j => killJob u (some j) 0x281) s

/-- The best job of the core leaves its slot and is placed: its routine is entered, or its saved state stands again. -/
def takeJob (s : State) (core w slot j va f : Nat) : State :=
  match readFrame s core j with
  | .error (.fault c _) => takeRefused s j c
  | .error (.wait _ _ s1) => s1.after 1 .workerTakeJob core w
  | .error (.spill s1) => s1.after 1 .workerTakeJob core w
  | .ok (bs, s1) =>
    let s2 := keepWait (unmail s1 core slot) core w (groupKey core ((s1.team (core * 16 + w)).groups.headD 0))
    let s3 := takeShadow (placeTeam s2 core w j (needsOf s2 j f)) (core * 16 + w) j f
    if bs.isEmpty then enterRoutine s3 core w j va f else unpackTeam s3 (core * 16 + w) j bs

/-- A job can be taken: it can be granted what it needs, and a saved one its handles and channels. -/
def workerReady (s : State) (core w : Nat) : Bool :=
  takeReady s core w && (match bestMail s core with
    | some (_, j) => jobStale s j || resumeFits s core j
    | none => false)

/-- WORKER_TAKE_JOB: `x` the core, `y` the worker team. -/
def execWorkerTakeJob (s : State) : Host.Outcome State Fault Refusal :=
  .next (
    let core := s.cur.x
    let w := s.cur.y
    if !(workerReady s core w) then s
    else match bestMail s core with
      | none => s
      | some (slot, j) =>
        let s1 := s.post .workerTakeJob core w
        if jobStale s j then retireUnrun s1 j 2
        else match readRoutine s1 core j with
          | .fail c => takeRefused s1 j c
          | .wait s2 => (s2.unpost fun h => h.what == .workerTakeJob && h.x == core && h.y == w).after 1 .workerTakeJob core w
          | .ok va f s2 => takeJob s2 core w slot j va f)

/-! ## Restartability, remaining time and actions (R217 to R219) -/

/-- Remaining(team): none where it is unknown. -/
def remaining (s : State) (t : Nat) : Option Nat :=
  match (s.team t).job with
  | none => none
  | some j =>
    match (s.task.est.get (s.job j).die).find? fun p => p.1 == (s.job j).routine with
    | none => none
    | some (_, l) =>
      let mean := l.foldl (· + ·) 0 / max 1 l.length
      if mean ≤ runTime s t then none else some (mean - runTime s t)

def drainTh (s : State) (core : Nat) : Nat := bits (s.die (dieOf core)).schedcfg.toNat 31 22 * 700
def quantum (s : State) (core : Nat) : Nat := (s.die (dieOf core)).schedcfg.toNat % 65536 * 700

inductive Back where
  | drain | flush | save
  deriving DecidableEq, Repr, Inhabited

def backAction (s : State) (t : Nat) (nodrain : Bool) : Back :=
  let soon := match remaining s t with
    | some n => decide (n < drainTh s (coreOfTeam t))
    | none => false
  if !nodrain && soon then .drain
  else if jobRestartable s (s.team t).job then .flush
  else .save

def backCost : Back → Nat
  | .drain => 0
  | .flush => 1
  | .save => 2

/-! ## Victims (R215, R216) -/

def teamEff (s : State) (t : Nat) : Nat := match (s.team t).job with
  | some j => effPrio s j
  | none => 0

/-- Resident user teams of a core. -/
def residentTeams (s : State) (core : Nat) : List Nat :=
  ((List.range 16).map fun w => core * 16 + w).filter fun t => (s.team t).job.isSome

def sentBack (s : State) (t : Nat) : Bool := (s.team t).back != .no

/-- Teams that may be chosen: not being sent back, not halted (R238), and not past the wait of their JOBEND (R412). -/
def mayChoose (s : State) (t : Nat) : Bool :=
  !(sentBack s t) && (s.team t).halt == 0
  && (match (s.team t).job with
    | some j => !((s.job j).committing)
    | none => false)

def beforeVictim (s : State) (x y : Nat) : Bool :=
  let key (t : Nat) : Nat × Nat × Nat := (teamEff s t, backCost (backAction s t false), (s.team t).serial)
  let (a, b, c) := key x
  let (d, e, f) := key y
  decide (a < d) || (a == d && (decide (b < e) || (b == e && decide (c < f))))

def insertVictim (s : State) (x : Nat) : List Nat → List Nat
  | [] => [x]
  | y :: t => if beforeVictim s x y then x :: y :: t else y :: insertVictim s x t

/-- Victims one at a time until the job can be placed; none if all of them together do not free enough. -/
def takeVictims (s : State) (core j f : Nat) : List Nat → List Nat → Option (List Nat)
  | got, [] => if canGrant s core j f got then some got else none
  | got, t :: r => if canGrant s core j f got then some got else takeVictims s core j f (got ++ [t]) r

/-- The victims of a trigger for the best job of a core: none where it can be placed already, or victims have been chosen for
it (R216). -/
def victims (s : State) (core : Nat) (may : Nat → Nat → Bool) : List Nat :=
  match bestMail s core with
  | none => []
  | some (_, j) =>
    if jobStale s j || (s.job j).served then []
    else match readRoutine s core j with
      | .ok _ f _ =>
        let l := ((residentTeams s core).filter fun t => mayChoose s t && may j t).foldl (fun l t => insertVictim s t l) []
        (takeVictims s core j f [] l).getD []
      | _ => []

def priorityVictims (s : State) (core : Nat) : List Nat :=
  victims s core fun j t => decide (teamEff s t < effPrio s j)

def timesliceVictims (s : State) (core : Nat) : List Nat :=
  let q := quantum s core
  victims s core fun j t =>
    q != 0 && decide (q ≤ s.now - (s.job j).mailAt) && decide (teamEff s t ≤ effPrio s j)
    && decide (q ≤ s.now - (s.team t).placedAt)

/-- A team's issue stops for one ck, after which its action is fixed (R217). -/
def sendBack (nodrain : Bool) (s : State) (t : Nat) : State :=
  (s.updTeam t fun x => { x with back := .deciding, backAt := s.now, nodrain := nodrain }).after 1 .preemptDecide t

/-- The victims chosen for the best job of a core are sent back, and it is served by them. -/
def sendVictims (s : State) (core : Nat) (l : List Nat) : State :=
  match l, bestMail s core with
  | _ :: _, some (_, j) => (l.foldl (sendBack false) s).updJob j fun x => { x with served := true }
  | _, _ => s

/-- A victim has reached its JOBEND: the triggers are evaluated again with the freed resources (R221). -/
def evaluateAgain (s : State) (core : Nat) : State :=
  (s.task.mail.get core).foldl (fun u p => u.updJob p.2 fun x => { x with served := false }) s

/-- A trigger is looked at again for as long as the core's mailbox holds a job. -/
def again (s : State) (ev : Instr) (core : Nat) : State :=
  if (s.task.mail.get core).isEmpty then s else s.post ev core

/-- PREEMPT_PRIORITY_TRIGGER: `x` the core. -/
def execPreemptPriorityTrigger (s : State) : Host.Outcome State Fault Refusal :=
  .next (again (sendVictims s s.cur.x (priorityVictims s s.cur.x)) .preemptPriorityTrigger s.cur.x)

/-- PREEMPT_TIMESLICE_TRIGGER: `x` the core. -/
def execPreemptTimesliceTrigger (s : State) : Host.Outcome State Fault Refusal :=
  .next (again (sendVictims s s.cur.x (timesliceVictims s s.cur.x)) .preemptTimesliceTrigger s.cur.x)

def triggerReady (s : State) (core : Nat) (l : List Nat) : Bool := (s.task.mail.get core).isEmpty || !l.isEmpty

/-- Resident teams of a context on a die. -/
def contextTeams (s : State) (die slot : Nat) : List Nat :=
  (s.core.teams.filter fun p => dieOf (coreOfTeam p.1) == die && (match p.2.job with
    | some j => (s.job j).slot == slot
    | none => false)).map (·.1)

/-- A team that PREQ names is sent back, unless it is already on its way (R221). -/
def preqTeam (nodrain : Bool) (s : State) (t : Nat) : State :=
  if (s.team t).back == .deciding then s.updTeam t fun x => { x with nodrain := x.nodrain || nodrain }
  else if sentBack s t then s
  else sendBack nodrain s t

/-- PREQ_GO: `x` the die, `y` the slot, `z` NODRAIN, or 2 where BUSY falls once no team of the slot is resident. -/
def execPreqGo (s : State) : Host.Outcome State Fault Refusal :=
  .next (
    let die := s.cur.x
    let l := contextTeams s die s.cur.y
    if s.cur.z = 2 then
      (if l.isEmpty then s.updDie die fun d => { d with preq := setBusy d.preq false } else s.add .preqGo die s.cur.y 2)
    else
      (l.foldl (preqTeam (s.cur.z != 0)) s).add .preqGo die s.cur.y 2)

def preqReady (s : State) (die slot z : Nat) : Bool := z != 2 || (contextTeams s die slot).isEmpty

/-! ## Frames (R233) -/

/-- The frame that a save takes: the lowest one whose FRAMEMAP bit is clear, if frames are large enough. A job that was saved
before keeps its earlier frame until its JOBEND or kill. -/
def saveFrame (s : State) (t j : Nat) : Option Nat :=
  let slot := (s.job j).slot
  if frameSize s slot < savedSize s t then none
  else
    let map := ctxWord s slot 0x210
    (List.range (min 64 (devNat s (ctxAddr s slot + 0x20C) 4))).find? fun k => !(bit map k)

def claimFrame (s : State) (t j k : Nat) : State :=
  let a := ctxAddr s (s.job j).slot + 0x210
  let map := devNat s a 8
  let s1 := if bit map k then s else devPutNat s a 8 (map + 2 ^ k)
  (s1.updJob j fun x => { x with frame := some k, frames := k :: x.frames }).updTeam t fun x => { x with frame := some k }

/-! ## The decision and the actions (R217 to R220) -/

/-- No entry of the team holds a slot: each stands where its rand stopped. -/
def freeTeamSlots (s : State) (t : Nat) : State :=
  let core := coreOfTeam t
  let held := (List.range 4).filterMap fun i => match (s.slotAt (core * 4 + i)).ent with
    | some e => if (s.team t).groups.contains (e / 8) then some (i, e) else none
    | none => none
  held.foldl (fun u p =>
    (u.setSlot (core * 4 + p.1) {}).updEnt (entKey core p.2) fun e => { e with boundary := true, since := s.now }) s

/-- A drain begins. It ends after the DRAINTH that stands now, whatever SCHEDCFG is set to meanwhile (R219; the model's choice, log
entry 113). -/
def startDrain (s : State) (t : Nat) (limit : Bool) : State :=
  let s1 := s.updTeam t fun x => { x with back := .draining, backAt := s.now }
  if limit then s1.after (drainTh s (coreOfTeam t)) .drainExpire t (s.team t).serial else s1

/-- PREEMPT_DECIDE: `x` the team. -/
def execPreemptDecide (s : State) : Host.Outcome State Fault Refusal :=
  .next (
    let t := s.cur.x
    let tm := s.team t
    match tm.job with
    | none => evaluateAgain s (coreOfTeam t)
    | some j =>
      if tm.back != .deciding then evaluateAgain s (coreOfTeam t)
      else if (s.job j).committing then evaluateAgain (s.updTeam t fun x => { x with back := .no }) (coreOfTeam t)
      else match backAction s t tm.nodrain with
        | .drain => startDrain s t true
        | .flush => (freeTeamSlots (s.updTeam t fun x => { x with back := .flushing }) t).add .flushAndRestart t tm.serial
        | .save =>
          match saveFrame s t j with
          | none => startDrain s t false
          | some k =>
            (freeTeamSlots ((claimFrame s t j k).updTeam t fun x => { x with back := .saving }) t).add .saveCapture t tm.serial)

/-- DRAIN_EXPIRE: `x` the team, `y` its placement; the core decides again with drain excluded. -/
def execDrainExpire (s : State) : Host.Outcome State Fault Refusal :=
  .next (
    let t := s.cur.x
    if (s.team t).serial == s.cur.y && (s.team t).back == .draining && (s.team t).job.isSome then sendBack true s t else s)

/-- FLUSH_AND_RESTART: `x` the team, `y` its placement. -/
def execFlushAndRestart (s : State) : Host.Outcome State Fault Refusal :=
  .next (
    let t := s.cur.x
    match (s.team t).job with
    | some j =>
      if (s.team t).serial != s.cur.y || (s.team t).back != .flushing then s
      else
        let s1 := verDiscard (stopTeam s t false) j
        requeue (s1.updJob j fun x => { x with restartable := false, ran := 0 }) j
    | none => s)

/-- SAVE_CAPTURE: `x` the team, `y` its placement. The state is written to the frame; what goes on belongs to the saved job
from then on. -/
def execSaveCapture (s : State) : Host.Outcome State Fault Refusal :=
  .next (
    let t := s.cur.x
    let tm := s.team t
    match tm.job, tm.frame with
    | some j, some k =>
      if tm.serial != s.cur.y || tm.back != .saving then s
      else
        let b := s.bank (coreOfTeam t * 4 + tm.bank)
        let p := framePort s (dieOf (coreOfTeam t)) (bankSlot b) b.keyslot.toNat (frameAt s (s.job j).slot k)
        (match engWrite p (frameAt s (s.job j).slot k) (packTeam s t j) s with
          | .error (.fault c _) => killJob s (some j) c
          | .error (.wait _ _ s1) => s1.after 1 .saveCapture t tm.serial
          | .error (.spill s1) => s1.after 1 .saveCapture t tm.serial
          | .ok ((), s1) =>
            let s2 := parkOps (keepTeam s1 t j) t j
            let s3 := moveEngines (parkChans s2 t j) t (savedTeam j) fun ck => savedChan j (ck % 4)
            (s3.updJob j fun x => { x with at_ := .queued, eligible := false }).add .saveComplete t tm.serial j)
    | _, _ => s)

def captureReady (s : State) (t serial : Nat) : Bool :=
  (s.team t).serial != serial || (s.team t).back != .saving || saveQuiet s t

/-- SAVE_COMPLETE: `x` the team, `y` its placement, `z` the job. -/
def execSaveComplete (s : State) : Host.Outcome State Fault Refusal :=
  .next (
    let t := s.cur.x
    let j := s.cur.z
    if (s.team t).serial != s.cur.y || (s.team t).back != .saving then s
    else
      let s1 := stopTeam s t true
      if (s1.job j).live then requeue s1 j else s1)

end Sys2Proof.Machine
end

