-- ==== Sys2Proof/Machine/Debug.lean ====
section
/-! DEFINITION. Debug access (R237 to R239) and replay sessions (R418, R419, R445 to R447). -/
namespace Sys2Proof.Machine

/-! ## DBGCMD (Table 79): `x` of a command is its core -/

def dbgReg (s : State) (c : Nat) : Nat := bits (s.cregs c).dbgcmd.toNat 55 48
def dbgFibre (s : State) (c : Nat) : Nat := bits (s.cregs c).dbgcmd.toNat 47 38
def dbgTeam (s : State) (c : Nat) : Nat := c * 16 + bits (s.cregs c).dbgcmd.toNat 37 34

def setField (v : DWord) (h l n : Nat) : DWord :=
  word64 (v.toNat - bits v.toNat h l * 2 ^ l + n % 2 ^ (h + 1 - l) * 2 ^ l)

/-- A command has ended: BUSY falls. -/
def dbgEnd (s : State) (c status : Nat) : State :=
  s.updCregs c fun r => { r with dbgcmd := setField (setBusy r.dbgcmd false) 62 60 status }

def dbgHalted (s : State) (c status cause : Nat) : State :=
  (dbgEnd s c status).updCregs c fun r => { r with dbgcmd := setField r.dbgcmd 15 6 cause }

/-- DBGEN of the team's context. -/
def dbgAllowed (s : State) (t : Nat) : Bool :=
  match (s.team t).job with
  | some j => bit (ctxWord s (s.job j).slot 0x218) 0
  | none => false

/-- A command acts on a team whose context allows it, and but for a halt only while the team is halted. -/
def dbgOn (s : State) (c : Nat) (halted : Bool) (act : Nat → State) : State :=
  let t := dbgTeam s c
  if !(dbgAllowed s t) then dbgEnd s c 4
  else if halted && ((s.team t).halt != 2 || (s.team t).stepping) then dbgEnd s c 1
  else act t

def execDbgUndefinedOp (s : State) : Host.Outcome State Fault Refusal := .next (dbgEnd s s.cur.x 7)

def execDbgHalt (s : State) : Host.Outcome State Fault Refusal :=
  .next (
    let c := s.cur.x
    dbgOn s c false fun t => (s.updTeam t fun x => { x with halt := max 1 x.halt }).add .dbgHaltComplete c t)

/-- An entry that a step can let issue: READY, and not held by a raised trap or out of its group's handler (R225, R284). -/
def canStep (s : State) (c e : Nat) : Bool :=
  let x := s.ent (entKey c e)
  let g := s.group (groupKey c (e / 8))
  x.st == .ready && x.lanes &&& g.live != 0 && !x.trapped
  && (match g.recv with
    | some r => r == e % 8 && g.nest.isNone
    | none => true)

/-- A halting team holds no slot, and one that steps has issued each entry's rand. -/
def haltReady (s : State) (c t : Nat) : Bool :=
  let tm := s.team t
  let held := (List.range 4).any fun i => match (s.slotAt (c * 4 + i)).ent with
    | some e => tm.groups.contains (e / 8)
    | none => false
  !held && (!tm.stepping || tm.steps.all fun e => !(canStep s c e))

/-- DBG_HALT_COMPLETE: `x` the core, `y` the team. -/
def execDbgHaltComplete (s : State) : Host.Outcome State Fault Refusal :=
  .next (
    let c := s.cur.x
    let t := s.cur.y
    let tm := s.team t
    if tm.job.isNone || tm.halt = 0 then dbgEnd s c 1
    else if tm.stepping then dbgHalted (s.updTeam t fun x => { x with stepping := false, steps := [] }) c 0 0x2C2
    else dbgHalted (s.updTeam t fun x => { x with halt := 2 }) c 0 0x2C1)

def execDbgResume (s : State) : Host.Outcome State Fault Refusal :=
  .next (
    let c := s.cur.x
    dbgOn s c true fun t => dbgEnd (s.updTeam t fun x => { x with halt := 0 }) c 0)

/-- A step lets each READY entry issue one rand. -/
def execDbgStep (s : State) : Host.Outcome State Fault Refusal :=
  .next (
    let c := s.cur.x
    dbgOn s c true fun t =>
      let ready := (s.team t).groups.flatMap fun g => ((List.range 8).map (g * 8 + ·)).filter (canStep s c)
      (s.updTeam t fun x => { x with stepping := true, steps := ready }).add .dbgHaltComplete c t)

/-! ## Registers of a halted team's fibre -/

/-- What REG names of a fibre. -/
inductive DbgLoc where
  | lane (k : Nat) | uniform (g r : Nat) | pc (g l : Nat) | preds (fk : Nat)
  | dead | absent
  deriving DecidableEq, Repr, Inhabited

def dbgLoc (s : State) (c t : Nat) : DbgLoc :=
  let f := dbgFibre s c
  let r := dbgReg s c
  let g := groupKey c ((s.team t).groups.getD (f / 64) 0)
  let l := f % 64
  if (s.team t).groups.length ≤ f / 64 || !((s.group g).live.getLsbD l) then .dead
  else if r < 64 then
    (let base := fibreBase s g l
     if base < 256 && decide ((s.team t).window ≤ base + r) then .absent else .lane (regKey (fibKey g l) (base + r)))
  else if r < 128 then .uniform g (r - 64)
  else if r = 128 then .pc g l
  else if r = 129 then .preds (fibKey g l)
  else .absent

def fibrePc (s : State) (g l : Nat) : Nat :=
  match entryOf s g l with
  | some j => (gEnt s g j).pc.toNat
  | none => parkedPc s g l

/-- The value and the full bit that a read returns. -/
def dbgValue (s : State) : DbgLoc → DWord × Bool
  | .lane k => (word64 (s.laneReg k).toNat, !(s.isEmpty k))
  | .uniform g r => (s.sregOf g r, s.uni.sout.get (g * 64 + r) == 0)
  | .pc g l => (word64 (fibrePc s g l), true)
  | .preds fk => (word64 (s.preds fk).toNat, true)
  | _ => (0, false)

def execDbgRead (s : State) : Host.Outcome State Fault Refusal :=
  .next (
    let c := s.cur.x
    dbgOn s c true fun t => match dbgLoc s c t with
      | .dead => dbgEnd s c 2
      | .absent => dbgEnd s c 3
      | x =>
        let (v, full) := dbgValue s x
        (dbgEnd s c 0).updCregs c fun r => { r with dbgdata := v, dbgcmd := setField r.dbgcmd 5 5 (b2n full) })

/-- A write sets value and full bit; an outstanding return still comes (R239). A PC written is that of the whole entry. -/
def dbgPut (s : State) (x : DbgLoc) (v : DWord) : State :=
  match x with
  | .lane k => (s.setLaneReg k (BitVec.ofNat 32 v.toNat)).setEmpty k false
  | .uniform g r => s.setSregOf g r v
  | .pc g l =>
    (match entryOf s g l with
      | some j => s.updEnt (gEntKey g j) fun e => { e with pc := BitVec.ofNat 57 v.toNat, fteAt := 0 }
      | none => setParked s g (some (BitVec.ofNat 57 v.toNat)) [l])
  | .preds fk => s.setPreds fk (BitVec.ofNat 8 v.toNat)
  | _ => s

def execDbgWrite (s : State) : Host.Outcome State Fault Refusal :=
  .next (
    let c := s.cur.x
    dbgOn s c true fun t => match dbgLoc s c t with
      | .dead => dbgEnd s c 2
      | .absent => dbgEnd s c 3
      | x => dbgEnd (dbgPut s x (s.cregs c).dbgdata) c 0)

/-- A lane leaves the captures of queued traps that would write one of its registers. -/
def dropCaptured (s : State) (g lane : Nat) (hit : AccDst → Bool) : State :=
  let one (t : TrapEntry) : TrapEntry := match t.cap with
    | some c => if hit c.dst then
        { t with cap := some { c with lanes := c.lanes.filter (·.lane != lane) }, mask := t.mask &&& ~~~(word64 (2 ^ lane)) } else t
    | none => t
  s.updGroup g fun x => { x with queue := x.queue.map one, handling := x.handling.map one }

/-- A lane's return into a register of an outstanding access is cancelled: not resident, it is not captured either. -/
def cancelAcc (s : State) (id lane : Nat) : State :=
  match findAcc s id with
  | some a => putAcc s id { a with cancelled := a.cancelled ||| word64 (2 ^ lane) }
  | none => s

/-- Cancel pending: the outstanding return is dropped, and so is a captured lane. -/
def dbgCancel (s : State) (x : DbgLoc) : State :=
  match x with
  | .lane k =>
    let g := k / 512 / 64
    dropCaptured (cancelAcc (s.setOut k 0) (s.outOf k) (k / 512 % 64)) g (k / 512 % 64) fun d => (dstRegs d).contains (k % 512)
  | .uniform g r =>
    let m := s.uni.sout.get (g * 64 + r)
    let s1 := setSout s g r 0
    let s2 := cancelAcc s1 m 0
    let s2 := if opMark 0 ≤ m then s2.updOp (m - opMark 0) fun o => { o with dst := none } else s2
    dropCaptured s2 g 0 fun d => d == .uniform r
  | _ => s

def execDbgCancelPending (s : State) : Host.Outcome State Fault Refusal :=
  .next (
    let c := s.cur.x
    dbgOn s c true fun t => match dbgLoc s c t with
      | .dead => dbgEnd s c 2
      | .absent => dbgEnd s c 3
      | x => dbgEnd (dbgCancel s x) c 0)

/-! ## REPLAY (R418) -/

def rpBits (bs : List Byte) (off n : Nat) : Nat := blockBits bs off n

/-- 0x20B: reserved bits, PASSES, and the alignment of RECORD and LOG. -/
def replayBad (bs : List Byte) : Bool :=
  rpBits bs 0x0A 6 != 0 || rpBits bs 0x70 144 != 0 || rpBits bs 8 1 == 0 || decide (8 < rpBits bs 8 1)
  || rpBits bs 0 8 % 32 != 0 || rpBits bs 0x10 8 % 256 != 0

def dieCores (s : State) (die : Nat) : List Nat := (List.range (s.cfg.cores.getD die 0)).map (die * 48 + ·)

/-- A pass begins: every counter of the die is 0 and counts what SEL names; the record is submitted as a child grid. -/
def startPass (s : State) (die : Nat) : State :=
  let se := s.task.sessions.get die
  let sel := se.sel.getD se.pass 0
  let s1 := (dieCores s die).foldl (fun t c => t.updCregs c fun r => { r with pmsel := sel, pmcnt := [] }) s
  (submitRecord s1 { rcd := se.rcd, src := .replay die, die := die, slot := se.slot, gen := se.gen, bankRng := se.bankRng,
                     keyslot := se.keyslot, depth := se.depth, ring := se.ring, parentJob := se.parentJob, replay := some die }).2

/-- The session of a replay block and its record. -/
def sessionFor (s : State) (va : Nat) (bs : List Byte) (d : Dec) : Session :=
  { live := true, block := va, core := s.cur.core, passes := rpBits bs 8 1, rcd := d.rcd, log := rpBits bs 0x10 8,
    logcap := rpBits bs 0x18 8, done := word64 (rpBits bs 0x20 8),
    sel := (List.range 8).map fun i => word64 (rpBits bs (0x30 + 8 * i) 8),
    saved := (dieCores s d.die).map fun c => (c, (s.cregs c).pmctl, (s.cregs c).pmsel), slot := d.slot, gen := d.gen,
    bankRng := d.bankRng, keyslot := d.keyslot, ring := d.ring, parentJob := d.parentJob, depth := d.depth }

def openSession (s : State) (va : Nat) (bs : List Byte) (d : Dec) : State :=
  startPass (setSession (endRestart s (curTeamKey s)) d.die (sessionFor s va bs d)) d.die

/-- DONE lies on another device, which is asked to arm it; a cause that it answers is REPLAY's (R195, R406, R418). -/
def armFar (s : State) (n : DWord) : State :=
  let s1 := endRestart s (curTeamKey s)
  let (id, s2) := s1.newOp (curOp s1 (.arm 1) n n none true)
  yieldFor (awaitRemote (armNow s2 n 1) id) (.home id)

/-- DONE is armed, here or before by its device, and the session begins. -/
def armDone (s : State) (armed : Bool) (n : DWord) (slot : Nat) (go : State → State) : State :=
  if armed then go s
  else match armCheck s n slot true (featBit s 42) with
    | .fail k => raise s k
    | .waits => s
    | .remote => armFar s n
    | .armed => go (armNow s n 1)

def replayRun (s : State) (va : Nat) (armed : Bool) : State :=
  if !s.cur.priv then raise s 0x381
  else if va % 64 != 0 then raise s 0x087
  else readRecordAt s va 512 fun bs s1 =>
    let die := dieOf s.cur.core
    if replayBad bs then raise s1 0x20B
    else if (s1.task.sessions.get die).live then raise s1 0x20A
    else readRecordAt s1 (rpBits bs 0 8) 32 fun r s2 =>
      let d := { curDec s2 (bytesToRec r) with src := .replay die }
      checkOpsub s2 d fun c => match c with
        | .ok _ s3 => armDone s3 armed (word64 (rpBits bs 0x20 8)) d.slot fun s4 => advance (openSession s4 va bs d)
        | _ => s2

def execReplay (o : UR) (s : State) : Host.Outcome State Fault Refusal :=
  .next (uniformOp s (.replay o) [o.a.toNat]
    (yieldOp s (replayRun s (rdS s o.a.toNat).toNat false) fun _ s1 => replayRun s1 (rdS s1 o.a.toNat).toNat true))

/-! ## The end of a pass (R419, R446, R447) -/

/-- Log entries go back to their lines, newest first; an entry is read from where it was written (R447). -/
def restoreLog (s : State) (se : Session) : Nat → PutRes
  | 0 => .ok s
  | n + 1 =>
    let bs := ((sessRuns se (se.log + 264 * n) 264 .store).getD []).flatMap fun p => devBytes s p.1 p.2
    match homePut s se (leNat (bs.take 8)) (bs.drop 8) with
    | .ok s1 => restoreLog s1 se n
    | .wait s1 => .wait s1
    | .fail => restoreLog s se n

/-- Caches of the die's cores are dropped, and SC lines that are neither locked nor carved are written back and invalidated. -/
def coolCaches (s : State) (die : Nat) : State :=
  let s1 := (dieCores s die).foldl (fun t c => (List.range 4).foldl (fun u k => kcDropBank u c k) (l1DropCore t c)) s
  let ks := (s1.mm.sc.filter fun p => p.2.held && p.2.lock.isNone && (match regionOf s1 (p.2.pa * 256) with
    | .hbm _ => true
    | _ => false)).map (·.1)
  ks.foldl scEvict s1

/-- Go on after a write of a session; one that cannot be made at all is left out (the model's choice, log entry 108). -/
def PutRes.andThen (r : PutRes) (s : State) (f : State → PutRes) : PutRes :=
  match r with
  | .ok s1 => f s1
  | .wait s1 => .wait s1
  | .fail => f s

/-- COUNTS, PATH0 and FLAGS of a pass. -/
def writeCounts (s : State) (die : Nat) (se : Session) : PutRes :=
  let sum (k : Nat) : Nat := ((dieCores s die).map fun c => (s.cregs c).pmcnt.get k).foldl (· + ·) 0 % 2 ^ 64
  let flags := leBytes 1 (b2n se.mismatch.isSome + 2 * b2n se.overflow + 4 * b2n se.side + 16 * se.mismatch.getD 0)
  (sessPut s se (se.block + 0x100 + 32 * se.pass) ((List.range 4).flatMap fun k => leBytes 8 (sum k))).andThen s fun s1 =>
    (if se.pass = 0 then sessPut s1 se (se.block + 0x28) (leBytes 8 se.path0) else .ok s1).andThen s1 fun s2 =>
      (sessPut s2 se (se.block + 9) flags).andThen s2 .ok

/-- The session ends: PMCTL and PMSEL are restored and DONE is signalled with the passes run. -/
def endSession (s : State) (die : Nat) (se : Session) : State :=
  let s1 := se.saved.foldl (fun t p => t.updCregs p.1 fun r => { r with pmctl := p.2.1, pmsel := p.2.2 }) s
  let s2 := setSession s1 die { se with live := false }
  let s3 := (signalEvent s2 se.done (se.pass + 1) se.slot false).2
  match se.parentJob with
  | some p => if (s3.job p).ended && !(liveChildren s3 p) then s3.add .parentRetire p 1 else s3
  | none => s3

/-- A pass is the session's last. -/
def lastPass (se : Session) : Bool := se.overflow || decide (se.passes ≤ se.pass + 1)

/-- The end of a pass: its counts are written, and the lines that it logged restored where another pass follows. -/
def settlePass (s : State) (die : Nat) (se : Session) : PutRes :=
  (writeCounts s die se).andThen s fun s1 => if lastPass se then .ok s1 else restoreLog s1 se se.logged.length

/-- The addresses whose pages the writes of a pass's end may have begun to collapse. -/
def settleAddrs (se : Session) : List Nat :=
  ((sessRuns se se.block 512 .store).getD []).map Prod.fst ++ se.logged.map (· * 256)

/-- What the session wrote stands everywhere: no collapse of a page that it wrote is in progress (R58, R446). -/
def sessionReady (s : State) (die : Nat) : Bool :=
  let se := s.task.sessions.get die
  !se.settling || !(se.wrote.any (collapsing s))

/-- REPLAY_PASS_END: `x` the die. First the writes, which are made anew where one has to wait; once they stand, the next pass or
the end (R446). -/
def execReplayPassEnd (s : State) : Host.Outcome State Fault Refusal :=
  .next (
    let die := s.cur.x
    let se := s.task.sessions.get die
    if !se.live then s
    else if se.settling then
      (if lastPass se then endSession s die se
       else
        startPass (setSession (coolCaches s die) die
          { se with logged := [], wrote := [], settling := false, digest := 0, pass := se.pass + 1 }) die)
    else
      let se1 := if se.pass = 0 then { se with path0 := se.digest }
        else if se.digest != se.path0 && se.mismatch.isNone then { se with mismatch := some se.pass } else se
      match settlePass s die se1 with
      | .ok s1 => (setSession s1 die { se1 with settling := true, wrote := settleAddrs se1 }).add .replayPassEnd die
      | .wait s1 => s1.after 1 .replayPassEnd die
      | .fail => s)

end Sys2Proof.Machine
end

