-- ==== Sys2Proof/Machine/Service.lean ====
section
/-! DEFINITION. The device's own registers at work and its service: PTINV, SCCARVE, LKSWEEP (R45, R79 to R86), keys (R33 to
R37), soft errors (R231), boot, attestation, monitors, service commands, links and updates (R451 to R461). -/
namespace Sys2Proof.Machine

/-! ## PTINV (R45, R61, R85) -/

/-- A range of intermediate addresses. -/
structure IaSpan where
  lo : Nat
  len : Nat
  deriving DecidableEq, Repr, Inhabited

def IaSpan.has (r : IaSpan) (ia : Nat) : Bool := decide (r.lo ≤ ia) && decide (ia < r.lo + r.len)

/-- The range that PTINV of a die names (Table 20). -/
def ptinvSpan (s : State) (d : Nat) : IaSpan :=
  let v := (s.die d).ptinv.toNat
  if bit v 1 then ⟨0, 2 ^ 52⟩
  else
    let n := 2 ^ pageLog (bits v 3 2)
    ⟨bits v 51 16 * 65536 / n * n, n⟩

/-- A request past translation and key check, which completes under them: also one held for a collapse, for room or for its
number (R45, R37). -/
def pastCheck (r : Req) : Bool :=
  match r.stage with
  | .clocked => true
  | .awaitClock => true
  | .response => true
  | .heldCollapse _ => true
  | .heldSpill _ => true
  | .toNumber => true
  | _ => false

/-- No request translated on the die in the range is still under way. -/
def ptinvClear (s : State) (d : Nat) : Bool :=
  let sp := ptinvSpan s d
  !(s.mm.reqs.any fun p => pastCheck p.2 && sp.has p.2.ia && (p.2.die == d || homeDie p.2.ia == d))

/-- PTINV_GO: `x` the die. -/
def execPtinvGo (s : State) : Host.Outcome State Fault Refusal :=
  .next (
    let sp := ptinvSpan s s.cur.x
    (tlbInvalidate s s.cur.x sp.lo sp.len).add .ptinvDone s.cur.x)

/-- A page's home entry no longer has P = 1. -/
def pageGone (s : State) (d ia : Nat) : Bool :=
  match walk s d ia with
  | .leaf _ _ w0 _ => !(pteP w0)
  | _ => true

/-- Lines of a page that is gone leave the SC without write-back; a lock on one ends (R85). -/
def dropGone (s : State) (d : Nat) (sp : IaSpan) : State :=
  let ks := (s.mm.sc.filter fun p =>
    let ia := p.1 % 2 ^ 44 * 256
    p.1 / 2 ^ 44 == d && p.2.held && homeDie ia == d && sp.has ia && ptEn s d && pageGone s d ia).map (·.1)
  ks.foldl (fun t k => scDrop (unlockLine t k) k) s

/-- A page's home entry has M set. -/
def pageMoving (s : State) (d ia : Nat) : Bool :=
  match walk s d ia with
  | .leaf _ _ w0 _ => pteM w0
  | _ => false

/-- Dirty lines of the pages that the range covers and whose entries have M set are written back to the frame in use, so that a
copy of the frame is a copy of the page (R60 step 2; log entry 86). -/
def flushMoving (s : State) (d : Nat) (sp : IaSpan) : State :=
  let ks := (s.mm.sc.filter fun p =>
    let ia := p.1 % 2 ^ 44 * 256
    p.1 / 2 ^ 44 == d && p.2.held && homeDie ia == d && sp.has ia && ptEn s d && pageMoving s d ia).map (·.1)
  ks.foldl scWriteBack s

/-- Writes held under a migration lock are translated afresh, in the order in which they were held (R61). -/
def releaseHeld (s : State) (d : Nat) (sp : IaSpan) : State :=
  releaseInOrder s fun r => r.stage == .heldM && homeDie r.ia == d && sp.has r.ia

/-- PTINV_DONE: `x` the die. -/
def execPtinvDone (s : State) : Host.Outcome State Fault Refusal :=
  .next (
    let d := s.cur.x
    let sp := ptinvSpan s d
    let s1 := flushMoving (dropGone (tlbInvalidate s d sp.lo sp.len) d sp) d sp
    releaseHeld (s1.updDie d fun x => { x with ptinv := 0 }) d sp)

/-! ## SCCARVE (R79 to R81, R275) -/

def carveDone (s : State) (d st : Nat) : State :=
  s.updDie d fun x => { x with sccarve := word64 (x.sccarve.toNat % 16 + st * 2 ^ 16) }

/-- Some set has more locked lines than the limit for w ways (R83). -/
def locksExceed (s : State) (d w : Nat) : Bool :=
  (s.mm.sc.filter fun p => p.1 / 2 ^ 44 == d && p.2.held && p.2.lock.isSome).any fun p =>
    decide (w - 2 < ((linesOfSet s d (p.1 % 2 ^ 44)).filter fun q => q.2.lock.isSome).length)

/-- SCCARVE_WRITE: `x` the die, `y` the size. -/
def execSccarveWrite (s : State) : Host.Outcome State Fault Refusal :=
  .next (
    let d := s.cur.x
    let n := s.cur.y
    if 12 < n || (decide (0 < n) && !(bit ((s.cfg.devfeat.getD 0 0).toNat) 35)) then carveDone s d 1
    else if locksExceed s d (16 - n) then carveDone s d 2
    else s.add .sccarveDone d n)

/-- One line leaves a set that holds more than w: the least recently used that is not locked, or a version line is spilled. -/
def trimOne (s : State) (d w line : Nat) : State :=
  let ls := linesOfSet s d line
  let vs := versOfSet s d line
  if ls.length + vs.length ≤ w then s
  else match oldest ScLine.used (ls.filter fun p => p.2.lock.isNone) with
    | some k => scEvict s k
    | none => match oldest VerLine.used vs with
      | some k => if spillRoom s d then setVer s k { s.mm.vers.get k with spilled := true } else s
      | none => s

/-- Every set of a die comes down to w lines. -/
def trimSets (s : State) (d w : Nat) : State :=
  let lines := ((s.mm.sc.filter fun p => p.1 / 2 ^ 44 == d && p.2.held).map fun p => p.1 % 2 ^ 44)
    ++ ((s.mm.vers.filter fun p => p.2.held && homeDie (p.1 % 2 ^ 44 * 256) == d).map fun p => p.1 % 2 ^ 44)
  lines.foldl (fun t l => trimOne t d w l) s

/-- Some set of a die still holds more than w lines. -/
def setsExceed (s : State) (d w : Nat) : Bool :=
  (s.mm.vers.filter fun p => p.2.held && homeDie (p.1 % 2 ^ 44 * 256) == d).any fun p =>
    decide (w < (linesOfSet s d (p.1 % 2 ^ 44)).length + (versOfSet s d (p.1 % 2 ^ 44)).length)

/-- Direct storage of a die from one size to another reads as zero: new ways are zeroed, and what freed ways held is lost. -/
def clearDirect (s : State) (d lo hi : Nat) : State :=
  let base := 0x10000000000 + d * 2 ^ 30
  let inside (pa : Nat) : Bool := decide (base + lo * 2 ^ 26 ≤ pa) && decide (pa < base + hi * 2 ^ 26)
  { s with mm := { s.mm with
      mem := s.mm.mem.filter fun p => !(inside p.1)
      poison := s.mm.poison.filter fun p => !(inside (p.1 * 256))
      sc := s.mm.sc.filter fun p => !(p.2.held && inside (p.2.pa * 256)) } }

/-- SCCARVE_DONE: `x` the die, `y` the size. -/
def execSccarveDone (s : State) : Host.Outcome State Fault Refusal :=
  .next (
    let d := s.cur.x
    let n := s.cur.y
    let c := carveSize s d
    if c < n then
      (if locksExceed s d (16 - n) then carveDone s d 2
       else
        let s0 := trimSets s d (16 - n)
        -- Version lines that the spill area has no room for keep the change waiting (R90).
        if setsExceed s0 d (16 - n) then s0.after 1 .sccarveDone d n else
        let s1 := clearDirect s0 d c n
        carveDone (s1.updDie d fun x => { x with sccarve := word64 n }) d 0)
    else carveDone ((clearDirect s d n c).updDie d fun x => { x with sccarve := word64 n }) d 0)

/-! ## LKSWEEP (R86) -/

/-- LKSWEEP_GO: `x` the die, `y` the context slot. -/
def execLksweepGo (s : State) : Host.Outcome State Fault Refusal := .next (s.add .lksweepDone s.cur.x s.cur.y)

/-- LKSWEEP_DONE: `x` the die, `y` the context slot: every line of it is unlocked, and its count is zero. -/
def execLksweepDone (s : State) : Host.Outcome State Fault Refusal :=
  .next (
    let d := s.cur.x
    let mine := (s.mm.sc.filter fun p => p.1 / 2 ^ 44 == d && p.2.lock == some s.cur.y).map (·.1)
    let s1 := setLockCount (mine.foldl unlockLine s) d s.cur.y 0
    s1.updDie d fun x => { x with lksweep := setBusy x.lksweep false })

/-! ## Keys (R33 to R37) -/

/-- A core's key command is the one at work: commands come one at a time in order of arrival. -/
def keyTurn (s : State) (c : Nat) : Bool := s.dev.keyOrder.head? == some c

/-- A key command ends with a status (Tables 14 and 15). -/
def keyDone (s : State) (c st : Nat) : State :=
  let s1 := s.updCregs c fun r => { r with keycmd := word64 (st * 2 ^ 12 + r.keycmd.toNat % 256) }
  { s1 with dev := { s1.dev with keyOrder := s1.dev.keyOrder.drop 1 } }

def keyState (s : State) (k : Nat) : KeyState := (s.mm.keys.get k).st
def setKey (s : State) (k : Nat) (v : KeySlot) : State := { s with mm := { s.mm with keys := s.mm.keys.put k v } }

/-- A page of a run is not resident for a port: a failure of translation, by Table 21. -/
def runAbsent (s : State) (p : Port) (ia n : Nat) : Bool :=
  (granules (n / 256 + 2) ia n).any fun g => match (xlate s p.die g.1 .read p.keyslot p.priv).1 with
    | .notResident .. => true
    | _ => false

/-- Install both keys in one step. A record that cannot be read ends the command (Table 15). -/
def keyInstall (s : State) (st : KeyState) (ev : Instr) : State :=
  let c := s.cur.x
  let k := s.cur.y
  if keyState s k != .empty then keyDone s c 1
  else if runAbsent s (sysPort (dieOf c)) (bits s.cur.z 51 3 * 8) 72 then keyDone s c 6
  else match engRead (sysPort (dieOf c)) (bits s.cur.z 51 3 * 8) 72 s with
    | .error (.fault _ _) => keyDone s c 6
    | .error (.wait _ _ s1) => s1.after 1 ev c k s.cur.z
    | .error (.spill s1) => s1.after 1 ev c k s.cur.z
    | .ok (bs, s1) =>
      -- The record is read with acquire at PKG scope (R36, R76).
      let s2 := l1DropCore s1 c
      match unwrapKeys keyEncryptionKey bs with
      | none => keyDone s2 c 3
      | some v =>
        if v.toNat / 2 ^ 256 = v.toNat % 2 ^ 256 then keyDone s2 c 4
        else keyDone (setKey s2 k { st := st, keys := v }) c 0

/-- KEY_INSTALL_PRIVATE: `x` the core, `y` the slot, `z` KEYADDR; so for the other key commands. -/
def execKeyInstallPrivate (s : State) : Host.Outcome State Fault Refusal := .next (keyInstall s .priv .keyInstallPrivate)
def execKeyInstallShared (s : State) : Host.Outcome State Fault Refusal := .next (keyInstall s .shared .keyInstallShared)

/-- The primary key slot of a live context (R14). KEY_RETIRE reads LIVE and KEYSLOT in the context table when it starts, where R15
names no such read (the model's choice, log entry 89). -/
def primaryOfLive (s : State) (k : Nat) : Bool :=
  (List.range 64).any fun c => bit (ctxWord s c 8) 0 && ctxWord s c 0x18 % 256 == k

/-- KEY_RETIRE: from now on requests to the slot's pages are refused. -/
def execKeyRetire (s : State) : Host.Outcome State Fault Refusal :=
  .next (
    let c := s.cur.x
    let k := s.cur.y
    if keyState s k == .empty then keyDone s c 2
    else if primaryOfLive s k then keyDone s c 5
    else (setKey s k { s.mm.keys.get k with st := .retiring }).add .keyRetireComplete c k)

/-- Every request past the check of R34 under the slot has completed. -/
def retireClear (s : State) (k : Nat) : Bool := !(s.mm.reqs.any fun p => pastCheck p.2 && p.2.key == some k)

/-- KEY_RETIRE_COMPLETE: the slot's lines are written back under the old key and invalidated (R37). Jobs' version lines are kept
(the model's choice, log entry 89). -/
def execKeyRetireComplete (s : State) : Host.Outcome State Fault Refusal :=
  .next (
    let k := s.cur.y
    let mine := (s.mm.sc.filter fun p => p.2.held && p.2.key == some k).map (·.1)
    keyDone (setKey (mine.foldl (fun t i => scEvict (unlockLine t i) i) s) k {}) s.cur.x 0)

/-- Make a slot SHARED or PRIVATE. -/
def keyMake (s : State) (st : KeyState) : State :=
  let k := s.cur.y
  if keyState s k == .empty then keyDone s s.cur.x 2
  else keyDone (setKey s k { s.mm.keys.get k with st := st }) s.cur.x 0

def execKeyMakeShared (s : State) : Host.Outcome State Fault Refusal := .next (keyMake s .shared)
def execKeyMakePrivate (s : State) : Host.Outcome State Fault Refusal := .next (keyMake s .priv)
def execKeyUndefinedOp (s : State) : Host.Outcome State Fault Refusal := .next (keyDone s s.cur.x 7)

/-! ## Soft errors (R231) -/

def killAll (s : State) (cause : Nat) : State :=
  (s.task.jobs.filter fun p => p.2.live).foldl (fun t p => killJob t (some p.1) cause) s

/-- Device fatal: every job dies of 0x343 and the device stops. -/
def deviceFatal (s : State) : State := { killAll s 0x343 with power := .stopped }

/-- An error in an SC line: a clean one is fetched again, a dirty one is poisoned. -/
def scError (s : State) (d line : Nat) : State :=
  let k := scKey d line
  let l := s.scLine k
  if !l.held then s
  else if l.dirty.isEmpty && !l.poison then s.setScLine k { l with clock := dieVc s d }
  else s.setScLine k { l with poison := true }

def verError (s : State) (job line : Nat) : State :=
  let v := s.mm.vers.get (verKey job line)
  if v.held then setVer s (verKey job line) { v with poison := true } else s

/-- A lane's read of a granule is on its way: an error there is met after it, since what reads poison has not yet issued and its
trap is precise (R231; log entry 22). -/
def readsUnder (s : State) (loc : ErrLoc) : Bool :=
  s.mm.reqs.any fun p => !p.2.scratch && (laneOf p.2).isSome && !(settled p.2) && p.2.kind != .store && (match loc with
    | .scLine _ line => p.2.ia / 256 == line
    | .version job line => p.2.ia / 256 == line && p.2.job == some job
    | .hbm pa => match (xlate s p.2.die p.2.ia .read p.2.keyslot true).1 with
      | .serve _ q _ => q / 256 == pa / 256
      | _ => false
    | _ => false)

/-- SOFT_ERROR_DETECTED (Table 75). The state of a waiting worker team is the system kernel's. -/
def execSoftErrorDetected (loc : ErrLoc) (s : State) : Host.Outcome State Fault Refusal :=
  .next (if readsUnder s loc then s.after 1 (.softErrorDetected loc) else match loc with
    | .scLine d line => scError s d line
    | .version job line => verError s job line
    | .hbm pa => setPoison s (pa / 256) true
    | .team core t =>
      if (s.team (core * 16 + t)).job.isSome then killTeam s (core * 16 + t) 0x343 else deviceFatal s
    | .kernel _ => deviceFatal s)

/-! ## The event port (R451, R452) -/

/-- EVPORT_WRITE: `v` the name; a privileged EVSIG on it. -/
def execEvportWrite (s : State) : Host.Outcome State Fault Refusal :=
  .next (sendOp s { kind := .signal 0, target := s.cur.v, by_ := .device, priv := true } .eventSignal).2

/-! ## Service commands (R461) -/

def svcUnit (s : State) : Nat := s.dev.svccmd.toNat % 256

/-- A service command ends with a status. -/
def svcDone (s : State) (st : Nat) : State :=
  { s with dev := { s.dev with svccmd := word64 (st * 2 ^ 60 + svcUnit s) } }

def svcCoreAbsent (s : State) (c : Nat) : Bool := decide (192 ≤ c) || decide (s.cfg.cores.getD (dieOf c) 0 ≤ c % 48)

def haltedOn (s : State) (c : Nat) : Bool := (List.range 16).any fun w => (s.team (c * 16 + w)).halt != 0

/-- Mailbox jobs of a core are delivered again. -/
def remail (s : State) (c : Nat) : State :=
  (s.task.mail.get c).foldl (fun t p => requeue (unmail t c p.1) p.2) s

/-- SVC_CORE_OFFLINE: the unit's mailbox jobs go to other cores and its teams are sent back. -/
def execSvcCoreOffline (s : State) : Host.Outcome State Fault Refusal :=
  .next (
    let c := svcUnit s
    if svcCoreAbsent s c then svcDone s 1
    else if (s.cregs c).offline then svcDone s 2
    else if haltedOn s c then svcDone s 3
    else
      let s1 := remail (s.updCregs c fun r => { r with offline := true }) c
      ((residentTeams s1 c).foldl (preqTeam false) s1).add .svcOfflineDone c)

/-- The core is empty; a job that came to it while the command ran is sent back too. -/
def offlineReady (s : State) (c : Nat) : Bool :=
  (residentTeams s c).isEmpty || (residentTeams s c).any fun t => !(sentBack s t)

/-- SVC_OFFLINE_DONE: `x` the core. -/
def execSvcOfflineDone (s : State) : Host.Outcome State Fault Refusal :=
  .next (
    let c := s.cur.x
    let l := residentTeams s c
    if l.isEmpty && (s.task.mail.get c).isEmpty then svcDone s 0
    else (l.foldl (preqTeam false) (remail s c)).add .svcOfflineDone c)

/-- SVC_CORE_ONLINE. -/
def execSvcCoreOnline (s : State) : Host.Outcome State Fault Refusal :=
  .next (
    let c := svcUnit s
    if svcCoreAbsent s c then svcDone s 1
    else if !((s.cregs c).offline) then svcDone s 2
    else (svcDone (s.updCregs c fun r => { r with offline := false }) 0).post .mailboxDeliver (dieOf c))

/-- The channels at which a happening's request or item stands. -/
def unitsOf (s : State) (h : Happening) : List Nat :=
  let at_ (d ia : Nat) : Nat := d * 64 + sliceAt s d ia
  let req (id : Nat) : List Nat := match findReq s id with
    | some r => if r.scratch then [] else [at_ (homeDie r.ia) r.ia, at_ r.die r.ia]
    | none => []
  match h.what with
  | .requestAtNearSlice => req h.x
  | .requestAtHomeSlice => req h.x
  | .heldRequestRetry => req h.x
  | .remoteReadServe => req h.x
  | .clockedItemApply => (match (findItem s h.y).bind (·.req) with
    | some id => req id
    | none => [])
  | _ => []

/-- What stands held at a channel as its retrain ends, in the order in which it came there. -/
def heldThere (s : State) (u : Nat) : List (Nat × Happening) :=
  ((s.agenda.filter fun h => decide (h.due ≤ s.now) && (unitsOf s h).contains u).foldr insertDue []).map fun h => (u, h)
where
  insertDue (h : Happening) : List Happening → List Happening
    | [] => [h]
    | g :: t => if h.due ≤ g.due then h :: g :: t else g :: insertDue h t

/-- SVC_CHANNEL_RETRAIN: requests to the channel are held until it ends. -/
def execSvcChannelRetrain (s : State) : Host.Outcome State Fault Refusal :=
  .next (
    let u := svcUnit s
    if !(chanPresent s (u / 64) (u % 64)) then svcDone s 1
    else { s with dev := { s.dev with retraining := s.dev.retraining ++ [u] } }.add .svcRetrainDone u)

/-- SVC_STATION_RETRAIN: messages by the station are held until it ends. -/
def execSvcStationRetrain (s : State) : Host.Outcome State Fault Refusal :=
  .next (
    let u := svcUnit s
    if decide (s.cfg.stations ≤ u) || s.dev.stationsOff.contains u then svcDone s 1
    else { s with dev := { s.dev with retraining := s.dev.retraining ++ [256 + u] } }.add .svcRetrainDone u 1)

/-- SVC_RETRAIN_DONE: `x` the unit, `y` 1 for a station. Whether a retrain fails is open (log entry 1); one that fails leaves
the unit absent, and the status says so. -/
def execSvcRetrainDone (s : State) : Host.Outcome State Fault Refusal :=
  .next (
    let u := s.cur.x
    let (f, s1) := s.choose 2
    let k := if s.cur.y = 1 then 256 + u else u
    let s1 := { s1 with dev := { s1.dev with retraining := s1.dev.retraining.filter fun x => x != k } }
    let s2 := if s.cur.y = 1 then releaseOut s1 u
      else { s1 with dev := { s1.dev with
        heldAt := (s1.dev.heldAt.filter fun p => s1.agenda.contains p.2) ++ heldThere s1 u } }
    if f = 0 then svcDone s2 0
    else if s.cur.y = 1 then svcDone { s2 with dev := { s2.dev with stationsOff := s2.dev.stationsOff ++ [u] } } 1
    else svcDone (s2.updDie (u / 64) fun d => { d with offlineChans := d.offlineChans ++ [u % 64] }) 1)

def execSvcUndefinedOp (s : State) : Host.Outcome State Fault Refusal := .next (svcDone s 7)

/-! ## Attestation (R456) -/

def reportAddr (s : State) : Nat := bits s.dev.attcmd.toNat 51 6 * 64
def reportDone (s : State) (st : Nat) : State :=
  { s with dev := { s.dev with attcmd := word64 (st * 2 ^ 60 + maskBits s.dev.attcmd 51 6) } }
def reportPort (s : State) : Port := sysPort (homeDie (reportAddr s))

/-- A page of the report's buffer is not resident: a failure of translation, by Table 21. -/
def reportAbsent (s : State) : Bool := runAbsent s (reportPort s) (reportAddr s) 512

/-- ATTCMD_WRITE: the nonce is read when the command starts. -/
def execAttcmdWrite (s : State) : Host.Outcome State Fault Refusal :=
  .next (if reportAbsent s then reportDone s 1 else match engRead (reportPort s) (reportAddr s) 48 s with
    | .error (.fault _ _) => reportDone s 1
    | .error (.wait _ _ s1) => s1.after 1 .attcmdWrite
    | .error (.spill s1) => s1.after 1 .attcmdWrite
    | .ok (bs, s1) => { s1 with dev := { s1.dev with nonce := bs } }.add .attestationDone)

/-- Bytes 0x000 to 0x12F of a report (Table 206). -/
def reportBody (s : State) : List Byte :=
  s.dev.nonce ++ s.dev.images.flatMap sha384
  ++ leBytes 8 (inventory s).toNat ++ leBytes 8 (s.cfg.devfeat.getD 0 0).toNat
def report (s : State) : List Byte :=
  reportBody s ++ beBytes 96 (Config.signReport identityKey (reportBody s)).toNat ++ List.replicate 112 0

/-- ATTESTATION_DONE. -/
def execAttestationDone (s : State) : Host.Outcome State Fault Refusal :=
  .next (if reportAbsent s then reportDone s 1 else match engWrite (reportPort s) (reportAddr s) (report s) s with
    | .error (.fault _ _) => reportDone s 1
    | .error (.wait _ _ s1) => s1.after 1 .attestationDone
    | .error (.spill s1) => s1.after 1 .attestationDone
    | .ok ((), s1) => reportDone s1 0)

/-! ## Reset and boot (R451, R455, R460) -/

/-- RESET_GO: the device as at power-on, with what boot flash now holds. What the model counts to keep free values apart goes on. -/
def execResetGo (s : State) : Host.Outcome State Fault Refusal :=
  .next (
    let images := match s.dev.nextImage with
      | some i => s.dev.images.set 1 i
      | none => s.dev.images
    { State.reset with
      free := s.free, tick := s.tick, cfg := s.dev.nextCfg
      dev := { State.reset.dev with images := images, certificate := s.dev.certificate, nextCfg := s.dev.nextCfg } })

/-- The boot image and the configuration record in flash are both signed. -/
def bootSigned (s : State) : Bool :=
  Config.signatureOk (s.dev.images.getD 0 []) && Config.signatureOk (s.dev.images.getD 1 [])

/-- Worker team w of a core waits, holding skein group w (R178). -/
def bootTeam (s : State) (core w : Nat) : State := toWaitLoop (s.setTeam (core * 16 + w) { groups := [w] }) (core * 16 + w)
def bootCore (s : State) (core : Nat) : State := (List.range s.cfg.workers).foldl (fun t w => bootTeam t core w) s

/-- A die starts: its cores, its scheduling register (R214), its streams (R185) and its monitors. -/
def bootDie (s : State) (d : Nat) : State :=
  let s1 := (List.range (s.cfg.cores.getD d 0)).foldl (fun t i => bootCore t (d * 48 + i)) s
  let s2 := s1.updDie d fun x => { x with schedcfg := word64 (orOne s.cfg.sched 32 + maskBits s.cfg.sched 31 22 + s.cfg.sched.toNat % 65536) }
  ((List.range 64).foldl (fun t n => t.add .streamFlow d n) s2).add .thermalThrottleTick d

/-- POWER_ON_BOOT: the boot ROM checks both signatures; a failure leaves every core stopped, and only the host's writes to RESET
and boot flash still come. -/
def execPowerOnBoot (s : State) : Host.Outcome State Fault Refusal :=
  .next (
    if bootSigned s then (List.range 4).foldl bootDie { s with power := .up, dev := { s.dev with nextCfg := s.cfg } }
    else { s with agenda := s.agenda.filter (hostReaches s) })

/-! ## Monitors (R457) -/

def monValueOf (s : State) (d m : Nat) : Int := (s.dev.monValue.get (d * 64 + m)).toInt

/-- Every monitor of a die is read again; what it reads is open (log entry 1). -/
def sampleMons (s : State) (d : Nat) : State :=
  (List.range 64).foldl (fun t m =>
    if monKind t m = 3 then t
    else
      let (v, t1) := t.fresh
      { t1 with dev := { t1.dev with monValue := t1.dev.monValue.put (d * 64 + m) (v.setWidth 16) } }) s

def tempMons (s : State) : List Nat := (List.range 64).filter fun m => monKind s m == 0

/-- The ck of one ms: 700,000, and fewer while a clock is lowered (R7, R457). -/
def msCk (s : State) : Nat := 87500 * (8 - slowest s)

/-- THERMAL_THROTTLE_TICK: `x` the die; each ms its clock goes a step down above the limit, and a step up below it. -/
def execThermalThrottleTick (s : State) : Host.Outcome State Fault Refusal :=
  .next (
    let d := s.cur.x
    let s1 := sampleMons s d
    let hot := (tempMons s1).any fun m => decide ((monLimitOf s1 d m).toInt < monValueOf s1 d m)
    let cool := (tempMons s1).all fun m => decide (monValueOf s1 d m < (monLimitOf s1 d m).toInt)
    let n := s1.dev.slow.get d
    let n1 := if hot then min 4 (n + 1) else if cool then n - 1 else n
    let s2 := { s1 with dev := { s1.dev with slow := s1.dev.slow.put d n1 } }
    let s3 := s2.after (msCk s2) .thermalThrottleTick d
    if (tempMons s3).any fun m => decide (2000 ≤ monValueOf s3 d m) then s3.add .thermalStop d else s3)

/-- THERMAL_STOP: at 125 °C the die stops, and the device is fatal. -/
def execThermalStop (s : State) : Host.Outcome State Fault Refusal := .next (deviceFatal s)

/-! ## RoCE and updates (R454, R460) -/

/-- ROCE_INBOUND: a WRITE or SEND lands as a system write; anything else is refused. -/
def execRoceInbound (kind : RoceKind) (port ia : Nat) (data : List Byte) (s : State) : Host.Outcome State Fault Refusal :=
  .next (match kind with
    | .write => devPut s ia data
    | .send => devPut s ia data
    | .read => emitOut s (.nak port)
    | .atomic => emitOut s (.nak port)
    | .datagram => emitOut s (.nak port))

def takeImage (s : State) (k : Nat) (image : List Byte) : State :=
  { s with dev := { s.dev with images := s.dev.images.set k image } }

/-- IN_SERVICE_UPDATE: a signed image is taken into service, by each worker team at its next wait (`toWaitLoop`) where it is the
system kernel's; a configuration record at the next RESET. What a library binds lies in the objects as the loader wrote them. -/
def execInServiceUpdate (kind : UpdateKind) (image : List Byte) (cfg : ConfigRecord) (s : State) :
    Host.Outcome State Fault Refusal :=
  .next (
    if !(Config.signatureOk image) then s
    else match kind with
      | .dispatcher => takeImage s 2 image
      | .kernel => takeImage { s with dev := { s.dev with kernels := s.dev.kernels + 1 } } 3 image
      | .emulation => takeImage s 4 image
      | .config => { s with dev := { s.dev with nextCfg := cfg, nextImage := some image } })

end Sys2Proof.Machine
end

