-- ==== Sys2Proof/Machine/Issue.lean ====
section
/-! DEFINITION. One step of the part: which of the things that could come next comes, and the issue of an instruction
(R211, R240, R249 to R252). -/
namespace Sys2Proof.Machine

/-! ## What can come next -/

/-- What a step performs: an issue from a slot, an arbitration of a core, a rotation in a group, or a happening of
the agenda by its place there. -/
inductive Choice where
  | issue (slot : Nat)
  | arbitrate (core : Nat)
  | rotate (g : Nat)
  | item (n : Nat)
  deriving DecidableEq, Repr, Inhabited

/-- A slot issues unless its team's issue stands still for a decision (R217). -/
def slotIssues (s : State) (k : Nat) : Bool :=
  match (s.slotAt k).ent with
  | some e => match (s.group (groupKey (k / 4) (e / 8))).team with
    | some t => (s.team t).back != .deciding
    | none => false
  | none => false

/-- A happening's request or item is not held at a channel that is being retrained, and those that were held there before it have
been served (R461). -/
def retrainTurn (s : State) (h : Happening) : Bool :=
  (s.dev.retraining.isEmpty && s.dev.heldAt.isEmpty)
  || (unitsOf s h).all fun u => !(s.dev.retraining.contains u)
    && (match s.dev.heldAt.find? fun p => p.1 == u && s.agenda.contains p.2 with
      | some p => p.2 == h
      | none => true)

/-- The request's instruction is the last that its group's slot has issued: what it reads returns after the slot has come to its
next instruction, in the following ck (R67, R211, R448). -/
def justIssued (s : State) (id : Nat) : Bool :=
  match findReq s id with
  | some r => (match r.src with
    | .lane acc _ => groupHolds s r.group && (s.mm.accs.get acc).order == (s.group r.group).order
    | _ => false)
  | none => false

/-- What holds a request on its way (R46 to R61, R136 to R139). -/
def enabledMem (s : State) (h : Happening) : Option Bool :=
  match h.what with
  | .requestAtNearSlice => some (nearReady s h.x && retrainTurn s h && !(portStalled s h.x))
  | .requestAtHomeSlice => some (retrainTurn s h && !(portStalled s h.x))
  | .heldRequestRetry => some (retryReady s h.x && retrainTurn s h)
  | .remoteReadServe => some (remoteReady s h.x && retrainTurn s h)
  | .readResponseDeliver => some (deliverReady s h.x)
  | .loadReturn => some (!(justIssued s h.x))
  | .clockedItemArrive => some (arriveReady s h.x h.y)
  | .clockedItemApply => some (applyReady s h.x h.y && retrainTurn s h)
  | .collapseAck => some (h.x != 0 || !(rqFull s h.z))
  | .ptinvDone => some (ptinvClear s h.x)
  | _ => none

/-- What holds an engine's work (R141 to R167, R380 to R405). -/
def enabledEng (s : State) (h : Happening) : Option Bool :=
  match h.what with
  | .transferStart => some (xferItemReady s h && xferTurn s h.x)
  | .copyRunDeliver => some (xferItemReady s h && xferTurn s h.x)
  | .pickerRunWrite => some (xferItemReady s h && xferTurn s h.x)
  | .chainRecordRead => some (runReady s h.x && chainGoes s h.x)
  | .pickerPermitGrant => some (permitReady s h.x h.y)
  | .arrayEntryStart => some (arrayReady s h.x)
  | .arrayEntryComplete => some (completeReady s h.x)
  | .attqAdmit => some (admitReady s h.x)
  | .sauPartialDone => some (sauReady s h.x)
  | .attqResultLand => some (sauReady s h.x)
  | .collectiveContribution => some (holdState s (s.contrib h.x).held != .waits)
  | .collectiveResultWritten => some (resultReady s h.x)
  | .sequenceOpApply => some (seqReady s h)
  | _ => none

/-- No deposit that is due when a punnet's timer is has still to be applied there (R199). -/
def timerTurn (s : State) (h : Happening) : Bool :=
  !(s.agenda.any fun g => g.what == .punnetDeposit && decide (g.due ≤ h.due) && (s.op g.x).live && opPunnet (s.op g.x) == (h.x, h.y)
    && depositReady s g.x)

/-- What holds a happening of the task system (R184 to R221). -/
def enabledTask (s : State) (h : Happening) : Option Bool :=
  match h.what with
  | .eventSignal => some (opReady s h.x)
  | .eventWait => some (opReady s h.x)
  | .eventFutreg => some (opReady s h.x && eventTurn s h)
  | .eventFault => some (eventTurn s h)
  | .homeAnswer => some (answerReady s h.x)
  | .eventArm => some (armReady s h.x)
  | .recordDecode => some (decodeReady s h.x)
  | .streamFlow => some (flowReady s h.x h.y)
  | .streamRecordRead => some (readReady s h.x h.y)
  | .streamHoldEnd => some (holdSeen s h.x)
  | .oColl => some (holdState s (s.dec h.x).held != .waits)
  | .oSeq => some (holdState s (s.dec h.x).held != .waits)
  | .oNode => some (holdState s (s.dec h.x).held != .waits)
  | .punnetDeposit => some (depositReady s h.x)
  | .punnetTimerExpire => some (timerTurn s h)
  | .queueReadmit => some (readmitReady s h.x h.y)
  | .jobEligible => some (eligibleReady s h.x && inTurn s h.x)
  | .mailboxDeliver => some (mailReady s h.x)
  | .workerTakeJob => some (workerReady s h.x h.y)
  | .completionBacklogDrain => some ((drainable s h.x).isSome || (s.task.backlog.get h.x).isEmpty)
  | .preemptPriorityTrigger => some (triggerReady s h.x (priorityVictims s h.x))
  | .preemptTimesliceTrigger => some (triggerReady s h.x (timesliceVictims s h.x))
  | .preqGo => some (preqReady s h.x h.y h.z)
  | .saveCapture => some (captureReady s h.x h.y)
  | _ => none

/-- What holds a happening of the device's service (R36, R37, R238, R461). -/
def enabledSvc (s : State) (h : Happening) : Option Bool :=
  match h.what with
  | .dbgHaltComplete => some (haltReady s h.x h.y)
  | .replayPassEnd => some (sessionReady s h.x)
  | .keyInstallPrivate => some (keyTurn s h.x)
  | .keyInstallShared => some (keyTurn s h.x)
  | .keyRetire => some (keyTurn s h.x)
  | .keyMakeShared => some (keyTurn s h.x)
  | .keyMakePrivate => some (keyTurn s h.x)
  | .keyUndefinedOp => some (keyTurn s h.x)
  | .keyRetireComplete => some (retireClear s h.y)
  | .svcOfflineDone => some (offlineReady s h.x)
  | .registerWrite => some (hostTurn s h)
  | _ => none

/-- Whether a waiting happening can come now; nothing holds one that is not named. -/
def enabled (s : State) (h : Happening) : Bool :=
  match h.what with
  | .entryWake => wakeReady s h.x h.y
  | .trapDelivery => deliveryReady s (groupKey h.x h.y)
  | _ =>
    ((enabledMem s h).orElse fun _ => (enabledEng s h).orElse fun _ => (enabledTask s h).orElse fun _ => enabledSvc s h).getD true

def dueItems (s : State) : Nat → List Happening → List Choice
  | _, [] => []
  | n, h :: t => if decide (h.due ≤ s.now) && enabled s h then .item n :: dueItems s (n + 1) t else dueItems s (n + 1) t

/-- Cores with a skein group bound, each once. -/
def coresBound (s : State) : List Nat :=
  (s.uni.groups.filter fun p => p.2.team.isSome).foldr (fun p l => insertRise (p.1 / 32) l) []

/-- Of some choices the one that stands lowest by a rank; of equals the first. -/
def pickBestChoice (rank : Choice → Nat) : List Choice → Option Choice
  | [] => none
  | x :: t =>
    match pickBestChoice rank t with
    | none => some x
    | some y => if rank y < rank x then some y else some x

def choices (s : State) : List Choice :=
  ((s.uni.slots.filter fun p => slotIssues s p.1).map fun p => Choice.issue p.1)
  ++ ((coresBound s).filter fun c => (freeSlot s c).isSome && (arbWinner s c).isSome).map Choice.arbitrate
  ++ ((s.uni.groups.filter fun p => (rotatee s p.1).isSome).map fun p => Choice.rotate p.1)
  ++ dueItems s 0 s.agenda

/-- How long a choice stands behind in its class: a happening by when it was due, a unit by its place in the class's turn. -/
def standing (s : State) (turn : Nat) : Choice → Nat
  | .item n => match s.agenda[n]? with
    | some h => h.due
    | none => s.now
  | .issue k => (k + 768 - turn % 768) % 768
  | .arbitrate c => (c + 6336 - turn % 6336) % 6336
  | .rotate g => (192 + g + 6336 - turn % 6336) % 6336

/-- The class that a step's turn belongs to: what is due, the slots, or arbitration and rotation. -/
def ofTurn (turn : Nat) : Choice → Bool
  | .item _ => turn == 0
  | .issue _ => turn == 1
  | .arbitrate _ => turn == 2
  | .rotate _ => turn == 2

/-- The one that comes: where several could, the manual gives no order (R124). Three steps of four go round what is due, the
slots, and the cores and groups, so that each comes in its turn (R182, log entry 95); the fourth is free. -/
def chosen (s : State) : Option Choice :=
  match choices s with
  | [] => none
  | [c] => some c
  | l =>
    (pickBestChoice (standing s (s.tick / 4)) (l.filter (ofTurn (s.tick % 4)))).orElse fun _ =>
      l[Config.pick s.tick % l.length]?

/-! ## Time -/

/-- Count a clock period in which a user team is resident on a core (Table 161, code 0x01). -/
def countResident (s : State) (core n : Nat) : State :=
  let jobs := (s.core.teams.filter fun p => p.1 / 16 == core && p.2.bound).filterMap fun p => p.2.job
  (List.range 4).foldl (fun t k =>
    if bits (t.cregs core).pmsel.toNat (16 * k + 15) (16 * k) == 0x01 && jobs.any (fun j => pmCounts t core (t.job j).slot (some j) true k) then
      t.updCregs core fun r => { r with pmcnt := r.pmcnt.upd k fun v => (v + n) % 2 ^ 64 }
    else t) s

/-- The records of remote queues whose LIVE has fallen or whose QGEN has changed are dropped (R197). -/
def dropDestroyed (s : State) : State :=
  s.task.queues.foldl (fun t p =>
    let q := p.1 % 256
    if (!(p.2.buf.isEmpty && p.2.backed.isEmpty) || !(queueSpilled t (p.1 / 256) q).isEmpty) && !(queueLive t (p.1 / 256) q) then
      dropQueue t (p.1 / 256) q
    else t) s

/-- A punnet that is not VALID counts its deposits from none (R410). -/
def dropPunnets (s : State) : State :=
  s.task.punnets.foldl (fun t p =>
    if p.2.total != 0 && !(punValid t (p.1 / 4096) (p.1 % 4096)) then t.setPun p.1 { t.pun p.1 with total := 0, launched := 0 }
    else t) s

/-- Time passes: n ck, each of which a lowered clock makes longer (R457). -/
def elapse (s : State) (n : Nat) : State :=
  let cores := (s.core.regs.filter fun p => p.2.pmsel != 0).map (·.1)
  let s1 := { s with
    now := s.now + n, tick := s.tick + 1
    dev := { s.dev with stretch := s.dev.stretch + n * (ckUnits (slowest s) - 8400) } }
  cores.foldl (fun t c => countResident t c n) (dropPunnets (dropDestroyed s1))

/-- The next time at which a happening is due, if that is later than now. -/
def nextDue (s : State) : Option Nat :=
  (s.agenda.filter fun h => s.now < h.due).foldl (fun m h => match m with
    | none => some h.due
    | some n => some (min n h.due)) none

/-! ## Issue -/

/-- The issuing entry's next instruction is a repetition of a REP target. -/
def repeats (s : State) : Bool := repAct (curEntry s).repst && !(inHandler s)

/-- The issuing entry of a slot, before its instruction is known; the length of a REP target is (R254). -/
def atSlot (s : State) (core ent : Nat) : State :=
  let o := (s.group (groupKey core (ent / 8))).order + 1
  let s1 := s.updGroup (groupKey core (ent / 8)) fun x => { x with order := o }
  let s2 := { s1 with cur := { core := core, ent := ent, order := o } }
  let priv := fetchPriv (curBank s2) (pcVa (curPc s2).toNat)
  { s2 with cur := { s2.cur with
      priv := priv, rep := repeats s2, len := if repeats s2 then repLen (curEntry s2).repst + 1 else 2 } }

/-- The function table entry of the issuing entry's function is read again when its FUNC names another (R363). -/
def refreshFte (s : State) : FteRes :=
  let a := funcFte (curFunc s)
  if a = 0 ∨ (curEntry s).fteAt = a then .ok 0 s
  else match readFte s a with
    | .ok f s1 => .ok 0 (updCur s1 fun e => { e with fteAt := a, fteRaw := BitVec.ofNat 256 f })
    | .stop s1 => .stop s1

/-- The instruction about to issue, or the state of an entry that does not issue now. -/
inductive Ready where
  | run (s : State)
  | stop (s : State)

/-- Fetch for the issuing entry; B ends a rand that has issued (Table 68), and a fetch that fails traps (R22, R249). -/
def fetchFor (s : State) (issues : Nat) : Ready :=
  match refreshFte s with
  | .stop s1 => .stop s1
  | .ok _ s1 =>
    match fetchAt s1 (curPc s1).toNat with
    | .wait s2 => .stop s2
    | .stop c a => .stop (raiseFull s1 c (heldLanes s1) (word64 a) 0 false)
    | .absent e a s2 => .stop (raiseAbsent s2 e a)
    | .ok f s2 =>
      if f.word.getLsbD 30 && decide (0 < issues) then .stop (endRand s2)
      else
        let c := { s2.cur with word := f.word, dword := f.dword, len := f.len, coded := f.coded, priv := f.priv }
        .run { s2 with cur := c }

/-- The instruction that a word stands for. -/
def instrOf (w dw : Word) : Instr :=
  match rawDecode w.toNat dw.toNat with
  | some i => i
  | none => .undefinedOpcode w

abbrev Exec := Instr → State → Host.Outcome State Fault Refusal

/-- Continue with the next state of an outcome. -/
def andThen (o : Host.Outcome State Fault Refusal) (f : State → Host.Outcome State Fault Refusal) :
    Host.Outcome State Fault Refusal :=
  match o with
  | .next s => f s
  | .fault r => .fault r
  | .refused r => .refused r

/-- The instruction has not issued: its entry has yielded or keeps its slot. -/
def waitsAtIssue (s0 s : State) : Bool :=
  !s.cur.done && ((s.ent (curEk s0)).st == .blocked || holdsSlot s s0.cur.core s0.cur.ent)

/-- Count the issue of an instruction (R445), from the state before it: one that yields counts once, and one that traps counts. -/
def countIssue (s0 s : State) : State :=
  if !(waitsAtIssue s0 s) then
    pmCount s s0.cur.core (bankSlot (curBank s0)) (curTeam s0).job (funcFte (curFunc s0) != 0)
      (if s0.cur.word.getLsbD 31 then 0x03 else 0x02) 1
  else s

/-- An access of the entry's last repetition is outstanding: its effects come before the next one issues (R252), and after the
last one before the entry goes on, so that its trap returns to the unit after the target (R224, R255). -/
def repOpen (s : State) : Bool :=
  !(inHandler s) && s.mm.accs.any fun p =>
    p.2.group == curGk s && repAct p.2.repst && (p.2.issue &&& (curEntry s).lanes) != 0 && !p.2.todo.isEmpty

/-- An instruction that waits without yielding gives its slot up where its entry is to receive a trap: the entry stands at a
boundary before the instruction (R55, R225, log entry 19). -/
def standAside (s : State) : State :=
  let g := curGk s
  let due := (s.group g).recv.isNone && (match (s.group g).queue with
    | t :: _ => receiver s g t == some (curJ s)
    | [] => false)
  if due && !s.cur.done && holdsSlot s s.cur.core s.cur.ent then endRand s else s

/-- After an issue: the slot has one more, an entry that has become BLOCKED may give way to parked fibres, and entries that
stand at boundaries fuse (R173). -/
def afterIssue (s0 s : State) (k : Nat) : State :=
  let s1 := countIssue s0 s
  let sl := s1.slotAt k
  let s2 := if s1.cur.done && sl.ent == some s0.cur.ent then s1.setSlot k { sl with issues := sl.issues + 1 } else s1
  fuseGroup (rotateBlocked (standAside s2) (curGk s0) (s0.cur.ent % 8)) (curGk s0)

/-- One issue from slot k: a repetition is prepared first (R252). -/
def issueFrom (exec : Exec) (s : State) (k : Nat) : Host.Outcome State Fault Refusal :=
  let sl := s.slotAt k
  match sl.ent with
  | none => .next s
  | some ent =>
    let s0 := atSlot s (k / 4) ent
    if repOpen s0 then .next (standAside s0)
    else if 24 ≤ sl.issues then .next (fuseGroup (endRand s0) (curGk s0))
    else match fetchFor s0 sl.issues with
      | .stop s1 => .next (fuseGroup (standAside s1) (curGk s0))
      | .run s1 =>
        andThen (if repeats s1 then exec .repRepetition s1 else .next s1) fun s2 =>
          andThen (exec (instrOf s2.cur.word s2.cur.dword) s2) fun s3 => .next (afterIssue s2 s3 k)

/-- The objects of a happening. -/
def actingOn (s : State) (h : Happening) : State := { s with cur := { x := h.x, y := h.y, z := h.z, v := h.v } }

/-- A happening of the agenda: it leaves the agenda and is performed on its objects. -/
def perform (exec : Exec) (s : State) (n : Nat) : Host.Outcome State Fault Refusal :=
  match s.agenda[n]? with
  | none => .next s
  | some h => exec h.what (actingOn { s with agenda := s.agenda.eraseIdx n } h)

/-- A stopped device makes no step but those by which the host starts it again (R231, R455, R457). -/
def stoppedStep (exec : Exec) (s : State) : Host.Outcome State Fault Refusal :=
  match s.agenda.findIdx? (hostReaches s) with
  | some n => perform exec s n
  | none => .fault .deviceStopped

/-- ONE STEP. Where nothing can come now, time passes to the next happening
that is due. -/
def stepWith (exec : Exec) (s : State) : Host.Outcome State Fault Refusal :=
  if s.power = .stopped then stoppedStep exec s
  else match chosen s with
    | some (.issue k) => issueFrom exec (elapse s 1) k
    | some (.arbitrate c) => exec .issueArbitration (actingOn (elapse s 0) { what := .issueArbitration, x := c })
    | some (.rotate g) => exec .ageCapRotation (actingOn (elapse s 0) { what := .ageCapRotation, x := g })
    | some (.item n) => perform exec (elapse s 0) n
    | none => .next (elapse s (match nextDue s with
      | some t => t - s.now
      | none => 1))

end Sys2Proof.Machine
end

