-- ==== Sys2Proof/Machine/Boot.lean ====
section
/-! DEFINITION. The part with its boot behind it and one instruction about to issue (R455; log entry 4). -/
namespace Sys2Proof.Machine

/-- Where the instruction stands: VA, IA and PA alike. -/
def fetchBase : Nat := 0x1000

/-- XRNG12 maps the first 64 KiB at intermediate address 0: VAL, RD, EX and PV (Table 8). -/
def kernelRange : Sparse DWord := [(38, 0x4B)]

/-- Core 0's first worker team alone, fibre 0 in the system kernel, its entry at the start of a rand in slot 0. -/
def soleKernel (s : State) : State :=
  { s with
    power := .up, agenda := []
    uni := { s.uni with
      sreg := s.uni.sreg.put 48 0
      groups := [(0, { team := some 0, live := 1 })]
      ents := [(0, { st := .ready, pc := BitVec.ofNat 57 fetchBase, lanes := 1, boundary := false })]
      slots := [(0, { ent := some 0, issues := 0 })] }
    core := { s.core with
      teams := s.core.teams.put 0 { bound := true, n := 1, groups := [0] }
      banks := s.core.banks.put 0 { held := true, rng := kernelRange, feat := s.cfg.devfeat } }
    mm := { s.mm with
      dies := s.mm.dies.put 0 { s.mm.dies.get 0 with ptroot := 0 }
      sc := s.mm.sc.put (scKey 0 (fetchBase / 256)) default
      granKey := s.mm.granKey.put (fetchBase / 256) 0
      poison := s.mm.poison.put (fetchBase / 256) false } }

/-- Eight bytes at the fetch address: the table's word or words, the first lowest. -/
def placeBytes (m : List Host.Cell) (a : Nat) : List Byte → List Host.Cell
  | [] => m
  | b :: t => placeBytes (Sparse.put m a b) (a + 1) t
def placeWord (s : State) (w : Nat) : State :=
  { s with mm := { s.mm with mem := placeBytes s.mm.mem fetchBase (leBytes 8 w) } }

end Sys2Proof.Machine
end

