-- ==== Sys2Proof/Machine/LaneAlu.lean ====
section
/-! DEFINITION. Lane arithmetic, conversion, comparison, moves and cross-lane instructions (R317 to R340). -/
namespace Sys2Proof.Machine

/-! ## The functions of one lane -/

/-- Bits 63:32 of the signed or unsigned product. -/
def mulHigh (signed : Bool) (a b : Word) : Word :=
  if signed then BitVec.ofInt 32 (a.toInt * b.toInt / (2 ^ 32 : Int)) else BitVec.ofNat 32 (a.toNat * b.toNat / 2 ^ 32)
def shiftLeft32 (a : Word) (n : Nat) : Word := if n ≥ 32 then 0 else a <<< n
def shiftRight32 (a : Word) (n : Nat) : Word := if n ≥ 32 then 0 else a >>> n

/-- The field width of VBFX and VBFI (R321). -/
def fieldWidth (b : Word) : Nat := min (bits b.toNat 13 8) 32
/-- VBFX (R321). -/
def bitExtract (a b : Word) : Word :=
  let w := fieldWidth b
  let f := a.toNat / 2 ^ (b.toNat % 32) % 2 ^ w
  if bit b.toNat 16 && decide (0 < w) && bit f (w - 1) then BitVec.ofNat 32 (f + 2 ^ 32 - 2 ^ w) else BitVec.ofNat 32 f
/-- VBFI (R321). -/
def bitInsert (a b d : Word) : Word :=
  let m : Word := BitVec.ofNat 32 ((2 ^ fieldWidth b - 1) * 2 ^ (b.toNat % 32))
  (d &&& ~~~m) ||| ((a <<< (b.toNat % 32)) &&& m)

/-- FCLASS of the format that imm8[1:0] names (R326). -/
def fclassWord (imm : Nat) (a : Word) : Word :=
  BitVec.ofNat 32 (match imm % 4 with
    | 0 => fClass b32 a.toNat
    | 1 => fClass b16 (a.toNat % 65536)
    | _ => fClass bf16 (a.toNat % 65536))

/-- VPERMB (R339). -/
def permBytes (a b d : Word) : Word :=
  let src := leBytes 4 a.toNat ++ leBytes 4 b.toNat
  BitVec.ofNat 32 (leNat ((leBytes 4 d.toNat).map fun s => if s.getLsbD 7 then 0 else src.getD (s.toNat % 8) 0))

/-! ## VCVT (Tables 124 and 125) -/

def vcvtReads (code : Nat) : Nat :=
  match code with
  | 0x02 | 0x03 | 0x10 | 0x12 | 0x13 | 0x15 => 2
  | 0x08 | 0x09 => 4
  | _ => 1
def vcvtWrites (code : Nat) : Nat :=
  match code with
  | 0x0A | 0x0B => 4
  | 0x11 | 0x13 | 0x14 | 0x15 => 2
  | _ => 1

def vcvtMode (s : State) (rms : Nat) : Rm :=
  match rms with
  | 1 | 6 => .rne
  | 2 | 7 => .rtz
  | 3 => .rup
  | 4 => .rdn
  | _ => curRm s
def vcvtSat (rms : Nat) : Bool := decide (5 ≤ rms)

/-- Integer to narrower integer of w bits, read from a signed or unsigned source; `zero` chooses how the
result is widened again (R305). -/
def narrowInt (sat srcSigned zero : Bool) (w a : Nat) : Word :=
  let v : Int := if srcSigned then sint 32 a else (a : Int)
  let lo : Int := if zero then 0 else -(2 ^ (w - 1) : Nat)
  let hi : Int := if zero then (2 ^ w : Nat) - 1 else (2 ^ (w - 1) : Nat) - 1
  let x := if sat then ofIntN w (clampInt lo hi v) else a % 2 ^ w
  BitVec.ofNat 32 (if zero then x else sext w 32 x)

def packBits (w : Nat) (l : List Nat) : Word :=
  BitVec.ofNat 32 (l.foldr (fun b n => b + 2 ^ w * n) 0)


def vcvtLane (rm : Rm) (sat : Bool) (code : Nat) (src : List Nat) : List Word :=
  let a := src.getD 0 0
  let d := a + src.getD 1 0 * 2 ^ 32
  let cv (f g : Fmt) (b : Nat) : Nat := roundF g rm sat (fDecode f b)
  let word (n : Nat) : List Word := [BitVec.ofNat 32 n]
  match code with
  | 0x00 => word (cv b32 b16 a)
  | 0x01 => word (cv b32 bf16 a)
  | 0x02 => [packBits 16 (src.map (cv b32 b16))]
  | 0x03 => [packBits 16 (src.map (cv b32 bf16))]
  | 0x04 => word (widen b16 b32 (a % 65536))
  | 0x05 => word (widen bf16 b32 (a % 65536))
  | 0x06 => word (widen b16 b32 (a / 65536))
  | 0x07 => word (widen bf16 b32 (a / 65536))
  | 0x08 => [packBits 8 (src.map (cv b32 e4m3))]
  | 0x09 => [packBits 8 (src.map (cv b32 e5m2))]
  | 0x0A => (leBytes 4 a).map fun b => BitVec.ofNat 32 (widen e4m3 b32 b.toNat)
  | 0x0B => (leBytes 4 a).map fun b => BitVec.ofNat 32 (widen e5m2 b32 b.toNat)
  | 0x0C => word (ofIntN 32 (toIntClamp rm (-(2 ^ 31)) (2 ^ 31 - 1) (fDecode b32 a)))
  | 0x0D => word (ofIntN 32 (toIntClamp rm 0 (2 ^ 32 - 1) (fDecode b32 a)))
  | 0x0E => word (roundF b32 rm sat (fvOfInt (sint 32 a)))
  | 0x0F => word (roundF b32 rm sat (fvOfInt a))
  | 0x10 => word (cv b64 b32 d)
  | 0x11 => pairWords (widen b32 b64 a)
  | 0x12 => word (ofIntN 32 (toIntClamp rm (-(2 ^ 31)) (2 ^ 31 - 1) (fDecode b64 d)))
  | 0x13 => pairWords (ofIntN 64 (toIntClamp rm (-(2 ^ 63)) (2 ^ 63 - 1) (fDecode b64 d)))
  | 0x14 => pairWords (roundF b64 .rne false (fvOfInt (sint 32 a)))
  | 0x15 => pairWords (roundF b64 rm sat (fvOfInt (sint 64 d)))
  | 0x16 => [narrowInt sat true false 16 a]
  | 0x17 => [narrowInt sat true false 8 a]
  | 0x18 => [narrowInt sat false true 16 a]
  | 0x19 => [narrowInt sat false true 8 a]
  | _ => [narrowInt sat true true 8 a]

/-! ## Predicates and other lanes -/

/-- PSET in each active lane (R332). -/
def psetLanes (s : State) (r imm : Nat) : List Nat → State
  | [] => s
  | l :: t =>
    let fk := fibKey (curGk s) l
    let pd := imm / 2048 % 8
    let b := bit (rdV s l r).toNat (imm % 32) != bit imm 8
    psetLanes (s.setPred fk pd (psetOp (imm / 512 % 4) ((s.preds fk).getLsbD pd) b)) r imm t

/-- Half of a uniform register for VMOV (R334). -/
def uniformHalf (s : State) (imm : Nat) : Word :=
  let v := rdS s (imm % 64)
  if bit imm 6 then hi32 v else lo32 v

/-- R336: a lane held by the entry whose fibre is live. -/
def readable (s : State) (j : Nat) : Bool := (heldLanes s).getLsbD j
def crossRead (s : State) (j r : Nat) : Word := if readable s j then rdV s j r else 0
def readSrc (s : State) (j r : Nat) (trap : Bool) : List Src := if readable s j then [⟨j, r, trap⟩] else []
/-- The lane that VSHUF names, when bits 31:6 are 0 (R337). -/
def shufLane (s : State) (l r : Nat) : Option Nat :=
  let b := (rdV s l r).toNat
  if b < 64 then some b else none

/-- Table 127, VLANE. -/
def laneSelect (s : State) (sel : Nat) (act : List Nat) (l : Nat) : Word :=
  let lanes := (curEntry s).lanes
  match sel with
  | 0 => BitVec.ofNat 32 l
  | 1 => lo32 lanes
  | 2 => hi32 lanes
  | 3 => lo32 (maskOf act)
  | 4 => hi32 (maskOf act)
  | 5 => BitVec.ofNat 32 act.length
  | _ => BitVec.ofNat 32 (act.filter (fun j => j < l)).length

/-- Table 127, VFIBRE. -/
def fibreSelect (s : State) (sel : Nat) (l : Nat) : Word :=
  let g := curGroup s
  match sel with
  | 0 => BitVec.ofNat 32 (g.tgrp * 64 + l)
  | 1 => BitVec.ofNat 32 g.tgrp
  | 2 => BitVec.ofNat 32 (curTeam s).n
  | 3 => (s.preds (fibKey (curGk s) l)).zeroExtend 32
  | 4 => BitVec.ofNat 32 (s.cur.core % 48)
  | 5 => BitVec.ofNat 32 (dieOf s.cur.core)
  | _ => BitVec.ofNat 32 (curTeam s).window

/-! ## Integer instructions (Table 120) -/
def execVadd (o : LR) (s : State) : Host.Outcome State Fault Refusal :=
  .next (lrOp (.vadd o) o (fun a b => a + b) s)
def execVaddi (o : LI) (s : State) : Host.Outcome State Fault Refusal :=
  .next (liOp (.vaddi o) o (fun a => a + o.imm.signExtend 32) s)
def execVsub (o : LR) (s : State) : Host.Outcome State Fault Refusal :=
  .next (lrOp (.vsub o) o (fun a b => a - b) s)
def execVmul (o : LR) (s : State) : Host.Outcome State Fault Refusal :=
  .next (lrOp (.vmul o) o (fun a b => a * b) s)
def execVmulh (o : LR) (s : State) : Host.Outcome State Fault Refusal :=
  .next (lrOp (.vmulh o) o (fun a b => mulHigh true a b) s)
def execVmulhz (o : LR) (s : State) : Host.Outcome State Fault Refusal :=
  .next (lrOp (.vmulhz o) o (fun a b => mulHigh false a b) s)
def execVmad (o : LR) (s : State) : Host.Outcome State Fault Refusal :=
  .next (lrOp3 (.vmad o) o (fun a b x => a * b + x) s)
def execVand (o : LR) (s : State) : Host.Outcome State Fault Refusal :=
  .next (lrOp (.vand o) o (fun a b => a &&& b) s)
def execVandi (o : LI) (s : State) : Host.Outcome State Fault Refusal :=
  .next (liOp (.vandi o) o (fun a => a &&& o.imm.signExtend 32) s)
def execVor (o : LR) (s : State) : Host.Outcome State Fault Refusal :=
  .next (lrOp (.vor o) o (fun a b => a ||| b) s)
def execVori (o : LI) (s : State) : Host.Outcome State Fault Refusal :=
  .next (liOp (.vori o) o (fun a => a ||| o.imm.signExtend 32) s)
def execVxor (o : LR) (s : State) : Host.Outcome State Fault Refusal :=
  .next (lrOp (.vxor o) o (fun a b => a ^^^ b) s)
def execVxori (o : LI) (s : State) : Host.Outcome State Fault Refusal :=
  .next (liOp (.vxori o) o (fun a => a ^^^ o.imm.signExtend 32) s)
def execVshl (o : LR) (s : State) : Host.Outcome State Fault Refusal :=
  .next (lrOp (.vshl o) o (fun a b => shiftLeft32 a (b.toNat % 256)) s)
def execVshli (o : LI) (s : State) : Host.Outcome State Fault Refusal :=
  .next (liOp (.vshli o) o (fun a => shiftLeft32 a (o.imm.toNat % 32)) s)
def execVshr (o : LR) (s : State) : Host.Outcome State Fault Refusal :=
  .next (lrOp (.vshr o) o (fun a b => shiftRight32 a (b.toNat % 256)) s)
def execVshri (o : LI) (s : State) : Host.Outcome State Fault Refusal :=
  .next (liOp (.vshri o) o (fun a => shiftRight32 a (o.imm.toNat % 32)) s)
def execVsar (o : LR) (s : State) : Host.Outcome State Fault Refusal :=
  .next (lrOp (.vsar o) o (fun a b => a.sshiftRight (min (b.toNat % 256) 31)) s)
def execVsari (o : LI) (s : State) : Host.Outcome State Fault Refusal :=
  .next (liOp (.vsari o) o (fun a => a.sshiftRight (o.imm.toNat % 32)) s)
def execVmin (o : LR) (s : State) : Host.Outcome State Fault Refusal :=
  .next (lrOp (.vmin o) o (fun a b => if a.toInt ≤ b.toInt then a else b) s)
def execVmax (o : LR) (s : State) : Host.Outcome State Fault Refusal :=
  .next (lrOp (.vmax o) o (fun a b => if a.toInt ≤ b.toInt then b else a) s)
def execVminz (o : LR) (s : State) : Host.Outcome State Fault Refusal :=
  .next (lrOp (.vminz o) o (fun a b => if a.toNat ≤ b.toNat then a else b) s)
def execVmaxz (o : LR) (s : State) : Host.Outcome State Fault Refusal :=
  .next (lrOp (.vmaxz o) o (fun a b => if a.toNat ≤ b.toNat then b else a) s)
def execVabsd (o : LR) (s : State) : Host.Outcome State Fault Refusal :=
  .next (lrOp (.vabsd o) o (fun a b => if a.toInt ≤ b.toInt then b - a else a - b) s)
def execVclz (o : LI) (s : State) : Host.Outcome State Fault Refusal :=
  .next (liOp (.vclz o) o (fun a => BitVec.ofNat 32 (clz a.toNat 32)) s)
def execVpopc (o : LI) (s : State) : Host.Outcome State Fault Refusal :=
  .next (liOp (.vpopc o) o (fun a => BitVec.ofNat 32 (popc a.toNat 32)) s)
def execVbfx (o : LR) (s : State) : Host.Outcome State Fault Refusal :=
  .next (lrOp (.vbfx o) o (fun a b => bitExtract a b) s)
def execVbfi (o : LR) (s : State) : Host.Outcome State Fault Refusal :=
  .next (lrOp3 (.vbfi o) o (fun a b x => bitInsert a b x) s)
/-! ## Binary32 arithmetic (R322 to R326) -/
def execFadd (o : LR) (s : State) : Host.Outcome State Fault Refusal :=
  .next (lrOp (.fadd o) o (fp2 (fAdd b32 (curRm s))) s)
def execFsub (o : LR) (s : State) : Host.Outcome State Fault Refusal :=
  .next (lrOp (.fsub o) o (fp2 (fSub b32 (curRm s))) s)
def execFmul (o : LR) (s : State) : Host.Outcome State Fault Refusal :=
  .next (lrOp (.fmul o) o (fp2 (fMul b32 (curRm s))) s)
def execFfma (o : LR) (s : State) : Host.Outcome State Fault Refusal :=
  .next (lrOp3 (.ffma o) o (fp3 (fFma b32 (curRm s))) s)
def execFmin (o : LR) (s : State) : Host.Outcome State Fault Refusal :=
  .next (lrOp (.fmin o) o (fp2 (fMin b32)) s)
def execFmax (o : LR) (s : State) : Host.Outcome State Fault Refusal :=
  .next (lrOp (.fmax o) o (fp2 (fMax b32)) s)
def execFabs (o : LI) (s : State) : Host.Outcome State Fault Refusal :=
  .next (liOp (.fabs o) o (fun a => a &&& 0x7FFFFFFF) s)
def execFneg (o : LI) (s : State) : Host.Outcome State Fault Refusal :=
  .next (liOp (.fneg o) o (fun a => a ^^^ 0x80000000) s)
def execFrcp (o : LI) (s : State) : Host.Outcome State Fault Refusal :=
  .next (liOp (.frcp o) o (fp1 (fRcp (curRm s))) s)
def execFrsq (o : LI) (s : State) : Host.Outcome State Fault Refusal :=
  .next (liOp (.frsq o) o (fp1 fRsq) s)
def execFsqrt (o : LI) (s : State) : Host.Outcome State Fault Refusal :=
  .next (liOp (.fsqrt o) o (fp1 (fSqrt (curRm s))) s)
def execFexp2 (o : LI) (s : State) : Host.Outcome State Fault Refusal :=
  .next (liOp (.fexp2 o) o (fp1 fExp2) s)
def execFlog2 (o : LI) (s : State) : Host.Outcome State Fault Refusal :=
  .next (liOp (.flog2 o) o (fp1 fLog2) s)
def execFsin (o : LI) (s : State) : Host.Outcome State Fault Refusal :=
  .next (liOp (.fsin o) o (fp1 fSin) s)
def execFcos (o : LI) (s : State) : Host.Outcome State Fault Refusal :=
  .next (liOp (.fcos o) o (fp1 fCos) s)
def execFclass (o : LI) (s : State) : Host.Outcome State Fault Refusal :=
  .next (liOp (.fclass o) o (fun a => fclassWord o.imm.toNat a) s)
/-! ## Binary64 and packed 16-bit arithmetic (R327, R328) -/
def execDadd (o : LR) (s : State) : Host.Outcome State Fault Refusal :=
  .next (lrPair (.dadd o) o false (fun a b _ => fAdd b64 (curRm s) a b) s)
def execDsub (o : LR) (s : State) : Host.Outcome State Fault Refusal :=
  .next (lrPair (.dsub o) o false (fun a b _ => fSub b64 (curRm s) a b) s)
def execDmul (o : LR) (s : State) : Host.Outcome State Fault Refusal :=
  .next (lrPair (.dmul o) o false (fun a b _ => fMul b64 (curRm s) a b) s)
def execDfma (o : LR) (s : State) : Host.Outcome State Fault Refusal :=
  .next (lrPair (.dfma o) o true (fFma b64 (curRm s)) s)
def execDmin (o : LR) (s : State) : Host.Outcome State Fault Refusal :=
  .next (lrPair (.dmin o) o false (fun a b _ => fMin b64 a b) s)
def execDmax (o : LR) (s : State) : Host.Outcome State Fault Refusal :=
  .next (lrPair (.dmax o) o false (fun a b _ => fMax b64 a b) s)
def execDcmp (o : LR) (s : State) : Host.Outcome State Fault Refusal :=
  .next (laneCompute s (.dcmp o) o.p [⟨o.a.toNat, 2, o.fa⟩, ⟨o.v.toNat, 2, o.fb⟩] (fun _ => []) o.d.toNat 1
    fun l => [fcmpWord b64 (rdPair s l o.a.toNat) (rdPair s l o.v.toNat)])
def execHadd2 (o : LR) (s : State) : Host.Outcome State Fault Refusal :=
  .next (lrOp (.hadd2 o) o (packed2 (fAdd b16 (curRm s))) s)
def execHmul2 (o : LR) (s : State) : Host.Outcome State Fault Refusal :=
  .next (lrOp (.hmul2 o) o (packed2 (fMul b16 (curRm s))) s)
def execHfma2 (o : LR) (s : State) : Host.Outcome State Fault Refusal :=
  .next (lrOp3 (.hfma2 o) o (packed3 (fFma b16 (curRm s))) s)
def execHmax2 (o : LR) (s : State) : Host.Outcome State Fault Refusal :=
  .next (lrOp (.hmax2 o) o (packed2 (fMax b16)) s)
def execBadd2 (o : LR) (s : State) : Host.Outcome State Fault Refusal :=
  .next (lrOp (.badd2 o) o (packed2 (fAdd bf16 (curRm s))) s)
def execBmul2 (o : LR) (s : State) : Host.Outcome State Fault Refusal :=
  .next (lrOp (.bmul2 o) o (packed2 (fMul bf16 (curRm s))) s)
def execBfma2 (o : LR) (s : State) : Host.Outcome State Fault Refusal :=
  .next (lrOp3 (.bfma2 o) o (packed3 (fFma bf16 (curRm s))) s)
def execBmax2 (o : LR) (s : State) : Host.Outcome State Fault Refusal :=
  .next (lrOp (.bmax2 o) o (packed2 (fMax bf16)) s)
/-! ## Conversion (R329, R330) -/
def execVcvt (o : LI) (s : State) : Host.Outcome State Fault Refusal :=
  .next (laneCompute s (.vcvt o) o.p [⟨o.a.toNat, vcvtReads (o.imm.toNat / 8), false⟩] (fun _ => []) o.d.toNat
    (vcvtWrites (o.imm.toNat / 8))
    fun l => vcvtLane (vcvtMode s (o.imm.toNat % 8)) (vcvtSat (o.imm.toNat % 8)) (o.imm.toNat / 8)
      ((List.range (vcvtReads (o.imm.toNat / 8))).map fun i => (rdV s l (o.a.toNat + i)).toNat))
/-! ## Compare, predicate, select and moves (R331 to R335) -/
def execVcmp (o : LR) (s : State) : Host.Outcome State Fault Refusal :=
  .next (lrOp (.vcmp o) o (vcmpWord) s)
def execFcmp (o : LR) (s : State) : Host.Outcome State Fault Refusal :=
  .next (lrOp (.fcmp o) o (fun a b => fcmpWord b32 a.toNat b.toNat) s)
def execPset (o : LW) (s : State) : Host.Outcome State Fault Refusal :=
  .next (laneWord s (.pset o) o.p fun lanes =>
    withSources s (fieldSrcs lanes [⟨o.d.toNat, 1, false⟩]) []
      (advance (psetLanes s o.d.toNat o.imm.toNat lanes)))
def execVsel (o : LR) (s : State) : Host.Outcome State Fault Refusal :=
  .next (lrOp3 (.vsel o) o (fun a b x => (a &&& x) ||| (b &&& ~~~x)) s)
def execVmov (o : LI) (s : State) : Host.Outcome State Fault Refusal :=
  .next (liOp (.vmov o) o (fun a => a) s)
def execVmovUniform (o : LI) (s : State) : Host.Outcome State Fault Refusal :=
  .next (laneWord s (.vmovUniform o) o.p fun lanes =>
    withUniform s [o.imm.toNat % 64]
      (withSources s [] (fieldSrcs lanes [⟨o.d.toNat, 1, false⟩])
        (advance (writeLanes s o.d.toNat (lanes.map fun l => (l, [uniformHalf s o.imm.toNat]))))))
def execVmovi (o : LW) (s : State) : Host.Outcome State Fault Refusal :=
  .next (lwOp (.vmovi o) o (fun _ => o.imm.signExtend 32) s)
/-! ## Cross-lane instructions (R336 to R340) -/
def execVbcast (o : LI) (s : State) : Host.Outcome State Fault Refusal :=
  .next (laneCompute s (.vbcast o) o.p [] (fun _ => readSrc s (o.imm.toNat % 64) o.a.toNat false) o.d.toNat 1
    fun _ => [crossRead s (o.imm.toNat % 64) o.a.toNat])
def execVshuf (o : LR) (s : State) : Host.Outcome State Fault Refusal :=
  .next (laneCompute s (.vshuf o) o.p [⟨o.v.toNat, 1, o.fb⟩]
    (fun lanes => lanes.flatMap fun l => match shufLane s l o.v.toNat with
      | some j => readSrc s j o.a.toNat o.fa
      | none => []) o.d.toNat 1
    fun l => [match shufLane s l o.v.toNat with
      | some j => crossRead s j o.a.toNat
      | none => 0])
def execVpermb (o : LR) (s : State) : Host.Outcome State Fault Refusal :=
  .next (lrOp3 (.vpermb o) o (permBytes) s)
def execVlane (o : LW) (s : State) : Host.Outcome State Fault Refusal :=
  .next (lwOp (.vlane o) o (fun l => laneSelect s o.imm.toNat (activeLanes s o.p.toNat) l) s)
def execVfibre (o : LW) (s : State) : Host.Outcome State Fault Refusal :=
  .next (lwOp (.vfibre o) o (fun l => fibreSelect s o.imm.toNat l) s)

end Sys2Proof.Machine
end

