-- ==== Sys2Proof/Machine/Dispatch.lean ====
section
/-! DEFINITION. One arm for each step of the part: the meaning that it calls. -/
namespace Sys2Proof.Machine

def exec (i : Instr) (s : State) : Host.Outcome State Fault Refusal :=
  match i with
  | .vadd o => Sys2Proof.Machine.execVadd o s
  | .vaddi o => Sys2Proof.Machine.execVaddi o s
  | .vsub o => Sys2Proof.Machine.execVsub o s
  | .vmul o => Sys2Proof.Machine.execVmul o s
  | .vmulh o => Sys2Proof.Machine.execVmulh o s
  | .vmulhz o => Sys2Proof.Machine.execVmulhz o s
  | .vmad o => Sys2Proof.Machine.execVmad o s
  | .vand o => Sys2Proof.Machine.execVand o s
  | .vandi o => Sys2Proof.Machine.execVandi o s
  | .vor o => Sys2Proof.Machine.execVor o s
  | .vori o => Sys2Proof.Machine.execVori o s
  | .vxor o => Sys2Proof.Machine.execVxor o s
  | .vxori o => Sys2Proof.Machine.execVxori o s
  | .vshl o => Sys2Proof.Machine.execVshl o s
  | .vshli o => Sys2Proof.Machine.execVshli o s
  | .vshr o => Sys2Proof.Machine.execVshr o s
  | .vshri o => Sys2Proof.Machine.execVshri o s
  | .vsar o => Sys2Proof.Machine.execVsar o s
  | .vsari o => Sys2Proof.Machine.execVsari o s
  | .vmin o => Sys2Proof.Machine.execVmin o s
  | .vmax o => Sys2Proof.Machine.execVmax o s
  | .vminz o => Sys2Proof.Machine.execVminz o s
  | .vmaxz o => Sys2Proof.Machine.execVmaxz o s
  | .vabsd o => Sys2Proof.Machine.execVabsd o s
  | .vclz o => Sys2Proof.Machine.execVclz o s
  | .vpopc o => Sys2Proof.Machine.execVpopc o s
  | .vbfx o => Sys2Proof.Machine.execVbfx o s
  | .vbfi o => Sys2Proof.Machine.execVbfi o s
  | .fadd o => Sys2Proof.Machine.execFadd o s
  | .fsub o => Sys2Proof.Machine.execFsub o s
  | .fmul o => Sys2Proof.Machine.execFmul o s
  | .ffma o => Sys2Proof.Machine.execFfma o s
  | .fmin o => Sys2Proof.Machine.execFmin o s
  | .fmax o => Sys2Proof.Machine.execFmax o s
  | .fabs o => Sys2Proof.Machine.execFabs o s
  | .fneg o => Sys2Proof.Machine.execFneg o s
  | .frcp o => Sys2Proof.Machine.execFrcp o s
  | .frsq o => Sys2Proof.Machine.execFrsq o s
  | .fsqrt o => Sys2Proof.Machine.execFsqrt o s
  | .fexp2 o => Sys2Proof.Machine.execFexp2 o s
  | .flog2 o => Sys2Proof.Machine.execFlog2 o s
  | .fsin o => Sys2Proof.Machine.execFsin o s
  | .fcos o => Sys2Proof.Machine.execFcos o s
  | .fclass o => Sys2Proof.Machine.execFclass o s
  | .dadd o => Sys2Proof.Machine.execDadd o s
  | .dsub o => Sys2Proof.Machine.execDsub o s
  | .dmul o => Sys2Proof.Machine.execDmul o s
  | .dfma o => Sys2Proof.Machine.execDfma o s
  | .dmin o => Sys2Proof.Machine.execDmin o s
  | .dmax o => Sys2Proof.Machine.execDmax o s
  | .dcmp o => Sys2Proof.Machine.execDcmp o s
  | .hadd2 o => Sys2Proof.Machine.execHadd2 o s
  | .hmul2 o => Sys2Proof.Machine.execHmul2 o s
  | .hfma2 o => Sys2Proof.Machine.execHfma2 o s
  | .hmax2 o => Sys2Proof.Machine.execHmax2 o s
  | .badd2 o => Sys2Proof.Machine.execBadd2 o s
  | .bmul2 o => Sys2Proof.Machine.execBmul2 o s
  | .bfma2 o => Sys2Proof.Machine.execBfma2 o s
  | .bmax2 o => Sys2Proof.Machine.execBmax2 o s
  | .vcmp o => Sys2Proof.Machine.execVcmp o s
  | .fcmp o => Sys2Proof.Machine.execFcmp o s
  | .pset o => Sys2Proof.Machine.execPset o s
  | .vsel o => Sys2Proof.Machine.execVsel o s
  | .vcvt o => Sys2Proof.Machine.execVcvt o s
  | .vmov o => Sys2Proof.Machine.execVmov o s
  | .vmovUniform o => Sys2Proof.Machine.execVmovUniform o s
  | .vmovi o => Sys2Proof.Machine.execVmovi o s
  | .vbcast o => Sys2Proof.Machine.execVbcast o s
  | .vshuf o => Sys2Proof.Machine.execVshuf o s
  | .vpermb o => Sys2Proof.Machine.execVpermb o s
  | .vlane o => Sys2Proof.Machine.execVlane o s
  | .vfibre o => Sys2Proof.Machine.execVfibre o s
  | .kvx o => Sys2Proof.Machine.execKvx o s
  | .kvxr o => Sys2Proof.Machine.execKvxr o s
  | .vldN o => Sys2Proof.Machine.execVldN o s
  | .vldNd o x => Sys2Proof.Machine.execVldNd o x s
  | .vldW o => Sys2Proof.Machine.execVldW o s
  | .vldWd o x => Sys2Proof.Machine.execVldWd o x s
  | .vstN o => Sys2Proof.Machine.execVstN o s
  | .vstNd o x => Sys2Proof.Machine.execVstNd o x s
  | .vstW o => Sys2Proof.Machine.execVstW o s
  | .vstWd o x => Sys2Proof.Machine.execVstWd o x s
  | .vldsN o => Sys2Proof.Machine.execVldsN o s
  | .vldsNd o x => Sys2Proof.Machine.execVldsNd o x s
  | .vldsW o => Sys2Proof.Machine.execVldsW o s
  | .vldsWd o x => Sys2Proof.Machine.execVldsWd o x s
  | .vstsN o => Sys2Proof.Machine.execVstsN o s
  | .vstsNd o x => Sys2Proof.Machine.execVstsNd o x s
  | .vstsW o => Sys2Proof.Machine.execVstsW o s
  | .vstsWd o x => Sys2Proof.Machine.execVstsWd o x s
  | .vldkN o => Sys2Proof.Machine.execVldkN o s
  | .vldkNd o x => Sys2Proof.Machine.execVldkNd o x s
  | .vldkW o => Sys2Proof.Machine.execVldkW o s
  | .vldkWd o x => Sys2Proof.Machine.execVldkWd o x s
  | .vpref o => Sys2Proof.Machine.execVpref o s
  | .vprefD o x => Sys2Proof.Machine.execVprefD o x s
  | .vatadd o => Sys2Proof.Machine.execVatadd o s
  | .vataddD o x => Sys2Proof.Machine.execVataddD o x s
  | .vatmin o => Sys2Proof.Machine.execVatmin o s
  | .vatminD o x => Sys2Proof.Machine.execVatminD o x s
  | .vatmax o => Sys2Proof.Machine.execVatmax o s
  | .vatmaxD o x => Sys2Proof.Machine.execVatmaxD o x s
  | .vatand o => Sys2Proof.Machine.execVatand o s
  | .vatandD o x => Sys2Proof.Machine.execVatandD o x s
  | .vator o => Sys2Proof.Machine.execVator o s
  | .vatorD o x => Sys2Proof.Machine.execVatorD o x s
  | .vatxor o => Sys2Proof.Machine.execVatxor o s
  | .vatxorD o x => Sys2Proof.Machine.execVatxorD o x s
  | .vatxch o => Sys2Proof.Machine.execVatxch o s
  | .vatxchD o x => Sys2Proof.Machine.execVatxchD o x s
  | .vatcas o => Sys2Proof.Machine.execVatcas o s
  | .vatcasD o x => Sys2Proof.Machine.execVatcasD o x s
  | .nop o => Sys2Proof.Machine.execNop o s
  | .sadd o => Sys2Proof.Machine.execSadd o s
  | .saddi o => Sys2Proof.Machine.execSaddi o s
  | .ssub o => Sys2Proof.Machine.execSsub o s
  | .smul o => Sys2Proof.Machine.execSmul o s
  | .sand o => Sys2Proof.Machine.execSand o s
  | .sor o => Sys2Proof.Machine.execSor o s
  | .sxor o => Sys2Proof.Machine.execSxor o s
  | .sshl o => Sys2Proof.Machine.execSshl o s
  | .sshr o => Sys2Proof.Machine.execSshr o s
  | .ssar o => Sys2Proof.Machine.execSsar o s
  | .smin o => Sys2Proof.Machine.execSmin o s
  | .smax o => Sys2Proof.Machine.execSmax o s
  | .smovi o => Sys2Proof.Machine.execSmovi o s
  | .smovhi o => Sys2Proof.Machine.execSmovhi o s
  | .scmp o => Sys2Proof.Machine.execScmp o s
  | .ssel o => Sys2Proof.Machine.execSsel o s
  | .spopc o => Sys2Proof.Machine.execSpopc o s
  | .sclz o => Sys2Proof.Machine.execSclz o s
  | .sreadl o => Sys2Proof.Machine.execSreadl o s
  | .svote o => Sys2Proof.Machine.execSvote o s
  | .sld o => Sys2Proof.Machine.execSld o s
  | .sst o => Sys2Proof.Machine.execSst o s
  | .satom o => Sys2Proof.Machine.execSatom o s
  | .br o => Sys2Proof.Machine.execBr o s
  | .brx o => Sys2Proof.Machine.execBrx o s
  | .call o => Sys2Proof.Machine.execCall o s
  | .callx o => Sys2Proof.Machine.execCallx o s
  | .ret o => Sys2Proof.Machine.execRet o s
  | .fspawn o => Sys2Proof.Machine.execFspawn o s
  | .fend o => Sys2Proof.Machine.execFend o s
  | .setwin o => Sys2Proof.Machine.execSetwin o s
  | .rep o => Sys2Proof.Machine.execRep o s
  | .yield o => Sys2Proof.Machine.execYield o s
  | .bar o => Sys2Proof.Machine.execBar o s
  | .trap o => Sys2Proof.Machine.execTrap o s
  | .eret o => Sys2Proof.Machine.execEret o s
  | .srd o => Sys2Proof.Machine.execSrd o s
  | .swr o => Sys2Proof.Machine.execSwr o s
  | .fence o => Sys2Proof.Machine.execFence o s
  | .llock o => Sys2Proof.Machine.execLlock o s
  | .lfree o => Sys2Proof.Machine.execLfree o s
  | .cpy o => Sys2Proof.Machine.execCpy o s
  | .cpyc o => Sys2Proof.Machine.execCpyc o s
  | .cpym o => Sys2Proof.Machine.execCpym o s
  | .waitc o => Sys2Proof.Machine.execWaitc o s
  | .bufq o => Sys2Proof.Machine.execBufq o s
  | .bufsetCfg o => Sys2Proof.Machine.execBufsetCfg o s
  | .bufsetRel o => Sys2Proof.Machine.execBufsetRel o s
  | .sbinit o => Sys2Proof.Machine.execSbinit o s
  | .sbexpect o => Sys2Proof.Machine.execSbexpect o s
  | .sbarrive o => Sys2Proof.Machine.execSbarrive o s
  | .sbwait o => Sys2Proof.Machine.execSbwait o s
  | .ufset o => Sys2Proof.Machine.execUfset o s
  | .mmaBf16 o => Sys2Proof.Machine.execMmaBf16 o s
  | .mmaFp16 o => Sys2Proof.Machine.execMmaFp16 o s
  | .mmaE4m3 o => Sys2Proof.Machine.execMmaE4m3 o s
  | .mmaE5m2 o => Sys2Proof.Machine.execMmaE5m2 o s
  | .mmaQ4 o => Sys2Proof.Machine.execMmaQ4 o s
  | .mmaI8 o => Sys2Proof.Machine.execMmaI8 o s
  | .mmaI4 o => Sys2Proof.Machine.execMmaI4 o s
  | .accz o => Sys2Proof.Machine.execAccz o s
  | .accld o => Sys2Proof.Machine.execAccld o s
  | .accst o => Sys2Proof.Machine.execAccst o s
  | .accred o => Sys2Proof.Machine.execAccred o s
  | .evsig o => Sys2Proof.Machine.execEvsig o s
  | .evwait o => Sys2Proof.Machine.execEvwait o s
  | .evpoll o => Sys2Proof.Machine.execEvpoll o s
  | .futres o => Sys2Proof.Machine.execFutres o s
  | .futreg o => Sys2Proof.Machine.execFutreg o s
  | .futget o => Sys2Proof.Machine.execFutget o s
  | .nodeput o => Sys2Proof.Machine.execNodeput o s
  | .opsub o => Sys2Proof.Machine.execOpsub o s
  | .jobend o => Sys2Proof.Machine.execJobend o s
  | .seqapp o => Sys2Proof.Machine.execSeqapp o s
  | .seqfork o => Sys2Proof.Machine.execSeqfork o s
  | .spantag o => Sys2Proof.Machine.execSpantag o s
  | .spanret o => Sys2Proof.Machine.execSpanret o s
  | .attq o => Sys2Proof.Machine.execAttq o s
  | .pmsel o => Sys2Proof.Machine.execPmsel o s
  | .replay o => Sys2Proof.Machine.execReplay o s
  | .repRepetition => Sys2Proof.Machine.execRepRepetition s
  | .undefinedOpcode w => Sys2Proof.Machine.execUndefinedOpcode w s
  | .issueArbitration => Sys2Proof.Machine.execIssueArbitration s
  | .ageCapRotation => Sys2Proof.Machine.execAgeCapRotation s
  | .entryWake => Sys2Proof.Machine.execEntryWake s
  | .loadReturn => Sys2Proof.Machine.execLoadReturn s
  | .notResidentResponse => Sys2Proof.Machine.execNotResidentResponse s
  | .trapDelivery => Sys2Proof.Machine.execTrapDelivery s
  | .emulationNest => Sys2Proof.Machine.execEmulationNest s
  | .requestAtNearSlice => Sys2Proof.Machine.execRequestAtNearSlice s
  | .requestAtHomeSlice => Sys2Proof.Machine.execRequestAtHomeSlice s
  | .heldRequestRetry => Sys2Proof.Machine.execHeldRequestRetry s
  | .engineResidencyTimeout => Sys2Proof.Machine.execEngineResidencyTimeout s
  | .collapseInvalidate => Sys2Proof.Machine.execCollapseInvalidate s
  | .collapseAck => Sys2Proof.Machine.execCollapseAck s
  | .ptinvGo => Sys2Proof.Machine.execPtinvGo s
  | .ptinvDone => Sys2Proof.Machine.execPtinvDone s
  | .versionSpillTimeout => Sys2Proof.Machine.execVersionSpillTimeout s
  | .sccarveWrite => Sys2Proof.Machine.execSccarveWrite s
  | .sccarveDone => Sys2Proof.Machine.execSccarveDone s
  | .lksweepGo => Sys2Proof.Machine.execLksweepGo s
  | .lksweepDone => Sys2Proof.Machine.execLksweepDone s
  | .keyInstallPrivate => Sys2Proof.Machine.execKeyInstallPrivate s
  | .keyInstallShared => Sys2Proof.Machine.execKeyInstallShared s
  | .keyRetire => Sys2Proof.Machine.execKeyRetire s
  | .keyRetireComplete => Sys2Proof.Machine.execKeyRetireComplete s
  | .keyMakeShared => Sys2Proof.Machine.execKeyMakeShared s
  | .keyMakePrivate => Sys2Proof.Machine.execKeyMakePrivate s
  | .keyUndefinedOp => Sys2Proof.Machine.execKeyUndefinedOp s
  | .softErrorDetected loc => Sys2Proof.Machine.execSoftErrorDetected loc s
  | .clockedItemArrive => Sys2Proof.Machine.execClockedItemArrive s
  | .clockedItemApply => Sys2Proof.Machine.execClockedItemApply s
  | .remoteReadServe => Sys2Proof.Machine.execRemoteReadServe s
  | .readResponseDeliver => Sys2Proof.Machine.execReadResponseDeliver s
  | .transferStart => Sys2Proof.Machine.execTransferStart s
  | .copyRunDeliver => Sys2Proof.Machine.execCopyRunDeliver s
  | .chainRecordRead => Sys2Proof.Machine.execChainRecordRead s
  | .pickerPermitGrant => Sys2Proof.Machine.execPickerPermitGrant s
  | .pickerPermitTimeout => Sys2Proof.Machine.execPickerPermitTimeout s
  | .pickerRunWrite => Sys2Proof.Machine.execPickerRunWrite s
  | .handleReaderFinish => Sys2Proof.Machine.execHandleReaderFinish s
  | .barrierWatchdogTimeout => Sys2Proof.Machine.execBarrierWatchdogTimeout s
  | .arrayEntryStart => Sys2Proof.Machine.execArrayEntryStart s
  | .arrayEntryComplete => Sys2Proof.Machine.execArrayEntryComplete s
  | .sequenceOpApply => Sys2Proof.Machine.execSequenceOpApply s
  | .attqAdmit => Sys2Proof.Machine.execAttqAdmit s
  | .sauPartialDone => Sys2Proof.Machine.execSauPartialDone s
  | .attqResultLand => Sys2Proof.Machine.execAttqResultLand s
  | .collectiveContribution => Sys2Proof.Machine.execCollectiveContribution s
  | .collectiveResultWritten => Sys2Proof.Machine.execCollectiveResultWritten s
  | .collectiveLimitExpire => Sys2Proof.Machine.execCollectiveLimitExpire s
  | .streamRecordRead => Sys2Proof.Machine.execStreamRecordRead s
  | .streamFlow => Sys2Proof.Machine.execStreamFlow s
  | .recordDecode => Sys2Proof.Machine.execRecordDecode s
  | .streamHoldEnd => Sys2Proof.Machine.execStreamHoldEnd s
  | .oNop => Sys2Proof.Machine.execONop s
  | .oRun => Sys2Proof.Machine.execORun s
  | .oGemm => Sys2Proof.Machine.execOGemm s
  | .oAttn => Sys2Proof.Machine.execOAttn s
  | .oCopy => Sys2Proof.Machine.execOCopy s
  | .oColl => Sys2Proof.Machine.execOColl s
  | .oSignal => Sys2Proof.Machine.execOSignal s
  | .oWait => Sys2Proof.Machine.execOWait s
  | .oFence => Sys2Proof.Machine.execOFence s
  | .oSeq => Sys2Proof.Machine.execOSeq s
  | .oNode => Sys2Proof.Machine.execONode s
  | .oFeed => Sys2Proof.Machine.execOFeed s
  | .oPrio => Sys2Proof.Machine.execOPrio s
  | .oCtx => Sys2Proof.Machine.execOCtx s
  | .oRegen => Sys2Proof.Machine.execORegen s
  | .oEnd => Sys2Proof.Machine.execOEnd s
  | .operatorCodeUndefined => Sys2Proof.Machine.execOperatorCodeUndefined s
  | .jobEligible => Sys2Proof.Machine.execJobEligible s
  | .eventArm => Sys2Proof.Machine.execEventArm s
  | .eventSignal => Sys2Proof.Machine.execEventSignal s
  | .eventFutreg => Sys2Proof.Machine.execEventFutreg s
  | .eventFault => Sys2Proof.Machine.execEventFault s
  | .eventWait => Sys2Proof.Machine.execEventWait s
  | .remoteWatchAnswer => Sys2Proof.Machine.execRemoteWatchAnswer s
  | .queuePushPacket handle recs => Sys2Proof.Machine.execQueuePushPacket handle recs s
  | .queueReadmit => Sys2Proof.Machine.execQueueReadmit s
  | .punnetDeposit => Sys2Proof.Machine.execPunnetDeposit s
  | .punnetTimerExpire => Sys2Proof.Machine.execPunnetTimerExpire s
  | .mailboxDeliver => Sys2Proof.Machine.execMailboxDeliver s
  | .workerTakeJob => Sys2Proof.Machine.execWorkerTakeJob s
  | .parentRetire => Sys2Proof.Machine.execParentRetire s
  | .completionBacklogDrain => Sys2Proof.Machine.execCompletionBacklogDrain s
  | .msixTimeout => Sys2Proof.Machine.execMsixTimeout s
  | .preemptPriorityTrigger => Sys2Proof.Machine.execPreemptPriorityTrigger s
  | .preemptTimesliceTrigger => Sys2Proof.Machine.execPreemptTimesliceTrigger s
  | .preqGo => Sys2Proof.Machine.execPreqGo s
  | .preemptDecide => Sys2Proof.Machine.execPreemptDecide s
  | .drainExpire => Sys2Proof.Machine.execDrainExpire s
  | .flushAndRestart => Sys2Proof.Machine.execFlushAndRestart s
  | .saveCapture => Sys2Proof.Machine.execSaveCapture s
  | .saveComplete => Sys2Proof.Machine.execSaveComplete s
  | .dbgHalt => Sys2Proof.Machine.execDbgHalt s
  | .dbgHaltComplete => Sys2Proof.Machine.execDbgHaltComplete s
  | .dbgResume => Sys2Proof.Machine.execDbgResume s
  | .dbgRead => Sys2Proof.Machine.execDbgRead s
  | .dbgWrite => Sys2Proof.Machine.execDbgWrite s
  | .dbgCancelPending => Sys2Proof.Machine.execDbgCancelPending s
  | .dbgStep => Sys2Proof.Machine.execDbgStep s
  | .dbgUndefinedOp => Sys2Proof.Machine.execDbgUndefinedOp s
  | .replayPassEnd => Sys2Proof.Machine.execReplayPassEnd s
  | .registerWrite => Sys2Proof.Machine.execRegisterWrite s
  | .evportWrite => Sys2Proof.Machine.execEvportWrite s
  | .svcCoreOffline => Sys2Proof.Machine.execSvcCoreOffline s
  | .svcOfflineDone => Sys2Proof.Machine.execSvcOfflineDone s
  | .svcCoreOnline => Sys2Proof.Machine.execSvcCoreOnline s
  | .svcChannelRetrain => Sys2Proof.Machine.execSvcChannelRetrain s
  | .svcStationRetrain => Sys2Proof.Machine.execSvcStationRetrain s
  | .svcRetrainDone => Sys2Proof.Machine.execSvcRetrainDone s
  | .svcUndefinedOp => Sys2Proof.Machine.execSvcUndefinedOp s
  | .attcmdWrite => Sys2Proof.Machine.execAttcmdWrite s
  | .attestationDone => Sys2Proof.Machine.execAttestationDone s
  | .resetGo => Sys2Proof.Machine.execResetGo s
  | .powerOnBoot => Sys2Proof.Machine.execPowerOnBoot s
  | .thermalThrottleTick => Sys2Proof.Machine.execThermalThrottleTick s
  | .thermalStop => Sys2Proof.Machine.execThermalStop s
  | .linkOperationTimeout => Sys2Proof.Machine.execLinkOperationTimeout s
  | .roceInbound kind port ia data => Sys2Proof.Machine.execRoceInbound kind port ia data s
  | .homeAnswer => Sys2Proof.Machine.execHomeAnswer s
  | .inServiceUpdate kind image cfg => Sys2Proof.Machine.execInServiceUpdate kind image cfg s

end Sys2Proof.Machine
end

