-- ==== Sys2Proof/Machine/Step.lean ====
section
/-! DEFINITION. The step, and the placing of one instruction where the step fetches next. -/
namespace Sys2Proof.Machine

def step (s : State) : Host.Outcome State Fault Refusal := stepWith exec s

/-- The instruction of a table word, stored where core 0's system kernel, in sole control of the part, fetches next
(log entry 4). -/
def State.withFetchWord (s : State) (_nbits w : Nat) : State := placeWord (soleKernel s) w

end Sys2Proof.Machine
end

