-- ==== Sys2Proof/Safety.lean ====
section
/-! DEFINITION. The terms in which claims are made: the canonical form of memory, what an instruction leaves
unchanged, when an instruction can be performed, and what each family of instructions computes. -/
namespace Sys2Proof.Machine

/-- Memory's canonical form: addresses rise strictly and no byte is listed that an unlisted address reads. -/
abbrev Memory.wf (m : List Host.Cell) : Bool := Sparse.wf m

/-- A byte of physical memory. -/
def memByte (s : State) (a : Nat) : Byte := Sparse.get s.mm.mem a

/-! ## What an instruction leaves -/

/-- The issuing entry once its instruction has completed: it stands at the next unit, or at the next
repetition of a REP target (R240, R252). -/
def movedOn (s : State) : Entry :=
  let e := curEntry s
  let next := e.pc + BitVec.ofNat 57 (2 * s.cur.len)
  if s.cur.rep then
    { e with repst := repAdvance e.repst, wake := .none, pc := if repAct (repAdvance e.repst) then e.pc else next }
  else { e with wake := .none, pc := next }

/-- The issuing entry has moved on, and no other entry has changed. -/
structure MovedOn (s t : State) : Prop where
  ents : ∀ k, t.ent k = if k = curEk s then movedOn s else s.ent k
  cur : t.cur = { s.cur with done := true }

/-- Nothing outside the registers of the issuing group has changed: no special register, table, queue or
outstanding happening, and no byte of memory. -/
structure Kept (s t : State) : Prop where
  core : t.core = s.core
  mm : t.mm = s.mm
  bytes : ∀ a, memByte t a = memByte s a
  task : t.task = s.task
  eng : t.eng = s.eng
  dev : t.dev = s.dev
  agenda : t.agenda = s.agenda
  power : t.power = s.power
  now : t.now = s.now
  tick : t.tick = s.tick
  free : t.free = s.free
  cfg : t.cfg = s.cfg

/-- Uniform registers, accesses outstanding into them, groups (with their condition bits) and slots are kept. -/
structure UniformKept (s t : State) : Prop where
  sreg : t.uni.sreg = s.uni.sreg
  sout : t.uni.sout = s.uni.sout
  groups : t.uni.groups = s.uni.groups
  slots : t.uni.slots = s.uni.slots

/-- A lane instruction changes lane state alone, beside its entry's place. -/
structure LaneOnly (s t : State) : Prop where
  moved : MovedOn s t
  kept : Kept s t
  uniform : UniformKept s t

/-- A uniform instruction of one destination: uniform register d of the issuing group receives v, and every
other register, condition bit and lane register is kept. -/
structure UniformWrote (s t : State) (d : Nat) (v : DWord) : Prop where
  value : t.sregOf (curGk s) d = v
  others : ∀ g r, g * 64 + r ≠ curGk s * 64 + d → t.sregOf g r = s.sregOf g r
  lane : t.lane = s.lane
  sout : t.uni.sout = s.uni.sout
  groups : t.uni.groups = s.uni.groups
  slots : t.uni.slots = s.uni.slots
  moved : MovedOn s t
  kept : Kept s t

/-- An instruction that writes no register: it only moves on. -/
structure OnlyMoved (s t : State) : Prop where
  lane : t.lane = s.lane
  uniform : UniformKept s t
  moved : MovedOn s t
  kept : Kept s t

/-! ## When an instruction can be performed -/

/-- Every check of Table 94 passes: the bank's features, the values of used fields, and unused fields of zero
(R266, R268); `n` is the feature bit of the instruction's own set. -/
structure Decodes (s : State) (i : Instr) (n : Nat) : Prop where
  features : featuresPresent s i n = true
  reserved : reservedOk i = true
  unused : unusedOk i = true

/-- No source register is empty in any of the lanes (R69). -/
def SourcesFull (s : State) (lanes : List Nat) (fs : List Field) : Prop :=
  ∀ l ∈ lanes, ∀ f ∈ fs, ∀ i, i < f.k → isEmptyLoc s (locate s l (f.r + i)) = false

/-- No access is outstanding into a destination register of any of the lanes (R69). -/
def DestsFree (s : State) (lanes : List Nat) (d k : Nat) : Prop :=
  ∀ l ∈ lanes, ∀ i, i < k → dstWaits s ⟨l, d + i, false⟩ = false

/-- A lane instruction with guard p, sources fs and the destination group of k registers from d is performed. -/
structure LaneReady (s : State) (i : Instr) (p : BitVec 3) (fs : List Field) (d k : Nat) : Prop where
  active : activeLanes s p.toNat ≠ []
  decodes : Decodes s i 0
  fits : fieldsFit (⟨d, k, false⟩ :: fs) = true
  full : SourcesFull s (activeLanes s p.toNat) fs
  free : DestsFree s (activeLanes s p.toNat) d k

/-- No access or home's answer is outstanding into a uniform register (R70). -/
def UniformFree (s : State) (rs : List Nat) : Prop := ∀ r ∈ rs, s.uni.sout.get (curGk s * 64 + r) = 0

/-- A uniform instruction that reads or writes the registers rs is performed. -/
structure UniformReady (s : State) (i : Instr) (rs : List Nat) : Prop where
  decodes : Decodes s i 1
  free : UniformFree s rs

/-! ## What a lane instruction writes -/

/-- In every lane of `lanes`, the k registers from number d hold the words `f` gives and are full; where two
numbers name one register of an emulated instruction, the higher stands. A number that names the predicate
word of the level below sets p1 to p7 there (R281). Nothing else in the lanes changes (R68, R279, R317). -/
structure LaneWrote (s t : State) (lanes : List Nat) (d k : Nat) (f : Nat → List Word) : Prop where
  value : ∀ l ∈ lanes, ∀ i, i < k → ∀ r, locate s l (d + i) = .reg r →
    (∀ j, i < j → j < k → locate s l (d + j) ≠ .reg r) → t.laneReg r = (f l).getD i 0 ∧ t.isEmpty r = false
  others : ∀ r, (∀ l ∈ lanes, ∀ i, i < k → locate s l (d + i) ≠ .reg r) →
    t.laneReg r = s.laneReg r ∧ t.isEmpty r = s.isEmpty r
  preds : ∀ l ∈ lanes, ∀ i, i < k → locate s l (d + i) = .preds →
    if (curGroup s).depth = 1 then t.lane.predSh.get (fibKey (curGk s) l) = BitVec.ofNat 8 ((f l).getD i 0).toNat &&& 0xFE
    else t.lane.pred.get (fibKey (curGk s) l) = BitVec.ofNat 8 ((f l).getD i 0).toNat &&& 0xFE
  predOthers : ∀ fk, (∀ l ∈ lanes, ∀ i, i < k → locate s l (d + i) = .preds → fk ≠ fibKey (curGk s) l) →
    t.lane.pred.get fk = s.lane.pred.get fk ∧ t.lane.predSh.get fk = s.lane.predSh.get fk
  out : t.lane.out = s.lane.out
  parked : t.lane.parked = s.lane.parked

/-- The outcome of a performed lane instruction of guard p: it completes, its destination group of k registers
from d holds what `f` gives in every active lane, and nothing else changes but the entry's place. -/
def LaneResult (i : Instr) (s : State) (p : BitVec 3) (d k : Nat) (f : Nat → List Word) : Prop :=
  ∃ t, exec i s = .next t ∧ LaneWrote s t (activeLanes s p.toNat) d k f ∧ LaneOnly s t

/-- The outcome of a performed uniform instruction of destination d. -/
def UniformResult (i : Instr) (s : State) (d : Nat) (v : DWord) : Prop := ∃ t, exec i s = .next t ∧ UniformWrote s t d v

/-! ## What each lane instruction computes (Tables 120 to 123, 126) -/

/-- LR instructions of two one-register sources: a, then b, under the group's rounding mode. -/
def laneTwoInt : List ((LR → Instr) × (Rm → Word → Word → Word)) :=
  [ (.vadd, fun _ a b => a + b), (.vsub, fun _ a b => a - b), (.vmul, fun _ a b => a * b),
    (.vmulh, fun _ a b => (a.signExtend 64 * b.signExtend 64).extractLsb' 32 32),
    (.vmulhz, fun _ a b => (a.zeroExtend 64 * b.zeroExtend 64).extractLsb' 32 32),
    (.vand, fun _ a b => a &&& b), (.vor, fun _ a b => a ||| b), (.vxor, fun _ a b => a ^^^ b),
    (.vshl, fun _ a b => if 32 ≤ b.toNat % 256 then 0 else a <<< (b.toNat % 256)),
    (.vshr, fun _ a b => if 32 ≤ b.toNat % 256 then 0 else a >>> (b.toNat % 256)),
    (.vsar, fun _ a b => a.sshiftRight (min (b.toNat % 256) 31)),
    (.vmin, fun _ a b => if b.slt a then b else a), (.vmax, fun _ a b => if a.slt b then b else a),
    (.vminz, fun _ a b => if b < a then b else a), (.vmaxz, fun _ a b => if a < b then b else a),
    (.vabsd, fun _ a b => BitVec.ofNat 32 (a.toInt - b.toInt).natAbs),
    (.vbfx, fun _ a b => bitExtract a b), (.vcmp, fun _ a b => vcmpWord a b) ]
def laneTwoFloat : List ((LR → Instr) × (Rm → Word → Word → Word)) :=
  [ (.fadd, fun rm a b => BitVec.ofNat 32 (fAdd b32 rm a.toNat b.toNat)),
    (.fsub, fun rm a b => BitVec.ofNat 32 (fAdd b32 rm a.toNat (b ^^^ 0x80000000#32).toNat)),
    (.fmul, fun rm a b => BitVec.ofNat 32 (fMul b32 rm a.toNat b.toNat)),
    (.fmin, fun _ a b => BitVec.ofNat 32 (fMin b32 a.toNat b.toNat)),
    (.fmax, fun _ a b => BitVec.ofNat 32 (fMax b32 a.toNat b.toNat)),
    (.fcmp, fun _ a b => fcmpWord b32 a.toNat b.toNat) ]
def laneTwoPacked : List ((LR → Instr) × (Rm → Word → Word → Word)) :=
  [ (.hadd2, fun rm => packed2 (fAdd b16 rm)), (.hmul2, fun rm => packed2 (fMul b16 rm)),
    (.hmax2, fun _ => packed2 (fMax b16)), (.badd2, fun rm => packed2 (fAdd bf16 rm)),
    (.bmul2, fun rm => packed2 (fMul bf16 rm)), (.bmax2, fun _ => packed2 (fMax bf16)) ]
def laneTwo : List ((LR → Instr) × (Rm → Word → Word → Word)) := laneTwoInt ++ laneTwoFloat ++ laneTwoPacked

/-- LR instructions that also read vd, under the block policy: a, b, then the old d (R318). -/
def laneThree : List ((LR → Instr) × (Rm → Word → Word → Word → Word)) :=
  [ (.vmad, fun _ a b d => a * b + d), (.vbfi, fun _ a b d => bitInsert a b d),
    (.vsel, fun _ a b d => (a &&& d) ||| (b &&& ~~~d)), (.vpermb, fun _ a b d => permBytes a b d),
    (.ffma, fun rm a b d => BitVec.ofNat 32 (fFma b32 rm a.toNat b.toNat d.toNat)),
    (.hfma2, fun rm => packed3 (fFma b16 rm)), (.bfma2, fun rm => packed3 (fFma bf16 rm)) ]

/-- LI instructions of one source: the immediate, then a. -/
def laneImmInt : List ((LI → Instr) × (Rm → BitVec 8 → Word → Word)) :=
  [ (.vaddi, fun _ n a => a + n.signExtend 32), (.vandi, fun _ n a => a &&& n.signExtend 32),
    (.vori, fun _ n a => a ||| n.signExtend 32), (.vxori, fun _ n a => a ^^^ n.signExtend 32),
    (.vshli, fun _ n a => a <<< n.toNat), (.vshri, fun _ n a => a >>> n.toNat),
    (.vsari, fun _ n a => a.sshiftRight n.toNat),
    (.vclz, fun _ _ a => BitVec.ofNat 32 (clz a.toNat 32)), (.vpopc, fun _ _ a => BitVec.ofNat 32 (popc a.toNat 32)),
    (.vmov, fun _ _ a => a) ]
def laneImmFloat : List ((LI → Instr) × (Rm → BitVec 8 → Word → Word)) :=
  [ (.fabs, fun _ _ a => a &&& 0x7FFFFFFF), (.fneg, fun _ _ a => a ^^^ 0x80000000),
    (.frcp, fun rm _ a => BitVec.ofNat 32 (fRcp rm a.toNat)), (.frsq, fun _ _ a => BitVec.ofNat 32 (fRsq a.toNat)),
    (.fsqrt, fun rm _ a => BitVec.ofNat 32 (fSqrt rm a.toNat)), (.fexp2, fun _ _ a => BitVec.ofNat 32 (fExp2 a.toNat)),
    (.flog2, fun _ _ a => BitVec.ofNat 32 (fLog2 a.toNat)), (.fsin, fun _ _ a => BitVec.ofNat 32 (fSin a.toNat)),
    (.fcos, fun _ _ a => BitVec.ofNat 32 (fCos a.toNat)), (.fclass, fun _ n a => fclassWord n.toNat a) ]
def laneImm : List ((LI → Instr) × (Rm → BitVec 8 → Word → Word)) := laneImmInt ++ laneImmFloat

/-- LW instructions without a source: the immediate, then the lane. -/
def laneNone : List ((LW → Instr) × (State → LW → Nat → Word)) :=
  [ (.vmovi, fun _ o _ => o.imm.signExtend 32),
    (.vlane, fun s o l => laneSelect s o.imm.toNat (activeLanes s o.p.toNat) l),
    (.vfibre, fun s o l => fibreSelect s o.imm.toNat l) ]

/-- LR instructions on binary64 groups of two (R327), as functions of the two or three values; the flag says
whether the vd group is read. -/
def lanePair : List ((LR → Instr) × Bool × (Rm → Nat → Nat → Nat → Nat)) :=
  [ (.dadd, false, fun rm a b _ => fAdd b64 rm a b), (.dsub, false, fun rm a b _ => fSub b64 rm a b),
    (.dmul, false, fun rm a b _ => fMul b64 rm a b), (.dfma, true, fun rm a b d => fFma b64 rm a b d),
    (.dmin, false, fun _ a b _ => fMin b64 a b), (.dmax, false, fun _ a b _ => fMax b64 a b) ]

/-! ## What each uniform instruction computes (Table 132) -/

/-- UR instructions of two sources: the word's fields, then a and b. -/
def uniformTwo : List ((UR → Instr) × (UR → DWord → DWord → DWord)) :=
  [ (.sadd, fun _ a b => a + b), (.ssub, fun _ a b => a - b), (.smul, fun _ a b => a * b),
    (.sand, fun _ a b => a &&& b), (.sor, fun _ a b => a ||| b), (.sxor, fun _ a b => a ^^^ b),
    (.sshl, fun _ a b => if 64 ≤ b.toNat % 256 then 0 else a <<< (b.toNat % 256)),
    (.sshr, fun _ a b => if 64 ≤ b.toNat % 256 then 0 else a >>> (b.toNat % 256)),
    (.ssar, fun _ a b => a.sshiftRight (min (b.toNat % 256) 63)),
    (.smin, fun o a b => if o.f.getLsbD 0 then (if b < a then b else a) else (if b.slt a then b else a)),
    (.smax, fun o a b => if o.f.getLsbD 0 then (if a < b then b else a) else (if a.slt b then b else a)) ]

/-- UR instructions of one source. -/
def uniformOne : List ((UR → Instr) × (DWord → DWord)) :=
  [ (.spopc, fun a => BitVec.ofNat 64 (popc a.toNat 64)), (.sclz, fun a => BitVec.ofNat 64 (clz a.toNat 64)) ]

/-- UI instructions of one register, read and written: the immediate, then its old value. -/
def uniformImm : List ((UI → Instr) × (BitVec 17 → DWord → DWord)) :=
  [ (.saddi, fun n a => a + n.signExtend 64), (.smovi, fun n _ => n.signExtend 64),
    (.smovhi, fun n a => (a <<< 16) ||| (n.setWidth 16).zeroExtend 64) ]

/-! ## Condition bits (R357, R359) -/

/-- A uniform instruction that may write a register and a condition bit of the issuing group, and nothing else. -/
structure UniformCond (s t : State) (dst : Option (Nat × DWord)) (cond : Option (Nat × Bool)) : Prop where
  sreg : ∀ g r, t.sregOf g r = match dst with
    | some (d, v) => if g * 64 + r = curGk s * 64 + d then v else s.sregOf g r
    | none => s.sregOf g r
  conds : ∀ k, k < 8 → (t.group (curGk s)).conds.getLsbD k = match cond with
    | some (q, b) => if k = q then b else (s.group (curGk s)).conds.getLsbD k
    | none => (s.group (curGk s)).conds.getLsbD k
  group : t.group (curGk s) = { s.group (curGk s) with conds := (t.group (curGk s)).conds }
  groups : ∀ g, g ≠ curGk s → t.group g = s.group g
  lane : t.lane = s.lane
  sout : t.uni.sout = s.uni.sout
  slots : t.uni.slots = s.uni.slots
  moved : MovedOn s t
  kept : Kept s t

/-! ## Memory accesses (R54, R121, R343, R345, R348) -/

/-- Every event of an access is on its way: to the near slice, or back from a cache of the core. A write's event
carries its own bytes of the lane's value, and the address the lane's access was checked for. -/
def EventsPosted (t : State) (acc : Nat) (c : Capture) : Prop :=
  ∀ l ∈ c.lanes, ∀ e ∈ laneEvents c l.ia, ∃ id,
    (t.mm.reqs.get id).src = .lane acc l.lane ∧ (t.mm.reqs.get id).kind = c.kind ∧ (t.mm.reqs.get id).ia = l.ia + e.1
    ∧ (t.mm.reqs.get id).len = e.2 ∧ (t.mm.reqs.get id).nv = l.nv
    ∧ (isWriteKind c.kind = true → (t.mm.reqs.get id).data = l.d / 256 ^ e.1 % 256 ^ e.2)
    ∧ ∃ h ∈ t.agenda, h.x = id ∧ (h.what = .requestAtNearSlice ∨ h.what = .loadReturn)

/-- An access has started and its instruction has completed: it is recorded, LDL has risen if it counts, no
register's value has changed, and no byte of memory, line of the SC or version line either. -/
structure AccessStarted (s t : State) (c : Capture) (counted : Bool) : Prop where
  capture : (t.mm.accs.get s.mm.nextId).cap = c
  core : (t.mm.accs.get s.mm.nextId).core = s.cur.core
  group : (t.mm.accs.get s.mm.nextId).group = curGk s
  others : ∀ a, a ≠ s.mm.nextId → t.mm.accs.get a = s.mm.accs.get a
  events : EventsPosted t s.mm.nextId c
  moved : MovedOn s t
  counted : counter (t.group (curGk s)) 2 = counter (s.group (curGk s)) 2 + b2n counted
  bytes : ∀ a, memByte t a = memByte s a
  lines : t.mm.sc = s.mm.sc
  versions : t.mm.vers = s.mm.vers
  sreg : t.uni.sreg = s.uni.sreg
  regs : ∀ k, t.laneReg k = s.laneReg k
  preds : t.lane.pred = s.lane.pred ∧ t.lane.predSh = s.lane.predSh
  special : t.core = { s.core with regs := t.core.regs }
  eng : t.eng = s.eng
  dev : t.dev = s.dev

/-- The registers that an access returns into are empty and outstanding; every other full bit stands (R343). -/
structure DestsOut (s t : State) (lanes : List Nat) (d k : Nat) : Prop where
  out : ∀ l ∈ lanes, ∀ i, i < k → ∀ r, locate s l (d + i) = .reg r → t.isEmpty r = true ∧ t.outOf r = s.mm.nextId
  others : ∀ r, (∀ l ∈ lanes, ∀ i, i < k → locate s l (d + i) ≠ .reg r) → t.isEmpty r = s.isEmpty r ∧ t.outOf r = s.outOf r
  uniform : t.uni.sout = s.uni.sout

/-- A lane memory instruction is performed (Table 130): every lane passes its checks, its registers allow it,
the load counter has room, and no ordering holds it. -/
structure MemReady (s : State) (i : Instr) (p : BitVec 3) (m : MemForm) : Prop where
  active : activeLanes s p.toNat ≠ []
  decodes : Decodes s i 0
  fits : fieldsFit (memDests m ++ memSources m) = true
  base : UniformFree s [m.sb.toNat]
  full : SourcesFull s (activeLanes s p.toNat) (memSources m)
  free : DestsFree s (activeLanes s p.toNat) m.d m.dsts
  room : countsLdl m.kind = true → counter (curGroup s) 2 < 63
  passes : ∀ l ∈ activeLanes s p.toNat, ∃ q, memCheck s m l = .ok q
  clean : machineFails s m (activeLanes s p.toNat) = []
  acquired : acquireOpen s (maskOf (activeLanes s p.toNat)) = false
  released : m.scope ≠ 0 → relDone s (curGk s) (maskOf (activeLanes s p.toNat)) = true

/-- The forms of the loads through the memory system (Table 128). -/
def loadForms (o : LM) (x : Disp) : List (Instr × MemForm) :=
  [ (.vldN o, narrowForm o none .load), (.vldNd o x, narrowForm o (some x) .load), (.vldW o, wideForm o none .load),
    (.vldWd o x, wideForm o (some x) .load), (.vldkN o, narrowForm o none .const), (.vldkNd o x, narrowForm o (some x) .const),
    (.vldkW o, wideForm o none .const), (.vldkWd o x, wideForm o (some x) .const) ]
def storeForms (o : LM) (x : Disp) : List (Instr × MemForm) :=
  [ (.vstN o, narrowForm o none .store), (.vstNd o x, narrowForm o (some x) .store), (.vstW o, wideForm o none .store),
    (.vstWd o x, wideForm o (some x) .store) ]
/-- The atomics, their operations in the order of Table 131. -/
def atomicForms (o : LA) (x : Disp) : List (Instr × MemForm) :=
  [ (.vatadd o, atomicForm o none 0 2 false), (.vataddD o x, atomicForm o (some x) 0 2 false),
    (.vatmin o, atomicForm o none 1 2 false), (.vatminD o x, atomicForm o (some x) 1 2 false),
    (.vatmax o, atomicForm o none 2 2 false), (.vatmaxD o x, atomicForm o (some x) 2 2 false),
    (.vatand o, atomicForm o none 3 2 false), (.vatandD o x, atomicForm o (some x) 3 2 false),
    (.vator o, atomicForm o none 4 2 false), (.vatorD o x, atomicForm o (some x) 4 2 false),
    (.vatxor o, atomicForm o none 5 2 false), (.vatxorD o x, atomicForm o (some x) 5 2 false),
    (.vatxch o, atomicForm o none 6 4 false), (.vatxchD o x, atomicForm o (some x) 6 4 false),
    (.vatcas o, atomicForm o none 7 4 true), (.vatcasD o x, atomicForm o (some x) 7 4 true) ]
def scratchLoadForms (o : LM) (x : Disp) : List (Instr × MemForm) :=
  [ (.vldsN o, narrowForm o none .load), (.vldsNd o x, narrowForm o (some x) .load), (.vldsW o, wideForm o none .load),
    (.vldsWd o x, wideForm o (some x) .load) ]
def scratchStoreForms (o : LM) (x : Disp) : List (Instr × MemForm) :=
  [ (.vstsN o, narrowForm o none .store), (.vstsNd o x, narrowForm o (some x) .store), (.vstsW o, wideForm o none .store),
    (.vstsWd o x, wideForm o (some x) .store) ]

/-- A scratchpad instruction is performed: every lane's bytes lie in the team's allocation, aligned (R72). -/
structure ScratchReady (s : State) (i : Instr) (p : BitVec 3) (m : MemForm) : Prop where
  active : activeLanes s p.toNat ≠ []
  decodes : Decodes s i 0
  fits : fieldsFit (memDests m ++ memSources m) = true
  base : UniformFree s [m.sb.toNat]
  full : SourcesFull s (activeLanes s p.toNat) (memSources m)
  free : DestsFree s (activeLanes s p.toNat) m.d m.dsts
  inside : ∀ l ∈ activeLanes s p.toNat, laneAddr s l m.sb m.a m.x + m.n ≤ (curTeam s).ssize ∧ laneAddr s l m.sb m.a m.x % m.n = 0
  settled : scratchBusy s m (activeLanes s p.toNat) = false
  acquired : acquireOpen s (maskOf (activeLanes s p.toNat)) = false

/-- An access of the scratchpad in units of its own: each active lane's 4-byte events are on their way, and no byte has been read
or written yet (R121). -/
def ScratchSplit (s t : State) (m : MemForm) (lanes : List Nat) : Prop :=
  ∀ l ∈ lanes, ∀ i, i < m.n / 4 → ∃ id, ∃ h ∈ t.agenda, h.what = .requestAtNearSlice ∧ h.x = id
    ∧ (t.mm.reqs.get id).src = .lane s.mm.nextId l ∧ (t.mm.reqs.get id).scratch = true ∧ (t.mm.reqs.get id).kind = m.kind
    ∧ (t.mm.reqs.get id).ia = (curTeam s).sbase + laneAddr s l m.sb m.a m.x + 4 * i ∧ (t.mm.reqs.get id).len = 4
    ∧ (t.mm.reqs.get id).data = groupValue s l m.d m.regs % 256 ^ m.n / 2 ^ (32 * i) % 2 ^ 32

/-- What a scalar access asks: one lane, lane 0, at its intermediate address (R54). -/
def scalarCapture (s : State) (m : ScalarForm) (ia r : Nat) : Capture :=
  let lane : CapLane := { lane := 0, ia := ia, d := m.d, nv := m.nv, nol1 := rngNol1 (curBank s) r }
  { kind := m.kind, n := m.n, wflag := m.wflag, signed := m.signed, dst := m.dst, lanes := [lane], scalar := true }

/-- A scalar access is performed: its address passes at `ia` in range `r` of the bank, aligned where W asks. -/
structure ScalarReady (s : State) (i : Instr) (rs : List Nat) (m : ScalarForm) (ia r : Nat) : Prop where
  ready : UniformReady s i rs
  room : countsLdl m.kind = true → counter (curGroup s) 2 < 63
  passes : rangeCheck (curBank s) m.va m.n (memPerm m.kind) = .ok (ia, r)
  aligned : m.wflag = true → m.va % m.n = 0
  clean : m.kind ≠ .store → ∀ l ∈ (scalarCapture s m ia r).lanes,
    laneMachine s (curIssuer s (heldLanes s)) m.kind l m.n = none
  acquired : acquireOpen s (heldLanes s) = false
  released : m.rel = true → relDone s (curGk s) (heldLanes s) = true

/-- The outcome of a scalar access: lane 0's access alone has started, and a loaded register is outstanding. -/
def ScalarStarted (i : Instr) (s : State) (m : ScalarForm) (ia r : Nat) : Prop :=
  ∃ t, exec i s = .next t
    ∧ AccessStarted s t (scalarCapture s m ia r) (countsLdl m.kind)
    ∧ t.lane = s.lane
    ∧ ∀ k, t.uni.sout.get k = match m.dst with
      | .uniform d => if k = curGk s * 64 + d then s.mm.nextId else s.uni.sout.get k
      | _ => s.uni.sout.get k

/-! ## Requests at slices (R46, R58, R61, R87, R137, R348) -/

/-- The request's answer is on its way to its core with the value v. -/
def Answered (t : State) (id v : Nat) : Prop :=
  (t.mm.reqs.get id).stage = .response ∧ (t.mm.reqs.get id).data = v ∧ ∃ h ∈ t.agenda, h.what = .loadReturn ∧ h.x = id

/-- The request is one event of a lane's access, or a prefetch; its bytes lie in one line. -/
structure AtSlice (s : State) (id : Nat) (r : Req) : Prop where
  found : findReq s id = some r
  source : r.src = .device ∨ ∃ acc l, r.src = .lane acc l
  within : r.ia % 256 + r.len ≤ 256

/-- A slice's work on a request leaves every register. -/
structure RegsKept (s t : State) : Prop where
  lane : t.lane = s.lane
  uni : t.uni = s.uni

/-- Nothing but the answers of its events is left of a store: no lane of it has failed. -/
def PlainStore (s : State) (r : Req) : Prop :=
  ∀ acc l a, r.src = .lane acc l → findAcc s acc = some a →
    a.failed = [] ∧ a.notres = 0 ∧ a.cap.dst = .none ∧ a.counted = false ∧ a.drops = false

/-- The SC holds the line at die d, or lists no bytes for it. -/
def LineClean (s : State) (d line : Nat) : Prop := (s.scLine (scKey d line)).held = true ∨ (s.scLine (scKey d line)).dirty = []

/-- Die d holds the n low bytes of v at an intermediate address. -/
def HoldsBytes (t : State) (d ia pa : Nat) (key : Option Nat) (n v : Nat) : Prop :=
  ∀ k, k < n → scByte t d (ia / 256) (pa / 256) key (ia % 256 + k) = BitVec.ofNat 8 (v / 256 ^ k)

/-- The job's version of the line holds the n low bytes of v at an intermediate address. -/
def VersionHolds (t : State) (j ia n v : Nat) : Prop :=
  (t.mm.vers.get (verKey j (ia / 256))).held = true
    ∧ ∀ k, k < n → (t.mm.vers.get (verKey j (ia / 256))).bytes.get (ia % 256 + k) = some (BitVec.ofNat 8 (v / 256 ^ k))

/-- Table 131: what an atomic of n bytes leaves where it found `old`, with its operands d and nv. -/
def atomicNew (op n old d nv : Nat) : Nat :=
  let a := BitVec.ofNat (8 * n) old
  let b := BitVec.ofNat (8 * n) d
  match op with
  | 0 => (a + b).toNat
  | 1 => if a.sle b then old else d
  | 2 => if b.sle a then old else d
  | 3 => (a &&& b).toNat
  | 4 => (a ||| b).toNat
  | 5 => (a ^^^ b).toNat
  | 6 => d
  | _ => if old = d then nv else old

/-- A write has its number and has set out: its die's clock has risen by one, and an item is on its way to every other die,
with the write for its home and a notice for the others (R137, R138). -/
structure Numbered (s t : State) (die home id pa : Nat) (key : Option Nat) : Prop where
  clock : (dieVc t die).getD die 0 = ((dieVc s die).getD die 0 + 1) % 2 ^ 32
  stage : (t.mm.reqs.get id).stage = .clocked
  place : (t.mm.reqs.get id).pa = pa ∧ (t.mm.reqs.get id).key = key
  items : ∀ e, e < 4 → e ≠ die → ∃ h ∈ t.agenda, h.what = .clockedItemArrive ∧ h.x = e
    ∧ (t.mm.items.get h.y).src = die ∧ (t.mm.items.get h.y).req = if e = home then some id else none

/-! ## Control transfers -/

/-- The issuing entry's lanes have gone to an address together; nothing else has changed but the path digest of a
replay session. -/
structure JumpedTo (s t : State) (pc : Pc) : Prop where
  ents : ∀ k, t.ent k = if k = curEk s then { curEntry s with pc := pc, wake := .none } else s.ent k
  cur : t.cur = { s.cur with done := true }
  lane : t.lane = s.lane
  sout : t.uni.sout = s.uni.sout
  groups : t.uni.groups = s.uni.groups
  slots : t.uni.slots = s.uni.slots
  core : t.core = s.core
  mm : t.mm = s.mm
  bytes : ∀ a, memByte t a = memByte s a
  task : t.task = { s.task with sessions := t.task.sessions }
  eng : t.eng = s.eng
  dev : t.dev = s.dev
  agenda : t.agenda = s.agenda

/-- The same with the issuing entry's function and link words set, and its function table entry as read (R363, R366). -/
structure CalledTo (s t : State) (pc : Pc) (func link : DWord) (at_ : Nat) (fte : Nat) : Prop where
  ents : ∀ k, t.ent k = if k = curEk s then { curEntry s with pc := pc, wake := .none, fteAt := at_, fteRaw := BitVec.ofNat 256 fte }
    else s.ent k
  func : t.sregOf (curGk s) (funcReg s) = func
  link : t.sregOf (curGk s) (linkReg s) = link
  others : ∀ g r, g * 64 + r ≠ curGk s * 64 + funcReg s → g * 64 + r ≠ curGk s * 64 + linkReg s → t.sregOf g r = s.sregOf g r
  cur : t.cur = { s.cur with done := true }
  lane : t.lane = s.lane
  groups : t.uni.groups = s.uni.groups
  slots : t.uni.slots = s.uni.slots
  core : t.core = s.core
  mm : t.mm = s.mm
  bytes : ∀ a, memByte t a = memByte s a
  task : t.task = { s.task with sessions := t.task.sessions }
  eng : t.eng = s.eng
  dev : t.dev = s.dev
  agenda : t.agenda = s.agenda

/-- A precise trap of the issuing instruction waits in its group's queue, in the order of its instruction; the
entry stands still at a boundary with its slot free, and every register and byte is kept (R223 to R225). -/
structure TrapRaised (s t : State) (cause : Nat) (mask addr aux : DWord) (rpc : Pc) : Prop where
  queue : (t.group (curGk s)).queue = insertTrap (curTrap s cause mask addr aux rpc) (s.group (curGk s)).queue
  group : t.group (curGk s) = { s.group (curGk s) with queue := (t.group (curGk s)).queue }
  groups : ∀ g, g ≠ curGk s → t.group g = s.group g
  entry : (t.ent (curEk s)).trapped = true ∧ (t.ent (curEk s)).boundary = true
    ∧ (t.ent (curEk s)).pc = (curEntry s).pc ∧ (t.ent (curEk s)).lanes = (curEntry s).lanes
  ents : ∀ k, k ≠ curEk s → t.ent k = s.ent k
  lane : t.lane = s.lane
  sreg : t.uni.sreg = s.uni.sreg
  mm : t.mm = s.mm
  bytes : ∀ a, memByte t a = memByte s a
  core : t.core = s.core
  task : t.task = s.task
  eng : t.eng = s.eng

/-- A trap of the issuing instruction enters the queue: the entry runs no handler, and the queue has room (R223, R228). -/
structure CanTrap (s : State) : Prop where
  outside : (curGroup s).recv = none
  room : (s.group (curGk s)).queue.length + (if (s.group (curGk s)).handling.isSome then 1 else 0) < 8

/-- A yield: the entry is BLOCKED at its instruction until the condition holds, and its slot is free (R213). -/
structure Yielded (s t : State) (w : Wake) : Prop where
  entry : t.ent (curEk s) = { s.ent (curEk s) with st := .blocked, wake := w, boundary := true, since := s.now }
  ents : ∀ k, k ≠ curEk s → t.ent k = s.ent k
  lane : t.lane = s.lane
  sreg : t.uni.sreg = s.uni.sreg
  groups : t.uni.groups = s.uni.groups
  mm : t.mm = s.mm
  bytes : ∀ a, memByte t a = memByte s a
  special : t.core = { s.core with regs := t.core.regs }
  wakes : ∃ h ∈ t.agenda, h.what = .entryWake ∧ h.x = s.cur.core ∧ h.y = s.cur.ent

/-! ## Empty sources and outstanding registers (R69, R70) -/

/-- Register number r of lane l is empty, outside an emulation handler. -/
def emptyReg (s : State) (l r : Nat) : Bool := s.isEmpty (regKey (fibKey (curGk s) l) (windowBase s + r))

/-- The lanes with an empty source under the trap policy, or under the block policy: once for each such source register. -/
def emptyLanes (s : State) (trap : Bool) (lanes : List Nat) (fs : List Field) : List Nat :=
  lanes.flatMap fun l => fs.flatMap fun f => (List.range f.k).flatMap fun i =>
    if emptyReg s l (f.r + i) && f.trap == trap then [l] else []

/-- Some destination register is empty because an access is outstanding into it. -/
def DestOutstanding (s : State) (lanes : List Nat) (ds : List Field) : Prop :=
  ∃ l ∈ lanes, ∃ f ∈ ds, ∃ i, i < f.k ∧ emptyReg s l (f.r + i) = true
    ∧ s.outOf (regKey (fibKey (curGk s) l) (windowBase s + f.r + i)) ≠ 0

/-- Lane instructions that compute: the instruction, its guard, the fields it reads and the group it writes. -/
def computeForms (o : LR) (n : LI) (w : LW) : List (Instr × BitVec 3 × List Field × Nat × Nat) :=
  let ab (k : Nat) : List Field := [⟨o.a.toNat, k, o.fa⟩, ⟨o.v.toNat, k, o.fb⟩]
  laneTwo.map (fun e => (e.1 o, o.p, ab 1, o.d.toNat, 1))
    ++ laneThree.map (fun e => (e.1 o, o.p, ab 1 ++ [⟨o.d.toNat, 1, false⟩], o.d.toNat, 1))
    ++ laneImm.map (fun e => (e.1 n, n.p, [⟨n.a.toNat, 1, false⟩], n.d.toNat, 1))
    ++ laneNone.map (fun e => (e.1 w, w.p, [], w.d.toNat, 1))
    ++ lanePair.map (fun e => (e.1 o, o.p, ab 2 ++ (if e.2.1 then [⟨o.d.toNat, 2, false⟩] else []), o.d.toNat, 2))
    ++ [(.dcmp o, o.p, ab 2, o.d.toNat, 1),
        (.vcvt n, n.p, [⟨n.a.toNat, vcvtReads (n.imm.toNat / 8), false⟩], n.d.toNat, vcvtWrites (n.imm.toNat / 8))]

/-- What an instruction does that finds a source empty: under the trap policy 0x081 in the lanes that have one, otherwise it
yields; so it does while an access is outstanding into a destination. -/
def EmptyOutcome (i : Instr) (s : State) (lanes : List Nat) (fs ds : List Field) : Prop :=
  (emptyLanes s true lanes fs ≠ [] → CanTrap s → ∃ t, exec i s = .next t
    ∧ TrapRaised s t 0x081 (maskOf (emptyLanes s true lanes fs)) 0 0 (if s.cur.rep then nextPc s else curPc s))
  ∧ (emptyLanes s true lanes fs = [] → emptyLanes s false lanes fs ≠ [] ∨ DestOutstanding s lanes ds →
    ∃ t ks, exec i s = .next t ∧ Yielded s t (.full ks) ∧ ks ≠ [])

/-- Uniform instructions that compute, and the scalar accesses: the registers that each reads or writes. -/
def uniformForms (o : UR) (n : UI) : List (Instr × List Nat) :=
  let abd := [o.d.toNat, o.a.toNat, o.c.toNat]
  uniformTwo.map (fun e => (e.1 o, abd)) ++ uniformOne.map (fun e => (e.1 o, [o.d.toNat, o.a.toNat]))
    ++ uniformImm.map (fun e => (e.1 n, [n.d.toNat]))
    ++ [(.ssel o, abd), (.scmp o, [o.a.toNat, o.c.toNat]), (.svote n, [n.d.toNat]), (.sreadl n, [n.d.toNat]),
        (.sld o, abd), (.sst o, abd), (.satom o, abd)]

/-! ## Engine operations and operations sent to a home (R161, R383, R399, R404, R406, R414) -/

/-- An instruction has begun an engine operation of a class (0 CPY, 1 MMA, 3 ATT, 4 COL): its group's counter of that
class has risen by the operation, the next engine number; no register and no byte has changed. -/
structure EngineBegun (s t : State) (cls id : Nat) : Prop where
  group : t.group (curGk s) = { s.group (curGk s) with outst := (s.group (curGk s)).outst ++ [{ cls := cls, op := id }] }
  groups : ∀ g, g ≠ curGk s → t.group g = s.group g
  moved : MovedOn s t
  lane : t.lane = s.lane
  sreg : t.uni.sreg = s.uni.sreg
  sout : t.uni.sout = s.uni.sout
  mm : t.mm = s.mm
  bytes : ∀ a, memByte t a = memByte s a
  core : t.core = s.core

/-- An instruction has sent one operation to a home: its destination is outstanding until the answer, and the happening
at the home is due. -/
structure OpSent (s t : State) (o : HomeOp) (ev : Instr) : Prop where
  op : t.op s.task.nextOp = { o with live := true }
  others : ∀ i, i ≠ s.task.nextOp → t.op i = s.op i
  due : ∃ h ∈ t.agenda, h.what = ev ∧ h.x = s.task.nextOp
  sout : ∀ k, t.uni.sout.get k =
    match o.dst with
    | some r => if k = o.group * 64 + r then opMark s.task.nextOp else s.uni.sout.get k
    | none => s.uni.sout.get k
  lane : t.lane = s.lane
  sreg : t.uni.sreg = s.uni.sreg
  groups : t.uni.groups = s.uni.groups
  mm : t.mm = s.mm
  bytes : ∀ a, memByte t a = memByte s a
  eng : t.eng = s.eng

/-- No lane register, uniform register or byte of memory has changed, and no access has begun or ended. -/
structure DataKept (s t : State) : Prop where
  lane : t.lane = s.lane
  sreg : t.uni.sreg = s.uni.sreg
  mm : t.mm = s.mm
  bytes : ∀ a, memByte t a = memByte s a

/-- Special registers that hold what is written to them, but for their reserved bits (Table 135). -/
def heldSpecial : List Nat :=
  [0x005, 0x006, 0x009, 0x00A, 0x010, 0x011, 0x012] ++ (List.range 8).map (0x018 + ·) ++ [0x052]
    ++ ((List.range 64).map (0x100 + ·)).filter (fun i => i % 4 != 3) ++ [0x200, 0x201]

/-- A matrix instruction's leader check, tile check, operand words and handles pass, and nothing makes it wait
(Table 143, R399). -/
structure MatrixReady (s : State) (i : Instr) (tile : Nat) (regs : List Nat) : Prop where
  ready : UniformReady s i regs
  leader : (curGroup s).tgrp = 0 ∧ (curEntry s).lanes.getLsbD 0 = true
  tile : tile < (curTeam s).tiles

/-- An entry of the tile order has been placed after those that stand; ACCSTs of the team that ended at the same level, in a trap
handler or outside, are forgotten. -/
structure EntryPlaced (s t : State) (e : TileEnt) : Prop where
  entry : t.tileEnt s.eng.nextEng = { e with live := true }
  others : ∀ p ∈ s.eng.tiles, p.1 ≠ s.eng.nextEng → ¬(p.2.by_.team = e.by_.team ∧ p.2.ended = true ∧ p.2.by_.handler = e.by_.handler) →
    p ∈ t.eng.tiles
  due : ∃ h ∈ t.agenda, h.what = .arrayEntryStart ∧ h.x = e.by_.core
  reading : ∀ k, t.handle k =
    (e.words.foldl (fun u w => readStart u (handleKey e.by_.core (opHandle w))) s).handle k

/-- A stage barrier's object in the scratchpad of the issuing core has become `w`, and no other scratchpad byte changed. -/
structure BarrierBecame (s t : State) (off w : Nat) : Prop where
  object : sbWord t s.cur.core off = w % 2 ^ 128
  others : ∀ k, ¬(scratchKey s.cur.core off ≤ k ∧ k < scratchKey s.cur.core off + 16) → t.core.scratch.get k = s.core.scratch.get k
  moved : MovedOn s t
  data : DataKept s t
  teams : t.core.teams = s.core.teams
  groups : t.uni.groups = s.uni.groups

end Sys2Proof.Machine
end

