-- ==== Sys2Proof/Certificates/Slice0/Obligations.lean ====
section
/-! DEFINITION. What the model is claimed to do, one definition for each claim. The tables they speak of stand in
Safety.lean. -/
open Sys2Proof
open Sys2Proof.Machine

/-! ## Lane instructions -/

/-- R317, R320 to R323, R328, R331: every LR instruction of two one-register sources, in every active lane. -/
def Obligations.LaneTwoSourceResults : Prop :=
  ∀ e ∈ laneTwo, ∀ (o : LR) (s : State),
    LaneReady s (e.1 o) o.p [⟨o.a.toNat, 1, o.fa⟩, ⟨o.v.toNat, 1, o.fb⟩] o.d.toNat 1 →
    LaneResult (e.1 o) s o.p o.d.toNat 1 fun l => [e.2 (curRm s) (rdV s l o.a.toNat) (rdV s l o.v.toNat)]

/-- R317, R318: every LR instruction whose old vd is a third source. -/
def Obligations.LaneThreeSourceResults : Prop :=
  ∀ e ∈ laneThree, ∀ (o : LR) (s : State),
    LaneReady s (e.1 o) o.p [⟨o.a.toNat, 1, o.fa⟩, ⟨o.v.toNat, 1, o.fb⟩, ⟨o.d.toNat, 1, false⟩] o.d.toNat 1 →
    LaneResult (e.1 o) s o.p o.d.toNat 1 fun l =>
      [e.2 (curRm s) (rdV s l o.a.toNat) (rdV s l o.v.toNat) (rdV s l o.d.toNat)]

/-- R317, R320, R324 to R326, R334: every LI instruction of one source. -/
def Obligations.LaneImmediateResults : Prop :=
  ∀ e ∈ laneImm, ∀ (o : LI) (s : State),
    LaneReady s (e.1 o) o.p [⟨o.a.toNat, 1, false⟩] o.d.toNat 1 →
    LaneResult (e.1 o) s o.p o.d.toNat 1 fun l => [e.2 (curRm s) o.imm (rdV s l o.a.toNat)]

/-- R335, R340: VMOVI, VLANE and VFIBRE. -/
def Obligations.LaneSelectorResults : Prop :=
  ∀ e ∈ laneNone, ∀ (o : LW) (s : State), LaneReady s (e.1 o) o.p [] o.d.toNat 1 →
    LaneResult (e.1 o) s o.p o.d.toNat 1 fun l => [e.2 s o l]

/-- R327, R331: binary64 instructions read and write groups of two; DCMP writes one register. -/
def Obligations.BinarySixtyFourResults : Prop :=
  (∀ e ∈ lanePair, ∀ (o : LR) (s : State),
    LaneReady s (e.1 o) o.p ([⟨o.a.toNat, 2, o.fa⟩, ⟨o.v.toNat, 2, o.fb⟩] ++ if e.2.1 then [⟨o.d.toNat, 2, false⟩] else [])
      o.d.toNat 2 →
    LaneResult (e.1 o) s o.p o.d.toNat 2 fun l =>
      pairWords (e.2.2 (curRm s) (rdPair s l o.a.toNat) (rdPair s l o.v.toNat) (rdPair s l o.d.toNat)))
  ∧ ∀ (o : LR) (s : State), LaneReady s (.dcmp o) o.p [⟨o.a.toNat, 2, o.fa⟩, ⟨o.v.toNat, 2, o.fb⟩] o.d.toNat 1 →
    LaneResult (.dcmp o) s o.p o.d.toNat 1 fun l => [fcmpWord b64 (rdPair s l o.a.toNat) (rdPair s l o.v.toNat)]

/-- R329, R330: VCVT reads and writes the registers that Table 125 gives its code. -/
def Obligations.ConversionResults : Prop :=
  ∀ (o : LI) (s : State),
    let code := o.imm.toNat / 8
    LaneReady s (.vcvt o) o.p [⟨o.a.toNat, vcvtReads code, false⟩] o.d.toNat (vcvtWrites code) →
    LaneResult (.vcvt o) s o.p o.d.toNat (vcvtWrites code) fun l =>
      vcvtLane (vcvtMode s (o.imm.toNat % 8)) (vcvtSat (o.imm.toNat % 8)) code
        ((List.range (vcvtReads code)).map fun i => (rdV s l (o.a.toNat + i)).toNat)

/-- R334, R337, R338: moves from a uniform register and from other lanes; a lane that is not readable gives 0. -/
def Obligations.CrossLaneResults : Prop :=
  (∀ (o : LI) (s : State), LaneReady s (.vmovUniform o) o.p [] o.d.toNat 1 → UniformFree s [o.imm.toNat % 64] →
    LaneResult (.vmovUniform o) s o.p o.d.toNat 1 fun _ =>
      [if o.imm.getLsbD 6 then (rdS s (o.imm.toNat % 64)).extractLsb' 32 32 else (rdS s (o.imm.toNat % 64)).extractLsb' 0 32])
  ∧ (∀ (o : LI) (s : State), LaneReady s (.vbcast o) o.p [] o.d.toNat 1 →
      ((heldLanes s).getLsbD o.imm.toNat = true → isEmptyLoc s (locate s o.imm.toNat o.a.toNat) = false) →
    LaneResult (.vbcast o) s o.p o.d.toNat 1 fun _ =>
      [if (heldLanes s).getLsbD o.imm.toNat then rdV s o.imm.toNat o.a.toNat else 0])
  ∧ ∀ (o : LR) (s : State), LaneReady s (.vshuf o) o.p [⟨o.v.toNat, 1, o.fb⟩] o.d.toNat 1 →
      (∀ l ∈ activeLanes s o.p.toNat, (rdV s l o.v.toNat).toNat < 64 → (heldLanes s).getLsbD (rdV s l o.v.toNat).toNat = true →
        isEmptyLoc s (locate s (rdV s l o.v.toNat).toNat o.a.toNat) = false) →
    LaneResult (.vshuf o) s o.p o.d.toNat 1 fun l =>
      let j := (rdV s l o.v.toNat).toNat
      [if j < 64 ∧ (heldLanes s).getLsbD j = true then rdV s j o.a.toNat else 0]

/-- R332: PSET writes one predicate of each active lane; p0 stays 1, and no register changes. -/
def Obligations.PredicateSetResult : Prop :=
  ∀ (o : LW) (s : State), activeLanes s o.p.toNat ≠ [] → Decodes s (.pset o) 0 →
    SourcesFull s (activeLanes s o.p.toNat) [⟨o.d.toNat, 1, false⟩] →
    ∃ t, exec (.pset o) s = .next t ∧ LaneOnly s t ∧ t.lane.reg = s.lane.reg ∧ t.lane.empty = s.lane.empty
      ∧ t.lane.out = s.lane.out ∧ t.lane.parked = s.lane.parked ∧ t.lane.predSh = s.lane.predSh
      ∧ (∀ l ∈ activeLanes s o.p.toNat, ∀ q, q < 8 →
          let old := s.preds (fibKey (curGk s) l)
          let b := bit (rdV s l o.d.toNat).toNat (o.imm.toNat % 32) != o.imm.getLsbD 8
          (t.preds (fibKey (curGk s) l)).getLsbD q =
            if q = bits o.imm.toNat 13 11 then psetOp (bits o.imm.toNat 10 9) (old.getLsbD q) b else old.getLsbD q)
      ∧ ∀ fk, (∀ l ∈ activeLanes s o.p.toNat, fk ≠ fibKey (curGk s) l) → t.preds fk = s.preds fk

/-! ## Decode fates and sources -/

/-- R269: a lane word with no active lane only moves on, whatever its fields hold. -/
def Obligations.InactiveLaneWordOnlyMoves : Prop :=
  ∀ (i : Instr) (s : State) (w : Nat) (rest : List Nat), encodeWords i = w :: rest → bit w 31 = false →
    activeLanes s (bits w 29 27) = [] → ∃ t, exec i s = .next t ∧ OnlyMoved s t

/-- R266, R268, R269: the first decode cause that applies, 0x043 before 0x041 before 0x042, traps in the active
lanes of a lane word and in the entry's lanes of a uniform word; an opcode that no instruction has raises 0x040 so. RPC is
the next unit. -/
def Obligations.DecodeCausesTrap : Prop :=
  (∀ (w : Word) (s : State), CanTrap s →
    (w.getLsbD 31 = false → activeLanes s (bits w.toNat 29 27) ≠ []) →
    ∃ t, exec (.undefinedOpcode w) s = .next t ∧
      TrapRaised s t 0x040 (if w.getLsbD 31 then heldLanes s else maskOf (activeLanes s (bits w.toNat 29 27))) 0 0 (nextPc s))
  ∧ ∀ (i : Instr) (s : State) (w c : Nat) (rest : List Nat), encodeWords i = w :: rest → CanTrap s →
    let n := if bit w 31 then 1 else 0
    (featuresPresent s i n = false ∧ c = 0x043) ∨ (featuresPresent s i n = true ∧ reservedOk i = false ∧ c = 0x041)
      ∨ (featuresPresent s i n = true ∧ reservedOk i = true ∧ unusedOk i = false ∧ c = 0x042) →
    (bit w 31 = false → activeLanes s (bits w 29 27) ≠ []) →
    ∃ t, exec i s = .next t ∧
      TrapRaised s t c (if bit w 31 then heldLanes s else maskOf (activeLanes s (bits w 29 27))) 0 0 (nextPc s)

/-- R69, R243: outside emulation handlers, an empty source under the trap policy raises 0x081 in the lanes that have one;
otherwise an empty source or a destination with an access outstanding makes the instruction yield, with no effect. So it is for
every computing lane instruction of Tables 120 to 123 and 126 and for the loads, stores, atomics and scratchpad accesses, whose
sources are the lane offset and, but for a load, the data; their base register is not outstanding. -/
def Obligations.EmptySourcesTrapOrYield : Prop :=
  (∀ (o : LR) (n : LI) (w : LW) (s : State), ∀ e ∈ computeForms o n w, inEmul s = false → activeLanes s e.2.1.toNat ≠ [] →
    Decodes s e.1 0 → fieldsFit (⟨e.2.2.2.1, e.2.2.2.2, false⟩ :: e.2.2.1) = true →
    EmptyOutcome e.1 s (activeLanes s e.2.1.toNat) e.2.2.1 [⟨e.2.2.2.1, e.2.2.2.2, false⟩])
  ∧ (∀ (o : LM) (x : Disp) (s : State),
    ∀ e ∈ loadForms o x ++ storeForms o x ++ scratchLoadForms o x ++ scratchStoreForms o x, inEmul s = false →
    activeLanes s o.p.toNat ≠ [] → Decodes s e.1 0 → fieldsFit (memDests e.2 ++ memSources e.2) = true → UniformFree s [e.2.sb.toNat] →
    EmptyOutcome e.1 s (activeLanes s o.p.toNat) (memSources e.2) (memDests e.2))
  ∧ ∀ (o : LA) (x : Disp) (s : State), ∀ e ∈ atomicForms o x, inEmul s = false →
    activeLanes s o.p.toNat ≠ [] → Decodes s e.1 0 → fieldsFit (memDests e.2 ++ memSources e.2) = true → UniformFree s [e.2.sb.toNat] →
    EmptyOutcome e.1 s (activeLanes s o.p.toNat) (memSources e.2) (memDests e.2)

/-! ## Uniform instructions -/

/-- R354, R355, R356: scalar arithmetic of two sources, of one, with an immediate, and SSEL. -/
def Obligations.UniformArithmeticResults : Prop :=
  (∀ e ∈ uniformTwo, ∀ (o : UR) (s : State), UniformReady s (e.1 o) [o.d.toNat, o.a.toNat, o.c.toNat] →
    UniformResult (e.1 o) s o.d.toNat (e.2 o (rdS s o.a.toNat) (rdS s o.c.toNat)))
  ∧ (∀ e ∈ uniformOne, ∀ (o : UR) (s : State), UniformReady s (e.1 o) [o.d.toNat, o.a.toNat] →
    UniformResult (e.1 o) s o.d.toNat (e.2 (rdS s o.a.toNat)))
  ∧ (∀ e ∈ uniformImm, ∀ (o : UI) (s : State), UniformReady s (e.1 o) [o.d.toNat] →
    UniformResult (e.1 o) s o.d.toNat (e.2 o.imm (rdS s o.d.toNat)))
  ∧ ∀ (o : UR) (s : State), UniformReady s (.ssel o) [o.d.toNat, o.a.toNat, o.c.toNat] →
    UniformResult (.ssel o) s o.d.toNat
      (if ((curGroup s).conds.getLsbD (o.f.toNat % 8) != o.f.getLsbD 3) = true then rdS s o.a.toNat else rdS s o.c.toNat)

/-- R70: a uniform register whose access is outstanding makes its reader or writer yield until it returns: every scalar
instruction of Table 132, SVOTE, SREADL and the scalar accesses. -/
def Obligations.OutstandingUniformYields : Prop :=
  ∀ (o : UR) (n : UI) (s : State), ∀ e ∈ uniformForms o n, Decodes s e.1 1 →
    (∃ r ∈ e.2, s.uni.sout.get (curGk s * 64 + r) ≠ 0) →
    ∃ t ks, exec e.1 s = .next t ∧ Yielded s t (.uniform ks)
      ∧ ∀ k, k ∈ ks ↔ (s.uni.sout.get k ≠ 0 ∧ ∃ r ∈ e.2, k = curGk s * 64 + r)

/-- R357 to R359: SCMP sets one condition bit; SVOTE counts or gathers a predicate over the instruction's lanes;
SREADL reads one lane, or 0 where that lane is not readable. -/
def Obligations.ConditionResults : Prop :=
  (∀ (o : UR) (s : State), UniformReady s (.scmp o) [o.a.toNat, o.c.toNat] →
    let a := rdS s o.a.toNat
    let b := rdS s o.c.toNat
    let rel : Bool := [a == b, a != b, a.slt b, a.sle b, b.slt a, b.sle a, a.ult b, a.ule b, b.ult a, b.ule a].getD (o.f.toNat % 16) false
    ∃ t, exec (.scmp o) s = .next t ∧ UniformCond s t none (some (o.d.toNat, rel != o.f.getLsbD 4)))
  ∧ (∀ (o : UI) (s : State), UniformReady s (.svote o) [o.d.toNat] →
    let n := o.imm.toNat
    let lanes := maskList (actLanes s)
    let yes := lanes.filter fun l => (s.preds (fibKey (curGk s) l)).getLsbD (n % 8)
    let v : DWord := match bits n 4 3 with
      | 0 => if yes = [] then 0 else 1
      | 1 => if yes = lanes then 1 else 0
      | 2 => maskOf yes
      | _ => BitVec.ofNat 64 yes.length
    ∃ t, exec (.svote o) s = .next t
      ∧ UniformCond s t (some (o.d.toNat, v)) (if o.imm.getLsbD 5 then some (bits n 8 6, v != 0) else none))
  ∧ ∀ (o : UI) (s : State), UniformReady s (.sreadl o) [o.d.toNat] →
    let n := o.imm.toNat % 64
    let k := if o.imm.getLsbD 13 then 2 else 1
    let first := o.imm.getLsbD 12
    n + k ≤ 64 →
    ((if first then lowest (actLanes s) = none else (heldLanes s).getLsbD (bits o.imm.toNat 11 6) = false) →
      UniformResult (.sreadl o) s o.d.toNat 0)
    ∧ ∀ l, (if first then lowest (actLanes s) = some l else l = bits o.imm.toNat 11 6 ∧ (heldLanes s).getLsbD l = true) →
      (∀ i, i < k → isEmptyLoc s (locate s l (n + i)) = false) →
      UniformResult (.sreadl o) s o.d.toNat
        (if k = 1 then (rdV s l n).zeroExtend 64 else (rdV s l n).zeroExtend 64 ||| ((rdV s l (n + 1)).zeroExtend 64 <<< 32))

/-- R360, R361: SLD, SST and SATOM start lane 0's access to s[sa] + s[sb] (SATOM: s[sa]). -/
def Obligations.ScalarMemoryStarts : Prop :=
  (∀ (o : UR) (s : State) (ia r : Nat),
    let n := 2 ^ (o.f.toNat % 4)
    let va := (rdS s o.a.toNat + rdS s o.c.toNat).toNat
    let ld : ScalarForm := ⟨va, n, .load, o.f.getLsbD 3, o.f.getLsbD 2, .uniform o.d.toNat, 0, 0, false⟩
    let st : ScalarForm := ⟨va, n, .store, o.f.getLsbD 3, false, .none, (rdS s o.d.toNat).toNat % 256 ^ n, 0, false⟩
    (ScalarReady s (.sld o) [o.d.toNat, o.a.toNat, o.c.toNat] ld ia r → ScalarStarted (.sld o) s ld ia r)
    ∧ (ScalarReady s (.sst o) [o.d.toNat, o.a.toNat, o.c.toNat] st ia r → ScalarStarted (.sst o) s st ia r))
  ∧ ∀ (o : UR) (s : State) (ia r : Nat),
    let n := if o.f.getLsbD 3 then 8 else 4
    let op := o.f.toNat % 8
    let sd := (rdS s o.d.toNat).toNat % 256 ^ n
    let sb := (rdS s o.c.toNat).toNat % 256 ^ n
    let m : ScalarForm := ⟨(rdS s o.a.toNat).toNat, n, .atomic op, true, false, .uniform o.d.toNat, if op = 7 then sd else sb, sb, o.f.getLsbD 4⟩
    ScalarReady s (.satom o) [o.d.toNat, o.a.toNat, o.c.toNat] m ia r → ScalarStarted (.satom o) s m ia r

/-! ## Lane memory instructions -/

/-- R341 to R344: a load starts one access over its active lanes; its destination registers are empty until it
returns, the load counter rises, and no byte of memory changes. -/
def Obligations.LaneLoadsStart : Prop :=
  ∀ (o : LM) (x : Disp) (s : State), ∀ e ∈ loadForms o x, MemReady s e.1 o.p e.2 →
    ∃ t, exec e.1 s = .next t ∧ AccessStarted s t (memCapture s e.2 (activeLanes s o.p.toNat)) true
      ∧ DestsOut s t (activeLanes s o.p.toNat) e.2.d e.2.dsts
      ∧ (memCapture s e.2 (activeLanes s o.p.toNat)).lanes.map CapLane.lane = activeLanes s o.p.toNat
      ∧ ∀ c ∈ (memCapture s e.2 (activeLanes s o.p.toNat)).lanes,
          memCheck s e.2 c.lane = .ok (c.ia, c.nol1)

/-- R345: a store starts one access whose events carry each lane's bytes to the address that its lane's check gave;
no register, full bit or byte of memory changes yet, and the load counter does not count it. -/
def Obligations.LaneStoresStart : Prop :=
  ∀ (o : LM) (x : Disp) (s : State), ∀ e ∈ storeForms o x, MemReady s e.1 o.p e.2 →
    ∃ t, exec e.1 s = .next t ∧ AccessStarted s t (memCapture s e.2 (activeLanes s o.p.toNat)) false
      ∧ t.lane = s.lane ∧ t.uni.sout = s.uni.sout
      ∧ (memCapture s e.2 (activeLanes s o.p.toNat)).lanes.map CapLane.lane = activeLanes s o.p.toNat
      ∧ ∀ c ∈ (memCapture s e.2 (activeLanes s o.p.toNat)).lanes,
          memCheck s e.2 c.lane = .ok (c.ia, c.nol1) ∧ c.d = groupValue s c.lane o.d.toNat e.2.regs % 256 ^ e.2.n

/-- R348, R350: an atomic starts one access with its operands; its destination is empty until the old value returns. -/
def Obligations.LaneAtomicsStart : Prop :=
  ∀ (o : LA) (x : Disp) (s : State), ∀ e ∈ atomicForms o x, MemReady s e.1 o.p e.2 →
    ∃ t, exec e.1 s = .next t ∧ AccessStarted s t (memCapture s e.2 (activeLanes s o.p.toNat)) true
      ∧ DestsOut s t (activeLanes s o.p.toNat) e.2.d e.2.dsts
      ∧ ∀ c ∈ (memCapture s e.2 (activeLanes s o.p.toNat)).lanes,
          memCheck s e.2 c.lane = .ok (c.ia, c.nol1) ∧ c.d = groupValue s c.lane o.d.toNat e.2.dsts
          ∧ c.nv = groupValue s c.lane (o.d.toNat + e.2.dsts) (e.2.regs - e.2.dsts)

/-- R72, R121, R343: a scratchpad load takes its bytes at issue, and they are on their way to each lane's empty destination; one of
8 or 16 bytes without W is sent as events of 4 bytes. -/
def Obligations.ScratchLoadsStart : Prop :=
  ∀ (o : LM) (x : Disp) (s : State), ∀ e ∈ scratchLoadForms o x, ScratchReady s e.1 o.p e.2 →
    ∃ t, exec e.1 s = .next t ∧ MovedOn s t ∧ DestsOut s t (activeLanes s o.p.toNat) e.2.d e.2.dsts
      ∧ (∀ k, t.laneReg k = s.laneReg k) ∧ t.uni.sreg = s.uni.sreg ∧ t.core = s.core ∧ (∀ a, memByte t a = memByte s a)
      ∧ (scratchSplits e.2 = true → ScratchSplit s t e.2 (activeLanes s o.p.toNat))
      ∧ (scratchSplits e.2 = false → ∀ l ∈ activeLanes s o.p.toNat, ∃ id, ∃ h ∈ t.agenda, h.what = .loadReturn ∧ h.x = id
          ∧ (t.mm.reqs.get id).src = .lane s.mm.nextId l ∧ (t.mm.reqs.get id).len = e.2.n
          ∧ (t.mm.reqs.get id).data = leNat ((List.range e.2.n).map fun i =>
              scratchByte s s.cur.core ((curTeam s).sbase + laneAddr s l e.2.sb e.2.a e.2.x + i)))

/-- R72, R121, R345: a scratchpad store has written its bytes when it completes, lane after lane in ascending order; where lanes
overlap the highest-numbered stands, and every other byte of every scratchpad is kept. One of 8 or 16 bytes without W is sent as
events of 4 bytes. -/
def Obligations.ScratchStoresWrite : Prop :=
  ∀ (o : LM) (x : Disp) (s : State), ∀ e ∈ scratchStoreForms o x, ScratchReady s e.1 o.p e.2 →
    let at_ (l : Nat) : Nat := scratchKey s.cur.core ((curTeam s).sbase + laneAddr s l e.2.sb e.2.a e.2.x)
    (scratchSplits e.2 = true → ∃ t, exec e.1 s = .next t ∧ MovedOn s t ∧ t.lane = s.lane ∧ t.uni.sreg = s.uni.sreg
      ∧ t.core = s.core ∧ (∀ a, memByte t a = memByte s a) ∧ ScratchSplit s t e.2 (activeLanes s o.p.toNat))
    ∧ (scratchSplits e.2 = false → ∃ t, exec e.1 s = .next t
      ∧ MovedOn s t ∧ t.lane = s.lane ∧ UniformKept s t ∧ t.mm = s.mm ∧ (∀ a, memByte t a = memByte s a)
      ∧ (∀ k, t.core.scratch.get k =
          match (activeLanes s o.p.toNat).reverse.find? (fun l => decide (at_ l ≤ k) && decide (k < at_ l + e.2.n)) with
          | some l => BitVec.ofNat 8 (groupValue s l o.d.toNat e.2.regs / 256 ^ (k - at_ l))
          | none => s.core.scratch.get k)
      ∧ t.core.teams = s.core.teams ∧ t.core.banks = s.core.banks ∧ t.core.regs = s.core.regs ∧ t.core.tiles = s.core.tiles
      ∧ t.task = s.task ∧ t.eng = s.eng ∧ t.agenda = s.agenda)

/-- R346: a prefetch writes nothing and never traps on its addresses; the lanes that pass their check are posted. -/
def Obligations.PrefetchWritesNothing : Prop :=
  ∀ (o : LM) (x : Disp) (s : State), ∀ e ∈ [(Instr.vpref o, prefForm o none), (Instr.vprefD o x, prefForm o (some x))],
    activeLanes s o.p.toNat ≠ [] → Decodes s e.1 0 → UniformFree s [o.sb.toNat] →
    SourcesFull s (activeLanes s o.p.toNat) (offsetField o.a o.fa e.2.x) →
    ∃ t, exec e.1 s = .next t ∧ MovedOn s t ∧ t.lane = s.lane ∧ UniformKept s t ∧ t.core = s.core ∧ t.mm.accs = s.mm.accs
      ∧ (∀ a, memByte t a = memByte s a) ∧ t.mm.sc = s.mm.sc ∧ t.mm.vers = s.mm.vers
      ∧ ∀ l ∈ activeLanes s o.p.toNat, ∀ ia nol1, memCheck s e.2 l = .ok (ia, nol1) → ∃ h ∈ t.agenda,
          h.what = .requestAtNearSlice ∧ (t.mm.reqs.get h.x).kind = .pref o.sz.toNat ∧ (t.mm.reqs.get h.x).ia = ia

/-! ## Control -/

/-- R364: BR goes to PC plus its offset in units when its condition holds (N with index 0 always holds), moves on when it does not, and raises
0x0C2 where the target lies outside the function; NOP only moves on. -/
def Obligations.BranchResults : Prop :=
  (∀ (o : UB) (s : State), UniformReady s (.br o) [] →
    let taken : Bool := (o.n && o.k == 0) || ((curGroup s).conds.getLsbD o.k.toNat != o.n)
    let target : Pc := curPc s + o.off.signExtend 57 * BitVec.ofNat 57 (curUnit s)
    (taken = false → ∃ t, exec (.br o) s = .next t ∧ OnlyMoved s t)
    ∧ (taken = true → inExtent s target.toNat = true → ∃ t, exec (.br o) s = .next t ∧ JumpedTo s t target)
    ∧ (taken = true → inExtent s target.toNat = false → CanTrap s → ∃ t, exec (.br o) s = .next t
        ∧ TrapRaised s t 0x0C2 (heldLanes s) 0 0 (if s.cur.rep then nextPc s else curPc s)))
  ∧ ∀ (o : UR) (s : State), UniformReady s (.nop o) [] → ∃ t, exec (.nop o) s = .next t ∧ OnlyMoved s t

/-- R365, R172: BRX reads its table, and each lane's offset; lanes with one target go there together, and lanes
with several split, the issuing entry keeping the lowest target and each further target taking an entry of its own. -/
def Obligations.IndexedBranchResults : Prop :=
  ∀ (o : UX) (s s1 s2 : State) (bs : List Byte) (l : List (Nat × LaneTarget)),
    UniformReady s (.brx o) ([o.a.toNat] ++ if o.e = 0 then [o.c.toNat] else []) →
    (o.e = 1 → SourcesFull s (maskList (actLanes s)) [⟨o.h.toNat, 1, false⟩]) →
    (rdS s o.a.toNat).toNat % 4 = 0 →
    curRead s (rdS s o.a.toNat).toNat 4 = .ok bs s1 → 0 < leNat bs → leNat bs ≤ 256 →
    brxLanes s o (rdS s o.a.toNat).toNat (leNat bs) (maskList (actLanes s)) s1 [] = .ok l s2 → failsOf l = [] →
    (∀ pc m, byTarget (targetsOf l) = [(pc, m)] → ∃ t, exec (.brx o) s = .next t ∧ JumpedTo s2 t (BitVec.ofNat 57 pc))
    ∧ ∀ pc m p rest, byTarget (targetsOf l) = (pc, m) :: p :: rest → inEmul s2 = false → (curEntry s2).st ≠ .free →
        (p :: rest).length ≤ (freeEntries s2 (curGk s2)).length →
        ∃ t, exec (.brx o) s = .next t
          ∧ (t.ent (curEk s2)).pc = BitVec.ofNat 57 pc ∧ (t.ent (curEk s2)).lanes = m ∧ (t.ent (curEk s2)).boundary = true
          ∧ (∀ q ∈ p :: rest, ∃ j ∈ freeEntries s2 (curGk s2), (gEnt t (curGk s2) j).st = .ready
              ∧ (gEnt t (curGk s2) j).parent = curJ s2 ∧ (gEnt t (curGk s2) j).pc = BitVec.ofNat 57 q.1
              ∧ (gEnt t (curGk s2) j).lanes = q.2)
          ∧ t.lane = s2.lane ∧ ∀ a, memByte t a = memByte s2 a

/-- R366, R367: CALL and CALLX enter the function whose table entry is read, leaving the link of the caller; RET goes
back by the link, which is then 0. -/
def Obligations.CallResults : Prop :=
  (∀ (o : UI) (s s1 : State) (f : Nat) (link : DWord),
    let c := (funcFte (curFunc s) + sext 17 64 o.imm.toNat * 32) % 2 ^ 64
    UniformReady s (.call o) [funcReg s, linkReg s] → funcFte (curFunc s) ≠ 0 → c % 32 = 0 → c < 2 ^ 45 →
    readFte s c = .ok f s1 → callLink s = some link → entry0Parked s = false →
    ∃ t, exec (.call o) s = .next t ∧ CalledTo s1 t (BitVec.ofNat 57 (fteEntry f)) (withFte (curFunc s1) c) link c f)
  ∧ (∀ (o : UR) (s s1 : State) (f : Nat) (link : DWord),
    let c := (rdS s o.a.toNat).toNat
    UniformReady s (.callx o) [o.a.toNat, funcReg s, linkReg s] → c % 32 = 0 → c < 2 ^ 45 →
    readFte s c = .ok f s1 → callLink s = some link → entry0Parked s = false →
    ∃ t, exec (.callx o) s = .next t ∧ CalledTo s1 t (BitVec.ofNat 57 (fteEntry f)) (withFte (curFunc s1) c) link c f)
  ∧ ∀ (o : UR) (s : State), UniformReady s (.ret o) [funcReg s, linkReg s] → entry0Parked s = false →
    let link := rdS s (linkReg s)
    (link.getLsbD 63 = true →
      ∃ t, exec (.ret o) s = .next t ∧ CalledTo s t (BitVec.ofNat 57 (link.toNat % 2 ^ 57)) (withFte (curFunc s) 0) 0 0 0)
    ∧ (∀ f s1, link ≠ 0 → link.getLsbD 63 = false → readFte s (linkCfte link) = .ok f s1 →
        linkOff link * fteUnit f < fteExtent f →
        ∃ t, exec (.ret o) s = .next t
          ∧ CalledTo s1 t (BitVec.ofNat 57 (fteEntry f + linkOff link * fteUnit f)) (withFte (curFunc s1) (linkCfte link)) 0 (linkCfte link) f)
    ∧ (link = 0 → CanTrap s → ∃ t, exec (.ret o) s = .next t
        ∧ TrapRaised s t 0x0C6 (heldLanes s) 0 0 (if s.cur.rep then nextPc s else curPc s))

/-- R370, R371: FSPAWN of no fibres answers all ones; of some, the lowest identifier, and they are live: they start at ENTRY +
SignExtend(s[sb]) × unit of the issuing entry's function or, with F, at the ENTRY of the function that s[sb] names. FEND ends the
entry's fibres, never the leader. -/
def Obligations.FibreResults : Prop :=
  (∀ (o : UR) (s s1 : State) (p : Spawn) (f : Nat),
    let b := rdS s o.c.toNat
    let target : Int := (fteEntry (curFte s) : Int) + b.toInt * curUnit s
    let near : Prop := o.f.getLsbD 0 = false ∧ funcFte (curFunc s) ≠ 0 ∧ 0 ≤ target ∧ inExtent s target.toNat = true ∧ s1 = s
      ∧ p = { pc := target.toNat, func := curFunc s, link := rdS s (linkReg s), fteAt := (curEntry s).fteAt, fteRaw := (curEntry s).fteRaw }
    let far : Prop := o.f.getLsbD 0 = true ∧ b.toNat % 32 = 0 ∧ b.toNat < 2 ^ 45 ∧ readFte s b.toNat = .ok f s1
      ∧ p = { pc := fteEntry f, func := withFte 0 b.toNat, link := 0, fteAt := b.toNat, fteRaw := BitVec.ofNat 256 f }
    let n := (rdS s1 o.a.toNat).toNat
    let free := freeFibres s1 (curTeam s1)
    UniformReady s (.fspawn o) ([o.d.toNat, o.a.toNat, o.c.toNat] ++ if o.f.getLsbD 0 then [] else [funcReg s, linkReg s]) →
    inEmul s = false → near ∨ far →
    (n = 0 → ∃ t, exec (.fspawn o) s = .next t ∧ UniformWrote s1 t o.d.toNat (~~~0))
    ∧ (0 < n → n ≤ free.length → (curEntry s1).st ≠ .free → heldLanes s1 ≠ 0 →
        (∀ tg, spawnFits s1 (teamGroup s1 (curTeam s1) tg) p = true) →
        relDone s1 (curGk s1) (heldLanes s1) = true →
        ∃ t, exec (.fspawn o) s = .next t ∧ t.sregOf (curGk s1) o.d.toNat = BitVec.ofNat 64 (free.headD 0)
          ∧ (t.ent (curEk s1)).pc = (movedOn s1).pc ∧ (t.ent (curEk s1)).lanes = (curEntry s1).lanes
          ∧ (∀ f ∈ free.take n, f / 64 < 16 → fibreLive t (curTeam s1) f = true)
          ∧ ∀ a, memByte t a = memByte s1 a))
  ∧ ∀ (o : UR) (s : State), UniformReady s (.fend o) [] → inEmul s = false → inHandler s = false →
    ¬((curGroup s).tgrp = 0 ∧ (heldLanes s).getLsbD 0 = true) →
    windowBusy s ((maskList (heldLanes s)).map (fibKey (curGk s))) 0 512 = false →
    ∃ t, exec (.fend o) s = .next t ∧ (t.group (curGk s)).live = (curGroup s).live &&& ~~~(heldLanes s)
      ∧ (∀ g, g ≠ curGk s → t.group g = s.group g)
      ∧ (∀ k, (∀ l ∈ maskList (heldLanes s), k / 512 ≠ fibKey (curGk s) l) → t.laneReg k = s.laneReg k ∧ t.isEmpty k = s.isEmpty k)
      ∧ t.mm = s.mm ∧ (∀ a, memByte t a = memByte s a) ∧ t.core = s.core

/-- R372: SETWIN sets WB of the issuing entry's function word; with Z the block's 64 registers are 0 and full. -/
def Obligations.WindowResult : Prop :=
  ∀ (o : UI) (s : State), UniformReady s (.setwin o) [funcReg s] → inEmul s = false → inHandler s = false →
    let b := o.imm.toNat % 4
    b < (curTeam s).window / 64 → entry0Parked s = false →
    (let fks := (maskList (heldLanes s)).map (fibKey (curGk s))
     let wb := funcWb (curFunc s)
     windowBusy s fks (64 * wb) (64 * wb + 64) = false) →
    ∃ t, exec (.setwin o) s = .next t
      ∧ t.sregOf (curGk s) (funcReg s) = (curFunc s &&& ~~~3) ||| BitVec.ofNat 64 b
      ∧ (∀ g r, g * 64 + r ≠ curGk s * 64 + funcReg s → t.sregOf g r = s.sregOf g r)
      ∧ (∀ k, let mine : Prop := ∃ l ∈ maskList (heldLanes s), k / 512 = fibKey (curGk s) l ∧ 64 * b ≤ k % 512 ∧ k % 512 < 64 * b + 64
          (mine → o.imm.getLsbD 2 = true → t.laneReg k = 0 ∧ t.isEmpty k = false)
          ∧ (¬mine ∨ o.imm.getLsbD 2 = false → t.laneReg k = s.laneReg k ∧ t.isEmpty k = s.isEmpty k))
      ∧ MovedOn s t ∧ Kept s t

/-- R252, R253: REP moves on to its target, a lane word, with the repetition state of Table 84 active; a repetition
then issues with its fields stepped. Where the unit after REP is a uniform word REP raises 0x0C4; in a handler the job dies of it. -/
def Obligations.RepeatResults : Prop :=
  (∀ (o : UI) (s s1 : State) (f : Fetched), UniformReady s (.rep o) [] → inHandler s = false →
    inExtent s (nextPc s).toNat = true → fetchAt s (nextPc s).toNat = .ok f s1 → f.word.getLsbD 31 = false →
    ∃ t, exec (.rep o) s = .next t
      ∧ t.ent (curEk s1) = { movedOn s1 with repst := repstOf o f.len } ∧ (∀ k, k ≠ curEk s1 → t.ent k = s1.ent k)
      ∧ t.lane = s1.lane ∧ UniformKept s1 t ∧ Kept s1 t)
  ∧ (∀ (o : UI) (s s1 : State) (f : Fetched), UniformReady s (.rep o) [] → CanTrap s →
    inExtent s (nextPc s).toNat = true → fetchAt s (nextPc s).toNat = .ok f s1 → f.word.getLsbD 31 = true →
    ∃ t, exec (.rep o) s = .next t ∧ TrapRaised s t 0x0C4 (heldLanes s) 0 0 (if s.cur.rep then nextPc s else curPc s))
  ∧ (∀ (o : UI) (s : State), Decodes s (.rep o) 1 → inHandler s = true →
    exec (.rep o) s = .next (killTeam (updCur (endRand s) fun e => { e with trapped := true }) (curTeamKey s) 0x0C4))
  ∧ ∀ (s : State), exec .repRepetition s = .next { s with cur := { s.cur with
      rep := true, word := BitVec.ofNat 32 (repWord s.cur.word.toNat (curEntry s).repst) } }

/-- R373, R374: YIELD ends the rand after it. BAR: a fibre whose round is complete passes; the last arrival completes
the round; any other arrival is counted and waits. -/
def Obligations.YieldAndBarrierResults : Prop :=
  (∀ (o : UR) (s : State), UniformReady s (.yield o) [] →
    ∃ t, exec (.yield o) s = .next t ∧ t.ent (curEk s) = { movedOn s with boundary := true, since := s.now }
      ∧ (∀ k, k ≠ curEk s → t.ent k = s.ent k) ∧ (∀ i, i < 4 → (t.slotAt (s.cur.core * 4 + i)).ent ≠ some s.cur.ent)
      ∧ t.lane = s.lane ∧ t.uni.sreg = s.uni.sreg ∧ t.uni.groups = s.uni.groups ∧ Kept s t)
  ∧ ∀ (o : UR) (s : State), UniformReady s (.bar o) [] → inEmul s = false →
    let lanes := heldLanes s
    let here : State := s.updGroup (curGk s) fun x => { x with arrived := x.arrived ||| lanes }
    (lanes &&& ~~~(curGroup s).barPass = 0 →
      ∃ t, exec (.bar o) s = .next t ∧ MovedOn s t ∧ Kept s t ∧ t.lane = s.lane ∧ t.uni.sreg = s.uni.sreg
        ∧ (t.group (curGk s)).barPass = (curGroup s).barPass &&& ~~~lanes)
    ∧ (lanes &&& ~~~(curGroup s).barPass ≠ 0 → relDone s (curGk s) lanes = true →
        (∀ g ∈ teamGroups s.cur.core (curTeam s), (here.group g).live &&& ~~~(here.group g).arrived = 0) →
        ∃ t, exec (.bar o) s = .next t ∧ MovedOn s t ∧ Kept s t ∧ t.lane = s.lane ∧ t.uni.sreg = s.uni.sreg
          ∧ ∀ g ∈ teamGroups s.cur.core (curTeam s), (t.group g).arrived = 0)
    ∧ (lanes &&& ~~~(curGroup s).barPass ≠ 0 → relDone s (curGk s) lanes = true →
        (∃ g ∈ teamGroups s.cur.core (curTeam s), (here.group g).live &&& ~~~(here.group g).arrived ≠ 0) →
        ∃ t, exec (.bar o) s = .next t ∧ Yielded here t .bar)

/-! ## Traps -/

/-- R375: TRAP raises its class 0 cause with the register in AUX and the next unit in RPC. -/
def Obligations.TrapInstructionTraps : Prop :=
  ∀ (o : UI) (s : State), UniformReady s (.trap o) [o.d.toNat] → CanTrap s →
    ∃ t, exec (.trap o) s = .next t ∧ TrapRaised s t (o.imm.toNat % 64) (actLanes s) 0 (rdS s o.d.toNat) (nextPc s)

/-- R225, R369, Table 74: delivery takes the head of the queue to entry j: the entry stands at the handler's first
instruction, the trap information registers hold the trap, s56 to s63, the condition bits and the predicates are in
the shadows, the function and link words lie in v60 to v63 of the handler's window, and the handler has no function. -/
def Obligations.TrapDeliveryEntersHandler : Prop :=
  ∀ (s : State) (q : TrapEntry) (j : Nat) (pc : Pc),
    let g := groupKey s.cur.x s.cur.y
    deliverable s g = some (q, some j) → handlerEntry (groupBank s g) q.cause = some pc → q.cause / 64 ≠ 1 →
    ∃ t, exec .trapDelivery s = .next t
      ∧ (t.ent (gEntKey g j)).pc = pc ∧ (t.ent (gEntKey g j)).st = .ready ∧ (t.ent (gEntKey g j)).trapped = false
      ∧ (t.group g).queue = (s.group g).queue.drop 1 ∧ (t.group g).recv = some j ∧ (t.group g).depth = 0
      ∧ (t.group g).trpc = BitVec.ofNat 64 (resumePc (gEnt s g j) q).toNat ∧ (t.group g).trfpc = BitVec.ofNat 64 q.fpc.toNat
      ∧ (t.group g).traddr = q.addr ∧ (t.group g).trmask = q.mask ∧ (t.group g).traux = q.aux
      ∧ bits (t.group g).trcause.toNat 9 0 = q.cause % 1024
      ∧ (t.group g).shC = (s.group g).conds ∧ (t.group g).shS = (List.range 8).map (fun i => s.sregOf g (56 + i))
      ∧ (j < 8 → funcFte (t.sregOf g (48 + j)) = 0 ∧ t.sregOf g (40 + j) = 0)
      ∧ (∀ l ∈ liveLanesOf s g j, t.lane.predSh.get (fibKey g l) = s.lane.pred.get (fibKey g l)
          ∧ t.laneReg (regKey (fibKey g l) 316) = (s.sregOf g (48 + j)).extractLsb' 0 32
          ∧ t.laneReg (regKey (fibKey g l) 317) = (s.sregOf g (48 + j)).extractLsb' 32 32
          ∧ t.laneReg (regKey (fibKey g l) 318) = (s.sregOf g (40 + j)).extractLsb' 0 32
          ∧ t.laneReg (regKey (fibKey g l) 319) = (s.sregOf g (40 + j)).extractLsb' 32 32)
      ∧ (∀ k, k ≠ gEntKey g j → t.ent k = s.ent k) ∧ t.mm = s.mm ∧ ∀ a, memByte t a = memByte s a

/-- R56, R226, R227, R255, R280, R283, R284: outside a handler ERET raises 0x0C1. In a trap handler, or in an emulation handler of
depth 1, it first performs the captured lanes that RPMASK names, as one access, and waits for them; then the entry goes to TRPC, or
to a repetition's target; s56 to s63, the condition bits, the predicates and the function and link words come back from the
shadows, and the group is out of the handler. An emulation handler that has set EMSTAT raises the cause there at the emulated
instruction. From a deeper level it goes back to the level outside, whose trap registers come from its block. -/
def Obligations.EretReturns : Prop :=
  (∀ (o : UR) (s : State), UniformReady s (.eret o) [] → CanTrap s →
    ∃ t, exec (.eret o) s = .next t ∧ TrapRaised s t 0x0C1 (heldLanes s) 0 0 (if s.cur.rep then nextPc s else curPc s))
  ∧ (∀ (o : UR) (s : State) (q : TrapEntry) (c : Capture), UniformReady s (.eret o) [] → (curGroup s).recv = some (curJ s) →
    (curGroup s).depth ≤ 1 → (curGroup s).handling = some q → q.cap = some c →
    let mine := c.lanes.filter fun l => (curGroup s).rpmask.getLsbD l.lane
    ((curGroup s).replay = none → mine ≠ [] → ∃ t, exec (.eret o) s = .next t ∧ t.cur = s.cur
      ∧ (t.group (curGk s)).replay = some s.mm.nextId ∧ (t.group (curGk s)).rpmask = 0
      ∧ (t.group (curGk s)).recv = (curGroup s).recv ∧ (t.group (curGk s)).queue = (curGroup s).queue
      ∧ (t.mm.accs.get s.mm.nextId).cap = { c with lanes := mine } ∧ (t.mm.accs.get s.mm.nextId).fpc = q.fpc
      ∧ ((∀ r, c.kind ≠ .kvx r) → EventsPosted t s.mm.nextId { c with lanes := mine })
      ∧ (∀ k, t.ent k = s.ent k) ∧ (∀ k, t.laneReg k = s.laneReg k) ∧ t.uni.sreg = s.uni.sreg ∧ ∀ a, memByte t a = memByte s a))
  ∧ (∀ (o : UR) (s : State) (a : Nat), UniformReady s (.eret o) [] → (curGroup s).recv = some (curJ s) →
    (curGroup s).replay = some a → (s.mm.accs.get a).todo ≠ [] → exec (.eret o) s = .next s)
  ∧ (∀ (o : UR) (s : State) (q : TrapEntry), UniformReady s (.eret o) [] → (curGroup s).recv = some (curJ s) →
    (curGroup s).depth ≤ 1 → (curGroup s).handling = some q → s.cur.ent < 256 →
    (∃ a, (curGroup s).replay = some a ∧ (s.mm.accs.get a).todo = [])
      ∨ ((curGroup s).replay = none ∧ ∀ c, q.cap = some c → ∀ l ∈ c.lanes, (curGroup s).rpmask.getLsbD l.lane = false) →
    let g := curGk s
    let back (t : State) : Prop := (t.group g).recv = none ∧ (t.group g).handling = none ∧ (t.group g).rpmask = 0
      ∧ (t.group g).conds = (curGroup s).shC ∧ (t.ent (curEk s)).boundary = true
      ∧ (t.ent (curEk s)).pc = (if repAct (curEntry s).repst
          then trpcOf (curGroup s) - BitVec.ofNat 57 (2 * (repLen (curEntry s).repst + 1)) else trpcOf (curGroup s))
      ∧ (∀ i, i < (curGroup s).shS.length → i < 8 → t.sregOf g (56 + i) = (curGroup s).shS.getD i 0)
      ∧ (∀ l ∈ liveLanesOf s g (curJ s), t.lane.pred.get (fibKey g l) = s.lane.predSh.get (fibKey g l) &&& 0xFE)
      ∧ (∀ l rest, liveLanesOf s g (curJ s) = l :: rest →
          let v (i : Nat) : Word := s.laneReg (regKey (fibKey g l) (handlerBase (curGroup s).depth + i))
          t.sregOf g (48 + curJ s) = cat32 (v 60) (v 61) ∧ t.sregOf g (40 + curJ s) = cat32 (v 62) (v 63))
      ∧ (∀ k, t.laneReg k = s.laneReg k) ∧ t.mm = s.mm ∧ ∀ a, memByte t a = memByte s a
    let c := (curGroup s).emcause.toNat
    ((curGroup s).depth = 0 ∨ (curGroup s).emraise = false →
      ∃ t, exec (.eret o) s = .next t ∧ back t ∧ (t.group g).queue = (curGroup s).queue)
    ∧ ((curGroup s).depth = 1 → (curGroup s).emraise = true → (curGroup s).queue.length < 8 →
      ∃ t, exec (.eret o) s = .next t ∧ back t ∧ (t.ent (curEk s)).trapped = true
        ∧ ∃ u ∈ (t.group g).queue, u.cause = (if c / 64 = 1 ∨ c / 64 = 15 then 0x045 else c) ∧ u.mask = (curGroup s).trmask
            ∧ u.rpc = q.rpc ∧ u.precise = true))
  ∧ ∀ (o : UR) (s : State), UniformReady s (.eret o) [] → (curGroup s).recv = some (curJ s) → (curGroup s).replay = none →
    2 ≤ (curGroup s).depth → (curGroup s).emraise = false → s.cur.ent < 256 →
    let g := curGk s
    let v (i : Nat) : Word := s.laneReg (regKey (fibKey g ((lowest (curGroup s).trmask).getD 0)) (handlerBase (curGroup s).depth + i))
    ∃ t, exec (.eret o) s = .next t ∧ (t.ent (curEk s)).pc = trpcOf (curGroup s) ∧ (t.ent (curEk s)).boundary = true
      ∧ (t.group g).depth = (curGroup s).depth - 1 ∧ (t.group g).recv = (curGroup s).recv
      ∧ (t.group g).trmask = cat32 (v 25) (v 26) ∧ (t.group g).traux = cat32 (v 27) (v 28)
      ∧ (t.group g).traddr = cat32 (v 23) (v 24) ∧ (t.group g).rpmask = cat32 (v 16) (v 17)
      ∧ (t.group g).conds = (curGroup s).shC ∧ (t.group g).queue = (curGroup s).queue
      ∧ (∀ i, i < (curGroup s).shS.length → i < 8 → t.sregOf g (56 + i) = (curGroup s).shS.getD i 0)
      ∧ t.lane = s.lane ∧ t.mm = s.mm ∧ ∀ a, memByte t a = memByte s a

/-! ## Ordering, full bits and line locks -/

/-- R393 to R395, R140: UFSET sets full bits of a run of registers; FENCE completes when the earlier accesses its kind
names are done, dropping the core's L1 lines for an acquire at DIE scope or wider, and yields until then. That an SC fence takes
the number that it waits for once its fibres' own writes have been numbered is the model's reading (log entry 12). -/
def Obligations.FullBitAndFenceResults : Prop :=
  (∀ (o : UX) (s : State), UniformReady s (.ufset o) [o.a.toNat] → o.h.toNat + o.m.toNat + 1 ≤ 64 →
    ∃ t, exec (.ufset o) s = .next t ∧ MovedOn s t ∧ Kept s t ∧ UniformKept s t ∧ (∀ k, t.laneReg k = s.laneReg k)
      ∧ ∀ k, t.isEmpty k =
          if (maskList (actLanes s &&& rdS s o.a.toNat)).any fun l => (List.range (o.m.toNat + 1)).any fun i =>
            locate s l (o.h.toNat + i) == .reg k
          then o.e == 0 else s.isEmpty k)
  ∧ ∀ (o : UX) (s : State), UniformReady s (.fence o) [] →
    let held := match (curEntry s).wake with
      | .fence _ n => n
      | _ => 0
    let num := if held = 0 ∧ o.e = 3 ∧ relDone s (curGk s) (heldLanes s) = true then
      (dieVc s (dieOf s.cur.core)).getD (dieOf s.cur.core) 0 + 1 else held
    let done : Prop := fenceDone s (curGk s) (heldLanes s) o.e.toNat num = true ∧ (o.e = 3 → num ≠ 0)
    (done →
      ∃ t, exec (.fence o) s = .next t ∧ MovedOn s t ∧ t.lane = s.lane ∧ UniformKept s t ∧ (∀ a, memByte t a = memByte s a)
        ∧ t.core = s.core ∧ t.task = s.task ∧ t.eng = s.eng
        ∧ (o.e ≠ 1 → 4 ≤ o.m.toNat → ∀ p ∈ t.mm.l1, p.1 / 2 ^ 45 / 64 ≠ s.cur.core)
        ∧ (o.e = 1 ∨ o.m.toNat < 4 → t.mm = s.mm))
    ∧ (¬done →
      ∃ t, exec (.fence o) s = .next t ∧ Yielded s t (.fence o.e.toNat num))

/-- R395, R80: LLOCK and LFREE send a line's lock and its release to its home; on an address that no range admits, LLOCK's
register is outstanding all the same and 4 returns to it, and LFREE does nothing. -/
def Obligations.LineLockResults : Prop :=
  (∀ (o : UR) (s : State), UniformReady s (.llock o) [o.d.toNat, o.a.toNat, o.c.toNat] → counter (curGroup s) 2 < 63 →
    let va := (rdS s o.a.toNat + rdS s o.c.toNat).toNat
    (∀ ia r, rangeCheck (curBank s) va 1 .lock = .ok (ia, r) → ∃ t, exec (.llock o) s = .next t ∧ AccessStarted s t
      { kind := .lock false, n := 8, wflag := true, dst := .uniform o.d.toNat,
        lanes := [{ lane := 0, ia := ia, d := (curBank s).lockq }], scalar := true } true)
    ∧ (∀ c, rangeCheck (curBank s) va 1 .lock = .error c → ∃ t, exec (.llock o) s = .next t ∧ AccessStarted s t
      { kind := .lock false, n := 8, wflag := true, dst := .uniform o.d.toNat, scalar := true } true
      ∧ t.uni.sout.get (curGk s * 64 + o.d.toNat) = s.mm.nextId ∧ t.lane = s.lane
      ∧ ∃ h ∈ t.agenda, h.what = .loadReturn ∧ (t.mm.reqs.get h.x).src = .lane s.mm.nextId 0 ∧ (t.mm.reqs.get h.x).data = 4))
  ∧ ∀ (o : UR) (s : State), UniformReady s (.lfree o) [o.a.toNat, o.c.toNat] →
    let va := (rdS s o.a.toNat + rdS s o.c.toNat).toNat
    (∀ ia r, rangeCheck (curBank s) va 1 .lock = .ok (ia, r) → ∃ t, exec (.lfree o) s = .next t ∧ AccessStarted s t
      { kind := .lock true, n := 8, wflag := true, dst := .none,
        lanes := [{ lane := 0, ia := ia, d := (curBank s).lockq }], scalar := true } false)
    ∧ (∀ c, rangeCheck (curBank s) va 1 .lock = .error c → ∃ t, exec (.lfree o) s = .next t ∧ MovedOn s t
        ∧ t.mm = s.mm ∧ t.lane = s.lane ∧ t.uni.sreg = s.uni.sreg)

/-! ## Special registers -/

/-- R3, R36, R254, R281, R377, R416, R417, Tables 14, 61, 79, 135: SRD reads a special register; SWR ignores a read-only one, and outside
handlers the trap information and shadow registers and EMSTAT; it traps 0x381 at a privileged one in unprivileged code and 0x0C4 at
REPST outside a handler, and otherwise writes the bits that the register holds. Writing KEYCMD or DBGCMD starts the command that it
names unless one is in progress, and ones clear bits of MBSTAT; PMSEL reads a counter and clears it. -/
def Obligations.SpecialRegisterResults : Prop :=
  (∀ (o : UI) (s : State), UniformReady s (.srd o) (o.d.toNat :: specialRegs s o.imm.toNat) →
    UniformResult (.srd o) s o.d.toNat (readSpecial s o.imm.toNat))
  ∧ (∀ (o : UI) (s : State), UniformReady s (.swr o) (o.d.toNat :: specialRegs s o.imm.toNat) →
    let i := o.imm.toNat
    let v := specialHeld i (rdS s o.d.toNat)
    let c := s.cur.core
    let r := s.cregs c
    let wrote (P : State → Prop) : Prop := ∃ t, exec (.swr o) s = .next t ∧ P t ∧ MovedOn s t ∧ DataKept s t
    (roSpecial i = true → ∃ t, exec (.swr o) s = .next t ∧ OnlyMoved s t)
    ∧ (i ∈ [0x031, 0x038, 0x039, 0x03A, 0x03B, 0x03C, 0x03D, 0x03E, 0x03F, 0x040] → inHandler s = false →
        ∃ t, exec (.swr o) s = .next t ∧ OnlyMoved s t)
    ∧ (i = 0x008 → inEmul s = false → ∃ t, exec (.swr o) s = .next t ∧ OnlyMoved s t)
    ∧ (roSpecial i = false → privSpecial i = true → s.cur.priv = false → CanTrap s → ∃ t, exec (.swr o) s = .next t
        ∧ TrapRaised s t 0x381 (heldLanes s) 0 0 (if s.cur.rep then nextPc s else curPc s))
    ∧ (i = 0x007 → inHandler s = false → CanTrap s → ∃ t, exec (.swr o) s = .next t
        ∧ TrapRaised s t 0x0C4 (heldLanes s) 0 0 (if s.cur.rep then nextPc s else curPc s))
    ∧ (i = 0x007 → inHandler s = true → s.cur.rep = false → ∃ t, exec (.swr o) s = .next t ∧ readSpecial t i = v
        ∧ (∀ k, t.ent k = if k = curEk s then { movedOn s with repst := v } else s.ent k) ∧ DataKept s t)
    ∧ (i ∈ heldSpecial → (privSpecial i = true → s.cur.priv = true) → ∃ t, exec (.swr o) s = .next t
        ∧ readSpecial t i = v ∧ (∀ k ∈ heldSpecial, k ≠ i → readSpecial t k = readSpecial s k)
        ∧ (i ≠ 0x009 → i ≠ 0x00A → t.uni.sreg = s.uni.sreg)
        ∧ (∀ k, t.ent k = if k = curEk s then (if i = 0x00A then { movedOn s with fteAt := 0 } else movedOn s) else s.ent k)
        ∧ t.lane = s.lane ∧ t.mm = s.mm ∧ (∀ a, memByte t a = memByte s a) ∧ t.eng = s.eng)
    ∧ (i ∈ [0x031, 0x038, 0x039, 0x03A, 0x03B, 0x03C, 0x03D, 0x03E, 0x03F] → inHandler s = true →
        wrote fun t => readSpecial t i = v)
    ∧ (i = 0x040 → inHandler s = true → wrote fun t => readSpecial t i = BitVec.ofNat 64 (v.toNat % 256))
    ∧ (i = 0x008 → inEmul s = true → wrote fun t => (t.group (curGk s)).emraise = v.getLsbD 15
        ∧ (t.group (curGk s)).emcause = v.extractLsb' 0 10)
    ∧ (i = 0x013 → s.cur.priv = true →
        (busy r.keycmd = true → wrote fun t => t.core = s.core ∧ t.agenda = s.agenda)
        ∧ (busy r.keycmd = false → wrote fun t =>
            (t.cregs c).keycmd = BitVec.ofNat 64 (2 ^ 63 + bits r.keycmd.toNat 15 12 * 2 ^ 12 + v.toNat % 256)
            ∧ ∃ h ∈ t.agenda, h.what = keyEvent (bits v.toNat 10 8) ∧ h.x = c ∧ h.y = v.toNat % 256 ∧ h.z = r.keyaddr.toNat))
    ∧ (i = 0x050 → s.cur.priv = true → wrote fun t => (t.cregs c).mbstat = r.mbstat &&& ~~~(v &&& 0xFFFF)
        ∧ ∀ p, p ∈ t.task.mail.get c ↔ p ∈ s.task.mail.get c ∧ ¬(p.1 < 16 ∧ v.getLsbD p.1 = true))
    ∧ (i = 0x051 → s.cur.priv = true →
        (busy r.dbgcmd = true → wrote fun t => t.core = s.core ∧ t.agenda = s.agenda)
        ∧ (busy r.dbgcmd = false → wrote fun t => busy (t.cregs c).dbgcmd = true
            ∧ bits (t.cregs c).dbgcmd.toNat 55 34 = bits v.toNat 55 34
            ∧ ∃ h ∈ t.agenda, h.what = dbgEvent (v.toNat % 16) ∧ h.x = c)))
  ∧ ∀ (o : UR) (s : State), UniformReady s (.pmsel o) [o.d.toNat] →
    (s.cur.priv = true → ∃ t, exec (.pmsel o) s = .next t ∧ MovedOn s t
      ∧ t.sregOf (curGk s) o.d.toNat = BitVec.ofNat 64 ((s.cregs s.cur.core).pmcnt.get (o.f.toNat % 4))
      ∧ (∀ g r, g * 64 + r ≠ curGk s * 64 + o.d.toNat → t.sregOf g r = s.sregOf g r)
      ∧ (∀ k, (t.cregs s.cur.core).pmcnt.get k = if k = o.f.toNat % 4 then 0 else (s.cregs s.cur.core).pmcnt.get k)
      ∧ (∀ c, c ≠ s.cur.core → t.cregs c = s.cregs c) ∧ t.lane = s.lane ∧ t.mm = s.mm ∧ ∀ a, memByte t a = memByte s a)
    ∧ (s.cur.priv = false → CanTrap s → ∃ t, exec (.pmsel o) s = .next t
        ∧ TrapRaised s t 0x381 (heldLanes s) 0 0 (if s.cur.rep then nextPc s else curPc s))

/-! ## Copies, the matrix array, handles and stage barriers -/

/-- R142, R380, R383, R385: a CPY whose operands pass Table 143 begins one CPY-class transfer on its channel or picker,
CPYC one on its channel; each only queues it. -/
def Obligations.CopyStarts : Prop :=
  (∀ (o : UX) (s : State), let f := cpyForm o
    UniformReady s (.cpy o) (regRun f.a (cpyRegsA f) ++ regRun f.b (cpyRegsB f)) →
    f.a + cpyRegsA f ≤ 64 → f.b + cpyRegsB f ≤ 64 → cpyValues s f = false → (f.kind = 3 → opBad (rdS s f.a) = false) →
    cpyExtents s f = false → cpyOwners s f = none → cpyWaits s f = none → relDone s (curGk s) (heldLanes s) = true →
    ∃ t, exec (.cpy o) s = .next t ∧ EngineBegun s t 0 s.eng.nextEng ∧ t.task = s.task
      ∧ (∃ gr, t.xfer s.eng.nextEng = { cpyXfer s f with live := true, granted := gr })
      ∧ (∀ k, (cpyXfer s f).chan = some k → (t.chan k).queue =
          (if (s.chan k).owner = none then [] else (s.chan k).queue) ++ [s.eng.nextEng])
      ∧ ((cpyXfer s f).chan = none → ∃ h ∈ t.agenda, h.what = .transferStart ∧ h.x = s.eng.nextEng))
  ∧ ∀ (o : UX) (s : State), UniformReady s (.cpyc o) [o.a.toNat] → chanCause s (o.m.toNat % 4) = none →
    counter (curGroup s) 0 < 63 → relDone s (curGk s) (heldLanes s) = true →
    let k := chanKey s.cur.core (o.m.toNat % 4)
    ∃ t, exec (.cpyc o) s = .next t ∧ EngineBegun s t 0 s.eng.nextEng ∧ t.task = s.task
      ∧ t.xfer s.eng.nextEng = { cpycXfer s o with live := true }
      ∧ (t.chan k).queue = (if (s.chan k).owner = none then [] else (s.chan k).queue) ++ [s.eng.nextEng]

/-- R386, R387: a CPYM begins its copy and, behind it in its tile's order, the MMA that its word names, which waits for
the copy's end. -/
def Obligations.FollowOnCopyStarts : Prop :=
  ∀ (o : UX) (s : State) (i : Instr) (form : Nat) (m : UM), let f := cpymForm o
    let w := rdS s (f.b + 2)
    let ws := [rdS s m.a.toNat, rdS s m.c.toNat]
    let x := s.eng.nextEng
    UniformReady s (.cpym o) ((regRun f.a (cpyRegsA f) ++ regRun f.b 3) ++ [m.a.toNat, m.c.toNat]) →
    (curGroup s).tgrp = 0 → (curEntry s).lanes.getLsbD 0 = true → f.a + cpyRegsA f ≤ 64 → f.b + 3 ≤ 64 →
    bits w.toNat 22 20 < (curTeam s).tiles → cpyValues s f = false → bits w.toNat 63 32 = 0 →
    followForm (w.toNat % 2 ^ 32) = some (i, form, m) → featuresPresent s i 1 = true → ws.any opBad = false →
    (ws.any fun v => opHandle v == destHandle s f) = true → cpyExtents s f = false →
    (f.pk = false → chanCause s f.chan = none) →
    fillCause s (destHandle s f) (if f.kind = 0 then some (ctlLen (rdS s f.b)) else none) = none →
    operandsCause s (ws.map fun v => (v, formBytes form)) = none → cpymWaits s f form m ws = none →
    relDone s (curGk s) (heldLanes s) = true →
    ∃ t, exec (.cpym o) s = .next t ∧ MovedOn s t ∧ DataKept s t
      ∧ (t.group (curGk s)).outst = (s.group (curGk s)).outst ++ [{ cls := 0, op := x }, { cls := 1, op := x + 1 }]
      ∧ (t.xfer x).live = true ∧ (t.xfer x).follow = some (x + 1)
      ∧ (t.tileEnt (x + 1)).live = true ∧ (t.tileEnt (x + 1)).fill = some x ∧ (t.tileEnt (x + 1)).follow = true
      ∧ (t.tileEnt (x + 1)).words = ws ∧ (t.tileEnt (x + 1)).tile = m.t.toNat
      ∧ (t.tileEnt (x + 1)).op = mmaOf form m (if form = 4 then scaleBytes s m.s.toNat else [])

/-- R396, R399 to R402: an MMA, ACCZ, ACCLD or ACCRED places its entry in its tile's order and moves on; ACCST places
its entry and yields until that entry has ended. -/
def Obligations.MatrixStarts : Prop :=
  (∀ (i : Instr) (form : Nat) (o : UM) (s : State), formOf i = some (form, o) →
    let ws := [rdS s o.a.toNat, rdS s o.c.toNat]
    let e : TileEnt := { by_ := curStarter s, tile := o.t.toNat, words := ws, reading := [0, 1],
                         op := mmaOf form o (if form = 4 then scaleBytes s o.s.toNat else []) }
    MatrixReady s i o.t.toNat [o.a.toNat, o.c.toNat] → ws.any opBad = false →
    operandsCause s (ws.map fun w => (w, formBytes form)) = none →
    (form = 4 → scaleEmpty s o.ka.toNat o.kb.toNat = []) → readWaits s ws = none → counter (curGroup s) 1 < 63 →
    relDone s (curGk s) (heldLanes s) = true →
    ∃ t, exec i s = .next t ∧ EngineBegun s t 1 s.eng.nextEng ∧ EntryPlaced s t e ∧ t.task = s.task)
  ∧ (∀ (o : UM) (s : State), MatrixReady s (.accz o) o.t.toNat [] →
    ∃ t, exec (.accz o) s = .next t ∧ MovedOn s t ∧ DataKept s t ∧ t.uni.groups = s.uni.groups ∧ t.core = s.core
      ∧ EntryPlaced s t { by_ := curStarter s, tile := o.t.toNat, op := .accz })
  ∧ (∀ (o : UM) (s : State), MatrixReady s (.accld o) o.t.toNat [o.a.toNat, o.c.toNat] →
    let w := rdS s o.a.toNat
    let c := (rdS s o.c.toNat).toNat
    opBad w = false → c < 10 → operandsCause s [(w, 16384 * accSize c)] = none → readWaits s [w] = none →
    relDone s (curGk s) (heldLanes s) = true →
    ∃ t, exec (.accld o) s = .next t ∧ MovedOn s t ∧ DataKept s t ∧ t.uni.groups = s.uni.groups ∧ t.core = s.core
      ∧ EntryPlaced s t { by_ := curStarter s, tile := o.t.toNat, op := .accld c, words := [w], reading := [0] })
  ∧ (∀ (o : UM) (s : State), MatrixReady s (.accst o) o.t.toNat [o.a.toNat, o.c.toNat] →
    (∀ id e, placedAccst s = some (id, e) → e.ended = true → ∃ t, exec (.accst o) s = .next t ∧ MovedOn s t ∧ DataKept s t
      ∧ t.uni.groups = s.uni.groups ∧ t.core = s.core ∧ (t.tileEnt id).live = false)
    ∧ (∀ id e, placedAccst s = some (id, e) → e.ended = false → ∃ t, exec (.accst o) s = .next t ∧ Yielded s t (.tile id))
    ∧ (let c := (rdS s o.c.toNat).toNat
       let off := (rdS s o.a.toNat).toNat
       let z := accSize (c % 16)
       let pitch := if bits c 23 8 = 0 then 128 * z else bits c 23 8
       placedAccst s = none → accstBad c = false → off + 127 * pitch + 128 * z ≤ (curTeam s).ssize → off % z = 0 →
       relDone s (curGk s) (heldLanes s) = true →
       ∃ t, exec (.accst o) s = .next t ∧ Yielded s t (.tile s.eng.nextEng) ∧ EntryPlaced s t
         { by_ := curStarter s, tile := o.t.toNat, op := .accst (c % 16) pitch (bits c 6 4)
             (rmCode (accMode (bits c 6 4) (curRm s))) ((curTeam s).sbase + off) o.z }))
  ∧ ∀ (o : UX) (s : State), MatrixReady s (.accred o) (o.h.toNat % 8) [o.a.toNat, o.c.toNat] →
    bits (rdS s o.c.toNat).toNat 63 16 = 0 → counter (curGroup s) 4 < 63 → relDone s (curGk s) (heldLanes s) = true →
    ∃ t, exec (.accred o) s = .next t ∧ EngineBegun s t 4 s.eng.nextEng
      ∧ (t.contrib s.eng.nextEng).live = true ∧ (t.contrib s.eng.nextEng).rank = (rdS s o.c.toNat).toNat
      ∧ (t.contrib s.eng.nextEng).desc = (rdS s o.a.toNat).toNat ∧ (t.contrib s.eng.nextEng).joined = false
      ∧ (t.tileEnt (s.eng.nextEng + 1)).live = true ∧ (t.tileEnt (s.eng.nextEng + 1)).contrib = s.eng.nextEng
      ∧ (t.tileEnt (s.eng.nextEng + 1)).tile = o.h.toNat % 8
      ∧ (t.tileEnt (s.eng.nextEng + 1)).op = .accred (o.m.getLsbD 0) (rdS s o.a.toNat).toNat (rdS s o.c.toNat).toNat

/-- R389 to R391: WAITC passes when a counter is at most its threshold and yields otherwise; BUFQ reads a handle; BUFSET
configures a FREE handle and releases a FREE or FULL one. -/
def Obligations.WaitAndHandleResults : Prop :=
  (∀ (o : UX) (s : State), UniformReady s (.waitc o) [] →
    (counter (curGroup s) o.m.toNat ≤ o.h.toNat → ∃ t, exec (.waitc o) s = .next t ∧ OnlyMoved s t)
    ∧ (o.h.toNat < counter (curGroup s) o.m.toNat →
        ∃ t, exec (.waitc o) s = .next t ∧ Yielded s t (.counter o.m.toNat o.h.toNat)))
  ∧ (∀ (o : UI) (s : State), UniformReady s (.bufq o) [o.d.toNat] →
    let h := s.handle (handleKey s.cur.core (o.imm.toNat % 64))
    (h.owner = none → UniformResult (.bufq o) s o.d.toNat 0)
    ∧ (h.owner = some (curTeamKey s) → UniformResult (.bufq o) s o.d.toNat
        (BitVec.ofNat 64 (h.base / 256 * 2 ^ 32 + h.size / 256 * 2 ^ 16 + h.readers * 16 + 4 + stCode h.st))))
  ∧ (∀ (o : UX) (s : State), UniformReady s (.bufsetCfg o) [o.a.toNat, o.c.toNat] →
    let k := handleKey s.cur.core o.h.toNat
    let base := (rdS s o.a.toNat).toNat
    let size := (rdS s o.c.toNat).toNat
    256 ≤ size → size ≤ 2 ^ 22 → base + size ≤ (curTeam s).ssize → base % 256 = 0 → size % 256 = 0 →
    ownedByOther s o.h.toNat = false →
    ((s.handle k).st = .free → ∃ t, exec (.bufsetCfg o) s = .next t ∧ MovedOn s t ∧ DataKept s t ∧ t.core = s.core
      ∧ t.uni.groups = s.uni.groups
      ∧ ∀ j, t.handle j = if j = k then { owner := some (curTeamKey s), base := base, size := size } else s.handle j)
    ∧ ((s.handle k).st ≠ .free →
        ∃ t, exec (.bufsetCfg o) s = .next t ∧ Yielded s t (.handle k (stCode (s.handle k).st))))
  ∧ ∀ (o : UX) (s : State), UniformReady s (.bufsetRel o) [] → ownedByOther s o.h.toNat = false →
    let k := handleKey s.cur.core o.h.toNat
    (((s.handle k).st = .free ∨ (s.handle k).st = .full) → ∃ t, exec (.bufsetRel o) s = .next t ∧ MovedOn s t
      ∧ DataKept s t ∧ t.core = s.core ∧ t.uni.groups = s.uni.groups
      ∧ ∀ j, t.handle j = if j = k then {} else s.handle j)
    ∧ (((s.handle k).st = .filling ∨ (s.handle k).st = .draining) →
        ∃ t, exec (.bufsetRel o) s = .next t ∧ Yielded s t (.handle k (stCode (s.handle k).st)))

/-- R154, R155, R392, Table 48: SBINIT, SBEXPECT and SBARRIVE on a barrier of the team's scratchpad; SBWAIT passes once
the phase has changed and the fibres' earlier reads are done; with the phase changed it waits for those reads where it stands, which
is the model's choice (log entry 19), and while the phase has not changed it yields. -/
def Obligations.StageBarrierResults : Prop :=
  (∀ (o : UX) (s : State), UniformReady s (.sbinit o) [o.a.toNat, o.c.toNat] →
    let v := (rdS s o.c.toNat).toNat
    let off := (rdS s o.a.toNat).toNat
    0 < v % 2 ^ 16 → v % 2 ^ 16 ≤ 1024 → v < 2 ^ 32 → barrierCause s off = none →
    ∃ t, exec (.sbinit o) s = .next t
      ∧ BarrierBecame s t (barrierAt s off) (v / 2 ^ 16 * 2 ^ 64 + v % 2 ^ 16 * 2 ^ 48 + v % 2 ^ 16 * 2 ^ 32))
  ∧ (∀ (o : UX) (s : State), UniformReady s (.sbexpect o) [o.a.toNat, o.c.toNat] →
    let n := (rdS s o.c.toNat).toNat
    let off := (rdS s o.a.toNat).toNat
    let w := sbWord s s.cur.core (barrierAt s off)
    let e := sbEval (sbField w 31 0 (ofIntN 32 (sbTx w + n)))
    0 < n → n < 2 ^ 31 → barrierCause s off = none → sbTx w + n < 2 ^ 31 → e.2 = false →
    ∃ t, exec (.sbexpect o) s = .next t ∧ BarrierBecame s t (barrierAt s off) e.1)
  ∧ (∀ (o : UX) (s : State), UniformReady s (.sbarrive o) [o.a.toNat] →
    let off := (rdS s o.a.toNat).toNat
    let w := sbWord s s.cur.core (barrierAt s off)
    let arrive (w : Nat) : Nat := (sbEval (if sbArr w = 0 then w else sbArrive w)).1
    barrierCause s off = none → sbErr s s.cur.core (barrierAt s off) = 0 → relDone s (curGk s) (actLanes s) = true →
    ∃ t, exec (.sbarrive o) s = .next t ∧ BarrierBecame s t (barrierAt s off)
      (Nat.repeat arrive (if o.e = 1 then 1 else (maskList (actLanes s)).length) w))
  ∧ ∀ (o : UX) (s : State), UniformReady s (.sbwait o) [o.a.toNat] →
    let off := (rdS s o.a.toNat).toNat
    let p := o.m.toNat % 2
    barrierCause s off = none → sbErr s s.cur.core (barrierAt s off) = 0 →
    (sbPhase s s.cur.core (barrierAt s off) ≠ p → acquireDone s (curGk s) (heldLanes s) = true →
      ∃ t, exec (.sbwait o) s = .next t ∧ OnlyMoved s t)
    ∧ (sbPhase s s.cur.core (barrierAt s off) ≠ p → acquireDone s (curGk s) (heldLanes s) = false → exec (.sbwait o) s = .next s)
    ∧ (sbPhase s s.cur.core (barrierAt s off) = p → ∃ t, exec (.sbwait o) s = .next t ∧ Yielded s t (.barrier (barrierAt s off) p))

/-! ## Events, sequences and submission -/

/-- R406 to R409: EVSIG, FUTRES, EVPOLL and FUTREG send one operation to the event's home and move on; EVWAIT and FUTGET
send one and yield, and go on once it is answered without a cause, dropping the L1 lines of the core. -/
def Obligations.EventInstructionResults : Prop :=
  (∀ (o : UR) (s : State), UniformReady s (.evsig o) [o.a.toNat] → eventPresent s (rdS s o.a.toNat) = true →
    relDone s (curGk s) (heldLanes s) = true →
    ∃ t, exec (.evsig o) s = .next t ∧ MovedOn s t
      ∧ OpSent s t (curOp s (.signal 0) (rdS s o.a.toNat) (rdS s o.a.toNat) none false) .eventSignal)
  ∧ (∀ (o : UR) (s : State), UniformReady s (.futres o) [o.a.toNat, o.c.toNat] → eventPresent s (rdS s o.a.toNat) = true →
    relDone s (curGk s) (heldLanes s) = true → (rdS s o.c.toNat).toNat < 2 ^ 48 →
    ∃ t, exec (.futres o) s = .next t ∧ MovedOn s t
      ∧ OpSent s t (curOp s (.signal (rdS s o.c.toNat).toNat) (rdS s o.a.toNat) (rdS s o.a.toNat) none false) .eventSignal)
  ∧ (∀ (o : UR) (s : State), UniformReady s (.evpoll o) [o.d.toNat, o.a.toNat] → eventPresent s (rdS s o.a.toNat) = true →
    acquireOpen s (heldLanes s) = false →
    ∃ t, exec (.evpoll o) s = .next t ∧ MovedOn s t
      ∧ OpSent s t (curOp s .poll (rdS s o.a.toNat) (rdS s o.a.toNat) (some o.d.toNat) false) .eventWait)
  ∧ (∀ (o : UR) (s : State) (ia r : Nat), UniformReady s (.futreg o) [o.d.toNat, o.a.toNat, o.c.toNat] →
    eventPresent s (rdS s o.a.toNat) = true → (rdS s o.c.toNat).toNat % 64 = 0 →
    rangeCheck (curBank s) (rdS s o.c.toNat).toNat 64 .store = .ok (ia, r) →
    ∃ t, exec (.futreg o) s = .next t ∧ MovedOn s t
      ∧ OpSent s t (curOp s (.futreg ia) (rdS s o.a.toNat) (rdS s o.a.toNat) (some o.d.toNat) false) .eventFutreg)
  ∧ ∀ (i : Instr) (rs : List Nat) (kind : HomeKind) (dst : Option Nat) (o : UR) (s : State),
    (i = .evwait o ∧ rs = [o.a.toNat] ∧ kind = .wait ∧ dst = none)
      ∨ (i = .futget o ∧ rs = [o.d.toNat, o.a.toNat] ∧ kind = .get ∧ dst = some o.d.toNat) →
    UniformReady s i rs →
    (findOp s = none → eventPresent s (rdS s o.a.toNat) = true → ∃ t, exec i s = .next t
      ∧ OpSent s t (curOp s kind (rdS s o.a.toNat) (rdS s o.a.toNat) dst true) .eventWait ∧ Yielded s t (.home s.task.nextOp))
    ∧ (∀ id p, findOp s = some (id, p) → p.answered = false → ∃ t, exec i s = .next t ∧ Yielded s t (.home id))
    ∧ (∀ id p, findOp s = some (id, p) → p.answered = true → p.cause = 0 → acquireDone s (curGk s) (heldLanes s) = false →
        exec i s = .next s)
    ∧ (∀ id p, findOp s = some (id, p) → p.answered = true → p.cause = 0 →
        acquireDone s (curGk s) (heldLanes s) = true → ∃ t, exec i s = .next t ∧ MovedOn s t ∧ (t.op id).live = false
          ∧ (∀ k, k ≠ id → t.op k = s.op k) ∧ t.lane = s.lane ∧ UniformKept s t ∧ (∀ a, memByte t a = memByte s a)
          ∧ ∀ q ∈ t.mm.l1, q.1 / 2 ^ 45 / 64 ≠ s.cur.core)

/-- R351, R352, R413 to R415: the sequence instructions send one operation to the sequence's home and move on, with the
outstanding destination that they name; KVX and KVXR start one access whose lanes each ask for one translation; ATTQ
begins one ATT-class operation. -/
def Obligations.SequenceInstructionResults : Prop :=
  (∀ (o : UR) (s : State), UniformReady s (.seqapp o) [o.d.toNat, o.a.toNat, o.c.toNat] →
    let id := (rdS s o.a.toNat).toNat
    let n := (rdS s o.c.toNat).toNat
    acquireOpen s (heldLanes s) = false → id < 2 ^ 20 → 0 < n → n ≤ 4096 → ∃ t, exec (.seqapp o) s = .next t ∧ MovedOn s t ∧
      OpSent s t (curOp s (.seqApp n) (BitVec.ofNat 64 id) (BitVec.ofNat 64 (id * 2 ^ 32)) (some o.d.toNat) false) .sequenceOpApply)
  ∧ (∀ (o : UR) (s : State), UniformReady s (.seqfork o) [o.a.toNat, o.c.toNat] →
    let id := (rdS s o.a.toNat).toNat
    let child := (rdS s o.c.toNat).toNat
    acquireOpen s (heldLanes s) = false → id < 2 ^ 20 → child < 2 ^ 20 → ∃ t, exec (.seqfork o) s = .next t ∧ MovedOn s t ∧
      OpSent s t (curOp s (.seqFork child) (BitVec.ofNat 64 id) (BitVec.ofNat 64 (id * 2 ^ 32)) none false) .sequenceOpApply)
  ∧ (∀ (o : UR) (s : State), UniformReady s (.spantag o) [o.a.toNat, o.c.toNat] →
    let id := (rdS s o.a.toNat).toNat
    let tag := (rdS s o.c.toNat).toNat
    acquireOpen s (heldLanes s) = false → id < 2 ^ 20 → tag < 16 → ∃ t, exec (.spantag o) s = .next t ∧ MovedOn s t ∧
      OpSent s t (curOp s (.spanTag tag) (BitVec.ofNat 64 id) (BitVec.ofNat 64 (id * 2 ^ 32 + tag)) none false) .sequenceOpApply)
  ∧ (∀ (o : UR) (s : State), UniformReady s (.spanret o) [o.d.toNat, o.a.toNat, o.c.toNat] →
    let id := (rdS s o.a.toNat).toNat
    let tag := (rdS s o.c.toNat).toNat
    acquireOpen s (heldLanes s) = false → id < 2 ^ 20 → tag < 16 → ∃ t, exec (.spanret o) s = .next t ∧ MovedOn s t ∧
      OpSent s t (curOp s (.spanRet tag) (BitVec.ofNat 64 id) (BitVec.ofNat 64 (id * 2 ^ 32 + tag)) (some o.d.toNat) false) .sequenceOpApply)
  ∧ (∀ (i : Instr) (rev : Bool) (o : LR) (s : State), (i = .kvx o ∧ rev = false) ∨ (i = .kvxr o ∧ rev = true) →
    LaneReady s i o.p [⟨o.a.toNat, 1, o.fa⟩, ⟨o.v.toNat, 1, o.fb⟩] o.d.toNat 2 → counter (curGroup s) 2 < 63 →
    acquireOpen s (maskOf (activeLanes s o.p.toNat)) = false →
    ∃ t, exec i s = .next t ∧ MovedOn s t ∧ DestsOut s t (activeLanes s o.p.toNat) o.d.toNat 2
      ∧ (∀ k, t.laneReg k = s.laneReg k) ∧ t.uni.sreg = s.uni.sreg ∧ t.core = s.core ∧ (∀ a, memByte t a = memByte s a)
      ∧ counter (t.group (curGk s)) 2 = counter (s.group (curGk s)) 2 + 1
      ∧ ∀ l ∈ activeLanes s o.p.toNat, ∃ h ∈ t.agenda, h.what = .sequenceOpApply ∧ (t.op h.x).live = true
          ∧ (t.op h.x).target = (rdV s l o.a.toNat).zeroExtend 64
          ∧ ∃ ls, (t.op h.x).kind = .kvx s.mm.nextId rev ls
              ∧ ∃ c ∈ ls, c.lane = l ∧ c.ia = (rdV s l o.a.toNat).toNat ∧ c.d = (rdV s l o.v.toNat).toNat)
  ∧ ∀ (o : UX) (s : State), UniformReady s (.attq o) [o.a.toNat, o.a.toNat + 1, o.c.toNat] → o.a.toNat < 63 →
    let v := (rdS s o.a.toNat).toNat
    v < 2 ^ 38 → (rdS s (o.a.toNat + 1)).toNat < 2 ^ 32 → opBad (rdS s o.c.toNat) = false →
    handlesCause s [opHandle (rdS s o.c.toNat), o.h.toNat] = none → readWaits s [rdS s o.c.toNat] = none →
    fillWaits s o.h.toNat = none → counter (curGroup s) 3 < 63 → relDone s (curGk s) (heldLanes s) = true →
    ∃ t, exec (.attq o) s = .next t ∧ EngineBegun s t 3 s.eng.nextEng ∧ t.task = s.task
      ∧ (t.attq s.eng.nextEng).live = true ∧ (t.attq s.eng.nextEng).seq = v % 2 ^ 20 ∧ (t.attq s.eng.nextEng).layer = bits v 27 20
      ∧ (t.attq s.eng.nextEng).head = bits v 34 28 ∧ (t.attq s.eng.nextEng).heads = bits v 37 35 + 1
      ∧ (t.attq s.eng.nextEng).scale = (rdS s (o.a.toNat + 1)).toNat ∧ (t.attq s.eng.nextEng).handle = o.h.toNat
      ∧ ∃ h ∈ t.agenda, h.what = .attqAdmit ∧ h.x = s.eng.nextEng

/-- R410 to R412, R418: NODEPUT and OPSUB send their record and yield until it is taken; JOBEND yields until its team is quiet,
commits the version, and with that done and seen by every die (log entry 106) retires the job and returns the team to its wait loop;
REPLAY opens its die's session, having its DONE armed first where another device holds it, or raises 0x381 in unprivileged code. -/
def Obligations.SubmissionResults : Prop :=
  (∀ (o : UX) (s : State), UniformReady s (.nodeput o) [o.a.toNat, o.c.toNat] →
    let word := rdS s o.c.toNat
    let a := (rdS s o.a.toNat).toNat
    let size := 16 * (o.h.toNat % 16 + 1)
    (findOp s = none → word.toNat < 2 ^ 14 → o.e = 0 → a + size ≤ (curTeam s).ssize → a % 16 = 0 →
      relDone s (curGk s) (heldLanes s) = true →
      ∃ t, exec (.nodeput o) s = .next t ∧ Yielded s t (.home s.task.nextOp)
        ∧ OpSent s t (curOp s (.deposit (o.h.toNat % 16 + 1) (scratchBytes s s.cur.core ((curTeam s).sbase + a) size))
            word word none true) .punnetDeposit)
    ∧ ∀ id p, findOp s = some (id, p) → p.answered = true → p.cause = 0 → p.value ≠ 1 → ∃ t, exec (.nodeput o) s = .next t ∧ MovedOn s t
        ∧ (t.op id).live = false ∧ (∀ k, k ≠ id → t.op k = s.op k) ∧ DataKept s t ∧ UniformKept s t)
  ∧ (∀ (o : UR) (s : State), UniformReady s (.opsub o) [o.a.toNat] →
    let va := (rdS s o.a.toNat).toNat
    (∀ bs b s1 s2, findOp s = none → va % 32 = 0 → curRead s va 32 = .ok bs s1 →
      checkRecord s1 (curDec s1 (bytesToRec bs)) = .ok b s2 → (curDec s1 (bytesToRec bs)).depth < 11 →
      armFailure s2 (curDec s1 (bytesToRec bs)).slot (recArms (curDec s1 (bytesToRec bs)) b) (featBit s1 42) = none →
      (curTeam s2).job.all (writesIn s2) = true → relDone s2 (curGk s2) (heldLanes s2) = true →
      ∃ t, exec (.opsub o) s = .next t ∧ ∃ id, (t.ent (curEk s)).st = .blocked ∧ (t.ent (curEk s)).wake = .home id
        ∧ (t.op id).live = true ∧ (t.op id).kind = .opsub
        ∧ ∃ h ∈ t.agenda, h.what = .recordDecode ∧ (t.dec h.x).live = true ∧ (t.dec h.x).op = id
            ∧ (t.dec h.x).rcd = bytesToRec bs ∧ (t.dec h.x).parentJob = (curTeam s1).job)
    ∧ ∀ id p, findOp s = some (id, p) → p.answered = true → p.cause = 0 → ∃ t, exec (.opsub o) s = .next t ∧ MovedOn s t
        ∧ (t.op id).live = false ∧ (∀ k, k ≠ id → t.op k = s.op k) ∧ DataKept s t ∧ UniformKept s t)
  ∧ (∀ (o : UR) (s : State) (j : Nat), UniformReady s (.jobend o) [] → inEmul s = false → s.cur.priv = true →
    (curTeam s).job = some j →
    let seen := dieVc s (dieOf s.cur.core)
    (jobendReady s (curTeamKey s) = false → ∃ t, exec (.jobend o) s = .next t ∧ Yielded s t .jobend)
    ∧ (jobendReady s (curTeamKey s) = true → (s.job j).committing = false → versionLines s j ≠ [] ∨ seenEverywhere s seen = false →
      ∃ t, exec (.jobend o) s = .next t ∧ (t.job j).committing = true ∧ (t.job j).vc = seen ∧ (t.ent (curEk s)).wake = .jobend
        ∧ (t.ent (curEk s)).st = .blocked
        ∧ ∀ l ∈ versionLines s j, ∃ h ∈ t.agenda, h.what = .requestAtNearSlice ∧ (t.mm.reqs.get h.x).src = .commit j
            ∧ (t.mm.reqs.get h.x).ia = l * 256 ∧ (t.mm.reqs.get h.x).len = 256)
    ∧ (jobendReady s (curTeamKey s) = true → (s.job j).committing = true ∨ (versionLines s j = [] ∧ seenEverywhere s seen = true) →
    ∃ t, exec (.jobend o) s = .next t ∧ t.cur.done = true ∧ (t.job j).at_ = .retired
      ∧ (t.team (curTeamKey s)).waiting = true ∧ (t.team (curTeamKey s)).job = none))
  ∧ ∀ (o : UR) (s s0 s1 s2 s3 s4 : State) (bs r b : List Byte), UniformReady s (.replay o) [o.a.toNat] →
    let va := (rdS s o.a.toNat).toNat
    let die := dieOf s.cur.core
    let n := word64 (rpBits bs 0x20 8)
    let d : Dec := { curDec s2 (bytesToRec r) with src := .replay die }
    let first : Prop := findOp s = none ∧ s0 = s
    let passes : Prop := va % 64 = 0 ∧ curRead s0 va 512 = .ok bs s1 ∧ replayBad bs = false ∧ (s1.task.sessions.get die).live = false
      ∧ curRead s1 (rpBits bs 0 8) 32 = .ok r s2 ∧ checkRecord s2 d = .ok b s3 ∧ d.depth < 11
      ∧ armFailure s3 d.slot (recArms d b) (featBit s2 42) = none
    (s.cur.priv = false → findOp s = none → CanTrap s → ∃ t, exec (.replay o) s = .next t
      ∧ TrapRaised s t 0x381 (heldLanes s) 0 0 (if s.cur.rep then nextPc s else curPc s))
    ∧ (s.cur.priv = true → passes →
        (first ∧ armCheck s3 n d.slot true (featBit s3 42) = .armed ∧ s4 = armNow s3 n 1)
          ∨ (∃ id p, findOp s = some (id, p) ∧ p.answered = true ∧ p.cause = 0 ∧ s0 = dropOp s id ∧ s4 = s3) →
      ∃ t, exec (.replay o) s = .next t ∧ MovedOn s4 t ∧ (t.task.sessions.get die).live = true
        ∧ (t.task.sessions.get die).block = va ∧ (t.task.sessions.get die).passes = rpBits bs 8 1
        ∧ (t.task.sessions.get die).pass = 0 ∧ (t.task.sessions.get die).rcd = bytesToRec r)
    ∧ (s.cur.priv = true → passes → first → armCheck s3 n d.slot true (featBit s3 42) = .remote →
      ∃ t, exec (.replay o) s = .next t ∧ (t.ent (curEk s)).st = .blocked ∧ (t.ent (curEk s)).wake = .home s3.task.nextOp
        ∧ (t.op s3.task.nextOp).live = true ∧ (t.op s3.task.nextOp).kind = .arm 1 ∧ (t.op s3.task.nextOp).target = n)

/-! ## Issue and returns -/

/-- R174, R175, R212, R213, R277, R284: arbitration gives a free slot to the winner; rotation parks a READY entry's lanes
where they stand and lets the parked fibres of lowest PC take its entry, and the group's entries at boundaries fuse; a blocked entry
whose condition holds is READY again; a decode cause inside an emulation handler nests, its outer level kept in the emulated lanes'
registers. Which parked fibres take the entry, and that fusion follows the rotation, are the model's reading (log entries 28 and
29). -/
def Obligations.IssueHappenings : Prop :=
  (∀ (s : State) (i e : Nat), freeSlot s s.cur.x = some i → arbWinner s s.cur.x = some e → e < 256 →
    let g := groupKey s.cur.x (e / 8)
    fuseAll s g 8 (e % 8) = (e % 8, s) → (gEnt s g (e % 8)).st = .ready →
    ∃ t, exec .issueArbitration s = .next t
      ∧ (∀ k, t.slotAt k = if k = s.cur.x * 4 + i then { ent := some e, issues := 0 } else s.slotAt k)
      ∧ gEnt t g (e % 8) = { gEnt s g (e % 8) with boundary := false, rotated := false, resumed := false }
      ∧ t.lane = s.lane ∧ t.uni.sreg = s.uni.sreg ∧ t.uni.groups = s.uni.groups ∧ t.mm = s.mm)
  ∧ (∀ (s : State) (j : Nat), rotatee s s.cur.x = some j → ∃ t, exec .ageCapRotation s = .next (fuseGroup t s.cur.x)
      ∧ (∀ l ∈ maskList (gEnt s s.cur.x j).lanes, t.lane.parked.get (fibKey s.cur.x l) = some (gEnt s s.cur.x j).pc)
      ∧ (∃ l ∈ maskList (parkedLanes s s.cur.x), (gEnt t s.cur.x j).pc = BitVec.ofNat 57 (parkedPc s s.cur.x l)
          ∧ ∀ m ∈ maskList (parkedLanes s s.cur.x), parkedPc s s.cur.x l ≤ parkedPc s s.cur.x m)
      ∧ (t.group s.cur.x).arrived = (s.group s.cur.x).arrived &&& ~~~(gEnt s s.cur.x j).lanes
      ∧ t.lane.reg = s.lane.reg ∧ t.lane.empty = s.lane.empty ∧ t.lane.pred = s.lane.pred ∧ t.mm = s.mm)
  ∧ (∀ (s : State), let k := entKey s.cur.x s.cur.y
    (s.ent k).st = .blocked → wakeHolds s s.cur.x s.cur.y = true → ∃ t, exec .entryWake s = .next t
      ∧ (∀ i, t.ent i = if i = k then { s.ent k with st := .ready, since := s.now, boundary := true } else s.ent i)
      ∧ t.lane = s.lane ∧ t.uni.sreg = s.uni.sreg ∧ t.uni.groups = s.uni.groups ∧ Kept s t)
  ∧ ∀ (s : State) (q : TrapEntry) (j : Nat) (pc : Pc), let g := groupKey s.cur.x s.cur.y
    let d := (s.group g).depth + 1
    (s.group g).nest = some q → (s.group g).recv = some j → d < 5 → d ≤ (s.team ((s.group g).team.getD 0)).ewin + 1 →
    handlerEntry (groupBank s g) q.cause = some pc →
    ∃ t, exec .emulationNest s = .next t ∧ (t.ent (gEntKey g j)).pc = pc ∧ (t.ent (gEntKey g j)).st = .ready
      ∧ (t.group g).depth = d ∧ (t.group g).nest = none ∧ (t.group g).trmask = q.mask ∧ (t.group g).traux = q.aux
      ∧ (t.group g).trpc = BitVec.ofNat 64 q.rpc.toNat ∧ (t.group g).trfpc = BitVec.ofNat 64 q.fpc.toNat
      ∧ (t.group g).shC = (s.group g).conds ∧ (t.group g).queue = (s.group g).queue
      ∧ (∀ l ∈ maskList q.mask, t.laneReg (regKey (fibKey g l) (handlerBase d + 18)) = (s.group g).trcause.extractLsb' 0 32
          ∧ t.laneReg (regKey (fibKey g l) (handlerBase d + 19)) = (s.group g).trpc.extractLsb' 0 32)
      ∧ t.mm = s.mm ∧ ∀ a, memByte t a = memByte s a

/-- R54, R68, R70, R343, R360: a part of a lane's data that is not its last is gathered and changes no register; the last fills the
destination's registers, least significant first, which are then full and no longer outstanding; a lane whose page is not resident
leaves its register empty and raises 0x110 with the event in AUX. -/
def Obligations.ReturnHappenings : Prop :=
  (∀ (s : State) (r : Req) (acc l : Nat) (a : Access), findReq s s.cur.x = some r → r.src = .lane acc l → findAcc s acc = some a →
    1 < a.todo.get l →
    ∃ t, exec .loadReturn s = .next t ∧ (t.mm.accs.get acc).todo.get l = a.todo.get l - 1
      ∧ (t.mm.accs.get acc).got.get l = a.got.get l + r.data * 256 ^ r.off ∧ findReq t s.cur.x = none
      ∧ t.lane = s.lane ∧ t.uni = s.uni ∧ ∀ b, memByte t b = memByte s b)
  ∧ (∀ (s : State) (r : Req) (acc l : Nat) (a : Access), findReq s s.cur.x = some r → r.src = .lane acc l →
    findAcc s acc = some a → a.todo.get l = 1 → a.failed = [] → a.notres = 0 →
    let v := a.got.get l + r.data * 256 ^ r.off
    (∀ rs : List Nat, a.cap.dst = .lanes rs → rs.Nodup → (∀ i ∈ rs, i < 512 ∧ s.outOf (regKey (fibKey a.group l) i) = acc) →
      (1 < rs.length → a.cap.signed = false) →
      ∃ t, exec .loadReturn s = .next t
        ∧ (∀ k, k < rs.length → let i := regKey (fibKey a.group l) (rs.getD k 0)
            t.laneReg i = (if a.cap.signed then BitVec.ofNat 32 (sext (8 * a.cap.n) 32 v) else BitVec.ofNat 32 (v / 2 ^ (32 * k)))
              ∧ t.isEmpty i = false ∧ t.outOf i = 0)
        ∧ (∀ k, (∀ i ∈ rs, k ≠ regKey (fibKey a.group l) i) →
            t.laneReg k = s.laneReg k ∧ t.isEmpty k = s.isEmpty k ∧ t.outOf k = s.outOf k)
        ∧ t.uni.sreg = s.uni.sreg ∧ ∀ b, memByte t b = memByte s b)
    ∧ ∀ u, a.cap.dst = .uniform u → s.uni.sout.get (a.group * 64 + u) = acc →
      ∃ t, exec .loadReturn s = .next t
        ∧ t.sregOf a.group u = BitVec.ofNat 64 (if a.cap.signed then sext (8 * a.cap.n) 64 v else v)
        ∧ t.uni.sout.get (a.group * 64 + u) = 0
        ∧ (∀ k, k ≠ a.group * 64 + u → t.uni.sreg.get k = s.uni.sreg.get k ∧ t.uni.sout.get k = s.uni.sout.get k)
        ∧ t.lane = s.lane ∧ ∀ b, memByte t b = memByte s b)
  ∧ ∀ (s : State) (r : Req) (acc l i : Nat) (a : Access), findReq s s.cur.x = some r → r.src = .lane acc l → l < 64 →
    findAcc s acc = some a → a.todo = [(l, 1)] → a.failed = [] → a.notres = 0 → a.events = [] → a.handler = false →
    a.cancelled.getLsbD l = false → a.cap.dst = .lanes [i] → i < 512 → s.outOf (regKey (fibKey a.group l) i) = acc → jobRestartable s r.job = false →
    (s.group a.group).queue.length + (if (s.group a.group).handling.isSome then 1 else 0) < 8 →
    ∃ t, exec .notResidentResponse s = .next t
      ∧ (∃ q ∈ (t.group a.group).queue, q.cause = 0x110 ∧ q.aux = s.cur.v ∧ q.mask = BitVec.ofNat 64 (2 ^ l)
          ∧ q.addr = BitVec.ofNat 64 (capIa a l) ∧ q.iaBit = true)
      ∧ t.outOf (regKey (fibKey a.group l) i) = 0 ∧ t.lane.reg = s.lane.reg ∧ t.lane.empty = s.lane.empty
      ∧ t.uni.sreg = s.uni.sreg ∧ ∀ b, memByte t b = memByte s b

/-! ## Slices -/

/-- R46, R58, R61, R77, R82, R85, R87, R90, R121, R137 to R139, R348, Tables 28 and 131: a request that its near slice cannot serve
goes to its home; a slice answers a read with the bytes that its die holds, or has it wait for its clock; a write is performed at its
home, into the job's version where a job makes it, and one from another die takes its number and sets out; an atomic leaves what
Table 131 gives and answers the old value; a line is locked; a write to a page being migrated or duplicated is held. A clocked item
enters its queue and, applied, performs its write and moves the die's clock; a copy is invalidated and acknowledged. That the
clock counts what the home numbers is the model's reading (log entry 12). -/
def Obligations.SliceHappenings : Prop :=
  (∀ (s s1 : State) (r : Req), findReq s s.cur.x = some r → r.stage = .near → r.scratch = false → r.event = 0 → r.die ≠ homeDie r.ia → isLockKind r.kind = false →
    (nearXl s r.die r.ia (needOf r.kind) r.keyslot r.priv = (.forward, s1) →
      ∃ t, exec .requestAtNearSlice s = .next t ∧ (t.mm.reqs.get s.cur.x).stage = .home ∧ (t.mm.reqs.get s.cur.x).ia = r.ia
        ∧ (∃ h ∈ t.agenda, h.what = .requestAtHomeSlice ∧ h.x = s.cur.x) ∧ RegsKept s1 t)
    ∧ ∀ pa key, nearXl s r.die r.ia (needOf r.kind) r.keyslot r.priv = (.serve r.die pa key, s1) → isWriteKind r.kind = false →
      regionOf s1 pa ≠ .device → poisonCause s1 r.die (r.ia / 256) (pa / 256) r.job = none →
      ∃ t, exec .requestAtNearSlice s = .next t ∧ Answered t s.cur.x (leNat (serveRead s1 r.die r.ia pa key r.job r.len).1)
        ∧ RegsKept s1 t)
  ∧ (∀ (s : State) (r : Req), findReq s s.cur.x = some r → r.stage = .near → r.scratch = true →
    (r.kind ≠ .store → ∃ t, exec .requestAtNearSlice s = .next t
      ∧ Answered t s.cur.x (leNat (scratchBytes s r.core r.ia r.len)) ∧ RegsKept s t ∧ t.core = s.core)
    ∧ (r.kind = .store → PlainStore s r → ∃ t, exec .requestAtNearSlice s = .next t ∧ RegsKept s t ∧ findReq t s.cur.x = none
      ∧ ∀ k, t.core.scratch.get k = if scratchKey r.core r.ia ≤ k ∧ k < scratchKey r.core r.ia + r.len
          then BitVec.ofNat 8 (r.data / 256 ^ (k - scratchKey r.core r.ia)) else s.core.scratch.get k))
  ∧ (∀ (s s1 : State) (r : Req) (i : Instr) (pa : Nat) (key : Option Nat), AtSlice s s.cur.x r →
    let d := homeDie r.ia
    let line := r.ia / 256
    let atHome : Prop := (i = .requestAtNearSlice ∧ r.stage = .near ∧ r.scratch = false ∧ r.event = 0 ∧ r.die = d)
      ∨ (i = .requestAtHomeSlice ∧ r.stage = .home)
      ∨ (i = .heldRequestRetry ∧ (r.stage = .heldM ∨ r.stage = .heldTable ∨ r.stage = .stalled ∨ (∃ p, r.stage = .heldCollapse p)
          ∨ ∃ n u, r.stage = .heldResidency n u ∧ holdState s (some n) ≠ .faulted))
    let served : Prop := atHome ∧ homeXl s r.ia (needOf r.kind) r.keyslot r.priv = (.serve d pa key, s1)
      ∧ collapsing s1 r.ia = false ∧ regionOf s1 pa ≠ .device
    let writes : Prop := served
      ∨ (i = .heldRequestRetry ∧ (r.stage = .toNumber ∨ ∃ u, r.stage = .heldSpill u) ∧ s1 = s ∧ pa = r.pa ∧ key = r.key)
    let sound : Prop := poisonCause s1 d line (pa / 256) r.job = none
    (served → isWriteKind r.kind = false → isLockKind r.kind = false → sound →
      (d = r.die → ∃ t, exec i s = .next t ∧ Answered t s.cur.x (leNat (serveRead s1 d r.ia pa key r.job r.len).1) ∧ RegsKept s1 t)
      ∧ (d ≠ r.die → ∃ t, exec i s = .next t ∧ (t.mm.reqs.get s.cur.x).stage = .awaitClock ∧ (t.mm.reqs.get s.cur.x).pa = pa
          ∧ (t.mm.reqs.get s.cur.x).key = key ∧ (∃ h ∈ t.agenda, h.what = .remoteReadServe ∧ h.x = s.cur.x) ∧ RegsKept s1 t))
    ∧ (served → d = r.die →
      (r.kind = .lock false → lockWaits s1 r d pa = false → ∃ t, exec i s = .next t ∧ Answered t s.cur.x (lockStatus s1 r d pa)
        ∧ (lockStatus s1 r d pa = 0 → (t.scLine (scKey d line)).lock = some r.slot
            ∧ (t.die d).locks.get r.slot = (s1.die d).locks.get r.slot + 1)
        ∧ RegsKept s1 t)
      ∧ (r.kind = .lock true → ∃ t, exec i s = .next t ∧ (t.scLine (scKey d line)).lock ≠ some r.slot ∧ RegsKept s1 t))
    ∧ (writes → d = r.die → r.clkd = false → r.kind = .store → PlainStore s r →
      (r.job = none → LineClean s1 d line → ∃ t, exec i s = .next t ∧ HoldsBytes t d r.ia pa key r.len r.data
        ∧ findReq t s.cur.x = none ∧ RegsKept s1 t)
      ∧ ∀ j, r.job = some j → verStop s1 d j line = .ok → ∃ t, exec i s = .next t ∧ VersionHolds t j r.ia r.len r.data
        ∧ findReq t s.cur.x = none ∧ RegsKept s1 t)
    ∧ (∀ op acc l, writes → d = r.die → r.clkd = false → r.kind = .atomic op → r.src = .lane acc l → r.job = none → sound →
      LineClean s1 d line → r.data < 2 ^ (8 * r.len) → ∃ t, exec i s = .next t
        ∧ (let old := leNat (serveRead s1 d r.ia pa key none r.len).1
           Answered t s.cur.x old ∧ HoldsBytes t d r.ia pa key r.len (atomicNew op r.len old r.data r.nv))
        ∧ RegsKept s1 t)
    ∧ (writes → d ≠ r.die → r.die < 4 → r.job = none → (r.kind = .store ∧ PlainStore s r) ∨ (∃ op, r.kind = .atomic op ∧ sound) →
      numberFull s1 r.die = false → numberHeld s1 r.die s.cur.x r = false →
      ∃ t, exec i s = .next t ∧ Numbered s1 t r.die d s.cur.x pa key ∧ RegsKept s1 t)
    ∧ (atHome → homeXl s r.ia (needOf r.kind) r.keyslot r.priv = (.heldM, s1) → isLockKind r.kind = false →
      ∃ t, exec i s = .next t ∧ (t.mm.reqs.get s.cur.x).stage = (if queueFull s1 r.ia then .stalled else .heldM) ∧ RegsKept s1 t)
    ∧ (∀ epa dm page k, atHome → homeXl s r.ia (needOf r.kind) r.keyslot r.priv = (.collapse epa dm page k, s1) →
      (∀ p ∈ s1.mm.collapses, ¬(p.2.home = d ∧ p.2.page = page)) →
      ∃ t, exec i s = .next t
        ∧ (t.mm.reqs.get s.cur.x).stage = (if queueFull s1 r.ia then .stalled else .heldCollapse page)
        ∧ (t.mm.reqs.get s.cur.x).clkd = true ∧ RegsKept s1 t
        ∧ ∀ e, e < 4 → bit dm e = true → ∃ h ∈ t.agenda, h.what = .collapseInvalidate ∧ h.y = e))
  ∧ (∀ (s : State) (r : Req) (u acc l : Nat) (a : Access), findReq s s.cur.x = some r → r.stage = .heldSpill u →
    r.src = .lane acc l → findAcc s acc = some a → a.todo = [(l, 1)] → a.failed = [] → a.notres = 0 → a.handler = false →
    a.cap.dst = .none → (s.group a.group).queue.length + (if (s.group a.group).handling.isSome then 1 else 0) < 8 →
    ∃ t, exec .versionSpillTimeout s = .next t ∧ findReq t s.cur.x = none
      ∧ (∃ q ∈ (t.group a.group).queue, q.cause = 0x142 ∧ q.mask = BitVec.ofNat 64 (2 ^ l) ∧ q.addr = BitVec.ofNat 64 (capIa a l))
      ∧ t.lane = s.lane ∧ t.uni.sreg = s.uni.sreg ∧ ∀ b, memByte t b = memByte s b)
  ∧ (∀ (s : State) (it : Item), findItem s s.cur.y = some it → ∃ t, exec .clockedItemArrive s = .next t
      ∧ (t.die s.cur.x).inq.get it.src = (s.die s.cur.x).inq.get it.src ++ [s.cur.y]
      ∧ (∃ h ∈ t.agenda, h.what = .clockedItemApply ∧ h.x = s.cur.x ∧ h.y = s.cur.y)
      ∧ t.lane = s.lane ∧ t.uni = s.uni ∧ t.mm.mem = s.mm.mem ∧ t.mm.sc = s.mm.sc)
  ∧ (∀ (s : State) (it : Item), findItem s s.cur.y = some it → it.src < 4 → ∃ t, exec .clockedItemApply s = .next t
      ∧ findItem t s.cur.y = none
      ∧ ((t.die s.cur.x).vc).getD it.src 0 = it.clock.getD it.src 0 % 2 ^ 32
      ∧ (∀ i, i < 4 → i ≠ it.src → ((t.die s.cur.x).vc).getD i 0 = ((s.die s.cur.x).vc).getD i 0)
      ∧ (it.req = none → t.mm.mem = s.mm.mem ∧ t.mm.sc = s.mm.sc ∧ RegsKept s t)
      ∧ ∀ id r, it.req = some id → AtSlice s id r → homeDie r.ia = s.cur.x → LineClean s s.cur.x (r.ia / 256) →
          (r.kind = .store → PlainStore s r → findReq t id = none ∧ RegsKept s t
            ∧ (r.job = none → HoldsBytes t s.cur.x r.ia r.pa r.key r.len r.data)
            ∧ ∀ j, r.job = some j → VersionHolds t j r.ia r.len r.data)
          ∧ (∀ op acc l, r.kind = .atomic op → r.src = .lane acc l → r.job = none → r.data < 2 ^ (8 * r.len) →
            let old := leNat (serveRead s s.cur.x r.ia r.pa r.key none r.len).1
            (t.mm.reqs.get id).stage = .response ∧ (t.mm.reqs.get id).data = old
              ∧ (∃ h ∈ t.agenda, h.what = .readResponseDeliver ∧ h.x = id)
              ∧ HoldsBytes t s.cur.x r.ia r.pa r.key r.len (atomicNew op r.len old r.data r.nv) ∧ RegsKept s t))
  ∧ (∀ (s : State) (r : Req), AtSlice s s.cur.x r → isWriteKind r.kind = false → isLockKind r.kind = false → regionOf s r.pa ≠ .device →
    poisonCause s (homeDie r.ia) (r.ia / 256) (r.pa / 256) r.job = none → ∃ t, exec .remoteReadServe s = .next t
      ∧ (t.mm.reqs.get s.cur.x).stage = .response
      ∧ (t.mm.reqs.get s.cur.x).data = leNat (serveRead s (homeDie r.ia) r.ia r.pa r.key r.job r.len).1
      ∧ (∃ h ∈ t.agenda, h.what = .readResponseDeliver ∧ h.x = s.cur.x) ∧ RegsKept s t)
  ∧ (∀ (s : State) (r : Req), findReq s s.cur.x = some r → exec .readResponseDeliver s = .next (s.add .loadReturn s.cur.x))
  ∧ (∀ (s : State) (c : Collapse), findCollapse s s.cur.x = some c → ∃ t, exec .collapseInvalidate s = .next t
      ∧ (∃ h ∈ t.agenda, h.what = .collapseAck ∧ h.x = s.cur.x ∧ h.y = s.cur.y) ∧ t.lane = s.lane ∧ t.uni = s.uni
      ∧ ∀ epa w0, pageEntry s s.cur.y c.page = some (epa, w0) → pteDup w0 = 2 →
          (∀ p ∈ s.mm.sc, p.2.held = true → ∀ i, i < 8 → p.2.pa ≠ (epa + i) / 256) → walkWord t epa = w0 &&& ~~~1)
  ∧ ∀ (s : State) (c : Collapse), s.cur.x ≠ 0 → findCollapse s s.cur.x = some c → ∃ t, exec .collapseAck s = .next t
      ∧ (c.todo.filter (· != s.cur.y) ≠ [] → (t.mm.collapses.get s.cur.x).todo = c.todo.filter (· != s.cur.y) ∧ t.mm.mem = s.mm.mem)
      ∧ (c.todo.filter (· != s.cur.y) = [] → s.cur.x < s.mm.nextId → findCollapse t s.cur.x = none)

/-! ## The device's registers -/

/-- R45, R79 to R81, R86, R451, R452, Table 205: PTINV drops the die's cached translations of its range and ends with BUSY 0;
a new size of direct storage is taken when it is allowed, and what changes hands reads zero (for ways that direct storage gives
up, whose bytes the manual does not name, as bytes that nothing has written do: log entry 2); LKSWEEP unlocks a context's lines;
registers hold what is written, read-only ones ignore it; EVPORT signals an event. Through BAR2 the host rewrites boot flash while
the device does not run (its layout in the window is the model's, log entry 111), and through BAR4 it writes as the system does. -/
def Obligations.DeviceRegisterHappenings : Prop :=
  (∀ (s : State), ∃ t, exec .ptinvGo s = .next t ∧ (∃ h ∈ t.agenda, h.what = .ptinvDone ∧ h.x = s.cur.x)
    ∧ t.lane = s.lane ∧ t.uni = s.uni
    ∧ ∀ p ∈ t.mm.tlb, p.1 / 2 ^ 38 / 64 = s.cur.x →
        let sz := 2 ^ pageLog (p.1 % 4)
        let base := p.1 % 2 ^ 38 / 4 * 65536
        ¬(base < (ptinvSpan s s.cur.x).lo + (ptinvSpan s s.cur.x).len ∧ (ptinvSpan s s.cur.x).lo < base + sz))
  ∧ (∀ (s : State), (∀ p ∈ s.mm.reqs, p.2.stage ≠ .heldM) → ∃ t, exec .ptinvDone s = .next t
    ∧ (t.die s.cur.x).ptinv = 0 ∧ t.lane = s.lane ∧ t.uni = s.uni)
  ∧ (∀ (s : State), let d := s.cur.x
    let n := s.cur.y
    let allowed := n ≤ 12 ∧ (0 < n → bit (s.cfg.devfeat.getD 0 0).toNat 35 = true)
    (¬allowed → ∃ t, exec .sccarveWrite s = .next t
      ∧ (t.die d).sccarve = BitVec.ofNat 64 ((s.die d).sccarve.toNat % 16 + 2 ^ 16) ∧ t.mm.mem = s.mm.mem ∧ t.agenda = s.agenda)
    ∧ (allowed → locksExceed s d (16 - n) = true → ∃ t, exec .sccarveWrite s = .next t
      ∧ (t.die d).sccarve = BitVec.ofNat 64 ((s.die d).sccarve.toNat % 16 + 2 * 2 ^ 16) ∧ t.mm.mem = s.mm.mem ∧ t.agenda = s.agenda)
    ∧ (allowed → locksExceed s d (16 - n) = false → exec .sccarveWrite s = .next (s.add .sccarveDone d n)))
  ∧ (∀ (s : State), let d := s.cur.x
    let n := s.cur.y
    let c := carveSize s d
    let base := 0x10000000000 + d * 2 ^ 30
    n < 16 → (c < n → locksExceed s d (16 - n) = false ∧ setsExceed (trimSets s d (16 - n)) d (16 - n) = false) → ∃ t, exec .sccarveDone s = .next t
      ∧ (t.die d).sccarve = BitVec.ofNat 64 n ∧ t.lane = s.lane ∧ t.uni = s.uni
      ∧ ∀ pa, base + min c n * 2 ^ 26 ≤ pa → pa < base + max c n * 2 ^ 26 → memByte t pa = 0)
  ∧ (∀ (s : State), exec .lksweepGo s = .next (s.add .lksweepDone s.cur.x s.cur.y))
  ∧ (∀ (s : State), ∃ t, exec .lksweepDone s = .next t ∧ ((t.die s.cur.x).locks.get s.cur.y) = 0
      ∧ busy (t.die s.cur.x).lksweep = false ∧ t.mm.mem = s.mm.mem ∧ t.lane = s.lane ∧ t.uni = s.uni
      ∧ ∀ k, k / 2 ^ 44 = s.cur.x → (t.scLine k).lock ≠ some s.cur.y)
  ∧ (∀ (s : State), s.cur.z = 0 → let v := s.cur.v.toNat
    (∀ d, regAt s (s.cur.x / 8 * 8) = .schedcfg d → ∃ t, exec .registerWrite s = .next t
      ∧ (t.die d).schedcfg = BitVec.ofNat 64 (max 1 (bits v 43 32) * 2 ^ 32 + bits v 31 22 * 2 ^ 22 + v % 2 ^ 16) ∧ (∀ e, e ≠ d → t.die e = s.die e)
      ∧ t.lane = s.lane ∧ t.uni = s.uni ∧ ∀ a, memByte t a = memByte s a)
    ∧ (∀ d, regAt s (s.cur.x / 8 * 8) = .ptroot d → ∃ t, exec .registerWrite s = .next t
      ∧ (t.die d).ptroot = BitVec.ofNat 64 (bits v 43 14 * 2 ^ 14 + v % 2) ∧ (∀ e, e ≠ d → t.die e = s.die e)
      ∧ t.lane = s.lane ∧ t.uni = s.uni ∧ ∀ a, memByte t a = memByte s a)
    ∧ (∀ d, regAt s (s.cur.x / 8 * 8) = .rqbase d → ∃ t, exec .registerWrite s = .next t
      ∧ (t.die d).rqbase = BitVec.ofNat 64 (bits v 51 5 * 2 ^ 5) ∧ (∀ e, e ≠ d → t.die e = s.die e) ∧ t.lane = s.lane ∧ t.uni = s.uni)
    ∧ (∀ n, regAt s (s.cur.x / 8 * 8) = .crcons n → ∃ t, exec .registerWrite s = .next t
      ∧ (t.ring n).cons = v % 2 ^ 32 ∧ (t.ring n).prod = (s.ring n).prod ∧ (∀ m, m ≠ n → t.ring m = s.ring m)
      ∧ t.mm = s.mm ∧ t.lane = s.lane ∧ t.uni = s.uni)
    ∧ ((∃ d, regAt s (s.cur.x / 8 * 8) = .rqtail d) ∨ (∃ n, regAt s (s.cur.x / 8 * 8) = .crprod n)
        ∨ regAt s (s.cur.x / 8 * 8) = .inventory → exec .registerWrite s = .next s))
  ∧ (∀ (s : State), s.cur.z = 2 →
    (s.power = .up → exec .registerWrite s = .next s)
    ∧ (s.power ≠ .up → s.dev.images.length = 5 → s.cur.x / 2 ^ 23 < 6 → ∃ t, exec .registerWrite s = .next t ∧ t.mm = s.mm
      ∧ t.lane = s.lane ∧ t.uni = s.uni
      ∧ ∀ off, flashByte t off = if off / 2 ^ 23 = s.cur.x / 2 ^ 23 ∧ s.cur.x ≤ off ∧ off < s.cur.x + 8
          then BitVec.ofNat 8 (s.cur.v.toNat / 256 ^ (off - s.cur.x)) else flashByte s off))
  ∧ (∀ (s : State), s.cur.z = 4 →
    exec .registerWrite s = .next (if s.cur.x + 8 ≤ 2 ^ 26 then devPut s (s.cfg.winbase + s.cur.x) (leBytes 8 s.cur.v.toNat) else s))
  ∧ ∀ (s : State), ∃ t, exec .evportWrite s = .next t
      ∧ OpSent s t { kind := .signal 0, target := s.cur.v, by_ := .device, priv := true } .eventSignal

/-- R33 to R37, Tables 13 to 15, R231, Table 75: a key command ends with its status in KEYCMD. An install unwraps the record into
an EMPTY slot, or ends with 1, 3, 4 or 6; KEY_RETIRE makes the slot RETIRING, or ends with 2 or 5, and its completion empties the
slot; making a slot SHARED or PRIVATE changes its state alone, or ends with 2; an undefined operation ends with 7. An error in
memory that no lane's read is under (log entry 22) poisons the granule, one in an SC line the line unless it is clean (log entry
67), one in a team's state kills its job with 0x343, and one in the system kernel's stops the device. Of several causes of one
command the statuses come in the order 1, 6, 3, 4, and 2 before 5 (log entry 62); that a retirement looks at the primary slots of
the live contexts is log entry 89. -/
def Obligations.KeyHappenings : Prop :=
  (∀ (s : State) (i : Instr) (st : KeyState), (i = .keyInstallPrivate ∧ st = .priv) ∨ (i = .keyInstallShared ∧ st = .shared) →
    let k := s.cur.y
    let p := sysPort (dieOf s.cur.x)
    let at_ := bits s.cur.z 51 3 * 8
    let done (u : State) (c : Nat) : DWord := BitVec.ofNat 64 (c * 2 ^ 12 + (u.cregs s.cur.x).keycmd.toNat % 256)
    (keyState s k ≠ .empty → ∃ t, exec i s = .next t ∧ (t.cregs s.cur.x).keycmd = done s 1 ∧ t.mm = s.mm
      ∧ t.lane = s.lane ∧ t.uni = s.uni)
    ∧ (keyState s k = .empty → runAbsent s p at_ 72 = true → ∃ t, exec i s = .next t ∧ (t.cregs s.cur.x).keycmd = done s 6
      ∧ t.mm = s.mm)
    ∧ ∀ bs s1, keyState s k = .empty → runAbsent s p at_ 72 = false → engRead p at_ 72 s = .ok (bs, s1) →
        ∃ t, exec i s = .next t ∧ t.mm.mem = s1.mm.mem
          ∧ (∀ q ∈ t.mm.l1, q.1 / 2 ^ 45 / 64 ≠ s.cur.x)
          ∧ match unwrapKeys keyEncryptionKey bs with
            | none => (t.cregs s.cur.x).keycmd = done s1 3 ∧ t.mm.keys = s1.mm.keys
            | some v =>
              if v.toNat / 2 ^ 256 = v.toNat % 2 ^ 256 then (t.cregs s.cur.x).keycmd = done s1 4 ∧ t.mm.keys = s1.mm.keys
              else (t.cregs s.cur.x).keycmd = done s1 0
                ∧ ∀ j, t.mm.keys.get j = if j = k then { st := st, keys := v } else s1.mm.keys.get j)
  ∧ (∀ (s : State), let k := s.cur.y
    let done (c : Nat) : DWord := BitVec.ofNat 64 (c * 2 ^ 12 + (s.cregs s.cur.x).keycmd.toNat % 256)
    (keyState s k = .empty → ∃ t, exec .keyRetire s = .next t ∧ (t.cregs s.cur.x).keycmd = done 2 ∧ t.mm = s.mm)
    ∧ (keyState s k ≠ .empty → primaryOfLive s k = true → ∃ t, exec .keyRetire s = .next t ∧ (t.cregs s.cur.x).keycmd = done 5
        ∧ t.mm = s.mm)
    ∧ (keyState s k ≠ .empty → primaryOfLive s k = false → ∃ t, exec .keyRetire s = .next t ∧ keyState t k = .retiring
        ∧ (t.mm.keys.get k).keys = (s.mm.keys.get k).keys ∧ (∀ j, j ≠ k → t.mm.keys.get j = s.mm.keys.get j)
        ∧ (∃ h ∈ t.agenda, h.what = .keyRetireComplete ∧ h.x = s.cur.x ∧ h.y = k) ∧ t.mm.mem = s.mm.mem)
    ∧ (∃ t, exec .keyRetireComplete s = .next t ∧ keyState t k = .empty ∧ (t.mm.keys.get k).keys = 0
        ∧ (∀ j, j ≠ k → t.mm.keys.get j = s.mm.keys.get j) ∧ (t.cregs s.cur.x).keycmd = done 0 ∧ t.lane = s.lane ∧ t.uni = s.uni)
    ∧ (∃ t, exec .keyUndefinedOp s = .next t ∧ (t.cregs s.cur.x).keycmd = done 7 ∧ t.mm = s.mm)
    ∧ ∀ i st, (i = Instr.keyMakeShared ∧ st = KeyState.shared) ∨ (i = Instr.keyMakePrivate ∧ st = KeyState.priv) →
        (keyState s k = .empty → ∃ t, exec i s = .next t ∧ (t.cregs s.cur.x).keycmd = done 2 ∧ t.mm = s.mm)
        ∧ (keyState s k ≠ .empty → ∃ t, exec i s = .next t ∧ (t.cregs s.cur.x).keycmd = done 0
            ∧ ∀ j, t.mm.keys.get j = if j = k then { s.mm.keys.get k with st := st } else s.mm.keys.get j))
  ∧ (∀ (s : State) (pa : Nat), readsUnder s (.hbm pa) = false →
      ∃ t, exec (.softErrorDetected (.hbm pa)) s = .next t ∧ t.mm.poison.get (pa / 256) = true
      ∧ (∀ g, g ≠ pa / 256 → t.mm.poison.get g = s.mm.poison.get g) ∧ t.mm.mem = s.mm.mem ∧ t.lane = s.lane ∧ t.uni = s.uni)
  ∧ (∀ (s : State) (d line : Nat), readsUnder s (.scLine d line) = false → (s.scLine (scKey d line)).held = true →
      ∃ t, exec (.softErrorDetected (.scLine d line)) s = .next t ∧ t.mm.mem = s.mm.mem
        ∧ (t.scLine (scKey d line)).poison = !((s.scLine (scKey d line)).dirty.isEmpty && !(s.scLine (scKey d line)).poison))
  ∧ (∀ (s : State) (core w : Nat), (s.team (core * 16 + w)).job ≠ none →
      exec (.softErrorDetected (.team core w)) s = .next (killTeam s (core * 16 + w) 0x343))
  ∧ ∀ (s : State) (core : Nat), ∃ t, exec (.softErrorDetected (.kernel core)) s = .next t ∧ t.power = .stopped

/-! ## Engines -/

/-- R142, R144, R146 to R149, R152, R153, R155, R158, R384, Tables 45, 47: a transfer starts, with its descriptor where it has one;
it delivers a run's bytes to its destination, counts them and posts them to its barrier; its last run ends it, fills its handle and
lets the channel go on; it walks its chain and takes its permits; a permit that does not come in time faults it; a reader leaves its
handle; a barrier that nothing completes takes ERR 1. A run's source is read as it is delivered (log entry 93). -/
def Obligations.EngineHappenings : Prop :=
  (∀ (s : State), let id := s.cur.x
    let x := s.xfer id
    x.live = true → x.chain = false → x.kind = .linear → holdState s x.held ≠ .faulted →
    ∃ t, exec .transferStart s = .next t
      ∧ t.xfer id = { x with started := true, total := x.len, sent := 0, held := none, heldAt := 0 }
      ∧ (∃ h ∈ t.agenda, h.what = runEvent x ∧ h.x = id)
      ∧ (∀ k, x.chan = some k → x.zero = true → x.started = false → x.record = none →
          (t.chan k).count = 0 ∧ (t.chan k).fault = false)
      ∧ (∀ j, (farDest s { x with sent := 0 }).isSome = true → x.by_.job = some j → (t.job j).restartable = false)
      ∧ t.lane = s.lane ∧ t.uni = s.uni ∧ t.mm = s.mm ∧ t.core = s.core)
  ∧ (∀ (s s1 : State) (bs : List Byte) (g : Nat), let id := s.cur.x
    let x := s.xfer id
    x.live = true → x.chain = false → x.kind = .tensor ∨ x.kind = .unfold → x.zero = false → farDest s { x with sent := 0 } = none →
    holdState s x.held ≠ .faulted →
    (∀ T, x.src % 64 = 0 → engReadVa (xferPort x) x.src 128 s = .ok (bs, s1) → tensorOf bs (x.kind == .unfold) = some T →
      let n := if x.kind = .unfold then unfoldBytes T x.unfold else boxBytes T
      (x.kind = .unfold → 3 ≤ T.rank ∧ bits x.unfold 63 24 = 0 ∧ n ≤ 2 ^ 24) →
      (x.dkind = 2 → ∀ c ∈ targetCores x, n ≤ (s1.handle (handleKey c x.handle)).size) →
      (x.dkind = 1 → x.dst + n ≤ (s1.team x.by_.team).ssize) →
      ∃ t, exec .transferStart s = .next t ∧ (∃ h ∈ t.agenda, h.what = runEvent x ∧ h.x = id) ∧ t.mm = s1.mm
        ∧ t.xfer id = { x with started := true, zero := false, tensor := T, total := n, sent := 0, held := none, heldAt := 0 })
    ∧ (x.src % 64 ≠ 0 → x.follow = none → opHome s x.by_ = .live g → x.by_.handler = false →
      (s.group g).queue.length + (if (s.group g).handling.isSome then 1 else 0) < 8 →
      ∃ t, exec .transferStart s = .next t ∧ (t.xfer id).live = false
        ∧ ∃ q ∈ (t.group g).queue, q.cause = 0x185 ∧ q.mask = 1 ∧ q.fpc = x.by_.fpc))
  ∧ (∀ (s s1 : State) (i : Instr), i = .copyRunDeliver ∨ i = .pickerRunWrite →
    let id := s.cur.x
    let x := s.xfer id
    let n := min 256 (x.total - x.sent)
    x.live = true → holdState s x.held ≠ .faulted → farSource s x = none → farDest s x = none →
    runAction id x n s = .ok ((), s1) → x.chain = false →
    (x.barrier = none → x.sent + n < x.total → ∃ t, exec i s = .next t
      ∧ t.xfer id = { x with sent := x.sent + n, held := none, heldAt := 0, wire := 0, wireData := [] }
      ∧ (∃ h ∈ t.agenda, h.what = runEvent x ∧ h.x = id)
      ∧ (∀ k, x.chan = some k → (t.chan k).count = ((s1.chan k).count + n) % 2 ^ 48)
      ∧ t.mm = s1.mm ∧ t.core.scratch = s1.core.scratch ∧ t.lane = s1.lane ∧ t.uni = s1.uni)
    ∧ (x.barrier = none → x.total ≤ x.sent + n → x.follow = none → ∃ t, exec i s = .next t ∧ (t.xfer id).live = false
      ∧ (∀ k, x.chan = some k → (t.chan k).queue = (s1.chan k).queue.filter (· != id)
          ∧ (t.chan k).count = ((s1.chan k).count + n) % 2 ^ 48
          ∧ ∀ e, ((s1.chan k).queue.filter (· != id)).head? = some e → ∃ h ∈ t.agenda, h.what = .transferStart ∧ h.x = e)
      ∧ (x.dkind = 2 → ∀ c ∈ targetCores x, (s1.handle (handleKey c x.handle)).permit = some id →
          (s1.handle (handleKey c x.handle)).st = .filling → (t.handle (handleKey c x.handle)).st = .full)
      ∧ (∀ g, opHome s1 x.by_ = .live g → (t.group g).outst = countOff 0 ((s1.group g).outst.map fun o =>
          if o.cls == 0 && o.op == id then { o with done := true } else o))
      ∧ t.mm = s1.mm ∧ t.core.scratch = s1.core.scratch ∧ t.lane = s1.lane ∧ t.uni.sreg = s1.uni.sreg)
    ∧ ∀ off, x.barrier = some off → x.follow = none →
      let e := sbEval (sbPost n (sbWord s1 x.by_.core off))
      e.2 = false → ∃ t, exec i s = .next t ∧ sbWord t x.by_.core off = e.1 % 2 ^ 128
        ∧ (∀ k, ¬(scratchKey x.by_.core off ≤ k ∧ k < scratchKey x.by_.core off + 16) → t.core.scratch.get k = s1.core.scratch.get k)
        ∧ t.mm = s1.mm ∧ t.lane = s1.lane ∧ t.uni.sreg = s1.uni.sreg)
  ∧ (∀ (s s0 : State) (bs : List Byte) (i : Instr), i = .copyRunDeliver ∨ i = .pickerRunWrite →
    let id := s.cur.x
    let x := s.xfer id
    let n := min 256 (x.total - x.sent)
    x.live = true → holdState s x.held ≠ .faulted → farSource s x = none → farDest s x = none → x.chain = false → x.follow = none →
    x.barrier = none → srcBytes x n s = .ok (bs, s0) →
    (x.kind = .linear → x.srcScratch = true → bs = scratchBytes s x.by_.core (xferBase s x + x.src + x.sent) n ∧ s0 = s)
    ∧ (x.kind = .writeBack → bs = scratchBytes s x.by_.core (x.src + x.sent) n ∧ s0 = s)
    ∧ (x.kind = .linear → x.srcScratch = false → engReadVa (xferPort x) ((x.src + x.sent) % 2 ^ 64) n s = .ok (bs, s0))
    ∧ (x.kind = .tensor ∨ x.kind = .unfold → let T := x.tensor
        0 < T.esz → T.esz ≤ 16 → ∀ j, j < n / T.esz → elementVa T (coordsOf x (x.sent / T.esz + j)) = none →
          ∀ k, k < T.esz → bs.getD (j * T.esz + k) 0 = BitVec.ofNat 8 (T.fill / 256 ^ (k % 4)))
    ∧ (x.dkind = 1 → ∃ t, exec i s = .next t ∧ t.mm = s0.mm ∧ t.lane = s0.lane
        ∧ ∀ k, k < bs.length → scratchByte t x.by_.core (xferBase s0 x + x.dst + x.sent + k) = bs.getD k 0)
    ∧ (2 ≤ x.dkind → (∀ c ∈ targetCores x, handleAt s0 c x.handle + x.sent + bs.length ≤ 2 ^ 22) →
        ∃ t, exec i s = .next t ∧ t.mm = s0.mm ∧ t.lane = s0.lane
        ∧ ∀ c ∈ targetCores x, (s0.handle (handleKey c x.handle)).permit = some id →
            x.sent + bs.length ≤ (s0.handle (handleKey c x.handle)).size →
            ∀ k, k < bs.length → scratchByte t c (handleAt s0 c x.handle + x.sent + k) = bs.getD k 0)
    ∧ ∀ ia r pa key s1, let p := xferPort x
      let va := (x.dst + x.sent) % 2 ^ 64
      x.dkind = 0 → 0 < bs.length → va % 65536 + bs.length ≤ 65536 → ia % 256 + bs.length ≤ 256 →
      rangeCheck { rng := p.rng } va bs.length .engWrite = .ok (ia, r) → engXlate p ia .write bs s0 = .ok ((homeDie ia, pa, key), s1) →
      engPlace s0 p ia = none → p.die = homeDie ia → s1.mm.engClkd.contains (ia, p.die, p.job) = false → regionOf s1 pa ≠ .device →
      LineClean s1 (homeDie ia) (ia / 256) →
      (p.job = none → ∃ t, exec i s = .next t ∧ HoldsBytes t (homeDie ia) ia pa key bs.length (leNat bs) ∧ t.lane = s1.lane)
      ∧ ∀ j, p.job = some j → verStop s1 (homeDie ia) j (ia / 256) = .ok →
        ∃ t, exec i s = .next t ∧ VersionHolds t j ia bs.length (leNat bs) ∧ t.lane = s1.lane)
  ∧ (∀ (s s1 : State) (bs : List Byte), let id := s.cur.x
    let x := s.xfer id
    let r := recordOf bs
    x.live = true → holdState s x.held ≠ .faulted → x.record = none → x.next ≠ 0 → x.next % 64 = 0 →
    engReadVa (xferPort x) x.next 64 s = .ok (bs, s1) → bit r.ctrl 0 = true → recordBad r = false →
    (recordTensor r = true → x.boxes = true) → recordOutside s1 x r = false →
    ∃ t, exec .chainRecordRead s = .next t ∧ (∃ h ∈ t.agenda, h.what = .transferStart ∧ h.x = id)
      ∧ (t.xfer id).live = true ∧ (t.xfer id).record = some x.next ∧ (t.xfer id).next = r.next ∧ (t.xfer id).src = r.src
      ∧ (t.xfer id).dst = r.dst ∧ (t.xfer id).len = r.len ∧ (t.xfer id).dkind = bits r.ctrl 5 4 ∧ (t.xfer id).sent = 0)
  ∧ (∀ (s : State), (s.xfer s.cur.x).live = true →
      ((s.xfer s.cur.x).kind = .linear → (s.xfer s.cur.x).len ≤ (s.handle (handleKey s.cur.y (s.xfer s.cur.x).handle)).size) →
      ∃ t, exec .pickerPermitGrant s = .next t
      ∧ t.xfer s.cur.x = { s.xfer s.cur.x with granted := (s.xfer s.cur.x).granted ++ [s.cur.y] }
      ∧ (∀ k, t.handle k = if k = handleKey s.cur.y (s.xfer s.cur.x).handle then
          { s.handle k with st := .filling, permit := some s.cur.x } else s.handle k)
      ∧ t.lane = s.lane ∧ t.uni = s.uni ∧ t.mm = s.mm ∧ t.core = s.core)
  ∧ (∀ (s : State) (g : Nat), let x := s.xfer s.cur.x
    x.live = true →
    ((x.mcast.all fun c => x.granted.contains c) = true → exec .pickerPermitTimeout s = .next s)
    ∧ ((x.mcast.all fun c => x.granted.contains c) = false → x.follow = none → opHome s x.by_ = .live g →
        x.by_.handler = false → (s.group g).queue.length + (if (s.group g).handling.isSome then 1 else 0) < 8 →
        ∃ t, exec .pickerPermitTimeout s = .next t ∧ (t.xfer s.cur.x).live = false
          ∧ ∃ q ∈ (t.group g).queue, q.cause = 0x186 ∧ q.mask = 1 ∧ q.fpc = x.by_.fpc))
  ∧ (∀ (s : State), let e := s.tileEnt s.cur.x
    let w := e.words.getD s.cur.y 0
    let k := handleKey e.by_.core (opHandle w)
    let h := s.handle k
    e.live = true → h.st = .draining → ∃ t, exec .handleReaderFinish s = .next t
      ∧ (1 < h.readers → t.handle k = { h with readers := h.readers - 1, last := h.last || opLast w })
      ∧ (h.readers ≤ 1 → t.handle k = { h with readers := 0, last := false, st := if h.last || opLast w then .free else .full })
      ∧ (∀ j, j ≠ k → t.handle j = s.handle j) ∧ t.lane = s.lane ∧ t.uni = s.uni ∧ t.mm = s.mm ∧ t.core = s.core)
  ∧ ∀ (s : State), s.eng.dogs.get (dogKey s.cur.x s.cur.y) = s.cur.z → sbWaited s s.cur.x s.cur.y = true →
      sbErr s s.cur.x s.cur.y = 0 → ∃ t, exec .barrierWatchdogTimeout s = .next t ∧ sbErr t s.cur.x s.cur.y = 1
        ∧ sbPhase t s.cur.x s.cur.y = sbPhase s s.cur.x s.cur.y ∧ t.lane = s.lane ∧ t.uni = s.uni ∧ t.mm = s.mm

/-- R311 to R313, R388, R396, R398, R400 to R402, Tables 151, 152: an entry that starts occupies the array and, but for
ACCST, changes its tile to what Table 151 gives, leaving every other tile; a suppressed entry changes none; an ACCST that
completes has written every element of its rows. -/
def Obligations.ArrayHappenings : Prop :=
  (∀ (s : State) (id : Nat), startable s s.cur.x = some id →
    let e := s.tileEnt id
    let team := e.by_.team
    let n := occupancy e.op
    (isStopped s e = true → ∃ t, exec .arrayEntryStart s = .next t ∧ t.core.tiles = s.core.tiles ∧ t.mm = s.mm
      ∧ t.lane = s.lane ∧ t.uni.sreg = s.uni.sreg)
    ∧ (isStopped s e = false → ∃ t, exec .arrayEntryStart s = .next t
      ∧ t.tileEnt id = { e with started := true, busyUntil := s.now + n }
      ∧ (∃ h ∈ t.agenda, h.what = .arrayEntryComplete ∧ h.x = id ∧ h.due = s.now + (n + afterCk e.op))
      ∧ (∀ form ka kb sel zero dlay scales, e.op = .mma form ka kb sel zero dlay scales →
          getTile t team e.tile = mmaTile (getTile s team e.tile) form ka kb sel zero dlay scales
            (operandBytes s e 0 (formBytes form)) (operandBytes s e 1 (formBytes form)))
      ∧ (e.op = .accz → getTile t team e.tile = List.replicate 16384 0)
      ∧ (∀ f, e.op = .accld f → ∀ i, i < 16384 → (getTile t team e.tile).getD i 0 = accIn f (leNat ((List.range (accSize f)).map
          fun j => (operandBytes s e 0 (16384 * accSize f)).getD (i * accSize f + j) 0)))
      ∧ (∀ f pitch rms rm off zero, e.op = .accst f pitch rms rm off zero → t.core.tiles = s.core.tiles)
      ∧ (∀ k, k / 16384 ≠ tileKeyOf team e.tile → t.core.tiles.get k = s.core.tiles.get k)
      ∧ t.core.scratch = s.core.scratch ∧ t.mm = s.mm ∧ t.lane = s.lane ∧ t.uni = s.uni))
  ∧ ∀ (s : State), let id := s.cur.x
    let e := s.tileEnt id
    e.live = true → e.ended = false →
    (∀ f pitch rms rm off zero, e.op = .accst f pitch rms rm off zero → 128 * accSize f ≤ pitch →
      ∃ t, exec .arrayEntryComplete s = .next t ∧ (t.tileEnt id).ended = true
        ∧ (∀ r c i, r < 128 → c < 128 → i < accSize f → scratchByte t e.by_.core (off + r * pitch + c * accSize f + i)
            = BitVec.ofNat 8 (accOut f rms (rmOf rm) ((getTile s e.by_.team e.tile).getD (r * 128 + c) 0) / 256 ^ i))
        ∧ (zero = true → getTile t e.by_.team e.tile = List.replicate 16384 0)
        ∧ (zero = false → t.core.tiles = s.core.tiles) ∧ t.mm = s.mm ∧ t.lane = s.lane ∧ t.uni = s.uni)
    ∧ ((∀ f pitch rms rm off zero, e.op ≠ .accst f pitch rms rm off zero) →
      ∃ t, exec .arrayEntryComplete s = .next t ∧ (t.tileEnt id).live = false ∧ t.core.tiles = s.core.tiles
        ∧ t.core.scratch = s.core.scratch ∧ t.mm = s.mm ∧ t.lane = s.lane ∧ t.uni.sreg = s.uni.sreg)

/-- R98, R106, R108 to R114, R117, R166, R351, R404, R413 to R415, R430: an operation at its sequence's home first reserves what it
may need, then applies and answers with its value, or fails: what it had reserved is then returned, and it answers with its cause
(that these are two steps, and what is given back, is log entry 40, DEDUCED). Reserving takes blocks from the head of the pool's
free list. SEQAPP appends its span and its blocks to the control block and copies a shared tail block, SEQFORK gives the child the
parent's chain and spans, SPANTAG sets the tag, SPANRET removes a tag's spans and the blocks that they leave empty, and KVX and
KVXR answer each lane with its cell and phase, or slot. An admitted ATTQ scores at every slice position that holds a block of it,
keeps each position's triples and lands its roots in the result handle; a contribution joins its round, is written its result (it
is complete when every die has applied it, log entry 106), or fails when the limit expires. -/
def Obligations.SequenceAndRoundHappenings : Prop :=
  (∀ (s : State), let id := s.cur.x
    let o := s.op id
    let answered (u t : State) (c : Nat) (v : DWord) : Prop :=
      t.op id = { u.op id with applied := true, waiting := false, cause := c, value := v }
        ∧ (∃ h ∈ t.agenda, h.what = .homeAnswer ∧ h.x = id) ∧ t.mm = u.mm ∧ t.lane = u.lane ∧ t.uni = u.uni
    (o.live = true → o.applied = false → holdState s o.held ≠ .faulted → (∀ a r l, o.kind ≠ .kvx a r l) →
      (o.blocks = none →
        (∀ p l s1, atomically (seqReserve (opBy s o) o.target.toNat o.kind) s = .ok ((p, l), s1) →
          ∃ t, exec .sequenceOpApply s = .next t
            ∧ t.op id = { s1.op id with begun := true, blocks := some l, pool := p, held := none, heldAt := 0 }
            ∧ (∃ h ∈ t.agenda, h.what = .sequenceOpApply ∧ h.x = id) ∧ t.mm = s1.mm ∧ t.lane = s1.lane ∧ t.uni = s1.uni)
        ∧ ∀ c a, atomically (seqReserve (opBy s o) o.target.toNat o.kind) s = .error (.fault c a) →
          ∃ t, exec .sequenceOpApply s = .next t ∧ answered s t c 0)
      ∧ ∀ l, o.blocks = some l →
        (∀ v s1, o.cause = 0 → atomically (seqAction (opBy s o) o.target.toNat l o.kind) s = .ok (v, s1) →
          ∃ t, exec .sequenceOpApply s = .next t ∧ answered s1 t 0 v)
        ∧ (∀ c a, o.cause = 0 → atomically (seqAction (opBy s o) o.target.toNat l o.kind) s = .error (.fault c a) →
          ∃ t, exec .sequenceOpApply s = .next t ∧ (l = [] → answered s t c 0)
            ∧ (l ≠ [] → t.op id = { o with cause := c, held := none } ∧ t.mm = s.mm ∧ t.lane = s.lane ∧ t.uni = s.uni
              ∧ ∃ h ∈ t.agenda, h.what = .sequenceOpApply ∧ h.x = id))
        ∧ ∀ s1, o.cause ≠ 0 → atomically (returnBlocks (opBy s o) o.target.toNat o.pool l) s = .ok ((), s1) →
          ∃ t, exec .sequenceOpApply s = .next t ∧ answered s1 t o.cause 0)
    ∧ (s.cur.y = 3 → o.live = true → o.applied = false → o.heldAt = s.cur.z → (∀ a r l, o.kind ≠ .kvx a r l) → o.blocks.getD [] = [] →
        ∃ t, exec .engineResidencyTimeout s = .next t ∧ answered s t s.cur.v.toNat 0))
  ∧ (∀ (w : SeqBy) (k : Nat) (p p1 : Pool) (l : List Nat) (s s1 : State), reserve w p k s = .ok ((p1, l), s1) →
    l.length = k ∧ k ≤ p.freecnt ∧ p1.freecnt = p.freecnt - k ∧ (∀ b ∈ l, b < p.nb) ∧ (0 < k → l.head? = some p.head)
    ∧ p1.at_ = p.at_ ∧ p1.nb = p.nb)
  ∧ (∀ (w : SeqBy) (b r : Nat) (p p1 : Pool) (s s0 s1 : State), releaseBlock w p b s = .ok (p1, s1) → getRef w p b s = .ok (r, s0) →
    p1 = if r ≤ 1 then { p with head := b, freecnt := p.freecnt + 1 } else p)
  ∧ (∀ (s : State), let id := s.cur.x
    let o := s.op id
    let w := opBy s o
    let me := o.target.toNat
    let answered (u : State) (c : Nat) (v : DWord) : Prop := ∃ t, exec .sequenceOpApply s = .next t
      ∧ t.op id = { u.op id with applied := true, waiting := false, cause := c, value := v } ∧ t.mm = u.mm ∧ t.lane = u.lane ∧ t.uni = u.uni
    o.live = true → o.applied = false → o.cause = 0 → holdState s o.held ≠ .faulted → ∀ (q : SeqRec) (p : Pool) (s0 : State),
    readSeq w me s = .ok ((q, p), s0) →
    (∀ tag l s1, o.kind = .spanTag tag → o.blocks = some l → saveSeq w { q with tag := tag } s0 = .ok ((), s1) → answered s1 0 0)
    ∧ (∀ child c pc s1 l, o.kind = .seqFork child → o.blocks = some l → child ≠ me → readSeq w child s0 = .ok ((c, pc), s1) →
      (c.slots ≠ 0 → l = [] → answered s 0x249 0)
      ∧ (c.slots = 0 → c.cap < q.chain.length → l = [] → answered s 0x244 0)
      ∧ ∀ s2 s3, c.slots = 0 → q.chain.length ≤ c.cap → raiseRefs w p q.chain s1 = .ok ((), s2) →
        saveSeq w { c with pool := q.pool, tag := q.tag, tail := q.tail, slots := q.slots, nextPh := q.nextPh, spans := q.spans,
                           chain := q.chain } s2 = .ok ((), s3) → answered s3 0 0)
    ∧ (∀ n l, o.kind = .seqApp n → o.blocks = some l → 0 < n →
      let room := if q.chain.isEmpty then 0 else 64 - q.tail
      let last := q.chain.getLastD 0
      let x : Span := { slot := q.slots, len := n, ph := q.nextPh, tag := q.tag,
                        cix := if 0 < room then q.chain.length - 1 else q.chain.length, cell := if 0 < room then q.tail else 0 }
      let grown (chain : List Nat) : SeqRec := { q with
        spans := if lastExtends q then lengthen q.spans n else q.spans ++ [x]
        slots := q.slots + n, nextPh := q.nextPh + n, chain := chain
        tail := if n ≤ room then q.tail + n else if (n - room) % 64 = 0 then 64 else (n - room) % 64 }
      (∀ s1 s2, room = 0 → l.length = (n + 63) / 64 → fillNew w p n l s0 = .ok ((), s1) → saveSeq w (grown (q.chain ++ l)) s1 = .ok ((), s2) →
        answered s2 0 (word64 (q.slots + q.nextPh * 2 ^ 32)))
      ∧ (∀ r lv s1 s2 s3 s4, n ≤ room → l = [] → getRef w p last s0 = .ok (r, s1) → getLive w p last s1 = .ok (lv, s2) →
        setLive w p last (lv ||| runMask q.tail n) s2 = .ok ((), s3) → saveSeq w (grown q.chain) s3 = .ok ((), s4) →
        answered s4 0 (word64 (q.slots + q.nextPh * 2 ^ 32)))
      ∧ ∀ b2 fresh r lv lv2 s1 s2 s3 s4 s5 s6 s7 s8 s9, 0 < room → l = b2 :: fresh → fresh.length = (n - room + 63) / 64 → 1 < r →
        getRef w p last s0 = .ok (r, s1) → copyBlock w p last b2 s1 = .ok ((), s2) → getLive w p last s2 = .ok (lv, s3) →
        setLive w p b2 lv s3 = .ok ((), s4) → setRef w p last (r - 1) s4 = .ok ((), s5) → getLive w p b2 s5 = .ok (lv2, s6) →
        setLive w p b2 (lv2 ||| runMask q.tail (min n room)) s6 = .ok ((), s7) → fillNew w p (n - room) fresh s7 = .ok ((), s8) →
        saveSeq w (grown (q.chain.dropLast ++ [b2] ++ fresh)) s8 = .ok ((), s9) → answered s9 0 (word64 (q.slots + q.nextPh * 2 ^ 32)))
    ∧ (∀ tag l, o.kind = .spanRet tag → o.blocks = some l →
      let xs := q.spans.filter fun x => x.tag == tag
      (xs = [] → answered s0 0 0)
      ∧ ∀ r p1 spare s1 s2 p2 s3, xs ≠ [] → retireChain w xs 0 q.chain l p s0 = .ok ((r, p1, spare), s1) →
        let gone := (List.range r.length).filter fun j => (r.getD j none).isNone
        let total := (xs.map Span.len).foldl (· + ·) 0
        r.length = q.chain.length ∧ (∀ j, j < q.chain.length → cellsIn xs j = 0 → r.getD j none = some (q.chain.getD j 0))
        ∧ (saveSeq w { q with
            chain := r.filterMap (fun x => x), spans := resettle gone 0 (q.spans.filter fun x => x.tag != tag), slots := q.slots - total
            tail := if gone.contains (q.chain.length - 1) then (if (r.filterMap (fun x => x)).isEmpty then 0 else 64) else q.tail } s1 = .ok ((), s2) →
          releaseAll w spare.reverse p1 s2 = .ok (p2, s3) → answered s3 0 (word64 (total + gone.length * 2 ^ 32))))
    ∧ (∀ acc reverse lanes, o.kind = .kvx acc reverse lanes → (∀ c ∈ lanes, reverse = false → slotCell q c.d ≠ none) →
      ∃ t, exec .sequenceOpApply s = .next t ∧ (t.op id).live = false ∧ t.lane = s.lane ∧ t.uni = s.uni ∧ t.mm.mem = s.mm.mem
        ∧ ∀ i c, lanes[i]? = some c → let q1 := t.mm.reqs.get (s.mm.nextId + i)
          q1.src = .lane acc c.lane ∧ q1.stage = .response ∧ (∃ h ∈ t.agenda, h.what = .loadReturn ∧ h.x = s.mm.nextId + i)
          ∧ (∀ y, reverse = false → spanAt Span.slot q.spans c.d = some y → let k := y.cell + (c.d - y.slot)
              q1.data = q.chain.getD (y.cix + k / 64) 0 + k % 64 * 2 ^ 24 + (y.ph + (c.d - y.slot)) * 2 ^ 32)
          ∧ (∀ y, reverse = true → spanAt Span.ph q.spans c.d = some y → let k := y.cell + (c.d - y.ph)
              q1.data = q.chain.getD (y.cix + k / 64) 0 + k % 64 * 2 ^ 24 + (y.slot + (c.d - y.ph)) * 2 ^ 32)
          ∧ (reverse = true → spanAt Span.ph q.spans c.d = none → q1.data = 2 ^ 64 - 1)))
  ∧ (∀ (s s1 : State) (p : Pool) (l : List (Nat × Nat)), let id := s.cur.x
    let a := s.attq id
    let todo := l.foldr (fun b t => insertRise (blockPos p a.layer b.1) t) []
    a.live = true → a.admitted = false → holdState s a.held ≠ .faulted → atomically (attAdmit s a) s = .ok ((p, l), s1) →
    ∃ t, exec .attqAdmit s = .next t ∧ (t.attq id).admitted = true ∧ (t.attq id).blocks = l ∧ (t.attq id).pool = p
      ∧ (t.attq id).todo = todo ∧ (todo = [] → ∃ h ∈ t.agenda, h.what = .attqResultLand ∧ h.x = id)
      ∧ (∀ g ∈ todo, ∃ h ∈ t.agenda, h.what = .sauPartialDone ∧ h.x = id ∧ h.y = g) ∧ t.mm = s1.mm)
  ∧ (∀ (s s1 : State) (ts : List Triple) (n : Nat), let id := s.cur.x
    let a := s.attq id
    let left := a.todo.filter (· != s.cur.y)
    a.live = true → s.cur.y ∈ a.todo → holdState s a.held ≠ .faulted → sauPartial s a s.cur.y s = .ok ((ts, n), s1) →
    ∃ t, exec .sauPartialDone s = .next t ∧ (t.attq id).todo = left ∧ (t.attq id).parts.get s.cur.y = ts.map tripleList
      ∧ (∀ g, g ≠ s.cur.y → (t.attq id).parts.get g = a.parts.get g)
      ∧ (left = [] → ∃ h ∈ t.agenda, h.what = .attqResultLand ∧ h.x = id) ∧ t.mm = s1.mm)
  ∧ (∀ (s : State), let id := s.cur.x
    let a := s.attq id
    let k := handleKey a.by_.core a.handle
    let bs := (List.range a.heads).flatMap fun i => rootBytes (finishRoot a (rootOf a (8 * a.pool.ng) i))
    a.live = true → a.todo = [] → (s.handle k).permit = some id → (s.handle k).st = .filling → k ≠ handleKey a.by_.core (opHandle a.word) →
    ∃ t, exec .attqResultLand s = .next t ∧ (t.attq id).live = false ∧ (t.handle k).st = .full
      ∧ (∀ i, i < bs.length → scratchByte t a.by_.core (handleAt s a.by_.core a.handle + i) = bs.getD i 0) ∧ t.mm = s.mm)
  ∧ (∀ (s : State) (ia r rd : Nat), let id := s.cur.x
    let c := s.contrib id
    c.live = true → c.joined = false → holdState s c.held ≠ .faulted → c.dec = none → c.desc % 32 = 0 →
    rangeCheck { rng := c.by_.rng } c.desc 32 .engRead = .ok (ia, r) → openRound s ia = some rd →
    c.rank < (s.round rd).n → (∀ p ∈ (s.round rd).ranks, p.1 ≠ c.rank) → (s.round rd).rootOnly = false →
    (s.round rd).ranks.length + 1 < (s.round rd).n →
    ∃ t, exec .collectiveContribution s = .next t ∧ (t.contrib id).joined = true
      ∧ (t.round rd).ranks = insertRank (c.rank, c.vals) (s.round rd).ranks ∧ (t.round rd).members = (s.round rd).members ++ [id]
      ∧ t.mm = s.mm ∧ t.lane = s.lane ∧ t.uni = s.uni)
  ∧ (∀ (s : State), let id := s.cur.x
    let c := s.contrib id
    c.live = true → c.dec = none →
    (∀ s1, c.written = false → holdState s c.held ≠ .faulted →
      engWriteVa (contribPort s c) c.dest (valsBytes c.vals) s = .ok ((), s1) →
      ∃ t, exec .collectiveResultWritten s = .next t
        ∧ t.contrib id = { c with written := true, vc := dieVc s1 (contribPort s c).die, held := none, heldAt := 0 }
        ∧ (∃ h ∈ t.agenda, h.what = .collectiveResultWritten ∧ h.x = id) ∧ t.mm = s1.mm ∧ t.lane = s1.lane)
    ∧ (c.written = true → ∃ t, exec .collectiveResultWritten s = .next t ∧ (t.contrib id).live = false ∧ t.mm = s.mm ∧ t.lane = s.lane
      ∧ ∀ g, opHome s c.by_ = .live g → (t.group g).outst = countOff 4 ((s.group g).outst.map fun o =>
          if o.cls == 4 && o.op == id then { o with done := true } else o)))
  ∧ ∀ (s : State) (g : Nat), let id := s.cur.x
    let c := s.contrib id
    c.live = true → waitingRound s id = none → c.joined = false → c.dec = none → opHome s c.by_ = .live g → c.by_.handler = false →
    (s.group g).queue.length + (if (s.group g).handling.isSome then 1 else 0) < 8 →
    ∃ t, exec .collectiveLimitExpire s = .next t ∧ (t.contrib id).live = false
      ∧ ∃ q ∈ (t.group g).queue, q.cause = 0x18A ∧ q.fpc = c.by_.fpc

/-- R189 to R195, R406 to R409, R453: an operation at an event's home is applied and answered, a wait on an open event keeps
a watch; one of another device is asked of its home, which answers what a watch or a poll finds there, and the answer becomes the
operation's; a fault wakes the watches of its event, and the answer of an instruction that does not wait reaches its register; a poll that
found its event resolved then drops the core's L1 lines. -/
def Obligations.EventHomeHappenings : Prop :=
  (∀ (s : State), let id := s.cur.x
    let o := s.op id
    let answered (u t : State) (c : Nat) (v : DWord) : Prop :=
      t.op id = { u.op id with applied := true, waiting := false, cause := c, value := v }
        ∧ (∃ h ∈ t.agenda, h.what = .homeAnswer ∧ h.x = id) ∧ t.mm = u.mm ∧ t.lane = u.lane ∧ t.uni = u.uni
    o.live = true →
    (∀ v, signalValue o.kind = some v →
      (evElsewhere s o.target = false → ∃ t, exec .eventSignal s = .next t
        ∧ answered (signalEvent s o.target v o.slot o.priv).2 t ((signalEvent s o.target v o.slot o.priv).1.getD 0) 0)
      ∧ (evElsewhere s o.target = true → ∃ t, exec .eventSignal s = .next t ∧ t.op id = { o with waiting := true }
        ∧ (∃ h ∈ t.agenda, h.what = .linkOperationTimeout ∧ h.x = id ∧ h.due = s.now + s.cfg.engineLimit)
        ∧ (stationHolding s (.event 0 o.target (BitVec.ofNat 64 v)) = none →
            t.task.out = s.task.out ++ [.event 0 o.target (BitVec.ofNat 64 v)])
        ∧ t.mm = s.mm ∧ t.lane = s.lane ∧ t.uni = s.uni))
    ∧ (∀ node, o.kind = .futreg node → evLocal s o.target = true →
        (evForeign s o.target o.slot o.priv = true → ∃ t, exec .eventFutreg s = .next t ∧ answered s t 0x207 0)
        ∧ (evForeign s o.target o.slot o.priv = false → ∀ st s1,
            evFutreg s o.target node { slot := o.slot, gen := o.gen, rng := o.bankRng, keyslot := o.keyslot } = (.ok st, s1) →
            ∃ t, exec .eventFutreg s = .next t ∧ answered s1 t 0 (BitVec.ofNat 64 st)))
    ∧ (o.applied = false → evLocal s o.target = true →
        (∀ c v, waitAnswer s o = some (c, v) → o.by_ ≠ .peer → ∃ t, exec .eventWait s = .next t ∧ answered s t c v)
        ∧ (∀ c v, waitAnswer s o = some (c, v) → o.by_ = .peer → exec .eventWait s = .next (s.add .remoteWatchAnswer id))
        ∧ (waitAnswer s o = none → ∃ t, exec .eventWait s = .next t ∧ t.op id = { o with waiting := true }
            ∧ t.task.watches = s.task.watches ++ [{ name := o.target, op := id }] ∧ t.mm = s.mm ∧ t.uni = s.uni ∧ t.lane = s.lane))
    ∧ (evLocal s o.target = true →
        (watchReply s o = none → exec .remoteWatchAnswer s = .next s)
        ∧ ∀ m, watchReply s o = some m → ∃ t, exec .remoteWatchAnswer s = .next t ∧ (t.op id).live = false ∧ t.mm = s.mm
          ∧ (stationHolding s m = none → t.task.out = s.task.out ++ [m]))
    ∧ (evLocal s o.target = false → let w := s.cur.v
        (s.cur.y ≠ 0 → ∃ t, exec .remoteWatchAnswer s = .next t ∧ answered s t s.cur.y 0)
        ∧ (s.cur.y = 0 → o.kind = .poll → ∃ t, exec .remoteWatchAnswer s = .next t ∧ answered s t 0 w)
        ∧ (s.cur.y = 0 → o.kind = .wait ∨ o.kind = .get → ∃ t, exec .remoteWatchAnswer s = .next t
            ∧ (bits w.toNat 63 62 = 3 → answered s t 0x203 0)
            ∧ (bits w.toNat 63 62 ≠ 3 → answered s t 0 (BitVec.ofNat 64 (w.toNat % 2 ^ 48))))
        ∧ (s.cur.y = 0 → o.kind ≠ .poll → o.kind ≠ .wait → o.kind ≠ .get →
            ∃ t, exec .remoteWatchAnswer s = .next t ∧ answered s t 0 w))
    ∧ (s.cur.y ≠ 1 → o.waiting = true → o.applied = false → ∃ t, exec .linkOperationTimeout s = .next t ∧ answered s t 0x206 0)
    ∧ (s.cur.z ≠ 1 → ∀ core ent, o.by_ = .entry core ent → o.kind = .poll → o.answered = true →
        ∃ t, exec .homeAnswer s = .next t ∧ (t.op id).live = false ∧ (∀ q ∈ t.mm.l1, q.1 / 2 ^ 45 / 64 ≠ core)
          ∧ t.uni = s.uni ∧ t.lane = s.lane ∧ ∀ a, memByte t a = memByte s a)
    ∧ (s.cur.z ≠ 1 → ∀ core ent r, o.by_ = .entry core ent → o.yields = false → o.dst = some r → o.cause = 0 → (o.kind = .poll → o.answered = false) →
        ∃ t, exec .homeAnswer s = .next t ∧ t.sregOf o.group r = o.value ∧ t.uni.sout.get (o.group * 64 + r) = 0
          ∧ (∀ k, k ≠ o.group * 64 + r → t.uni.sreg.get k = s.uni.sreg.get k ∧ t.uni.sout.get k = s.uni.sout.get k)
          ∧ (acquires o = false → (t.op id).live = false)
          ∧ (acquires o = true → (t.op id).answered = true ∧ ∃ h ∈ t.agenda, h.what = .homeAnswer ∧ h.x = id)
          ∧ t.lane = s.lane ∧ ∀ a, memByte t a = memByte s a))
  ∧ ∀ (s : State), let n := s.cur.v
    (evW1 s n % 2 ^ 32 ≠ evGen n → exec .eventFault s = .next s)
    ∧ (evStateOf (evW0 s n) = .resolved ∨ evStateOf (evW0 s n) = .faulted → exec .eventFault s = .next s)
    ∧ (evW1 s n % 2 ^ 32 = evGen n → evStateOf (evW0 s n) = .empty ∨ evStateOf (evW0 s n) = .registered →
        ∃ t, exec .eventFault s = .next t ∧ (∀ w ∈ t.task.watches, evEntry w.name ≠ evEntry n)
          ∧ (∀ w ∈ s.task.watches, evEntry w.name = evEntry n → ∃ h ∈ t.agenda, h.what = .eventWait ∧ h.x = w.op)
          ∧ t.lane = s.lane ∧ t.uni = s.uni)

/-! ## Records, streams, queues and punnets -/

/-- R187, R190, R192, R271, R423, R425 to R437: a record is checked and arms what it names, one name after another; then its
code is performed: work operators make one job for each tile, engine operators start their engine, the others act and are
done, and a hold ends when what it holds for has come and every die has seen the writes numbered by then (log entry 106). Names
on other devices are armed there. Where O.SEQ's chain has no bytes its address is log entry 107. -/
def Obligations.RecordHappenings : Prop :=
  (∀ (s : State), let id := s.cur.x
    let d := s.dec id
    let c := recCode d.rcd
    d.live = true →
    (d.stage = 1 → isEngineCode c = false →
      ∃ t, exec .recordDecode s = .next t ∧ (t.dec id).stage = 2 ∧ (∃ h ∈ t.agenda, h.what = codeEvent c ∧ h.x = id)
        ∧ t.mm = s.mm ∧ t.lane = s.lane ∧ t.uni = s.uni)
    ∧ (∀ b s1, d.stage = 0 → checkRecord s d = .ok b s1 →
        (srcKind d.src = .m ∨ srcKind d.src = .q ∨ armFailure s1 d.slot (recArms d b) = none) →
        ∃ t, exec .recordDecode s = .next t ∧ t.dec id = { d with stage := 1, block := b, arms := recArms d b, held := none, heldAt := 0, answer := none }
          ∧ (∃ h ∈ t.agenda, h.what = (if (recArms d b).isEmpty then .recordDecode else .eventArm) ∧ h.x = id) ∧ t.mm = s1.mm)
    ∧ (∀ k, d.stage = 0 → checkRecord s d = .fail k → k ≠ 0x204 → ∃ t, exec .recordDecode s = .next t ∧ (t.dec id).live = false
        ∧ t.lane = s.lane ∧ t.uni = s.uni)
    ∧ (∃ t, exec .operatorCodeUndefined s = .next t ∧ (t.dec id).live = false ∧ t.lane = s.lane ∧ t.uni = s.uni
        ∧ (∀ j, d.src = .opsub j → d.op ≠ 0 → (s.op d.op).live = true → (t.op d.op).cause = 0x204 ∧ (t.op d.op).applied = true))
    ∧ (∀ n k rest, d.arms = (n, k) :: rest → d.armSeen = none →
        (armCheck s n d.slot false = .waits → exec .eventArm s = .next (s.add .eventArm id))
        ∧ (armCheck s n d.slot false = .armed → ∃ t, exec .eventArm s = .next t ∧ t.dec id = { d with arms := rest, armSeen := none }
            ∧ (∃ h ∈ t.agenda, h.what = (if rest.isEmpty then .recordDecode else .eventArm) ∧ h.x = id)
            ∧ t.mm = (armNow s n k).mm ∧ t.lane = s.lane ∧ t.uni = s.uni)
        ∧ (armCheck s n d.slot false = .remote → ∃ t, exec .eventArm s = .next t
            ∧ (stationHolding s (.event 4 n (BitVec.ofNat 64 k)) = none → t.task.out = s.task.out ++ [.event 4 n (BitVec.ofNat 64 k)])
            ∧ t.dec id = d
            ∧ (t.op s.task.nextOp).live = true ∧ (t.op s.task.nextOp).kind = .arm k ∧ (t.op s.task.nextOp).target = n
            ∧ t.mm = s.mm ∧ t.lane = s.lane ∧ t.uni = s.uni))
    ∧ (∀ e rest, d.arms = e :: rest → d.armSeen = some 0 → ∃ t, exec .eventArm s = .next t
        ∧ t.dec id = { d with arms := rest, armSeen := none }
        ∧ (∃ h ∈ t.agenda, h.what = (if rest.isEmpty then .recordDecode else .eventArm) ∧ h.x = id) ∧ t.mm = s.mm))
  ∧ (∀ (s : State) (i : Instr), i ∈ [Instr.oRun, .oGemm, .oAttn, .oCopy, .oRegen] → let id := s.cur.x
    let d := s.dec id
    let units := recUnits d.rcd d.block
    d.live = true → ∃ t, exec i s = .next t
      ∧ (t.dec id).live = false ∧ (t.grid s.task.nextGrid).live = true ∧ (t.grid s.task.nextGrid).njobs = units.length
      ∧ (t.grid s.task.nextGrid).left = units.length ∧ (t.grid s.task.nextGrid).seq = recSeq d.rcd
      ∧ (∀ k, k < units.length → (t.job (s.task.nextJob + k)).live = true ∧ (t.job (s.task.nextJob + k)).jobno = k
          ∧ (t.job (s.task.nextJob + k)).grid = s.task.nextGrid ∧ (t.job (s.task.nextJob + k)).prio = recPrio d.rcd
          ∧ (t.job (s.task.nextJob + k)).tile = tileWord (units.getD k {}).tile
          ∧ (t.job (s.task.nextJob + k)).signal = (if d.replay.isSome then 0 else (units.getD k {}).signal)
          ∧ (t.job (s.task.nextJob + k)).waits = (if d.replay.isSome then [] else (units.getD k {}).waits)
          ∧ ∃ h ∈ t.agenda, h.what = .jobEligible ∧ h.x = s.task.nextJob + k)
      ∧ t.mm = s.mm ∧ t.lane = s.lane ∧ t.uni = s.uni)
  ∧ (∀ (s : State), let id := s.cur.x
    let d := s.dec id
    let arg := recArg d.rcd
    let ends (i : Instr) (P : State → Prop) : Prop :=
      ∃ t, exec i s = .next t ∧ (t.dec id).live = false ∧ t.lane = s.lane ∧ t.uni = s.uni ∧ P t
    ends .oNop (fun t => t.mm = s.mm)
    ∧ ends .oPrio (fun t => t.mm = s.mm ∧ ∀ j, (s.job j).live = true → (s.job j).grid ∈ liveGrids s d.src →
        (s.grid (s.job j).grid).seq = arg % 65536 → ((s.job j).at_ = .queued ∨ ∃ c w, (s.job j).at_ = .placed c w) →
        (t.job j).prio = bits arg 18 16)
    ∧ ends .oCtx (fun t => t.mm = s.mm ∧ ∀ die n, d.src = .stream die n →
        (t.stream (srcKey die n)).ctx = some (arg % 64, some (bits arg 47 16)))
    ∧ ends .oFeed (fun t => ∀ die n, d.src = .stream die n →
        t.mm = (devPutNat (devPutNat s (streamAddr s die n + 0x10) 8 (recWait d.rcd).toNat) (streamAddr s die n + 8) 8 arg).mm
        ∧ (∃ h ∈ t.agenda, h.what = .streamFlow ∧ h.x = die ∧ h.y = n)
        ∧ ∀ h ∈ t.agenda, ¬(h.what = .streamRecordRead ∧ h.x = die ∧ h.y = n))
    ∧ (d.live = true → exec .oSignal s = .next (s.add .streamHoldEnd id) ∧ exec .oWait s = .next (s.add .streamHoldEnd id)
        ∧ exec .oFence s = .next ((s.setDec id { d with grids := liveGrids s d.src }).add .streamHoldEnd id)
        ∧ exec .oEnd s = .next ((s.setDec id { d with grids := liveGrids s d.src }).add .streamHoldEnd id))
    ∧ (d.live = true → recCode d.rcd = 0x8 ∨ recCode d.rcd = 0xF → (∃ g ∈ d.grids, (s.grid g).live = true) →
        exec .streamHoldEnd s = .next (s.add .streamHoldEnd id))
    ∧ (d.live = true → holdOver s id = true → d.vc = [] → decWait s id ≠ .send → ∃ t, exec .streamHoldEnd s = .next t
        ∧ t.dec id = { d with vc := (List.range 4).map fun i => (dieVc s i).getD i 0 }
        ∧ (∃ h ∈ t.agenda, h.what = .streamHoldEnd ∧ h.x = id) ∧ t.mm = s.mm ∧ t.lane = s.lane ∧ t.uni = s.uni)
    ∧ (d.live = true → d.vc ≠ [] → recCode d.rcd = 0x8 → (∀ g ∈ d.grids, (s.grid g).live = false) →
        ends .streamHoldEnd (fun t => t.mm = s.mm))
    ∧ (d.live = true → d.vc ≠ [] → recCode d.rcd = 0xF → (∀ g ∈ d.grids, (s.grid g).live = false) →
        ends .streamHoldEnd (fun t => ∀ die n, d.src = .stream die n → ∃ h ∈ t.agenda, h.what = .streamFlow ∧ h.x = die ∧ h.y = n))
    ∧ (∀ k, d.live = true → d.vc ≠ [] → recCode d.rcd = 0x6 ∨ recCode d.rcd = 0x7 → decWait s id = .ends k →
        ends .streamHoldEnd (fun t => (recCode d.rcd = 0x7 → k = 0 → t.mm = s.mm)
          ∧ (recCode d.rcd = 0x6 → k ≠ 0 → recSignal d.rcd ≠ 0 → evLocal s (recSignal d.rcd) = true →
              evForeign s (recSignal d.rcd) d.slot false = false →
              ∃ h ∈ t.agenda, h.what = .eventFault ∧ h.v = recSignal d.rcd))))
  ∧ ∀ (s : State), let id := s.cur.x
    let d := s.dec id
    let f (off n : Nat) : Nat := blockBits d.block off n
    let gone (d : Dec) : Dec := { d with done := d.done + 1, held := none, heldAt := 0 }
    d.live = true → d.answer = none → holdState s d.held ≠ .faulted →
    (∀ bs s1, engReadVa (decPort d) (f 24 8) (8 * f 16 4) s = .ok (bs, s1) →
      ∃ t, exec .oColl s = .next t ∧ (t.contrib s1.eng.nextEng).live = true ∧ (t.contrib s1.eng.nextEng).dec = some id
        ∧ (t.contrib s1.eng.nextEng).key = f 0 8 ∧ (t.contrib s1.eng.nextEng).rank = f 10 2
        ∧ (t.contrib s1.eng.nextEng).vals = (List.range (f 16 4)).map (fun i => word64 (leNat ((bs.drop (8 * i)).take 8)))
        ∧ (∃ h ∈ t.agenda, h.what = .collectiveContribution ∧ h.x = s1.eng.nextEng)
        ∧ t.mm = s1.mm ∧ t.lane = s1.lane ∧ t.uni = s1.uni)
    ∧ (f 0 1 = 1 → ∃ t, exec .oSeq s = .next t ∧ OpSent s t (decOp s id .seqDestroy (word64 (f 4 4))) .sequenceOpApply)
    ∧ (∀ parts s1, f 0 1 ≠ 1 → engRun (decPort d) .engWrite (f 8 8) (4 * f 16 4) s = .ok (parts, s1) →
        ∃ t, exec .oSeq s = .next t
          ∧ OpSent s1 t (decOp s1 id (.seqCreate (f 1 1) (chainIa d (f 8 8) (f 16 4) parts) (f 16 4)) (word64 (f 4 4))) .sequenceOpApply)
    ∧ (∀ bs s1, d.done < f 8 4 → engReadVa (decPort d) (f 16 8 + 16 * f 12 1 * d.done) (16 * f 12 1) (markSide s (some d.job)) = .ok (bs, s1) →
        ∃ t, exec .oNode s = .next t ∧ (t.dec id).done = d.done + 1
          ∧ OpSent (s1.setDec id (gone d)) t
              (decOp (s1.setDec id (gone d)) id (.deposit (f 12 1) bs) (word64 (f 0 8))) .punnetDeposit)
    ∧ (f 8 4 ≤ d.done → (s.job d.job).signal = 0 → ∃ t, exec .oNode s = .next t ∧ (t.dec id).live = false
        ∧ ((s.job d.job).live = true → (t.job d.job).at_ = .retired))

/-- R185, R186, R196 to R200: a flowing stream reads its next record and a queue gives its dispatcher one at a time; a
packet's records are taken and its status answered; a deposit is answered, one that had been refused with 1, and the timer launches what the batch holds. -/
def Obligations.SourceHappenings : Prop :=
  (∀ (s : State), let die := s.cur.x
    let n := s.cur.y
    let next := bits (devNat s (streamAddr s die n + 8) 8) 51 5 * 32
    (∀ bs s1, n < 64 → bit (streamCtl s die n) 63 = true → engRead (sysPort die) next 32 s = .ok (bs, s1) →
      (recSeq (bytesToRec bs) = recSeq (sourceDec s1 die n).rcd →
        ∃ t, exec .streamRecordRead s = .next t ∧ (t.dec s1.task.nextDec).live = true ∧ (t.dec s1.task.nextDec).rcd = bytesToRec bs
          ∧ (t.dec s1.task.nextDec).src = .stream die n ∧ (t.dec s1.task.nextDec).stage = 0
          ∧ (t.stream (srcKey die n)).hold = some s1.task.nextDec
          ∧ (∃ h ∈ t.agenda, h.what = .recordDecode ∧ h.x = s1.task.nextDec)
          ∧ t.mm = (devPutNat (devPutNat s1 (streamAddr s die n + 8) 8 ((next + 32) % 2 ^ 52)) (streamAddr s die n + 0x18) 2
              (recSeq (bytesToRec bs) + 1)).mm)
      ∧ (recSeq (bytesToRec bs) ≠ recSeq (sourceDec s1 die n).rcd →
        ∃ t, exec .streamRecordRead s = .next t ∧ t.task.decs = s1.task.decs
          ∧ ∃ h ∈ t.agenda, h.what = .streamFlow ∧ h.x = die ∧ h.y = n))
    ∧ (∀ q rcd s1, n = 256 + q → queueLive s die q = true → nextOfQueue s die q = some (rcd, s1) →
      ∃ t, exec .streamRecordRead s = .next t ∧ (t.dec s1.task.nextDec).live = true ∧ (t.dec s1.task.nextDec).rcd = rcd
        ∧ (t.dec s1.task.nextDec).src = .queue die q ∧ (t.queue (srcKey die q)).hold = some s1.task.nextDec
        ∧ (∃ h ∈ t.agenda, h.what = .recordDecode ∧ h.x = s1.task.nextDec) ∧ t.mm = s1.mm)
    ∧ (n < 64 → flowReady s die n = false → exec .streamFlow s = .next (s.post .streamFlow die n))
    ∧ (n < 64 → flowReady s die n = true → feedState s die n = .ends 0 → ∃ t, exec .streamFlow s = .next t
        ∧ (t.stream (srcKey die n)).watch = 0 ∧ (∃ h ∈ t.agenda, h.what = .streamRecordRead ∧ h.x = die ∧ h.y = n) ∧ t.mm = s.mm)
    ∧ (∀ c, n < 64 → flowReady s die n = true → feedState s die n = .ends c → c ≠ 0 → ∃ t, exec .streamFlow s = .next t
        ∧ (t.stream (srcKey die n)).ctx = none ∧ ∃ h ∈ t.agenda, h.what = .streamFlow ∧ h.x = die ∧ h.y = n)
    ∧ (queueLive s die n = false → exec .queueReadmit s = .next (dropQueue s die n))
    ∧ (queueLive s die n = true → (s.queue (srcKey die n)).resident = false → queuePlace s die = some none →
        ∃ t, exec .queueReadmit s = .next t ∧ (t.queue (srcKey die n)).resident = true
          ∧ (∃ h ∈ t.agenda, h.what = .streamRecordRead ∧ h.x = die ∧ h.y = 256 + n) ∧ t.mm = s.mm)
    ∧ (let p := s.pun (punKey die n)
      (p.timer = true → p.stamp = s.cur.z → 0 < p.batch → ∃ t, exec .punnetTimerExpire s = .next t
          ∧ (t.job s.task.nextJob).live = true ∧ (t.job s.task.nextJob).punnet = some (die, n, p.launched, p.batch)
          ∧ (t.job s.task.nextJob).routine = punField s die n 0 4
          ∧ (t.job s.task.nextJob).signal = word64 (punField s die n 0x18 8)
          ∧ t.pun (punKey die n) = { p with launched := p.launched + p.batch, batch := 0, timer := false, stamp := p.stamp + 1 }
          ∧ (∃ h ∈ t.agenda, h.what = .jobEligible ∧ h.x = s.task.nextJob) ∧ t.mm = s.mm)
      ∧ (p.timer = false ∨ p.stamp ≠ s.cur.z ∨ p.batch = 0 → exec .punnetTimerExpire s = .next s)))
  ∧ (∀ (s : State) (handle : DWord) (recs : List (BitVec 256)), let die := bits handle.toNat 53 52
    let q := bits handle.toNat 47 40
    let r := s.queue (srcKey die q)
    stationHolding s (.queueStatus handle 0) = none →
    (∃ t, exec (.queuePushPacket handle recs) s = .next t
        ∧ ∃ st, t.task.out = (packetStatus s die q (handle.toNat % 2 ^ 32) recs).2.task.out ++ [.queueStatus handle st])
    ∧ (bit (queueCtl s die q) 63 = false ∨ devNat s (queueAddr s die q + 8) 4 ≠ handle.toNat % 2 ^ 32 →
        exec (.queuePushPacket handle recs) s = .next (emitOut s (.queueStatus handle 1)))
    ∧ (queueLive s die q = true → r.gen = handle.toNat % 2 ^ 32 → r.resident = true →
        r.buf.length + recs.length ≤ 64 → ∃ t, exec (.queuePushPacket handle recs) s = .next t
          ∧ (t.queue (srcKey die q)).buf.map Prod.snd = r.buf.map Prod.snd ++ recs
          ∧ t.task.out = s.task.out ++ [.queueStatus handle 0] ∧ t.mm = s.mm ∧ t.lane = s.lane ∧ t.uni = s.uni))
  ∧ ∀ (s : State) (rsz : Nat) (data : List Byte), let id := s.cur.x
    let o := s.op id
    let answered (u t : State) (c : Nat) : Prop := t.op id = { u.op id with applied := true, waiting := false, cause := c, value := 0 }
        ∧ (∃ h ∈ t.agenda, h.what = .homeAnswer ∧ h.x = id) ∧ t.mm = u.mm ∧ t.lane = u.lane ∧ t.uni = u.uni
    o.live = true → o.applied = false → o.kind = .deposit rsz data →
    (∀ c, depositState s o rsz = .fail c → ∃ t, exec .punnetDeposit s = .next t ∧ answered s t c)
    ∧ (depositState s o rsz = .blocked → ∃ t, exec .punnetDeposit s = .next t ∧ t.op id = { o with waiting := true }
        ∧ (∃ h ∈ t.agenda, h.what = .punnetDeposit ∧ h.x = id) ∧ t.mm = s.mm ∧ t.lane = s.lane ∧ t.uni = s.uni)
    ∧ (depositState s o rsz = .apply → o.waiting = true → o.yields = true → ∃ t, exec .punnetDeposit s = .next t
        ∧ t.op id = { o with applied := true, waiting := false, cause := 0, value := 1 }
        ∧ (∃ h ∈ t.agenda, h.what = .homeAnswer ∧ h.x = id) ∧ t.mm = s.mm ∧ t.lane = s.lane ∧ t.uni = s.uni)
    ∧ ∀ s1, depositState s o rsz = .apply → (o.waiting = true → o.yields = false) → deposit s (opPunnet o).1 (opPunnet o).2 data s = .ok ((), s1) →
        ∃ t, exec .punnetDeposit s = .next t ∧ answered s1 t 0

/-! ## Jobs and preemption -/

/-- R178, R179, R181, R187, R203, R204, R207 to R209, R215 to R221, R233: a job that waits for nothing more is delivered to a
mailbox and taken by a worker team, whose fibres enter its routine; a parent retires after its children; records leave the
backlog and a ring's message is sent; a team sent back drains, is flushed or is saved, and its job is queued again. -/
def Obligations.JobHappenings : Prop :=
  (∀ (s : State), let j := s.cur.x
    let jb := s.job j
    jb.live = true → jb.at_ = .queued → jb.eligible = false →
    ((∀ n ∈ jb.waits, jobWait s j n = .ok) → ∃ t, exec .jobEligible s = .next t ∧ (t.job j).eligible = true
      ∧ (jb.engine = none → ∃ h ∈ t.agenda, h.what = .mailboxDeliver ∧ h.x = jb.die)
      ∧ (∀ d, jb.engine = some d → ∃ h ∈ t.agenda, h.what = codeEvent (recCode (s.dec d).rcd) ∧ h.x = d)
      ∧ t.mm = s.mm ∧ t.lane = s.lane ∧ t.uni = s.uni)
    ∧ ((∃ n ∈ jb.waits, jobWait s j n = .fault) → (∀ n ∈ jb.waits, jobWait s j n ≠ .send) →
      (∀ n ∈ jb.waits, isResidency s n = false) →
      ∃ t, exec .jobEligible s = .next t ∧ (t.job j).at_ = .retired ∧ t.lane = s.lane ∧ t.uni = s.uni))
  ∧ (∀ (s : State) (j c n : Nat), nextJob s s.cur.x = some j → mailCore s s.cur.x = some c → freeMail s c = some n →
    ∃ t, exec .mailboxDeliver s = .next t ∧ (t.job j).at_ = .mailbox c n
      ∧ (t.cregs c).mbstat = (s.cregs c).mbstat ||| BitVec.ofNat 64 (2 ^ n)
      ∧ t.task.mail.get c = s.task.mail.get c ++ [(n, j)]
      ∧ (∀ i, i < 64 → scratchByte t c (mailOff n + i) = (jobRecord (s.job j)).getD i 0)
      ∧ t.mm = s.mm ∧ t.lane = s.lane ∧ t.uni = s.uni)
  ∧ (∀ (s : State), let core := s.cur.x
    let w := s.cur.y
    (workerReady s core w = false → exec .workerTakeJob s = .next s)
    ∧ (∀ slot j va f s2, workerReady s core w = true → bestMail s core = some (slot, j) → jobStale s j = false →
      readRoutine (s.post .workerTakeJob core w) core j = .ok va f s2 → (s2.job j).frame = none → 1 ≤ fteTeam f → fteTeam f ≤ 64 →
      let g := (s2.team (core * 16 + w)).groups.headD 0
      ∃ t, exec .workerTakeJob s = .next t ∧ (t.job j).at_ = .placed core w
        ∧ (t.team (core * 16 + w)).job = some j ∧ (t.team (core * 16 + w)).n = fteTeam f
        ∧ (t.team (core * 16 + w)).ssize = roundGrant (fteScratch f) ∧ (t.team (core * 16 + w)).groups = [g]
        ∧ (t.ent (entKey core (8 * g))).st = .ready ∧ (t.ent (entKey core (8 * g))).pc = BitVec.ofNat 57 (fteEntry f)
        ∧ (t.ent (entKey core (8 * g))).lanes = maskOf (List.range (fteTeam f))
        ∧ t.sregOf (groupKey core g) 0 = (s2.job j).arg ∧ t.sregOf (groupKey core g) 1 = (s2.job j).tile
        ∧ (∀ l, l < fteTeam f → t.laneReg (regKey (fibKey (groupKey core g) l) 0) = BitVec.ofNat 32 l
            ∧ t.laneReg (regKey (fibKey (groupKey core g) l) 1) = 0)))
  ∧ (∀ (s : State) (p : Nat), (if s.cur.y = 1 then some s.cur.x else (s.grid s.cur.x).parentJob) = some p →
    (s.job p).live = true → (s.job p).ended = true → liveChildren s p = false →
    ∃ t, exec .parentRetire s = .next t ∧ (t.job p).live = false ∧ (t.job p).at_ = .retired ∧ t.lane = s.lane ∧ t.uni = s.uni)
  ∧ (∀ (s : State) (p : Nat × BitVec 256), drainable s s.cur.x = some p →
    ∃ t, exec .completionBacklogDrain s = .next t ∧ t.task.backlog.get s.cur.x = (s.task.backlog.get s.cur.x).erase p
      ∧ (t.ring p.1).prod = ((s.ring p.1).prod + 1) % 2 ^ 32 ∧ t.lane = s.lane ∧ t.uni = s.uni)
  ∧ (∀ (s : State), let r := s.ring s.cur.x
    ((r.stamp = s.cur.y ∧ r.since ≠ 0) → ∃ t, exec .msixTimeout s = .next t ∧ (t.ring s.cur.x).since = 0
      ∧ t.task.out = s.task.out ++ [.msix (bits r.ctl.toNat 15 8)] ∧ t.mm = s.mm ∧ t.lane = s.lane ∧ t.uni = s.uni)
    ∧ ((r.stamp ≠ s.cur.y ∨ r.since = 0) → exec .msixTimeout s = .next s))
  ∧ (∀ (s : State), let sent (i : Instr) (l : List Nat) : Prop := ∃ u, exec i s = .next u
        ∧ (∀ t ∈ l, (u.team t).back = .deciding ∧ (u.team t).nodrain = false ∧ ∃ h ∈ u.agenda, h.what = .preemptDecide ∧ h.x = t)
        ∧ u.mm = s.mm ∧ u.lane = s.lane ∧ u.uni = s.uni ∧ u.task = { s.task with jobs := u.task.jobs }
        ∧ ∀ p, bestMail s s.cur.x = some p → l ≠ [] → (u.job p.2).served = true
    sent .preemptPriorityTrigger (priorityVictims s s.cur.x) ∧ sent .preemptTimesliceTrigger (timesliceVictims s s.cur.x))
  ∧ (∀ (s : State), let l := contextTeams s s.cur.x s.cur.y
    (s.cur.z = 2 → l = [] → ∃ u, exec .preqGo s = .next u ∧ (u.die s.cur.x).preq = setBusy (s.die s.cur.x).preq false
      ∧ u.core = s.core ∧ u.lane = s.lane ∧ u.uni = s.uni)
    ∧ (s.cur.z ≠ 2 → ∃ u, exec .preqGo s = .next u ∧ (∀ t ∈ l, (s.team t).back = .no → (u.team t).back = .deciding)
      ∧ (∃ h ∈ u.agenda, h.what = .preqGo ∧ h.x = s.cur.x ∧ h.y = s.cur.y ∧ h.z = 2) ∧ u.mm = s.mm ∧ u.lane = s.lane ∧ u.uni = s.uni))
  ∧ (∀ (s : State) (j : Nat), let t := s.cur.x
    let decided (b : SendBack) (ev : Instr) : Prop := ∃ u, exec .preemptDecide s = .next u ∧ (u.team t).back = b
      ∧ (∃ h ∈ u.agenda, h.what = ev ∧ h.x = t ∧ h.y = (s.team t).serial) ∧ u.lane = s.lane ∧ u.uni.sreg = s.uni.sreg
    (s.team t).job = some j → (s.team t).back = .deciding → (s.job j).committing = false →
    (backAction s t (s.team t).nodrain = .drain → decided .draining .drainExpire)
    ∧ (backAction s t (s.team t).nodrain = .flush → decided .flushing .flushAndRestart)
    ∧ (∀ k, backAction s t (s.team t).nodrain = .save → saveFrame s t j = some k → decided .saving .saveCapture)
    ∧ (backAction s t (s.team t).nodrain = .save → saveFrame s t j = none →
        ∃ u, exec .preemptDecide s = .next u ∧ (u.team t).back = .draining ∧ u.agenda = s.agenda))
  ∧ ∀ (s : State) (j : Nat), let t := s.cur.x
    (s.team t).job = some j → (s.team t).serial = s.cur.y →
    ((s.team t).back = .draining → ∃ u, exec .drainExpire s = .next u ∧ (u.team t).back = .deciding ∧ (u.team t).nodrain = true
      ∧ (∃ h ∈ u.agenda, h.what = .preemptDecide ∧ h.x = t) ∧ u.mm = s.mm ∧ u.lane = s.lane ∧ u.uni = s.uni)
    ∧ ((s.team t).back = .flushing → ∃ u, exec .flushAndRestart s = .next u ∧ (u.team t).waiting = true ∧ (u.team t).job = none
      ∧ (u.job j).at_ = .queued ∧ (u.job j).restartable = false ∧ ∃ h ∈ u.agenda, h.what = .jobEligible ∧ h.x = j)
    ∧ (∀ k s1, (s.team t).back = .saving → (s.team t).frame = some k →
      engWrite (framePort s (dieOf (coreOfTeam t)) (bankSlot (s.bank (coreOfTeam t * 4 + (s.team t).bank)))
        (s.bank (coreOfTeam t * 4 + (s.team t).bank)).keyslot.toNat (frameAt s (s.job j).slot k))
        (frameAt s (s.job j).slot k) (packTeam s t j) s = .ok ((), s1) →
      ∃ u, exec .saveCapture s = .next u ∧ (u.job j).at_ = .queued ∧ (u.job j).eligible = false
        ∧ ∃ h ∈ u.agenda, h.what = .saveComplete ∧ h.x = t ∧ h.y = s.cur.y ∧ h.z = j)
    ∧ ((s.team t).back = .saving → ∃ u, exec .saveComplete s = .next u ∧ (u.team t).waiting = true
      ∧ ((s.job s.cur.z).live = true → (u.job s.cur.z).at_ = .queued ∧ ∃ h ∈ u.agenda, h.what = .jobEligible ∧ h.x = s.cur.z))

/-! ## Debugging and service -/

/-- R230, R231, R237 to R239, R419, R451 to R461, Table 79: a debug command ends with the status and the effect that Table 79
gives it, a service command with that of R461; attestation reads its nonce and writes its report, RESET leaves the state after
power-on, boot starts the part if its images are signed, and a monitor above its limit slows or stops it. That a retrain may fail,
and what it then leaves, is log entry 64; what RESET keeps, 65; where a RoCE SEND lands, 66; an unsigned boot, 70; an attestation
buffer that cannot be read, 71; an offline command that repeats, 72; what of a session's writes cannot be made, 108; the ms of a
lowered clock, 110. -/
def Obligations.DebugAndServiceHappenings : Prop :=
  (∀ (s : State), let c := s.cur.x
    let T := dbgTeam s c
    let old := (s.cregs c).dbgcmd
    let ended (st : Nat) : DWord := setField (setBusy old false) 62 60 st
    let gives (i : Instr) (P : State → Prop) : Prop := ∃ t, exec i s = .next t ∧ P t ∧ t.mm = s.mm ∧ t.task = s.task
    gives .dbgUndefinedOp (fun t => (t.cregs c).dbgcmd = ended 7 ∧ t.lane = s.lane ∧ t.uni = s.uni)
    ∧ (dbgAllowed s T = false → ∀ i, i ∈ [Instr.dbgHalt, .dbgResume, .dbgStep, .dbgRead, .dbgWrite, .dbgCancelPending] →
        gives i (fun t => (t.cregs c).dbgcmd = ended 4 ∧ t.lane = s.lane ∧ t.uni = s.uni))
    ∧ (dbgAllowed s T = true → (s.team T).halt ≠ 2 ∨ (s.team T).stepping = true →
        ∀ i, i ∈ [Instr.dbgResume, .dbgStep, .dbgRead, .dbgWrite, .dbgCancelPending] →
        gives i (fun t => (t.cregs c).dbgcmd = ended 1 ∧ t.lane = s.lane ∧ t.uni = s.uni))
    ∧ (dbgAllowed s T = true → gives .dbgHalt (fun t => (t.team T).halt = max 1 (s.team T).halt
        ∧ (∃ h ∈ t.agenda, h.what = .dbgHaltComplete ∧ h.x = c ∧ h.y = T) ∧ t.lane = s.lane ∧ t.uni = s.uni))
    ∧ (dbgAllowed s T = true → (s.team T).halt = 2 → (s.team T).stepping = false →
        gives .dbgResume (fun t => (t.team T).halt = 0 ∧ (t.cregs c).dbgcmd = ended 0 ∧ t.lane = s.lane ∧ t.uni = s.uni)
        ∧ gives .dbgStep (fun t => (t.team T).stepping = true
            ∧ (∃ h ∈ t.agenda, h.what = .dbgHaltComplete ∧ h.x = c ∧ h.y = T) ∧ t.lane = s.lane ∧ t.uni = s.uni)
        ∧ (dbgLoc s c T = .dead → ∀ i, i ∈ [Instr.dbgRead, .dbgWrite, .dbgCancelPending] →
            gives i (fun t => (t.cregs c).dbgcmd = ended 2 ∧ t.lane = s.lane ∧ t.uni = s.uni))
        ∧ (dbgLoc s c T = .absent → ∀ i, i ∈ [Instr.dbgRead, .dbgWrite, .dbgCancelPending] →
            gives i (fun t => (t.cregs c).dbgcmd = ended 3 ∧ t.lane = s.lane ∧ t.uni = s.uni))
        ∧ (∀ k, dbgLoc s c T = .lane k →
            gives .dbgRead (fun t => (t.cregs c).dbgdata = word64 (s.laneReg k).toNat
              ∧ (t.cregs c).dbgcmd = setField (ended 0) 5 5 (b2n !(s.isEmpty k)) ∧ t.lane = s.lane ∧ t.uni = s.uni)
            ∧ gives .dbgWrite (fun t => t.laneReg k = BitVec.ofNat 32 (s.cregs c).dbgdata.toNat ∧ t.isEmpty k = false
              ∧ t.outOf k = s.outOf k ∧ (t.cregs c).dbgcmd = ended 0 ∧ (∀ r, r ≠ k → t.laneReg r = s.laneReg r) ∧ t.uni = s.uni)
            ∧ (∃ t, exec .dbgCancelPending s = .next t ∧ t.task = s.task ∧ t.mm = { s.mm with accs := t.mm.accs }
              ∧ t.outOf k = 0 ∧ t.laneReg k = s.laneReg k ∧ (t.cregs c).dbgcmd = ended 0 ∧ (∀ r, r ≠ k → t.outOf r = s.outOf r)
              ∧ ∀ a, findAcc s (s.outOf k) = some a → ∃ a', findAcc t (s.outOf k) = some a'
                  ∧ a'.cancelled.getLsbD (k / 512 % 64) = true ∧ a' = { a with cancelled := a'.cancelled }))))
  ∧ (∀ (s : State), let c := s.cur.x
    let T := s.cur.y
    (s.team T).job.isSome = true → (s.team T).halt ≠ 0 → ∃ t, exec .dbgHaltComplete s = .next t
      ∧ (t.cregs c).dbgcmd = setField (setField (setBusy (s.cregs c).dbgcmd false) 62 60 0) 15 6
          (if (s.team T).stepping then 0x2C2 else 0x2C1)
      ∧ (t.team T).halt = (if (s.team T).stepping then (s.team T).halt else 2) ∧ (t.team T).stepping = false
      ∧ t.mm = s.mm ∧ t.lane = s.lane ∧ t.uni = s.uni)
  ∧ (∀ (s : State), let se := s.task.sessions.get s.cur.x
    (se.live = false → exec .replayPassEnd s = .next s)
    ∧ (∀ s1, se.live = true → se.settling = false →
        let se1 := if se.pass = 0 then { se with path0 := se.digest }
          else if se.digest ≠ se.path0 ∧ se.mismatch = none then { se with mismatch := some se.pass } else se
        settlePass s s.cur.x se1 = .ok s1 → ∃ t, exec .replayPassEnd s = .next t
        ∧ t.task.sessions.get s.cur.x = { se1 with settling := true, wrote := settleAddrs se1 }
        ∧ (∃ h ∈ t.agenda, h.what = .replayPassEnd ∧ h.x = s.cur.x) ∧ t.mm = s1.mm)
    ∧ (se.live = true → se.settling = true → se.overflow = true ∨ se.passes ≤ se.pass + 1 → ∃ t, exec .replayPassEnd s = .next t
        ∧ (t.task.sessions.get s.cur.x).live = false ∧ t.lane = s.lane ∧ t.uni = s.uni)
    ∧ (se.live = true → se.settling = true → se.overflow = false → se.pass + 1 < se.passes → ∃ t, exec .replayPassEnd s = .next t
        ∧ t.task.sessions.get s.cur.x = { se with logged := [], wrote := [], settling := false, digest := 0, pass := se.pass + 1 }
        ∧ (t.dec s.task.nextDec).live = true ∧ (t.dec s.task.nextDec).rcd = se.rcd ∧ (t.dec s.task.nextDec).replay = some s.cur.x
        ∧ (∃ h ∈ t.agenda, h.what = .recordDecode ∧ h.x = s.task.nextDec) ∧ t.lane = s.lane ∧ t.uni = s.uni))
  ∧ (∀ (s : State), let c := svcUnit s
    let status (st : Nat) : DWord := word64 (st * 2 ^ 60 + c)
    let gives (i : Instr) (P : State → Prop) : Prop := ∃ t, exec i s = .next t ∧ P t ∧ t.lane = s.lane ∧ t.uni = s.uni ∧ t.mm = s.mm
    gives .svcUndefinedOp (fun t => t.dev.svccmd = status 7)
    ∧ (svcCoreAbsent s c = true →
        gives .svcCoreOffline (fun t => t.dev.svccmd = status 1) ∧ gives .svcCoreOnline (fun t => t.dev.svccmd = status 1))
    ∧ (svcCoreAbsent s c = false → (s.cregs c).offline = true →
        gives .svcCoreOffline (fun t => t.dev.svccmd = status 2)
        ∧ gives .svcCoreOnline (fun t => t.dev.svccmd = status 0 ∧ (t.cregs c).offline = false
            ∧ ∃ h ∈ t.agenda, h.what = .mailboxDeliver ∧ h.x = dieOf c))
    ∧ (svcCoreAbsent s c = false → (s.cregs c).offline = false →
        gives .svcCoreOnline (fun t => t.dev.svccmd = status 2)
        ∧ (haltedOn s c = true → gives .svcCoreOffline (fun t => t.dev.svccmd = status 3))
        ∧ (haltedOn s c = false → gives .svcCoreOffline (fun t => (t.cregs c).offline = true
            ∧ (∀ p ∈ s.task.mail.get c, (t.job p.2).at_ = .queued)
            ∧ ∃ h ∈ t.agenda, h.what = .svcOfflineDone ∧ h.x = c)))
    ∧ (residentTeams s s.cur.x = [] → s.task.mail.get s.cur.x = [] → gives .svcOfflineDone (fun t => t.dev.svccmd = status 0))
    ∧ (residentTeams s s.cur.x ≠ [] → gives .svcOfflineDone (fun t => ∃ h ∈ t.agenda, h.what = .svcOfflineDone ∧ h.x = s.cur.x))
    ∧ (chanPresent s (c / 64) (c % 64) = true → gives .svcChannelRetrain (fun t => t.dev.retraining = s.dev.retraining ++ [c]
        ∧ ∃ h ∈ t.agenda, h.what = .svcRetrainDone ∧ h.x = c ∧ h.y = 0))
    ∧ (chanPresent s (c / 64) (c % 64) = false → gives .svcChannelRetrain (fun t => t.dev.svccmd = status 1))
    ∧ (c < s.cfg.stations → c ∉ s.dev.stationsOff → gives .svcStationRetrain (fun t => t.dev.svccmd = s.dev.svccmd
        ∧ t.dev.retraining = s.dev.retraining ++ [256 + c] ∧ ∃ h ∈ t.agenda, h.what = .svcRetrainDone ∧ h.x = c ∧ h.y = 1))
    ∧ (s.cur.y = 1 → ∃ t, exec .svcRetrainDone s = .next t ∧ t.mm = s.mm ∧ 256 + s.cur.x ∉ t.dev.retraining
        ∧ t.task.out = s.task.out ++ (s.dev.heldOut.filter fun p => p.1 == s.cur.x).map (·.2) ∧ (∀ p ∈ t.dev.heldOut, p.1 ≠ s.cur.x)
        ∧ ((t.dev.svccmd = status 0 ∧ t.dev.stationsOff = s.dev.stationsOff)
          ∨ (t.dev.svccmd = status 1 ∧ t.dev.stationsOff = s.dev.stationsOff ++ [s.cur.x])))
    ∧ (s.cur.y ≠ 1 → ∃ t, exec .svcRetrainDone s = .next t ∧ t.mm.mem = s.mm.mem ∧ s.cur.x ∉ t.dev.retraining
        ∧ ((t.dev.svccmd = status 0 ∧ (t.die (s.cur.x / 64)).offlineChans = (s.die (s.cur.x / 64)).offlineChans)
          ∨ (t.dev.svccmd = status 1 ∧ s.cur.x % 64 ∈ (t.die (s.cur.x / 64)).offlineChans))))
  ∧ (∀ (s : State),
    (∀ bs s1, reportAbsent s = false → engRead (reportPort s) (reportAddr s) 48 s = .ok (bs, s1) → ∃ t, exec .attcmdWrite s = .next t
      ∧ t.dev.nonce = bs ∧ (∃ h ∈ t.agenda, h.what = .attestationDone) ∧ t.mm = s1.mm)
    ∧ (reportAbsent s = true → exec .attcmdWrite s = .next (reportDone s 1) ∧ exec .attestationDone s = .next (reportDone s 1))
    ∧ (∀ s1, reportAbsent s = false → engWrite (reportPort s) (reportAddr s) (report s) s = .ok ((), s1) → ∃ t, exec .attestationDone s = .next t
      ∧ t.dev.attcmd = word64 (maskBits s1.dev.attcmd 51 6) ∧ t.mm = s1.mm)
    ∧ (∃ t, exec .resetGo s = .next t ∧ t = { State.reset with
        free := s.free, tick := s.tick, cfg := s.dev.nextCfg
        dev := { State.reset.dev with nextCfg := s.dev.nextCfg, certificate := s.dev.certificate, images := match s.dev.nextImage with
          | some i => s.dev.images.set 1 i
          | none => s.dev.images } })
    ∧ (∃ t, exec .powerOnBoot s = .next t ∧ if bootSigned s = true
        then t.power = .up ∧ t.mm.mem = s.mm.mem ∧ ∀ d, d < 4 → ∀ n, n < 64 → ∃ h ∈ t.agenda, h.what = .streamFlow ∧ h.x = d ∧ h.y = n
        else t = { s with agenda := s.agenda.filter (hostReaches s) })
    ∧ (∃ t, exec .thermalThrottleTick s = .next t
        ∧ (∃ h ∈ t.agenda, h.what = .thermalThrottleTick ∧ h.x = s.cur.x ∧ h.due = s.now + 87500 * (8 - slowest t))
        ∧ ((∃ m ∈ tempMons t, (monLimitOf t s.cur.x m).toInt < monValueOf t s.cur.x m) →
            t.dev.slow.get s.cur.x = min 4 (s.dev.slow.get s.cur.x + 1))
        ∧ ((∃ m ∈ tempMons t, 2000 ≤ monValueOf t s.cur.x m) → ∃ h ∈ t.agenda, h.what = .thermalStop ∧ h.x = s.cur.x)
        ∧ t.mm = s.mm ∧ t.lane = s.lane ∧ t.uni = s.uni)
    ∧ (∃ t, exec .thermalStop s = .next t ∧ t.power = .stopped))
  ∧ (∀ (s : State) (port ia : Nat) (data : List Byte),
    (∀ k, k = .write ∨ k = .send → exec (.roceInbound k port ia data) s = .next (devPut s ia data))
    ∧ ∀ k, k ≠ .write → k ≠ .send → exec (.roceInbound k port ia data) s = .next (emitOut s (.nak port)))
  ∧ ∀ (s : State) (image : List Byte) (cfg : ConfigRecord),
    let taken (k : UpdateKind) (P : State → Prop) : Prop := ∃ t, exec (.inServiceUpdate k image cfg) s = .next t
      ∧ (if Config.signatureOk image = true then P t else t = s)
    taken .dispatcher (fun t => t = { s with dev := { s.dev with images := s.dev.images.set 2 image } })
    ∧ taken .kernel (fun t => t = { s with dev := { s.dev with images := s.dev.images.set 3 image, kernels := s.dev.kernels + 1 } })
    ∧ taken .emulation (fun t => t = { s with dev := { s.dev with images := s.dev.images.set 4 image } })
    ∧ taken .config (fun t => t = { s with dev := { s.dev with nextCfg := cfg, nextImage := some image } })

/-! ## The words and the step -/

/-- Tables 80 to 88: every well-formed instruction is read back from its own words, every field at every value. -/
def Obligations.DecodeEncode : Prop :=
  ∀ i : Instr, i.isWord = true → i.wellFormed = true → ∀ rest : List Byte, decode (encode i ++ rest) = .ok (i, rest)

/-- Tables 80 to 83, 88 and 94: words written out bit by bit from the encodings decode to their instructions: a displaced and
an undisplaced load, a guarded float add with a forced-empty source, REP and its target, an add of an immediate and a return;
a zeroed word, the fill word, a reserved value and a set unused field are refused for their reasons. -/
def Obligations.DecodedWords : Prop :=
  decodeTableWord 32 0x45220724 = some (.vldW { b := true, p := 0, d := 8, a := 7, sb := 2, sz := 1, w := false, fa := false })
  ∧ decodeTableWord 64 0x8000001005128020
      = some (.vldNd { b := false, p := 0, d := 10, a := 0, sb := 2, sz := 0, w := false, fa := false } { nolane := true, disp := 16 })
  ∧ decodeTableWord 32 0x12010519 = some (.fadd { b := false, p := 2, d := 4, a := 5, v := 6, fa := false, fb := true })
  ∧ decodeTableWord 32 0x02020082 = some (.fadd { b := false, p := 0, d := 8, a := 0, v := 32, fa := true, fb := false })
  ∧ decodeTableWord 32 0x94062200 = some (.rep { b := false, d := 3, imm := 0x2200 })
  ∧ decodeTableWord 32 0xC107FFFF = some (.saddi { b := true, d := 3, imm := 0x1FFFF })
  ∧ decodeTableWord 32 0x92000000 = some (.ret { b := false, d := 0, a := 0, c := 0, f := 0 })
  ∧ decode (leBytes 4 0x00000000) = .error .undefinedOpcode ∧ decode (leBytes 4 0xFFFFFFFF) = .error .undefinedOpcode
  ∧ decode (leBytes 4 0x05400024) = .error .reservedValue ∧ decode (leBytes 4 0x0190C401) = .error .unusedField

/-- R211, R240, R250, R252: where slot k is the only thing that can come next, or the one that comes, and its entry fetches an
instruction, the step runs the instruction that the fetched words decode to, after one clock period, and counts the issue; a
happening of the agenda leaves it and is performed on its objects; with nothing to come, time passes; a stopped device takes
only what starts it again. A step of one clock
period for each issue, and which of several steps comes, are the model's (log entries 1 and 6). -/
def Obligations.StepRunsDecoded : Prop :=
  (∀ (s s1 : State) (k ent : Nat) (i : Instr), s.power ≠ .stopped → chosen s = some (.issue k) → (s.slotAt k).ent = some ent →
    repOpen (atSlot (elapse s 1) (k / 4) ent) = false → (s.slotAt k).issues < 24 →
    fetchFor (atSlot (elapse s 1) (k / 4) ent) (s.slotAt k).issues = .run s1 →
    (repAct (curEntry s1).repst = false ∨ inHandler s1 = true) → rawDecode s1.cur.word.toNat s1.cur.dword.toNat = some i →
    step s = andThen (exec i s1) fun t => .next (afterIssue s1 t k))
  ∧ (∀ (s : State) (c : Nat), s.power ≠ .stopped → chosen s = some (.arbitrate c) →
    step s = exec .issueArbitration (actingOn (elapse s 0) { what := .issueArbitration, x := c }))
  ∧ (∀ (s : State) (g : Nat), s.power ≠ .stopped → chosen s = some (.rotate g) →
    step s = exec .ageCapRotation (actingOn (elapse s 0) { what := .ageCapRotation, x := g }))
  ∧ (∀ (s : State) (n : Nat) (h : Happening), s.power ≠ .stopped → chosen s = some (.item n) → (elapse s 0).agenda[n]? = some h →
    step s = exec h.what (actingOn { elapse s 0 with agenda := (elapse s 0).agenda.eraseIdx n } h))
  ∧ (∀ s : State, s.power ≠ .stopped → chosen s = none → ∃ t, step s = .next t ∧ t.lane = s.lane ∧ t.uni = s.uni ∧ s.now < t.now
    ∧ (s.task.queues = [] → t.mm = s.mm ∧ t.agenda = s.agenda))
  ∧ (∀ s : State, s.power = .stopped → (∀ h ∈ s.agenda, hostReaches s h = false) → step s = .fault .deviceStopped)
  ∧ ∀ (s : State) (n : Nat) (h : Happening), s.power = .stopped → s.agenda.findIdx? (hostReaches s) = some n → s.agenda[n]? = some h →
    step s = exec h.what (actingOn { s with agenda := s.agenda.eraseIdx n } h)

/-- Every step keeps memory's canonical form: addresses rise strictly and no byte is listed that an unlisted address reads as.
The form is the model's own; what an unlisted byte reads as is the model's choice (log entry 2). -/
def Obligations.StepKeepsMemory : Prop :=
  ∀ s t : State, Memory.wf s.mm.mem = true → step s = .next t → Memory.wf t.mm.mem = true

/-- R33, R82, R136, R204, R237, R455 to R457, Tables 70 and 78: what device reset leaves: the boot ROM about to run, every key
slot EMPTY, the vector clocks zero, SCHEDCFG, CRCTL and the monitors' limits at the reset values of their tables, no handle
configured, and memory listing nothing. That unlisted memory reads as 0, and that the registers of which the manual states no
value are 0, is the model's choice (log entries 2 and 5). -/
def Obligations.ResetState : Prop :=
  State.reset.power = .booting ∧ State.reset.agenda = [{ what := .powerOnBoot }]
  ∧ Memory.wf State.reset.mm.mem = true ∧ (∀ a, memByte State.reset a = 0)
  ∧ (∀ k, (State.reset.mm.keys.get k).st = .empty)
  ∧ (∀ d, (State.reset.die d).vc = [0, 0, 0, 0] ∧ (State.reset.die d).schedcfg = 0x0000010002000032
      ∧ carveSize State.reset d = 0)
  ∧ (∀ n, ringLog (State.reset.ring n) = 4 ∧ ringEn (State.reset.ring n) = false)
  ∧ (∀ d m, monLimitOf State.reset d m = 0x0550)
  ∧ (∀ k, (State.reset.handle k).st = .free)
  ∧ (∀ c, (State.reset.cregs c).dbgdata = 0 ∧ (State.reset.cregs c).dbgcmd = 0 ∧ (State.reset.cregs c).keycmd = 0)
  ∧ ∀ b r, (State.reset.bank b).rng.get r = 0
end

