-- ==== Sys2Proof/Laws/Sparse.lean ====
section
/-! SUPPORT. The laws of the sparse tables: what is read after a write, and that writes keep the canonical form. -/
namespace Sys2Proof

variable {α : Type}

theorem Sparse.get_erase_same [Inhabited α] (m : Sparse α) (i : Nat) : (m.erase i).get i = default := by
  induction m with
  | nil => rfl
  | cons p t ih =>
    obtain ⟨k, v⟩ := p
    by_cases h : k = i <;> simp [Sparse.erase, Sparse.get, h, ih]

theorem Sparse.get_erase_other [Inhabited α] (m : Sparse α) {i j : Nat} (h : j ≠ i) : (m.erase i).get j = m.get j := by
  induction m with
  | nil => rfl
  | cons p t ih =>
    obtain ⟨k, v⟩ := p
    by_cases hk : k = i
    · subst hk; simp [Sparse.erase, Sparse.get, ih, Ne.symm h]
    · simp only [Sparse.erase, hk, if_false, Sparse.get, ih]

/-- No entry of the key is listed. -/
def Sparse.free (m : Sparse α) (i : Nat) : Prop := ∀ p ∈ m, p.1 ≠ i

theorem Sparse.free_erase (m : Sparse α) (i : Nat) : (m.erase i).free i := by
  induction m with
  | nil => simp [Sparse.erase, Sparse.free]
  | cons p t ih =>
    obtain ⟨k, v⟩ := p
    by_cases h : k = i
    · simpa [Sparse.erase, h] using ih
    · intro q hq
      simp only [Sparse.erase, h, if_false, List.mem_cons] at hq
      rcases hq with rfl | hq
      · exact h
      · exact ih q hq

theorem Sparse.get_insert_same [Inhabited α] (m : Sparse α) (i : Nat) (v : α) (h : m.free i) :
    (m.insert i v).get i = v := by
  induction m with
  | nil => simp [Sparse.insert, Sparse.get]
  | cons p t ih =>
    obtain ⟨k, w⟩ := p
    have hk : k ≠ i := h (k, w) (by simp)
    have ht : Sparse.free t i := fun q hq => h q (by simp [hq])
    by_cases hi : i < k <;> simp [Sparse.insert, Sparse.get, hi, hk, ih ht]

theorem Sparse.get_insert_other [Inhabited α] (m : Sparse α) {i j : Nat} (v : α) (h : j ≠ i) :
    (m.insert i v).get j = m.get j := by
  induction m with
  | nil => simp [Sparse.insert, Sparse.get, Ne.symm h]
  | cons p t ih =>
    obtain ⟨k, w⟩ := p
    by_cases hi : i < k
    · simp [Sparse.insert, Sparse.get, hi, Ne.symm h]
    · simp only [Sparse.insert, hi, if_false, Sparse.get, ih]

/-- A write is what the same key then reads. -/
@[simp] theorem Sparse.get_put_same [Inhabited α] [DecidableEq α] (m : Sparse α) (i : Nat) (v : α) :
    (m.put i v).get i = v := by
  unfold Sparse.put
  split
  · rename_i h; rw [Sparse.get_erase_same, h]
  · exact Sparse.get_insert_same _ _ _ (Sparse.free_erase m i)

/-- A write leaves every other key. -/
@[simp] theorem Sparse.get_put_other [Inhabited α] [DecidableEq α] (m : Sparse α) {i j : Nat} (v : α) (h : j ≠ i) :
    (m.put i v).get j = m.get j := by
  unfold Sparse.put
  split
  · exact Sparse.get_erase_other m h
  · rw [Sparse.get_insert_other _ _ h, Sparse.get_erase_other m h]

theorem Sparse.get_put [Inhabited α] [DecidableEq α] (m : Sparse α) (i j : Nat) (v : α) :
    (m.put i v).get j = if j = i then v else m.get j := by
  by_cases h : j = i
  · subst h; simp
  · simp [h]

/-! ## Canonical form -/

variable [Inhabited α] [DecidableEq α]

/-- Keys above a bound. -/
def Sparse.above (lo : Option Nat) (k : Nat) : Prop := ∀ n, lo = some n → n < k

theorem Sparse.wfAbove_cons (lo : Option Nat) (k : Nat) (v : α) (t : Sparse α) :
    Sparse.wfAbove lo ((k, v) :: t) = true ↔ Sparse.above lo k ∧ v ≠ default ∧ Sparse.wfAbove (some k) t = true := by
  cases lo <;> simp [Sparse.wfAbove, Sparse.above, and_assoc]

theorem Sparse.wfAbove_mono {lo lo' : Option Nat} {m : Sparse α} (h : ∀ k, Sparse.above lo k → Sparse.above lo' k)
    (hm : Sparse.wfAbove lo m = true) : Sparse.wfAbove lo' m = true := by
  cases m with
  | nil => rfl
  | cons p t =>
    obtain ⟨k, v⟩ := p
    rw [Sparse.wfAbove_cons] at hm ⊢
    exact ⟨h k hm.1, hm.2⟩

theorem Sparse.wfAbove_weaken {k : Nat} {lo : Option Nat} {m : Sparse α} (h : Sparse.above lo k)
    (hm : Sparse.wfAbove (some k) m = true) : Sparse.wfAbove lo m = true :=
  Sparse.wfAbove_mono (fun _ hj n hn => Nat.lt_trans (h n hn) (hj k rfl)) hm

theorem Sparse.wfAbove_erase {lo : Option Nat} {m : Sparse α} (i : Nat) (hm : Sparse.wfAbove lo m = true) :
    Sparse.wfAbove lo (m.erase i) = true := by
  induction m generalizing lo with
  | nil => rfl
  | cons p t ih =>
    obtain ⟨k, v⟩ := p
    rw [Sparse.wfAbove_cons] at hm
    by_cases h : k = i
    · simpa [Sparse.erase, h] using Sparse.wfAbove_weaken hm.1 (ih hm.2.2)
    · simp only [Sparse.erase, h, if_false]
      rw [Sparse.wfAbove_cons]
      exact ⟨hm.1, hm.2.1, ih hm.2.2⟩

theorem Sparse.wfAbove_insert {lo : Option Nat} {m : Sparse α} {i : Nat} {v : α} (hi : Sparse.above lo i)
    (hv : v ≠ default) (hf : m.free i) (hm : Sparse.wfAbove lo m = true) : Sparse.wfAbove lo (m.insert i v) = true := by
  induction m generalizing lo with
  | nil => simp only [Sparse.insert]; rw [Sparse.wfAbove_cons]; exact ⟨hi, hv, rfl⟩
  | cons p t ih =>
    obtain ⟨k, w⟩ := p
    rw [Sparse.wfAbove_cons] at hm
    by_cases h : i < k
    · simp only [Sparse.insert, h, if_true]
      rw [Sparse.wfAbove_cons, Sparse.wfAbove_cons]
      exact ⟨hi, hv, fun n hn => by cases hn; exact h, hm.2⟩
    · have hk : k ≠ i := hf (k, w) (by simp)
      simp only [Sparse.insert, h, if_false]
      rw [Sparse.wfAbove_cons]
      refine ⟨hm.1, hm.2.1, ih (fun n hn => ?_) (fun q hq => hf q (by simp [hq])) hm.2.2⟩
      cases hn; omega

/-- Writing keeps the canonical form. -/
theorem Sparse.wf_put {m : Sparse α} (i : Nat) (v : α) (hm : m.wf = true) : (m.put i v).wf = true := by
  unfold Sparse.put
  split
  · exact Sparse.wfAbove_erase i hm
  · rename_i hv
    exact Sparse.wfAbove_insert (fun n hn => by cases hn) hv (Sparse.free_erase m i) (Sparse.wfAbove_erase i hm)

theorem Sparse.wf_upd {m : Sparse α} (i : Nat) (f : α → α) (hm : m.wf = true) : (m.upd i f).wf = true :=
  Sparse.wf_put i _ hm

theorem Sparse.wfAbove_filter {lo : Option Nat} {m : Sparse α} (p : Nat × α → Bool) (hm : Sparse.wfAbove lo m = true) :
    Sparse.wfAbove lo (m.filter p) = true := by
  induction m generalizing lo with
  | nil => rfl
  | cons q t ih =>
    obtain ⟨k, v⟩ := q
    rw [Sparse.wfAbove_cons] at hm
    by_cases h : p (k, v)
    · simp only [List.filter_cons, h, if_true]
      rw [Sparse.wfAbove_cons]
      exact ⟨hm.1, hm.2.1, ih hm.2.2⟩
    · simpa [List.filter_cons, h] using Sparse.wfAbove_weaken hm.1 (ih hm.2.2)

theorem Sparse.wf_filter {m : Sparse α} (p : Nat × α → Bool) (hm : m.wf = true) : Sparse.wf (m.filter p) = true :=
  Sparse.wfAbove_filter p hm

end Sys2Proof
end

