-- ==== Sys2Proof/Laws/State.lean ====
section
/-! SUPPORT. For every update of the state, what it leaves and what its own field then reads: true by unfolding,
one lemma for each field, so that no proof unfolds a record update. -/
namespace Sys2Proof.Machine

variable (s : State)

/-! ## setEnt -/

@[simp] theorem setEnt_now (k : Nat) (e : Entry) : (s.setEnt k e).now = s.now := rfl
@[simp] theorem setEnt_tick (k : Nat) (e : Entry) : (s.setEnt k e).tick = s.tick := rfl
@[simp] theorem setEnt_free (k : Nat) (e : Entry) : (s.setEnt k e).free = s.free := rfl
@[simp] theorem setEnt_power (k : Nat) (e : Entry) : (s.setEnt k e).power = s.power := rfl
@[simp] theorem setEnt_cfg (k : Nat) (e : Entry) : (s.setEnt k e).cfg = s.cfg := rfl
@[simp] theorem setEnt_cur (k : Nat) (e : Entry) : (s.setEnt k e).cur = s.cur := rfl
@[simp] theorem setEnt_lane (k : Nat) (e : Entry) : (s.setEnt k e).lane = s.lane := rfl
@[simp] theorem setEnt_core (k : Nat) (e : Entry) : (s.setEnt k e).core = s.core := rfl
@[simp] theorem setEnt_mm (k : Nat) (e : Entry) : (s.setEnt k e).mm = s.mm := rfl
@[simp] theorem setEnt_task (k : Nat) (e : Entry) : (s.setEnt k e).task = s.task := rfl
@[simp] theorem setEnt_eng (k : Nat) (e : Entry) : (s.setEnt k e).eng = s.eng := rfl
@[simp] theorem setEnt_dev (k : Nat) (e : Entry) : (s.setEnt k e).dev = s.dev := rfl
@[simp] theorem setEnt_agenda (k : Nat) (e : Entry) : (s.setEnt k e).agenda = s.agenda := rfl
@[simp] theorem setEnt_uni_sreg (k : Nat) (e : Entry) : (s.setEnt k e).uni.sreg = s.uni.sreg := rfl
@[simp] theorem setEnt_uni_sout (k : Nat) (e : Entry) : (s.setEnt k e).uni.sout = s.uni.sout := rfl
@[simp] theorem setEnt_uni_groups (k : Nat) (e : Entry) : (s.setEnt k e).uni.groups = s.uni.groups := rfl
@[simp] theorem setEnt_uni_slots (k : Nat) (e : Entry) : (s.setEnt k e).uni.slots = s.uni.slots := rfl
theorem setEnt_reads (k : Nat) (e : Entry) (j : Nat) : (s.setEnt k e).ent j = if j = k then e else s.ent j := Sparse.get_put _ _ _ _
@[simp] theorem setEnt_reads_same (k : Nat) (e : Entry) : (s.setEnt k e).ent k = e := Sparse.get_put_same _ _ _

/-! ## setGroup -/

@[simp] theorem setGroup_now (k : Nat) (g : Group) : (s.setGroup k g).now = s.now := rfl
@[simp] theorem setGroup_tick (k : Nat) (g : Group) : (s.setGroup k g).tick = s.tick := rfl
@[simp] theorem setGroup_free (k : Nat) (g : Group) : (s.setGroup k g).free = s.free := rfl
@[simp] theorem setGroup_power (k : Nat) (g : Group) : (s.setGroup k g).power = s.power := rfl
@[simp] theorem setGroup_cfg (k : Nat) (g : Group) : (s.setGroup k g).cfg = s.cfg := rfl
@[simp] theorem setGroup_cur (k : Nat) (g : Group) : (s.setGroup k g).cur = s.cur := rfl
@[simp] theorem setGroup_lane (k : Nat) (g : Group) : (s.setGroup k g).lane = s.lane := rfl
@[simp] theorem setGroup_core (k : Nat) (g : Group) : (s.setGroup k g).core = s.core := rfl
@[simp] theorem setGroup_mm (k : Nat) (g : Group) : (s.setGroup k g).mm = s.mm := rfl
@[simp] theorem setGroup_task (k : Nat) (g : Group) : (s.setGroup k g).task = s.task := rfl
@[simp] theorem setGroup_eng (k : Nat) (g : Group) : (s.setGroup k g).eng = s.eng := rfl
@[simp] theorem setGroup_dev (k : Nat) (g : Group) : (s.setGroup k g).dev = s.dev := rfl
@[simp] theorem setGroup_agenda (k : Nat) (g : Group) : (s.setGroup k g).agenda = s.agenda := rfl
@[simp] theorem setGroup_uni_sreg (k : Nat) (g : Group) : (s.setGroup k g).uni.sreg = s.uni.sreg := rfl
@[simp] theorem setGroup_uni_sout (k : Nat) (g : Group) : (s.setGroup k g).uni.sout = s.uni.sout := rfl
@[simp] theorem setGroup_uni_ents (k : Nat) (g : Group) : (s.setGroup k g).uni.ents = s.uni.ents := rfl
@[simp] theorem setGroup_uni_slots (k : Nat) (g : Group) : (s.setGroup k g).uni.slots = s.uni.slots := rfl
theorem setGroup_reads (k : Nat) (g : Group) (j : Nat) : (s.setGroup k g).group j = if j = k then g else s.group j := Sparse.get_put _ _ _ _
@[simp] theorem setGroup_reads_same (k : Nat) (g : Group) : (s.setGroup k g).group k = g := Sparse.get_put_same _ _ _

/-! ## setSlot -/

@[simp] theorem setSlot_now (k : Nat) (v : Slot) : (s.setSlot k v).now = s.now := rfl
@[simp] theorem setSlot_tick (k : Nat) (v : Slot) : (s.setSlot k v).tick = s.tick := rfl
@[simp] theorem setSlot_free (k : Nat) (v : Slot) : (s.setSlot k v).free = s.free := rfl
@[simp] theorem setSlot_power (k : Nat) (v : Slot) : (s.setSlot k v).power = s.power := rfl
@[simp] theorem setSlot_cfg (k : Nat) (v : Slot) : (s.setSlot k v).cfg = s.cfg := rfl
@[simp] theorem setSlot_cur (k : Nat) (v : Slot) : (s.setSlot k v).cur = s.cur := rfl
@[simp] theorem setSlot_lane (k : Nat) (v : Slot) : (s.setSlot k v).lane = s.lane := rfl
@[simp] theorem setSlot_core (k : Nat) (v : Slot) : (s.setSlot k v).core = s.core := rfl
@[simp] theorem setSlot_mm (k : Nat) (v : Slot) : (s.setSlot k v).mm = s.mm := rfl
@[simp] theorem setSlot_task (k : Nat) (v : Slot) : (s.setSlot k v).task = s.task := rfl
@[simp] theorem setSlot_eng (k : Nat) (v : Slot) : (s.setSlot k v).eng = s.eng := rfl
@[simp] theorem setSlot_dev (k : Nat) (v : Slot) : (s.setSlot k v).dev = s.dev := rfl
@[simp] theorem setSlot_agenda (k : Nat) (v : Slot) : (s.setSlot k v).agenda = s.agenda := rfl
@[simp] theorem setSlot_uni_sreg (k : Nat) (v : Slot) : (s.setSlot k v).uni.sreg = s.uni.sreg := rfl
@[simp] theorem setSlot_uni_sout (k : Nat) (v : Slot) : (s.setSlot k v).uni.sout = s.uni.sout := rfl
@[simp] theorem setSlot_uni_groups (k : Nat) (v : Slot) : (s.setSlot k v).uni.groups = s.uni.groups := rfl
@[simp] theorem setSlot_uni_ents (k : Nat) (v : Slot) : (s.setSlot k v).uni.ents = s.uni.ents := rfl
theorem setSlot_reads (k : Nat) (v : Slot) (j : Nat) : (s.setSlot k v).slotAt j = if j = k then v else s.slotAt j := Sparse.get_put _ _ _ _
@[simp] theorem setSlot_reads_same (k : Nat) (v : Slot) : (s.setSlot k v).slotAt k = v := Sparse.get_put_same _ _ _

/-! ## setTeam -/

@[simp] theorem setTeam_now (k : Nat) (t : Team) : (s.setTeam k t).now = s.now := rfl
@[simp] theorem setTeam_tick (k : Nat) (t : Team) : (s.setTeam k t).tick = s.tick := rfl
@[simp] theorem setTeam_free (k : Nat) (t : Team) : (s.setTeam k t).free = s.free := rfl
@[simp] theorem setTeam_power (k : Nat) (t : Team) : (s.setTeam k t).power = s.power := rfl
@[simp] theorem setTeam_cfg (k : Nat) (t : Team) : (s.setTeam k t).cfg = s.cfg := rfl
@[simp] theorem setTeam_cur (k : Nat) (t : Team) : (s.setTeam k t).cur = s.cur := rfl
@[simp] theorem setTeam_lane (k : Nat) (t : Team) : (s.setTeam k t).lane = s.lane := rfl
@[simp] theorem setTeam_uni (k : Nat) (t : Team) : (s.setTeam k t).uni = s.uni := rfl
@[simp] theorem setTeam_mm (k : Nat) (t : Team) : (s.setTeam k t).mm = s.mm := rfl
@[simp] theorem setTeam_task (k : Nat) (t : Team) : (s.setTeam k t).task = s.task := rfl
@[simp] theorem setTeam_eng (k : Nat) (t : Team) : (s.setTeam k t).eng = s.eng := rfl
@[simp] theorem setTeam_dev (k : Nat) (t : Team) : (s.setTeam k t).dev = s.dev := rfl
@[simp] theorem setTeam_agenda (k : Nat) (t : Team) : (s.setTeam k t).agenda = s.agenda := rfl
@[simp] theorem setTeam_core_banks (k : Nat) (t : Team) : (s.setTeam k t).core.banks = s.core.banks := rfl
@[simp] theorem setTeam_core_regs (k : Nat) (t : Team) : (s.setTeam k t).core.regs = s.core.regs := rfl
@[simp] theorem setTeam_core_scratch (k : Nat) (t : Team) : (s.setTeam k t).core.scratch = s.core.scratch := rfl
@[simp] theorem setTeam_core_scratchBy (k : Nat) (t : Team) : (s.setTeam k t).core.scratchBy = s.core.scratchBy := rfl
@[simp] theorem setTeam_core_scratchGen (k : Nat) (t : Team) : (s.setTeam k t).core.scratchGen = s.core.scratchGen := rfl
@[simp] theorem setTeam_core_tiles (k : Nat) (t : Team) : (s.setTeam k t).core.tiles = s.core.tiles := rfl
theorem setTeam_reads (k : Nat) (t : Team) (j : Nat) : (s.setTeam k t).team j = if j = k then t else s.team j := Sparse.get_put _ _ _ _
@[simp] theorem setTeam_reads_same (k : Nat) (t : Team) : (s.setTeam k t).team k = t := Sparse.get_put_same _ _ _

/-! ## setBank -/

@[simp] theorem setBank_now (k : Nat) (b : Bank) : (s.setBank k b).now = s.now := rfl
@[simp] theorem setBank_tick (k : Nat) (b : Bank) : (s.setBank k b).tick = s.tick := rfl
@[simp] theorem setBank_free (k : Nat) (b : Bank) : (s.setBank k b).free = s.free := rfl
@[simp] theorem setBank_power (k : Nat) (b : Bank) : (s.setBank k b).power = s.power := rfl
@[simp] theorem setBank_cfg (k : Nat) (b : Bank) : (s.setBank k b).cfg = s.cfg := rfl
@[simp] theorem setBank_cur (k : Nat) (b : Bank) : (s.setBank k b).cur = s.cur := rfl
@[simp] theorem setBank_lane (k : Nat) (b : Bank) : (s.setBank k b).lane = s.lane := rfl
@[simp] theorem setBank_uni (k : Nat) (b : Bank) : (s.setBank k b).uni = s.uni := rfl
@[simp] theorem setBank_mm (k : Nat) (b : Bank) : (s.setBank k b).mm = s.mm := rfl
@[simp] theorem setBank_task (k : Nat) (b : Bank) : (s.setBank k b).task = s.task := rfl
@[simp] theorem setBank_eng (k : Nat) (b : Bank) : (s.setBank k b).eng = s.eng := rfl
@[simp] theorem setBank_dev (k : Nat) (b : Bank) : (s.setBank k b).dev = s.dev := rfl
@[simp] theorem setBank_agenda (k : Nat) (b : Bank) : (s.setBank k b).agenda = s.agenda := rfl
@[simp] theorem setBank_core_teams (k : Nat) (b : Bank) : (s.setBank k b).core.teams = s.core.teams := rfl
@[simp] theorem setBank_core_regs (k : Nat) (b : Bank) : (s.setBank k b).core.regs = s.core.regs := rfl
@[simp] theorem setBank_core_scratch (k : Nat) (b : Bank) : (s.setBank k b).core.scratch = s.core.scratch := rfl
@[simp] theorem setBank_core_scratchBy (k : Nat) (b : Bank) : (s.setBank k b).core.scratchBy = s.core.scratchBy := rfl
@[simp] theorem setBank_core_scratchGen (k : Nat) (b : Bank) : (s.setBank k b).core.scratchGen = s.core.scratchGen := rfl
@[simp] theorem setBank_core_tiles (k : Nat) (b : Bank) : (s.setBank k b).core.tiles = s.core.tiles := rfl
theorem setBank_reads (k : Nat) (b : Bank) (j : Nat) : (s.setBank k b).bank j = if j = k then b else s.bank j := Sparse.get_put _ _ _ _
@[simp] theorem setBank_reads_same (k : Nat) (b : Bank) : (s.setBank k b).bank k = b := Sparse.get_put_same _ _ _

/-! ## setCregs -/

@[simp] theorem setCregs_now (k : Nat) (r : CoreRegs) : (s.setCregs k r).now = s.now := rfl
@[simp] theorem setCregs_tick (k : Nat) (r : CoreRegs) : (s.setCregs k r).tick = s.tick := rfl
@[simp] theorem setCregs_free (k : Nat) (r : CoreRegs) : (s.setCregs k r).free = s.free := rfl
@[simp] theorem setCregs_power (k : Nat) (r : CoreRegs) : (s.setCregs k r).power = s.power := rfl
@[simp] theorem setCregs_cfg (k : Nat) (r : CoreRegs) : (s.setCregs k r).cfg = s.cfg := rfl
@[simp] theorem setCregs_cur (k : Nat) (r : CoreRegs) : (s.setCregs k r).cur = s.cur := rfl
@[simp] theorem setCregs_lane (k : Nat) (r : CoreRegs) : (s.setCregs k r).lane = s.lane := rfl
@[simp] theorem setCregs_uni (k : Nat) (r : CoreRegs) : (s.setCregs k r).uni = s.uni := rfl
@[simp] theorem setCregs_mm (k : Nat) (r : CoreRegs) : (s.setCregs k r).mm = s.mm := rfl
@[simp] theorem setCregs_task (k : Nat) (r : CoreRegs) : (s.setCregs k r).task = s.task := rfl
@[simp] theorem setCregs_eng (k : Nat) (r : CoreRegs) : (s.setCregs k r).eng = s.eng := rfl
@[simp] theorem setCregs_dev (k : Nat) (r : CoreRegs) : (s.setCregs k r).dev = s.dev := rfl
@[simp] theorem setCregs_agenda (k : Nat) (r : CoreRegs) : (s.setCregs k r).agenda = s.agenda := rfl
@[simp] theorem setCregs_core_teams (k : Nat) (r : CoreRegs) : (s.setCregs k r).core.teams = s.core.teams := rfl
@[simp] theorem setCregs_core_banks (k : Nat) (r : CoreRegs) : (s.setCregs k r).core.banks = s.core.banks := rfl
@[simp] theorem setCregs_core_scratch (k : Nat) (r : CoreRegs) : (s.setCregs k r).core.scratch = s.core.scratch := rfl
@[simp] theorem setCregs_core_scratchBy (k : Nat) (r : CoreRegs) : (s.setCregs k r).core.scratchBy = s.core.scratchBy := rfl
@[simp] theorem setCregs_core_scratchGen (k : Nat) (r : CoreRegs) : (s.setCregs k r).core.scratchGen = s.core.scratchGen := rfl
@[simp] theorem setCregs_core_tiles (k : Nat) (r : CoreRegs) : (s.setCregs k r).core.tiles = s.core.tiles := rfl
theorem setCregs_reads (k : Nat) (r : CoreRegs) (j : Nat) : (s.setCregs k r).cregs j = if j = k then r else s.cregs j := Sparse.get_put _ _ _ _
@[simp] theorem setCregs_reads_same (k : Nat) (r : CoreRegs) : (s.setCregs k r).cregs k = r := Sparse.get_put_same _ _ _

/-! ## setDie -/

@[simp] theorem setDie_now (k : Nat) (v : DieSt) : (s.setDie k v).now = s.now := rfl
@[simp] theorem setDie_tick (k : Nat) (v : DieSt) : (s.setDie k v).tick = s.tick := rfl
@[simp] theorem setDie_free (k : Nat) (v : DieSt) : (s.setDie k v).free = s.free := rfl
@[simp] theorem setDie_power (k : Nat) (v : DieSt) : (s.setDie k v).power = s.power := rfl
@[simp] theorem setDie_cfg (k : Nat) (v : DieSt) : (s.setDie k v).cfg = s.cfg := rfl
@[simp] theorem setDie_cur (k : Nat) (v : DieSt) : (s.setDie k v).cur = s.cur := rfl
@[simp] theorem setDie_lane (k : Nat) (v : DieSt) : (s.setDie k v).lane = s.lane := rfl
@[simp] theorem setDie_uni (k : Nat) (v : DieSt) : (s.setDie k v).uni = s.uni := rfl
@[simp] theorem setDie_core (k : Nat) (v : DieSt) : (s.setDie k v).core = s.core := rfl
@[simp] theorem setDie_task (k : Nat) (v : DieSt) : (s.setDie k v).task = s.task := rfl
@[simp] theorem setDie_eng (k : Nat) (v : DieSt) : (s.setDie k v).eng = s.eng := rfl
@[simp] theorem setDie_dev (k : Nat) (v : DieSt) : (s.setDie k v).dev = s.dev := rfl
@[simp] theorem setDie_agenda (k : Nat) (v : DieSt) : (s.setDie k v).agenda = s.agenda := rfl
@[simp] theorem setDie_mm_mem (k : Nat) (v : DieSt) : (s.setDie k v).mm.mem = s.mm.mem := rfl
@[simp] theorem setDie_mm_granKey (k : Nat) (v : DieSt) : (s.setDie k v).mm.granKey = s.mm.granKey := rfl
@[simp] theorem setDie_mm_poison (k : Nat) (v : DieSt) : (s.setDie k v).mm.poison = s.mm.poison := rfl
@[simp] theorem setDie_mm_sc (k : Nat) (v : DieSt) : (s.setDie k v).mm.sc = s.mm.sc := rfl
@[simp] theorem setDie_mm_vers (k : Nat) (v : DieSt) : (s.setDie k v).mm.vers = s.mm.vers := rfl
@[simp] theorem setDie_mm_verSeen (k : Nat) (v : DieSt) : (s.setDie k v).mm.verSeen = s.mm.verSeen := rfl
@[simp] theorem setDie_mm_l1 (k : Nat) (v : DieSt) : (s.setDie k v).mm.l1 = s.mm.l1 := rfl
@[simp] theorem setDie_mm_konst (k : Nat) (v : DieSt) : (s.setDie k v).mm.konst = s.mm.konst := rfl
@[simp] theorem setDie_mm_tlb (k : Nat) (v : DieSt) : (s.setDie k v).mm.tlb = s.mm.tlb := rfl
@[simp] theorem setDie_mm_keys (k : Nat) (v : DieSt) : (s.setDie k v).mm.keys = s.mm.keys := rfl
@[simp] theorem setDie_mm_reqs (k : Nat) (v : DieSt) : (s.setDie k v).mm.reqs = s.mm.reqs := rfl
@[simp] theorem setDie_mm_accs (k : Nat) (v : DieSt) : (s.setDie k v).mm.accs = s.mm.accs := rfl
@[simp] theorem setDie_mm_items (k : Nat) (v : DieSt) : (s.setDie k v).mm.items = s.mm.items := rfl
@[simp] theorem setDie_mm_collapses (k : Nat) (v : DieSt) : (s.setDie k v).mm.collapses = s.mm.collapses := rfl
@[simp] theorem setDie_mm_engClkd (k : Nat) (v : DieSt) : (s.setDie k v).mm.engClkd = s.mm.engClkd := rfl
@[simp] theorem setDie_mm_nextId (k : Nat) (v : DieSt) : (s.setDie k v).mm.nextId = s.mm.nextId := rfl
theorem setDie_reads (k : Nat) (v : DieSt) (j : Nat) : (s.setDie k v).die j = if j = k then v else s.die j := Sparse.get_put _ _ _ _
@[simp] theorem setDie_reads_same (k : Nat) (v : DieSt) : (s.setDie k v).die k = v := Sparse.get_put_same _ _ _

/-! ## setSregOf -/

@[simp] theorem setSregOf_now (g r : Nat) (v : DWord) : (s.setSregOf g r v).now = s.now := rfl
@[simp] theorem setSregOf_tick (g r : Nat) (v : DWord) : (s.setSregOf g r v).tick = s.tick := rfl
@[simp] theorem setSregOf_free (g r : Nat) (v : DWord) : (s.setSregOf g r v).free = s.free := rfl
@[simp] theorem setSregOf_power (g r : Nat) (v : DWord) : (s.setSregOf g r v).power = s.power := rfl
@[simp] theorem setSregOf_cfg (g r : Nat) (v : DWord) : (s.setSregOf g r v).cfg = s.cfg := rfl
@[simp] theorem setSregOf_cur (g r : Nat) (v : DWord) : (s.setSregOf g r v).cur = s.cur := rfl
@[simp] theorem setSregOf_lane (g r : Nat) (v : DWord) : (s.setSregOf g r v).lane = s.lane := rfl
@[simp] theorem setSregOf_core (g r : Nat) (v : DWord) : (s.setSregOf g r v).core = s.core := rfl
@[simp] theorem setSregOf_mm (g r : Nat) (v : DWord) : (s.setSregOf g r v).mm = s.mm := rfl
@[simp] theorem setSregOf_task (g r : Nat) (v : DWord) : (s.setSregOf g r v).task = s.task := rfl
@[simp] theorem setSregOf_eng (g r : Nat) (v : DWord) : (s.setSregOf g r v).eng = s.eng := rfl
@[simp] theorem setSregOf_dev (g r : Nat) (v : DWord) : (s.setSregOf g r v).dev = s.dev := rfl
@[simp] theorem setSregOf_agenda (g r : Nat) (v : DWord) : (s.setSregOf g r v).agenda = s.agenda := rfl
@[simp] theorem setSregOf_uni_sout (g r : Nat) (v : DWord) : (s.setSregOf g r v).uni.sout = s.uni.sout := rfl
@[simp] theorem setSregOf_uni_groups (g r : Nat) (v : DWord) : (s.setSregOf g r v).uni.groups = s.uni.groups := rfl
@[simp] theorem setSregOf_uni_ents (g r : Nat) (v : DWord) : (s.setSregOf g r v).uni.ents = s.uni.ents := rfl
@[simp] theorem setSregOf_uni_slots (g r : Nat) (v : DWord) : (s.setSregOf g r v).uni.slots = s.uni.slots := rfl

/-! ## setLaneReg -/

@[simp] theorem setLaneReg_now (k : Nat) (v : Word) : (s.setLaneReg k v).now = s.now := rfl
@[simp] theorem setLaneReg_tick (k : Nat) (v : Word) : (s.setLaneReg k v).tick = s.tick := rfl
@[simp] theorem setLaneReg_free (k : Nat) (v : Word) : (s.setLaneReg k v).free = s.free := rfl
@[simp] theorem setLaneReg_power (k : Nat) (v : Word) : (s.setLaneReg k v).power = s.power := rfl
@[simp] theorem setLaneReg_cfg (k : Nat) (v : Word) : (s.setLaneReg k v).cfg = s.cfg := rfl
@[simp] theorem setLaneReg_cur (k : Nat) (v : Word) : (s.setLaneReg k v).cur = s.cur := rfl
@[simp] theorem setLaneReg_uni (k : Nat) (v : Word) : (s.setLaneReg k v).uni = s.uni := rfl
@[simp] theorem setLaneReg_core (k : Nat) (v : Word) : (s.setLaneReg k v).core = s.core := rfl
@[simp] theorem setLaneReg_mm (k : Nat) (v : Word) : (s.setLaneReg k v).mm = s.mm := rfl
@[simp] theorem setLaneReg_task (k : Nat) (v : Word) : (s.setLaneReg k v).task = s.task := rfl
@[simp] theorem setLaneReg_eng (k : Nat) (v : Word) : (s.setLaneReg k v).eng = s.eng := rfl
@[simp] theorem setLaneReg_dev (k : Nat) (v : Word) : (s.setLaneReg k v).dev = s.dev := rfl
@[simp] theorem setLaneReg_agenda (k : Nat) (v : Word) : (s.setLaneReg k v).agenda = s.agenda := rfl
@[simp] theorem setLaneReg_lane_out (k : Nat) (v : Word) : (s.setLaneReg k v).lane.out = s.lane.out := rfl
@[simp] theorem setLaneReg_lane_pred (k : Nat) (v : Word) : (s.setLaneReg k v).lane.pred = s.lane.pred := rfl
@[simp] theorem setLaneReg_lane_predSh (k : Nat) (v : Word) : (s.setLaneReg k v).lane.predSh = s.lane.predSh := rfl
@[simp] theorem setLaneReg_lane_parked (k : Nat) (v : Word) : (s.setLaneReg k v).lane.parked = s.lane.parked := rfl
@[simp] theorem setLaneReg_lane_parkedAt (k : Nat) (v : Word) : (s.setLaneReg k v).lane.parkedAt = s.lane.parkedAt := rfl
theorem setLaneReg_reads (k : Nat) (v : Word) (j : Nat) : (s.setLaneReg k v).laneReg j = if j = k then v else s.laneReg j := Sparse.get_put _ _ _ _
@[simp] theorem setLaneReg_reads_same (k : Nat) (v : Word) : (s.setLaneReg k v).laneReg k = v := Sparse.get_put_same _ _ _

/-! ## setEmpty -/

@[simp] theorem setEmpty_now (k : Nat) (b : Bool) : (s.setEmpty k b).now = s.now := rfl
@[simp] theorem setEmpty_tick (k : Nat) (b : Bool) : (s.setEmpty k b).tick = s.tick := rfl
@[simp] theorem setEmpty_free (k : Nat) (b : Bool) : (s.setEmpty k b).free = s.free := rfl
@[simp] theorem setEmpty_power (k : Nat) (b : Bool) : (s.setEmpty k b).power = s.power := rfl
@[simp] theorem setEmpty_cfg (k : Nat) (b : Bool) : (s.setEmpty k b).cfg = s.cfg := rfl
@[simp] theorem setEmpty_cur (k : Nat) (b : Bool) : (s.setEmpty k b).cur = s.cur := rfl
@[simp] theorem setEmpty_uni (k : Nat) (b : Bool) : (s.setEmpty k b).uni = s.uni := rfl
@[simp] theorem setEmpty_core (k : Nat) (b : Bool) : (s.setEmpty k b).core = s.core := rfl
@[simp] theorem setEmpty_mm (k : Nat) (b : Bool) : (s.setEmpty k b).mm = s.mm := rfl
@[simp] theorem setEmpty_task (k : Nat) (b : Bool) : (s.setEmpty k b).task = s.task := rfl
@[simp] theorem setEmpty_eng (k : Nat) (b : Bool) : (s.setEmpty k b).eng = s.eng := rfl
@[simp] theorem setEmpty_dev (k : Nat) (b : Bool) : (s.setEmpty k b).dev = s.dev := rfl
@[simp] theorem setEmpty_agenda (k : Nat) (b : Bool) : (s.setEmpty k b).agenda = s.agenda := rfl
@[simp] theorem setEmpty_lane_reg (k : Nat) (b : Bool) : (s.setEmpty k b).lane.reg = s.lane.reg := rfl
@[simp] theorem setEmpty_lane_out (k : Nat) (b : Bool) : (s.setEmpty k b).lane.out = s.lane.out := rfl
@[simp] theorem setEmpty_lane_pred (k : Nat) (b : Bool) : (s.setEmpty k b).lane.pred = s.lane.pred := rfl
@[simp] theorem setEmpty_lane_predSh (k : Nat) (b : Bool) : (s.setEmpty k b).lane.predSh = s.lane.predSh := rfl
@[simp] theorem setEmpty_lane_parked (k : Nat) (b : Bool) : (s.setEmpty k b).lane.parked = s.lane.parked := rfl
@[simp] theorem setEmpty_lane_parkedAt (k : Nat) (b : Bool) : (s.setEmpty k b).lane.parkedAt = s.lane.parkedAt := rfl
theorem setEmpty_reads (k : Nat) (b : Bool) (j : Nat) : (s.setEmpty k b).isEmpty j = if j = k then b else s.isEmpty j := Sparse.get_put _ _ _ _
@[simp] theorem setEmpty_reads_same (k : Nat) (b : Bool) : (s.setEmpty k b).isEmpty k = b := Sparse.get_put_same _ _ _

/-! ## setOut -/

@[simp] theorem setOut_now (k a : Nat) : (s.setOut k a).now = s.now := rfl
@[simp] theorem setOut_tick (k a : Nat) : (s.setOut k a).tick = s.tick := rfl
@[simp] theorem setOut_free (k a : Nat) : (s.setOut k a).free = s.free := rfl
@[simp] theorem setOut_power (k a : Nat) : (s.setOut k a).power = s.power := rfl
@[simp] theorem setOut_cfg (k a : Nat) : (s.setOut k a).cfg = s.cfg := rfl
@[simp] theorem setOut_cur (k a : Nat) : (s.setOut k a).cur = s.cur := rfl
@[simp] theorem setOut_uni (k a : Nat) : (s.setOut k a).uni = s.uni := rfl
@[simp] theorem setOut_core (k a : Nat) : (s.setOut k a).core = s.core := rfl
@[simp] theorem setOut_mm (k a : Nat) : (s.setOut k a).mm = s.mm := rfl
@[simp] theorem setOut_task (k a : Nat) : (s.setOut k a).task = s.task := rfl
@[simp] theorem setOut_eng (k a : Nat) : (s.setOut k a).eng = s.eng := rfl
@[simp] theorem setOut_dev (k a : Nat) : (s.setOut k a).dev = s.dev := rfl
@[simp] theorem setOut_agenda (k a : Nat) : (s.setOut k a).agenda = s.agenda := rfl
@[simp] theorem setOut_lane_reg (k a : Nat) : (s.setOut k a).lane.reg = s.lane.reg := rfl
@[simp] theorem setOut_lane_empty (k a : Nat) : (s.setOut k a).lane.empty = s.lane.empty := rfl
@[simp] theorem setOut_lane_pred (k a : Nat) : (s.setOut k a).lane.pred = s.lane.pred := rfl
@[simp] theorem setOut_lane_predSh (k a : Nat) : (s.setOut k a).lane.predSh = s.lane.predSh := rfl
@[simp] theorem setOut_lane_parked (k a : Nat) : (s.setOut k a).lane.parked = s.lane.parked := rfl
@[simp] theorem setOut_lane_parkedAt (k a : Nat) : (s.setOut k a).lane.parkedAt = s.lane.parkedAt := rfl
theorem setOut_reads (k a : Nat) (j : Nat) : (s.setOut k a).outOf j = if j = k then a else s.outOf j := Sparse.get_put _ _ _ _
@[simp] theorem setOut_reads_same (k a : Nat) : (s.setOut k a).outOf k = a := Sparse.get_put_same _ _ _

/-! ## setPreds -/

@[simp] theorem setPreds_now (k : Nat) (v : BitVec 8) : (s.setPreds k v).now = s.now := rfl
@[simp] theorem setPreds_tick (k : Nat) (v : BitVec 8) : (s.setPreds k v).tick = s.tick := rfl
@[simp] theorem setPreds_free (k : Nat) (v : BitVec 8) : (s.setPreds k v).free = s.free := rfl
@[simp] theorem setPreds_power (k : Nat) (v : BitVec 8) : (s.setPreds k v).power = s.power := rfl
@[simp] theorem setPreds_cfg (k : Nat) (v : BitVec 8) : (s.setPreds k v).cfg = s.cfg := rfl
@[simp] theorem setPreds_cur (k : Nat) (v : BitVec 8) : (s.setPreds k v).cur = s.cur := rfl
@[simp] theorem setPreds_uni (k : Nat) (v : BitVec 8) : (s.setPreds k v).uni = s.uni := rfl
@[simp] theorem setPreds_core (k : Nat) (v : BitVec 8) : (s.setPreds k v).core = s.core := rfl
@[simp] theorem setPreds_mm (k : Nat) (v : BitVec 8) : (s.setPreds k v).mm = s.mm := rfl
@[simp] theorem setPreds_task (k : Nat) (v : BitVec 8) : (s.setPreds k v).task = s.task := rfl
@[simp] theorem setPreds_eng (k : Nat) (v : BitVec 8) : (s.setPreds k v).eng = s.eng := rfl
@[simp] theorem setPreds_dev (k : Nat) (v : BitVec 8) : (s.setPreds k v).dev = s.dev := rfl
@[simp] theorem setPreds_agenda (k : Nat) (v : BitVec 8) : (s.setPreds k v).agenda = s.agenda := rfl
@[simp] theorem setPreds_lane_reg (k : Nat) (v : BitVec 8) : (s.setPreds k v).lane.reg = s.lane.reg := rfl
@[simp] theorem setPreds_lane_empty (k : Nat) (v : BitVec 8) : (s.setPreds k v).lane.empty = s.lane.empty := rfl
@[simp] theorem setPreds_lane_out (k : Nat) (v : BitVec 8) : (s.setPreds k v).lane.out = s.lane.out := rfl
@[simp] theorem setPreds_lane_predSh (k : Nat) (v : BitVec 8) : (s.setPreds k v).lane.predSh = s.lane.predSh := rfl
@[simp] theorem setPreds_lane_parked (k : Nat) (v : BitVec 8) : (s.setPreds k v).lane.parked = s.lane.parked := rfl
@[simp] theorem setPreds_lane_parkedAt (k : Nat) (v : BitVec 8) : (s.setPreds k v).lane.parkedAt = s.lane.parkedAt := rfl

/-! ## addAgenda -/

@[simp] theorem addAgenda_now (n : Nat) (i : Instr) (x y z : Nat) (v : DWord) : (s.addAgenda n i x y z v).now = s.now := rfl
@[simp] theorem addAgenda_tick (n : Nat) (i : Instr) (x y z : Nat) (v : DWord) : (s.addAgenda n i x y z v).tick = s.tick := rfl
@[simp] theorem addAgenda_free (n : Nat) (i : Instr) (x y z : Nat) (v : DWord) : (s.addAgenda n i x y z v).free = s.free := rfl
@[simp] theorem addAgenda_power (n : Nat) (i : Instr) (x y z : Nat) (v : DWord) : (s.addAgenda n i x y z v).power = s.power := rfl
@[simp] theorem addAgenda_cfg (n : Nat) (i : Instr) (x y z : Nat) (v : DWord) : (s.addAgenda n i x y z v).cfg = s.cfg := rfl
@[simp] theorem addAgenda_cur (n : Nat) (i : Instr) (x y z : Nat) (v : DWord) : (s.addAgenda n i x y z v).cur = s.cur := rfl
@[simp] theorem addAgenda_lane (n : Nat) (i : Instr) (x y z : Nat) (v : DWord) : (s.addAgenda n i x y z v).lane = s.lane := rfl
@[simp] theorem addAgenda_uni (n : Nat) (i : Instr) (x y z : Nat) (v : DWord) : (s.addAgenda n i x y z v).uni = s.uni := rfl
@[simp] theorem addAgenda_core (n : Nat) (i : Instr) (x y z : Nat) (v : DWord) : (s.addAgenda n i x y z v).core = s.core := rfl
@[simp] theorem addAgenda_mm (n : Nat) (i : Instr) (x y z : Nat) (v : DWord) : (s.addAgenda n i x y z v).mm = s.mm := rfl
@[simp] theorem addAgenda_task (n : Nat) (i : Instr) (x y z : Nat) (v : DWord) : (s.addAgenda n i x y z v).task = s.task := rfl
@[simp] theorem addAgenda_eng (n : Nat) (i : Instr) (x y z : Nat) (v : DWord) : (s.addAgenda n i x y z v).eng = s.eng := rfl
@[simp] theorem addAgenda_dev (n : Nat) (i : Instr) (x y z : Nat) (v : DWord) : (s.addAgenda n i x y z v).dev = s.dev := rfl

/-! ## unpost -/

@[simp] theorem unpost_now (f : Happening → Bool) : (s.unpost f).now = s.now := rfl
@[simp] theorem unpost_tick (f : Happening → Bool) : (s.unpost f).tick = s.tick := rfl
@[simp] theorem unpost_free (f : Happening → Bool) : (s.unpost f).free = s.free := rfl
@[simp] theorem unpost_power (f : Happening → Bool) : (s.unpost f).power = s.power := rfl
@[simp] theorem unpost_cfg (f : Happening → Bool) : (s.unpost f).cfg = s.cfg := rfl
@[simp] theorem unpost_cur (f : Happening → Bool) : (s.unpost f).cur = s.cur := rfl
@[simp] theorem unpost_lane (f : Happening → Bool) : (s.unpost f).lane = s.lane := rfl
@[simp] theorem unpost_uni (f : Happening → Bool) : (s.unpost f).uni = s.uni := rfl
@[simp] theorem unpost_core (f : Happening → Bool) : (s.unpost f).core = s.core := rfl
@[simp] theorem unpost_mm (f : Happening → Bool) : (s.unpost f).mm = s.mm := rfl
@[simp] theorem unpost_task (f : Happening → Bool) : (s.unpost f).task = s.task := rfl
@[simp] theorem unpost_eng (f : Happening → Bool) : (s.unpost f).eng = s.eng := rfl
@[simp] theorem unpost_dev (f : Happening → Bool) : (s.unpost f).dev = s.dev := rfl

/-! ## setJob -/

@[simp] theorem setJob_now (k : Nat) (v : Job) : (s.setJob k v).now = s.now := rfl
@[simp] theorem setJob_tick (k : Nat) (v : Job) : (s.setJob k v).tick = s.tick := rfl
@[simp] theorem setJob_free (k : Nat) (v : Job) : (s.setJob k v).free = s.free := rfl
@[simp] theorem setJob_power (k : Nat) (v : Job) : (s.setJob k v).power = s.power := rfl
@[simp] theorem setJob_cfg (k : Nat) (v : Job) : (s.setJob k v).cfg = s.cfg := rfl
@[simp] theorem setJob_cur (k : Nat) (v : Job) : (s.setJob k v).cur = s.cur := rfl
@[simp] theorem setJob_lane (k : Nat) (v : Job) : (s.setJob k v).lane = s.lane := rfl
@[simp] theorem setJob_uni (k : Nat) (v : Job) : (s.setJob k v).uni = s.uni := rfl
@[simp] theorem setJob_core (k : Nat) (v : Job) : (s.setJob k v).core = s.core := rfl
@[simp] theorem setJob_mm (k : Nat) (v : Job) : (s.setJob k v).mm = s.mm := rfl
@[simp] theorem setJob_eng (k : Nat) (v : Job) : (s.setJob k v).eng = s.eng := rfl
@[simp] theorem setJob_dev (k : Nat) (v : Job) : (s.setJob k v).dev = s.dev := rfl
@[simp] theorem setJob_agenda (k : Nat) (v : Job) : (s.setJob k v).agenda = s.agenda := rfl
@[simp] theorem setJob_task_nodes (k : Nat) (v : Job) : (s.setJob k v).task.nodes = s.task.nodes := rfl
@[simp] theorem setJob_task_grids (k : Nat) (v : Job) : (s.setJob k v).task.grids = s.task.grids := rfl
@[simp] theorem setJob_task_decs (k : Nat) (v : Job) : (s.setJob k v).task.decs = s.task.decs := rfl
@[simp] theorem setJob_task_streams (k : Nat) (v : Job) : (s.setJob k v).task.streams = s.task.streams := rfl
@[simp] theorem setJob_task_queues (k : Nat) (v : Job) : (s.setJob k v).task.queues = s.task.queues := rfl
@[simp] theorem setJob_task_spill (k : Nat) (v : Job) : (s.setJob k v).task.spill = s.task.spill := rfl
@[simp] theorem setJob_task_arrived (k : Nat) (v : Job) : (s.setJob k v).task.arrived = s.task.arrived := rfl
@[simp] theorem setJob_task_punnets (k : Nat) (v : Job) : (s.setJob k v).task.punnets = s.task.punnets := rfl
@[simp] theorem setJob_task_rings (k : Nat) (v : Job) : (s.setJob k v).task.rings = s.task.rings := rfl
@[simp] theorem setJob_task_backlog (k : Nat) (v : Job) : (s.setJob k v).task.backlog = s.task.backlog := rfl
@[simp] theorem setJob_task_ops (k : Nat) (v : Job) : (s.setJob k v).task.ops = s.task.ops := rfl
@[simp] theorem setJob_task_watches (k : Nat) (v : Job) : (s.setJob k v).task.watches = s.task.watches := rfl
@[simp] theorem setJob_task_est (k : Nat) (v : Job) : (s.setJob k v).task.est = s.task.est := rfl
@[simp] theorem setJob_task_mail (k : Nat) (v : Job) : (s.setJob k v).task.mail = s.task.mail := rfl
@[simp] theorem setJob_task_sessions (k : Nat) (v : Job) : (s.setJob k v).task.sessions = s.task.sessions := rfl
@[simp] theorem setJob_task_shadow (k : Nat) (v : Job) : (s.setJob k v).task.shadow = s.task.shadow := rfl
@[simp] theorem setJob_task_out (k : Nat) (v : Job) : (s.setJob k v).task.out = s.task.out := rfl
@[simp] theorem setJob_task_nextJob (k : Nat) (v : Job) : (s.setJob k v).task.nextJob = s.task.nextJob := rfl
@[simp] theorem setJob_task_nextGrid (k : Nat) (v : Job) : (s.setJob k v).task.nextGrid = s.task.nextGrid := rfl
@[simp] theorem setJob_task_nextDec (k : Nat) (v : Job) : (s.setJob k v).task.nextDec = s.task.nextDec := rfl
@[simp] theorem setJob_task_nextOp (k : Nat) (v : Job) : (s.setJob k v).task.nextOp = s.task.nextOp := rfl
@[simp] theorem setJob_task_nextPlace (k : Nat) (v : Job) : (s.setJob k v).task.nextPlace = s.task.nextPlace := rfl
@[simp] theorem setJob_task_serial (k : Nat) (v : Job) : (s.setJob k v).task.serial = s.task.serial := rfl
@[simp] theorem setJob_task_back (k : Nat) (v : Job) : (s.setJob k v).task.back = s.task.back := rfl
@[simp] theorem setJob_task_front (k : Nat) (v : Job) : (s.setJob k v).task.front = s.task.front := rfl
theorem setJob_reads (k : Nat) (v : Job) (j : Nat) : (s.setJob k v).job j = if j = k then v else s.job j := Sparse.get_put _ _ _ _
@[simp] theorem setJob_reads_same (k : Nat) (v : Job) : (s.setJob k v).job k = v := Sparse.get_put_same _ _ _

/-! ## setGrid -/

@[simp] theorem setGrid_now (k : Nat) (v : Grid) : (s.setGrid k v).now = s.now := rfl
@[simp] theorem setGrid_tick (k : Nat) (v : Grid) : (s.setGrid k v).tick = s.tick := rfl
@[simp] theorem setGrid_free (k : Nat) (v : Grid) : (s.setGrid k v).free = s.free := rfl
@[simp] theorem setGrid_power (k : Nat) (v : Grid) : (s.setGrid k v).power = s.power := rfl
@[simp] theorem setGrid_cfg (k : Nat) (v : Grid) : (s.setGrid k v).cfg = s.cfg := rfl
@[simp] theorem setGrid_cur (k : Nat) (v : Grid) : (s.setGrid k v).cur = s.cur := rfl
@[simp] theorem setGrid_lane (k : Nat) (v : Grid) : (s.setGrid k v).lane = s.lane := rfl
@[simp] theorem setGrid_uni (k : Nat) (v : Grid) : (s.setGrid k v).uni = s.uni := rfl
@[simp] theorem setGrid_core (k : Nat) (v : Grid) : (s.setGrid k v).core = s.core := rfl
@[simp] theorem setGrid_mm (k : Nat) (v : Grid) : (s.setGrid k v).mm = s.mm := rfl
@[simp] theorem setGrid_eng (k : Nat) (v : Grid) : (s.setGrid k v).eng = s.eng := rfl
@[simp] theorem setGrid_dev (k : Nat) (v : Grid) : (s.setGrid k v).dev = s.dev := rfl
@[simp] theorem setGrid_agenda (k : Nat) (v : Grid) : (s.setGrid k v).agenda = s.agenda := rfl
@[simp] theorem setGrid_task_nodes (k : Nat) (v : Grid) : (s.setGrid k v).task.nodes = s.task.nodes := rfl
@[simp] theorem setGrid_task_jobs (k : Nat) (v : Grid) : (s.setGrid k v).task.jobs = s.task.jobs := rfl
@[simp] theorem setGrid_task_decs (k : Nat) (v : Grid) : (s.setGrid k v).task.decs = s.task.decs := rfl
@[simp] theorem setGrid_task_streams (k : Nat) (v : Grid) : (s.setGrid k v).task.streams = s.task.streams := rfl
@[simp] theorem setGrid_task_queues (k : Nat) (v : Grid) : (s.setGrid k v).task.queues = s.task.queues := rfl
@[simp] theorem setGrid_task_spill (k : Nat) (v : Grid) : (s.setGrid k v).task.spill = s.task.spill := rfl
@[simp] theorem setGrid_task_arrived (k : Nat) (v : Grid) : (s.setGrid k v).task.arrived = s.task.arrived := rfl
@[simp] theorem setGrid_task_punnets (k : Nat) (v : Grid) : (s.setGrid k v).task.punnets = s.task.punnets := rfl
@[simp] theorem setGrid_task_rings (k : Nat) (v : Grid) : (s.setGrid k v).task.rings = s.task.rings := rfl
@[simp] theorem setGrid_task_backlog (k : Nat) (v : Grid) : (s.setGrid k v).task.backlog = s.task.backlog := rfl
@[simp] theorem setGrid_task_ops (k : Nat) (v : Grid) : (s.setGrid k v).task.ops = s.task.ops := rfl
@[simp] theorem setGrid_task_watches (k : Nat) (v : Grid) : (s.setGrid k v).task.watches = s.task.watches := rfl
@[simp] theorem setGrid_task_est (k : Nat) (v : Grid) : (s.setGrid k v).task.est = s.task.est := rfl
@[simp] theorem setGrid_task_mail (k : Nat) (v : Grid) : (s.setGrid k v).task.mail = s.task.mail := rfl
@[simp] theorem setGrid_task_sessions (k : Nat) (v : Grid) : (s.setGrid k v).task.sessions = s.task.sessions := rfl
@[simp] theorem setGrid_task_shadow (k : Nat) (v : Grid) : (s.setGrid k v).task.shadow = s.task.shadow := rfl
@[simp] theorem setGrid_task_out (k : Nat) (v : Grid) : (s.setGrid k v).task.out = s.task.out := rfl
@[simp] theorem setGrid_task_nextJob (k : Nat) (v : Grid) : (s.setGrid k v).task.nextJob = s.task.nextJob := rfl
@[simp] theorem setGrid_task_nextGrid (k : Nat) (v : Grid) : (s.setGrid k v).task.nextGrid = s.task.nextGrid := rfl
@[simp] theorem setGrid_task_nextDec (k : Nat) (v : Grid) : (s.setGrid k v).task.nextDec = s.task.nextDec := rfl
@[simp] theorem setGrid_task_nextOp (k : Nat) (v : Grid) : (s.setGrid k v).task.nextOp = s.task.nextOp := rfl
@[simp] theorem setGrid_task_nextPlace (k : Nat) (v : Grid) : (s.setGrid k v).task.nextPlace = s.task.nextPlace := rfl
@[simp] theorem setGrid_task_serial (k : Nat) (v : Grid) : (s.setGrid k v).task.serial = s.task.serial := rfl
@[simp] theorem setGrid_task_back (k : Nat) (v : Grid) : (s.setGrid k v).task.back = s.task.back := rfl
@[simp] theorem setGrid_task_front (k : Nat) (v : Grid) : (s.setGrid k v).task.front = s.task.front := rfl
theorem setGrid_reads (k : Nat) (v : Grid) (j : Nat) : (s.setGrid k v).grid j = if j = k then v else s.grid j := Sparse.get_put _ _ _ _
@[simp] theorem setGrid_reads_same (k : Nat) (v : Grid) : (s.setGrid k v).grid k = v := Sparse.get_put_same _ _ _

/-! ## setDec -/

@[simp] theorem setDec_now (k : Nat) (v : Dec) : (s.setDec k v).now = s.now := rfl
@[simp] theorem setDec_tick (k : Nat) (v : Dec) : (s.setDec k v).tick = s.tick := rfl
@[simp] theorem setDec_free (k : Nat) (v : Dec) : (s.setDec k v).free = s.free := rfl
@[simp] theorem setDec_power (k : Nat) (v : Dec) : (s.setDec k v).power = s.power := rfl
@[simp] theorem setDec_cfg (k : Nat) (v : Dec) : (s.setDec k v).cfg = s.cfg := rfl
@[simp] theorem setDec_cur (k : Nat) (v : Dec) : (s.setDec k v).cur = s.cur := rfl
@[simp] theorem setDec_lane (k : Nat) (v : Dec) : (s.setDec k v).lane = s.lane := rfl
@[simp] theorem setDec_uni (k : Nat) (v : Dec) : (s.setDec k v).uni = s.uni := rfl
@[simp] theorem setDec_core (k : Nat) (v : Dec) : (s.setDec k v).core = s.core := rfl
@[simp] theorem setDec_mm (k : Nat) (v : Dec) : (s.setDec k v).mm = s.mm := rfl
@[simp] theorem setDec_eng (k : Nat) (v : Dec) : (s.setDec k v).eng = s.eng := rfl
@[simp] theorem setDec_dev (k : Nat) (v : Dec) : (s.setDec k v).dev = s.dev := rfl
@[simp] theorem setDec_agenda (k : Nat) (v : Dec) : (s.setDec k v).agenda = s.agenda := rfl
@[simp] theorem setDec_task_nodes (k : Nat) (v : Dec) : (s.setDec k v).task.nodes = s.task.nodes := rfl
@[simp] theorem setDec_task_jobs (k : Nat) (v : Dec) : (s.setDec k v).task.jobs = s.task.jobs := rfl
@[simp] theorem setDec_task_grids (k : Nat) (v : Dec) : (s.setDec k v).task.grids = s.task.grids := rfl
@[simp] theorem setDec_task_streams (k : Nat) (v : Dec) : (s.setDec k v).task.streams = s.task.streams := rfl
@[simp] theorem setDec_task_queues (k : Nat) (v : Dec) : (s.setDec k v).task.queues = s.task.queues := rfl
@[simp] theorem setDec_task_spill (k : Nat) (v : Dec) : (s.setDec k v).task.spill = s.task.spill := rfl
@[simp] theorem setDec_task_arrived (k : Nat) (v : Dec) : (s.setDec k v).task.arrived = s.task.arrived := rfl
@[simp] theorem setDec_task_punnets (k : Nat) (v : Dec) : (s.setDec k v).task.punnets = s.task.punnets := rfl
@[simp] theorem setDec_task_rings (k : Nat) (v : Dec) : (s.setDec k v).task.rings = s.task.rings := rfl
@[simp] theorem setDec_task_backlog (k : Nat) (v : Dec) : (s.setDec k v).task.backlog = s.task.backlog := rfl
@[simp] theorem setDec_task_ops (k : Nat) (v : Dec) : (s.setDec k v).task.ops = s.task.ops := rfl
@[simp] theorem setDec_task_watches (k : Nat) (v : Dec) : (s.setDec k v).task.watches = s.task.watches := rfl
@[simp] theorem setDec_task_est (k : Nat) (v : Dec) : (s.setDec k v).task.est = s.task.est := rfl
@[simp] theorem setDec_task_mail (k : Nat) (v : Dec) : (s.setDec k v).task.mail = s.task.mail := rfl
@[simp] theorem setDec_task_sessions (k : Nat) (v : Dec) : (s.setDec k v).task.sessions = s.task.sessions := rfl
@[simp] theorem setDec_task_shadow (k : Nat) (v : Dec) : (s.setDec k v).task.shadow = s.task.shadow := rfl
@[simp] theorem setDec_task_out (k : Nat) (v : Dec) : (s.setDec k v).task.out = s.task.out := rfl
@[simp] theorem setDec_task_nextJob (k : Nat) (v : Dec) : (s.setDec k v).task.nextJob = s.task.nextJob := rfl
@[simp] theorem setDec_task_nextGrid (k : Nat) (v : Dec) : (s.setDec k v).task.nextGrid = s.task.nextGrid := rfl
@[simp] theorem setDec_task_nextDec (k : Nat) (v : Dec) : (s.setDec k v).task.nextDec = s.task.nextDec := rfl
@[simp] theorem setDec_task_nextOp (k : Nat) (v : Dec) : (s.setDec k v).task.nextOp = s.task.nextOp := rfl
@[simp] theorem setDec_task_nextPlace (k : Nat) (v : Dec) : (s.setDec k v).task.nextPlace = s.task.nextPlace := rfl
@[simp] theorem setDec_task_serial (k : Nat) (v : Dec) : (s.setDec k v).task.serial = s.task.serial := rfl
@[simp] theorem setDec_task_back (k : Nat) (v : Dec) : (s.setDec k v).task.back = s.task.back := rfl
@[simp] theorem setDec_task_front (k : Nat) (v : Dec) : (s.setDec k v).task.front = s.task.front := rfl
theorem setDec_reads (k : Nat) (v : Dec) (j : Nat) : (s.setDec k v).dec j = if j = k then v else s.dec j := Sparse.get_put _ _ _ _
@[simp] theorem setDec_reads_same (k : Nat) (v : Dec) : (s.setDec k v).dec k = v := Sparse.get_put_same _ _ _

/-! ## setOp -/

@[simp] theorem setOp_now (k : Nat) (v : HomeOp) : (s.setOp k v).now = s.now := rfl
@[simp] theorem setOp_tick (k : Nat) (v : HomeOp) : (s.setOp k v).tick = s.tick := rfl
@[simp] theorem setOp_free (k : Nat) (v : HomeOp) : (s.setOp k v).free = s.free := rfl
@[simp] theorem setOp_power (k : Nat) (v : HomeOp) : (s.setOp k v).power = s.power := rfl
@[simp] theorem setOp_cfg (k : Nat) (v : HomeOp) : (s.setOp k v).cfg = s.cfg := rfl
@[simp] theorem setOp_cur (k : Nat) (v : HomeOp) : (s.setOp k v).cur = s.cur := rfl
@[simp] theorem setOp_lane (k : Nat) (v : HomeOp) : (s.setOp k v).lane = s.lane := rfl
@[simp] theorem setOp_uni (k : Nat) (v : HomeOp) : (s.setOp k v).uni = s.uni := rfl
@[simp] theorem setOp_core (k : Nat) (v : HomeOp) : (s.setOp k v).core = s.core := rfl
@[simp] theorem setOp_mm (k : Nat) (v : HomeOp) : (s.setOp k v).mm = s.mm := rfl
@[simp] theorem setOp_eng (k : Nat) (v : HomeOp) : (s.setOp k v).eng = s.eng := rfl
@[simp] theorem setOp_dev (k : Nat) (v : HomeOp) : (s.setOp k v).dev = s.dev := rfl
@[simp] theorem setOp_agenda (k : Nat) (v : HomeOp) : (s.setOp k v).agenda = s.agenda := rfl
@[simp] theorem setOp_task_nodes (k : Nat) (v : HomeOp) : (s.setOp k v).task.nodes = s.task.nodes := rfl
@[simp] theorem setOp_task_jobs (k : Nat) (v : HomeOp) : (s.setOp k v).task.jobs = s.task.jobs := rfl
@[simp] theorem setOp_task_grids (k : Nat) (v : HomeOp) : (s.setOp k v).task.grids = s.task.grids := rfl
@[simp] theorem setOp_task_decs (k : Nat) (v : HomeOp) : (s.setOp k v).task.decs = s.task.decs := rfl
@[simp] theorem setOp_task_streams (k : Nat) (v : HomeOp) : (s.setOp k v).task.streams = s.task.streams := rfl
@[simp] theorem setOp_task_queues (k : Nat) (v : HomeOp) : (s.setOp k v).task.queues = s.task.queues := rfl
@[simp] theorem setOp_task_spill (k : Nat) (v : HomeOp) : (s.setOp k v).task.spill = s.task.spill := rfl
@[simp] theorem setOp_task_arrived (k : Nat) (v : HomeOp) : (s.setOp k v).task.arrived = s.task.arrived := rfl
@[simp] theorem setOp_task_punnets (k : Nat) (v : HomeOp) : (s.setOp k v).task.punnets = s.task.punnets := rfl
@[simp] theorem setOp_task_rings (k : Nat) (v : HomeOp) : (s.setOp k v).task.rings = s.task.rings := rfl
@[simp] theorem setOp_task_backlog (k : Nat) (v : HomeOp) : (s.setOp k v).task.backlog = s.task.backlog := rfl
@[simp] theorem setOp_task_watches (k : Nat) (v : HomeOp) : (s.setOp k v).task.watches = s.task.watches := rfl
@[simp] theorem setOp_task_est (k : Nat) (v : HomeOp) : (s.setOp k v).task.est = s.task.est := rfl
@[simp] theorem setOp_task_mail (k : Nat) (v : HomeOp) : (s.setOp k v).task.mail = s.task.mail := rfl
@[simp] theorem setOp_task_sessions (k : Nat) (v : HomeOp) : (s.setOp k v).task.sessions = s.task.sessions := rfl
@[simp] theorem setOp_task_shadow (k : Nat) (v : HomeOp) : (s.setOp k v).task.shadow = s.task.shadow := rfl
@[simp] theorem setOp_task_out (k : Nat) (v : HomeOp) : (s.setOp k v).task.out = s.task.out := rfl
@[simp] theorem setOp_task_nextJob (k : Nat) (v : HomeOp) : (s.setOp k v).task.nextJob = s.task.nextJob := rfl
@[simp] theorem setOp_task_nextGrid (k : Nat) (v : HomeOp) : (s.setOp k v).task.nextGrid = s.task.nextGrid := rfl
@[simp] theorem setOp_task_nextDec (k : Nat) (v : HomeOp) : (s.setOp k v).task.nextDec = s.task.nextDec := rfl
@[simp] theorem setOp_task_nextOp (k : Nat) (v : HomeOp) : (s.setOp k v).task.nextOp = s.task.nextOp := rfl
@[simp] theorem setOp_task_nextPlace (k : Nat) (v : HomeOp) : (s.setOp k v).task.nextPlace = s.task.nextPlace := rfl
@[simp] theorem setOp_task_serial (k : Nat) (v : HomeOp) : (s.setOp k v).task.serial = s.task.serial := rfl
@[simp] theorem setOp_task_back (k : Nat) (v : HomeOp) : (s.setOp k v).task.back = s.task.back := rfl
@[simp] theorem setOp_task_front (k : Nat) (v : HomeOp) : (s.setOp k v).task.front = s.task.front := rfl
theorem setOp_reads (k : Nat) (v : HomeOp) (j : Nat) : (s.setOp k v).op j = if j = k then v else s.op j := Sparse.get_put _ _ _ _
@[simp] theorem setOp_reads_same (k : Nat) (v : HomeOp) : (s.setOp k v).op k = v := Sparse.get_put_same _ _ _

/-! ## setRing -/

@[simp] theorem setRing_now (k : Nat) (v : Ring) : (s.setRing k v).now = s.now := rfl
@[simp] theorem setRing_tick (k : Nat) (v : Ring) : (s.setRing k v).tick = s.tick := rfl
@[simp] theorem setRing_free (k : Nat) (v : Ring) : (s.setRing k v).free = s.free := rfl
@[simp] theorem setRing_power (k : Nat) (v : Ring) : (s.setRing k v).power = s.power := rfl
@[simp] theorem setRing_cfg (k : Nat) (v : Ring) : (s.setRing k v).cfg = s.cfg := rfl
@[simp] theorem setRing_cur (k : Nat) (v : Ring) : (s.setRing k v).cur = s.cur := rfl
@[simp] theorem setRing_lane (k : Nat) (v : Ring) : (s.setRing k v).lane = s.lane := rfl
@[simp] theorem setRing_uni (k : Nat) (v : Ring) : (s.setRing k v).uni = s.uni := rfl
@[simp] theorem setRing_core (k : Nat) (v : Ring) : (s.setRing k v).core = s.core := rfl
@[simp] theorem setRing_mm (k : Nat) (v : Ring) : (s.setRing k v).mm = s.mm := rfl
@[simp] theorem setRing_eng (k : Nat) (v : Ring) : (s.setRing k v).eng = s.eng := rfl
@[simp] theorem setRing_dev (k : Nat) (v : Ring) : (s.setRing k v).dev = s.dev := rfl
@[simp] theorem setRing_agenda (k : Nat) (v : Ring) : (s.setRing k v).agenda = s.agenda := rfl
@[simp] theorem setRing_task_nodes (k : Nat) (v : Ring) : (s.setRing k v).task.nodes = s.task.nodes := rfl
@[simp] theorem setRing_task_jobs (k : Nat) (v : Ring) : (s.setRing k v).task.jobs = s.task.jobs := rfl
@[simp] theorem setRing_task_grids (k : Nat) (v : Ring) : (s.setRing k v).task.grids = s.task.grids := rfl
@[simp] theorem setRing_task_decs (k : Nat) (v : Ring) : (s.setRing k v).task.decs = s.task.decs := rfl
@[simp] theorem setRing_task_streams (k : Nat) (v : Ring) : (s.setRing k v).task.streams = s.task.streams := rfl
@[simp] theorem setRing_task_queues (k : Nat) (v : Ring) : (s.setRing k v).task.queues = s.task.queues := rfl
@[simp] theorem setRing_task_spill (k : Nat) (v : Ring) : (s.setRing k v).task.spill = s.task.spill := rfl
@[simp] theorem setRing_task_arrived (k : Nat) (v : Ring) : (s.setRing k v).task.arrived = s.task.arrived := rfl
@[simp] theorem setRing_task_punnets (k : Nat) (v : Ring) : (s.setRing k v).task.punnets = s.task.punnets := rfl
@[simp] theorem setRing_task_backlog (k : Nat) (v : Ring) : (s.setRing k v).task.backlog = s.task.backlog := rfl
@[simp] theorem setRing_task_ops (k : Nat) (v : Ring) : (s.setRing k v).task.ops = s.task.ops := rfl
@[simp] theorem setRing_task_watches (k : Nat) (v : Ring) : (s.setRing k v).task.watches = s.task.watches := rfl
@[simp] theorem setRing_task_est (k : Nat) (v : Ring) : (s.setRing k v).task.est = s.task.est := rfl
@[simp] theorem setRing_task_mail (k : Nat) (v : Ring) : (s.setRing k v).task.mail = s.task.mail := rfl
@[simp] theorem setRing_task_sessions (k : Nat) (v : Ring) : (s.setRing k v).task.sessions = s.task.sessions := rfl
@[simp] theorem setRing_task_shadow (k : Nat) (v : Ring) : (s.setRing k v).task.shadow = s.task.shadow := rfl
@[simp] theorem setRing_task_out (k : Nat) (v : Ring) : (s.setRing k v).task.out = s.task.out := rfl
@[simp] theorem setRing_task_nextJob (k : Nat) (v : Ring) : (s.setRing k v).task.nextJob = s.task.nextJob := rfl
@[simp] theorem setRing_task_nextGrid (k : Nat) (v : Ring) : (s.setRing k v).task.nextGrid = s.task.nextGrid := rfl
@[simp] theorem setRing_task_nextDec (k : Nat) (v : Ring) : (s.setRing k v).task.nextDec = s.task.nextDec := rfl
@[simp] theorem setRing_task_nextOp (k : Nat) (v : Ring) : (s.setRing k v).task.nextOp = s.task.nextOp := rfl
@[simp] theorem setRing_task_nextPlace (k : Nat) (v : Ring) : (s.setRing k v).task.nextPlace = s.task.nextPlace := rfl
@[simp] theorem setRing_task_serial (k : Nat) (v : Ring) : (s.setRing k v).task.serial = s.task.serial := rfl
@[simp] theorem setRing_task_back (k : Nat) (v : Ring) : (s.setRing k v).task.back = s.task.back := rfl
@[simp] theorem setRing_task_front (k : Nat) (v : Ring) : (s.setRing k v).task.front = s.task.front := rfl
theorem setRing_reads (k : Nat) (v : Ring) (j : Nat) : (s.setRing k v).ring j = if j = k then v else s.ring j := Sparse.get_put _ _ _ _
@[simp] theorem setRing_reads_same (k : Nat) (v : Ring) : (s.setRing k v).ring k = v := Sparse.get_put_same _ _ _

/-! ## setPun -/

@[simp] theorem setPun_now (k : Nat) (v : PunRt) : (s.setPun k v).now = s.now := rfl
@[simp] theorem setPun_tick (k : Nat) (v : PunRt) : (s.setPun k v).tick = s.tick := rfl
@[simp] theorem setPun_free (k : Nat) (v : PunRt) : (s.setPun k v).free = s.free := rfl
@[simp] theorem setPun_power (k : Nat) (v : PunRt) : (s.setPun k v).power = s.power := rfl
@[simp] theorem setPun_cfg (k : Nat) (v : PunRt) : (s.setPun k v).cfg = s.cfg := rfl
@[simp] theorem setPun_cur (k : Nat) (v : PunRt) : (s.setPun k v).cur = s.cur := rfl
@[simp] theorem setPun_lane (k : Nat) (v : PunRt) : (s.setPun k v).lane = s.lane := rfl
@[simp] theorem setPun_uni (k : Nat) (v : PunRt) : (s.setPun k v).uni = s.uni := rfl
@[simp] theorem setPun_core (k : Nat) (v : PunRt) : (s.setPun k v).core = s.core := rfl
@[simp] theorem setPun_mm (k : Nat) (v : PunRt) : (s.setPun k v).mm = s.mm := rfl
@[simp] theorem setPun_eng (k : Nat) (v : PunRt) : (s.setPun k v).eng = s.eng := rfl
@[simp] theorem setPun_dev (k : Nat) (v : PunRt) : (s.setPun k v).dev = s.dev := rfl
@[simp] theorem setPun_agenda (k : Nat) (v : PunRt) : (s.setPun k v).agenda = s.agenda := rfl
@[simp] theorem setPun_task_nodes (k : Nat) (v : PunRt) : (s.setPun k v).task.nodes = s.task.nodes := rfl
@[simp] theorem setPun_task_jobs (k : Nat) (v : PunRt) : (s.setPun k v).task.jobs = s.task.jobs := rfl
@[simp] theorem setPun_task_grids (k : Nat) (v : PunRt) : (s.setPun k v).task.grids = s.task.grids := rfl
@[simp] theorem setPun_task_decs (k : Nat) (v : PunRt) : (s.setPun k v).task.decs = s.task.decs := rfl
@[simp] theorem setPun_task_streams (k : Nat) (v : PunRt) : (s.setPun k v).task.streams = s.task.streams := rfl
@[simp] theorem setPun_task_queues (k : Nat) (v : PunRt) : (s.setPun k v).task.queues = s.task.queues := rfl
@[simp] theorem setPun_task_spill (k : Nat) (v : PunRt) : (s.setPun k v).task.spill = s.task.spill := rfl
@[simp] theorem setPun_task_arrived (k : Nat) (v : PunRt) : (s.setPun k v).task.arrived = s.task.arrived := rfl
@[simp] theorem setPun_task_rings (k : Nat) (v : PunRt) : (s.setPun k v).task.rings = s.task.rings := rfl
@[simp] theorem setPun_task_backlog (k : Nat) (v : PunRt) : (s.setPun k v).task.backlog = s.task.backlog := rfl
@[simp] theorem setPun_task_ops (k : Nat) (v : PunRt) : (s.setPun k v).task.ops = s.task.ops := rfl
@[simp] theorem setPun_task_watches (k : Nat) (v : PunRt) : (s.setPun k v).task.watches = s.task.watches := rfl
@[simp] theorem setPun_task_est (k : Nat) (v : PunRt) : (s.setPun k v).task.est = s.task.est := rfl
@[simp] theorem setPun_task_mail (k : Nat) (v : PunRt) : (s.setPun k v).task.mail = s.task.mail := rfl
@[simp] theorem setPun_task_sessions (k : Nat) (v : PunRt) : (s.setPun k v).task.sessions = s.task.sessions := rfl
@[simp] theorem setPun_task_shadow (k : Nat) (v : PunRt) : (s.setPun k v).task.shadow = s.task.shadow := rfl
@[simp] theorem setPun_task_out (k : Nat) (v : PunRt) : (s.setPun k v).task.out = s.task.out := rfl
@[simp] theorem setPun_task_nextJob (k : Nat) (v : PunRt) : (s.setPun k v).task.nextJob = s.task.nextJob := rfl
@[simp] theorem setPun_task_nextGrid (k : Nat) (v : PunRt) : (s.setPun k v).task.nextGrid = s.task.nextGrid := rfl
@[simp] theorem setPun_task_nextDec (k : Nat) (v : PunRt) : (s.setPun k v).task.nextDec = s.task.nextDec := rfl
@[simp] theorem setPun_task_nextOp (k : Nat) (v : PunRt) : (s.setPun k v).task.nextOp = s.task.nextOp := rfl
@[simp] theorem setPun_task_nextPlace (k : Nat) (v : PunRt) : (s.setPun k v).task.nextPlace = s.task.nextPlace := rfl
@[simp] theorem setPun_task_serial (k : Nat) (v : PunRt) : (s.setPun k v).task.serial = s.task.serial := rfl
@[simp] theorem setPun_task_back (k : Nat) (v : PunRt) : (s.setPun k v).task.back = s.task.back := rfl
@[simp] theorem setPun_task_front (k : Nat) (v : PunRt) : (s.setPun k v).task.front = s.task.front := rfl
theorem setPun_reads (k : Nat) (v : PunRt) (j : Nat) : (s.setPun k v).pun j = if j = k then v else s.pun j := Sparse.get_put _ _ _ _
@[simp] theorem setPun_reads_same (k : Nat) (v : PunRt) : (s.setPun k v).pun k = v := Sparse.get_put_same _ _ _

/-! ## setHandle -/

@[simp] theorem setHandle_now (k : Nat) (v : Handle) : (s.setHandle k v).now = s.now := rfl
@[simp] theorem setHandle_tick (k : Nat) (v : Handle) : (s.setHandle k v).tick = s.tick := rfl
@[simp] theorem setHandle_free (k : Nat) (v : Handle) : (s.setHandle k v).free = s.free := rfl
@[simp] theorem setHandle_power (k : Nat) (v : Handle) : (s.setHandle k v).power = s.power := rfl
@[simp] theorem setHandle_cfg (k : Nat) (v : Handle) : (s.setHandle k v).cfg = s.cfg := rfl
@[simp] theorem setHandle_cur (k : Nat) (v : Handle) : (s.setHandle k v).cur = s.cur := rfl
@[simp] theorem setHandle_lane (k : Nat) (v : Handle) : (s.setHandle k v).lane = s.lane := rfl
@[simp] theorem setHandle_uni (k : Nat) (v : Handle) : (s.setHandle k v).uni = s.uni := rfl
@[simp] theorem setHandle_core (k : Nat) (v : Handle) : (s.setHandle k v).core = s.core := rfl
@[simp] theorem setHandle_mm (k : Nat) (v : Handle) : (s.setHandle k v).mm = s.mm := rfl
@[simp] theorem setHandle_task (k : Nat) (v : Handle) : (s.setHandle k v).task = s.task := rfl
@[simp] theorem setHandle_dev (k : Nat) (v : Handle) : (s.setHandle k v).dev = s.dev := rfl
@[simp] theorem setHandle_agenda (k : Nat) (v : Handle) : (s.setHandle k v).agenda = s.agenda := rfl
@[simp] theorem setHandle_eng_chans (k : Nat) (v : Handle) : (s.setHandle k v).eng.chans = s.eng.chans := rfl
@[simp] theorem setHandle_eng_xfers (k : Nat) (v : Handle) : (s.setHandle k v).eng.xfers = s.eng.xfers := rfl
@[simp] theorem setHandle_eng_tiles (k : Nat) (v : Handle) : (s.setHandle k v).eng.tiles = s.eng.tiles := rfl
@[simp] theorem setHandle_eng_stopped (k : Nat) (v : Handle) : (s.setHandle k v).eng.stopped = s.eng.stopped := rfl
@[simp] theorem setHandle_eng_attqs (k : Nat) (v : Handle) : (s.setHandle k v).eng.attqs = s.eng.attqs := rfl
@[simp] theorem setHandle_eng_contribs (k : Nat) (v : Handle) : (s.setHandle k v).eng.contribs = s.eng.contribs := rfl
@[simp] theorem setHandle_eng_rounds (k : Nat) (v : Handle) : (s.setHandle k v).eng.rounds = s.eng.rounds := rfl
@[simp] theorem setHandle_eng_dogs (k : Nat) (v : Handle) : (s.setHandle k v).eng.dogs = s.eng.dogs := rfl
@[simp] theorem setHandle_eng_nextEng (k : Nat) (v : Handle) : (s.setHandle k v).eng.nextEng = s.eng.nextEng := rfl
theorem setHandle_reads (k : Nat) (v : Handle) (j : Nat) : (s.setHandle k v).handle j = if j = k then v else s.handle j := Sparse.get_put _ _ _ _
@[simp] theorem setHandle_reads_same (k : Nat) (v : Handle) : (s.setHandle k v).handle k = v := Sparse.get_put_same _ _ _

/-! ## setXfer -/

@[simp] theorem setXfer_now (k : Nat) (v : Xfer) : (s.setXfer k v).now = s.now := rfl
@[simp] theorem setXfer_tick (k : Nat) (v : Xfer) : (s.setXfer k v).tick = s.tick := rfl
@[simp] theorem setXfer_free (k : Nat) (v : Xfer) : (s.setXfer k v).free = s.free := rfl
@[simp] theorem setXfer_power (k : Nat) (v : Xfer) : (s.setXfer k v).power = s.power := rfl
@[simp] theorem setXfer_cfg (k : Nat) (v : Xfer) : (s.setXfer k v).cfg = s.cfg := rfl
@[simp] theorem setXfer_cur (k : Nat) (v : Xfer) : (s.setXfer k v).cur = s.cur := rfl
@[simp] theorem setXfer_lane (k : Nat) (v : Xfer) : (s.setXfer k v).lane = s.lane := rfl
@[simp] theorem setXfer_uni (k : Nat) (v : Xfer) : (s.setXfer k v).uni = s.uni := rfl
@[simp] theorem setXfer_core (k : Nat) (v : Xfer) : (s.setXfer k v).core = s.core := rfl
@[simp] theorem setXfer_mm (k : Nat) (v : Xfer) : (s.setXfer k v).mm = s.mm := rfl
@[simp] theorem setXfer_task (k : Nat) (v : Xfer) : (s.setXfer k v).task = s.task := rfl
@[simp] theorem setXfer_dev (k : Nat) (v : Xfer) : (s.setXfer k v).dev = s.dev := rfl
@[simp] theorem setXfer_agenda (k : Nat) (v : Xfer) : (s.setXfer k v).agenda = s.agenda := rfl
@[simp] theorem setXfer_eng_handles (k : Nat) (v : Xfer) : (s.setXfer k v).eng.handles = s.eng.handles := rfl
@[simp] theorem setXfer_eng_chans (k : Nat) (v : Xfer) : (s.setXfer k v).eng.chans = s.eng.chans := rfl
@[simp] theorem setXfer_eng_tiles (k : Nat) (v : Xfer) : (s.setXfer k v).eng.tiles = s.eng.tiles := rfl
@[simp] theorem setXfer_eng_stopped (k : Nat) (v : Xfer) : (s.setXfer k v).eng.stopped = s.eng.stopped := rfl
@[simp] theorem setXfer_eng_attqs (k : Nat) (v : Xfer) : (s.setXfer k v).eng.attqs = s.eng.attqs := rfl
@[simp] theorem setXfer_eng_contribs (k : Nat) (v : Xfer) : (s.setXfer k v).eng.contribs = s.eng.contribs := rfl
@[simp] theorem setXfer_eng_rounds (k : Nat) (v : Xfer) : (s.setXfer k v).eng.rounds = s.eng.rounds := rfl
@[simp] theorem setXfer_eng_dogs (k : Nat) (v : Xfer) : (s.setXfer k v).eng.dogs = s.eng.dogs := rfl
@[simp] theorem setXfer_eng_nextEng (k : Nat) (v : Xfer) : (s.setXfer k v).eng.nextEng = s.eng.nextEng := rfl
theorem setXfer_reads (k : Nat) (v : Xfer) (j : Nat) : (s.setXfer k v).xfer j = if j = k then v else s.xfer j := Sparse.get_put _ _ _ _
@[simp] theorem setXfer_reads_same (k : Nat) (v : Xfer) : (s.setXfer k v).xfer k = v := Sparse.get_put_same _ _ _

/-! ## setAttq -/

@[simp] theorem setAttq_now (k : Nat) (v : AttQuery) : (s.setAttq k v).now = s.now := rfl
@[simp] theorem setAttq_tick (k : Nat) (v : AttQuery) : (s.setAttq k v).tick = s.tick := rfl
@[simp] theorem setAttq_free (k : Nat) (v : AttQuery) : (s.setAttq k v).free = s.free := rfl
@[simp] theorem setAttq_power (k : Nat) (v : AttQuery) : (s.setAttq k v).power = s.power := rfl
@[simp] theorem setAttq_cfg (k : Nat) (v : AttQuery) : (s.setAttq k v).cfg = s.cfg := rfl
@[simp] theorem setAttq_cur (k : Nat) (v : AttQuery) : (s.setAttq k v).cur = s.cur := rfl
@[simp] theorem setAttq_lane (k : Nat) (v : AttQuery) : (s.setAttq k v).lane = s.lane := rfl
@[simp] theorem setAttq_uni (k : Nat) (v : AttQuery) : (s.setAttq k v).uni = s.uni := rfl
@[simp] theorem setAttq_core (k : Nat) (v : AttQuery) : (s.setAttq k v).core = s.core := rfl
@[simp] theorem setAttq_mm (k : Nat) (v : AttQuery) : (s.setAttq k v).mm = s.mm := rfl
@[simp] theorem setAttq_task (k : Nat) (v : AttQuery) : (s.setAttq k v).task = s.task := rfl
@[simp] theorem setAttq_dev (k : Nat) (v : AttQuery) : (s.setAttq k v).dev = s.dev := rfl
@[simp] theorem setAttq_agenda (k : Nat) (v : AttQuery) : (s.setAttq k v).agenda = s.agenda := rfl
@[simp] theorem setAttq_eng_handles (k : Nat) (v : AttQuery) : (s.setAttq k v).eng.handles = s.eng.handles := rfl
@[simp] theorem setAttq_eng_chans (k : Nat) (v : AttQuery) : (s.setAttq k v).eng.chans = s.eng.chans := rfl
@[simp] theorem setAttq_eng_xfers (k : Nat) (v : AttQuery) : (s.setAttq k v).eng.xfers = s.eng.xfers := rfl
@[simp] theorem setAttq_eng_tiles (k : Nat) (v : AttQuery) : (s.setAttq k v).eng.tiles = s.eng.tiles := rfl
@[simp] theorem setAttq_eng_stopped (k : Nat) (v : AttQuery) : (s.setAttq k v).eng.stopped = s.eng.stopped := rfl
@[simp] theorem setAttq_eng_contribs (k : Nat) (v : AttQuery) : (s.setAttq k v).eng.contribs = s.eng.contribs := rfl
@[simp] theorem setAttq_eng_rounds (k : Nat) (v : AttQuery) : (s.setAttq k v).eng.rounds = s.eng.rounds := rfl
@[simp] theorem setAttq_eng_dogs (k : Nat) (v : AttQuery) : (s.setAttq k v).eng.dogs = s.eng.dogs := rfl
@[simp] theorem setAttq_eng_nextEng (k : Nat) (v : AttQuery) : (s.setAttq k v).eng.nextEng = s.eng.nextEng := rfl
theorem setAttq_reads (k : Nat) (v : AttQuery) (j : Nat) : (s.setAttq k v).attq j = if j = k then v else s.attq j := Sparse.get_put _ _ _ _
@[simp] theorem setAttq_reads_same (k : Nat) (v : AttQuery) : (s.setAttq k v).attq k = v := Sparse.get_put_same _ _ _

/-! ## setContrib -/

@[simp] theorem setContrib_now (k : Nat) (v : Contrib) : (s.setContrib k v).now = s.now := rfl
@[simp] theorem setContrib_tick (k : Nat) (v : Contrib) : (s.setContrib k v).tick = s.tick := rfl
@[simp] theorem setContrib_free (k : Nat) (v : Contrib) : (s.setContrib k v).free = s.free := rfl
@[simp] theorem setContrib_power (k : Nat) (v : Contrib) : (s.setContrib k v).power = s.power := rfl
@[simp] theorem setContrib_cfg (k : Nat) (v : Contrib) : (s.setContrib k v).cfg = s.cfg := rfl
@[simp] theorem setContrib_cur (k : Nat) (v : Contrib) : (s.setContrib k v).cur = s.cur := rfl
@[simp] theorem setContrib_lane (k : Nat) (v : Contrib) : (s.setContrib k v).lane = s.lane := rfl
@[simp] theorem setContrib_uni (k : Nat) (v : Contrib) : (s.setContrib k v).uni = s.uni := rfl
@[simp] theorem setContrib_core (k : Nat) (v : Contrib) : (s.setContrib k v).core = s.core := rfl
@[simp] theorem setContrib_mm (k : Nat) (v : Contrib) : (s.setContrib k v).mm = s.mm := rfl
@[simp] theorem setContrib_task (k : Nat) (v : Contrib) : (s.setContrib k v).task = s.task := rfl
@[simp] theorem setContrib_dev (k : Nat) (v : Contrib) : (s.setContrib k v).dev = s.dev := rfl
@[simp] theorem setContrib_agenda (k : Nat) (v : Contrib) : (s.setContrib k v).agenda = s.agenda := rfl
@[simp] theorem setContrib_eng_handles (k : Nat) (v : Contrib) : (s.setContrib k v).eng.handles = s.eng.handles := rfl
@[simp] theorem setContrib_eng_chans (k : Nat) (v : Contrib) : (s.setContrib k v).eng.chans = s.eng.chans := rfl
@[simp] theorem setContrib_eng_xfers (k : Nat) (v : Contrib) : (s.setContrib k v).eng.xfers = s.eng.xfers := rfl
@[simp] theorem setContrib_eng_tiles (k : Nat) (v : Contrib) : (s.setContrib k v).eng.tiles = s.eng.tiles := rfl
@[simp] theorem setContrib_eng_stopped (k : Nat) (v : Contrib) : (s.setContrib k v).eng.stopped = s.eng.stopped := rfl
@[simp] theorem setContrib_eng_attqs (k : Nat) (v : Contrib) : (s.setContrib k v).eng.attqs = s.eng.attqs := rfl
@[simp] theorem setContrib_eng_rounds (k : Nat) (v : Contrib) : (s.setContrib k v).eng.rounds = s.eng.rounds := rfl
@[simp] theorem setContrib_eng_dogs (k : Nat) (v : Contrib) : (s.setContrib k v).eng.dogs = s.eng.dogs := rfl
@[simp] theorem setContrib_eng_nextEng (k : Nat) (v : Contrib) : (s.setContrib k v).eng.nextEng = s.eng.nextEng := rfl
theorem setContrib_reads (k : Nat) (v : Contrib) (j : Nat) : (s.setContrib k v).contrib j = if j = k then v else s.contrib j := Sparse.get_put _ _ _ _
@[simp] theorem setContrib_reads_same (k : Nat) (v : Contrib) : (s.setContrib k v).contrib k = v := Sparse.get_put_same _ _ _

/-! ## setRound -/

@[simp] theorem setRound_now (k : Nat) (v : Round) : (s.setRound k v).now = s.now := rfl
@[simp] theorem setRound_tick (k : Nat) (v : Round) : (s.setRound k v).tick = s.tick := rfl
@[simp] theorem setRound_free (k : Nat) (v : Round) : (s.setRound k v).free = s.free := rfl
@[simp] theorem setRound_power (k : Nat) (v : Round) : (s.setRound k v).power = s.power := rfl
@[simp] theorem setRound_cfg (k : Nat) (v : Round) : (s.setRound k v).cfg = s.cfg := rfl
@[simp] theorem setRound_cur (k : Nat) (v : Round) : (s.setRound k v).cur = s.cur := rfl
@[simp] theorem setRound_lane (k : Nat) (v : Round) : (s.setRound k v).lane = s.lane := rfl
@[simp] theorem setRound_uni (k : Nat) (v : Round) : (s.setRound k v).uni = s.uni := rfl
@[simp] theorem setRound_core (k : Nat) (v : Round) : (s.setRound k v).core = s.core := rfl
@[simp] theorem setRound_mm (k : Nat) (v : Round) : (s.setRound k v).mm = s.mm := rfl
@[simp] theorem setRound_task (k : Nat) (v : Round) : (s.setRound k v).task = s.task := rfl
@[simp] theorem setRound_dev (k : Nat) (v : Round) : (s.setRound k v).dev = s.dev := rfl
@[simp] theorem setRound_agenda (k : Nat) (v : Round) : (s.setRound k v).agenda = s.agenda := rfl
@[simp] theorem setRound_eng_handles (k : Nat) (v : Round) : (s.setRound k v).eng.handles = s.eng.handles := rfl
@[simp] theorem setRound_eng_chans (k : Nat) (v : Round) : (s.setRound k v).eng.chans = s.eng.chans := rfl
@[simp] theorem setRound_eng_xfers (k : Nat) (v : Round) : (s.setRound k v).eng.xfers = s.eng.xfers := rfl
@[simp] theorem setRound_eng_tiles (k : Nat) (v : Round) : (s.setRound k v).eng.tiles = s.eng.tiles := rfl
@[simp] theorem setRound_eng_stopped (k : Nat) (v : Round) : (s.setRound k v).eng.stopped = s.eng.stopped := rfl
@[simp] theorem setRound_eng_attqs (k : Nat) (v : Round) : (s.setRound k v).eng.attqs = s.eng.attqs := rfl
@[simp] theorem setRound_eng_contribs (k : Nat) (v : Round) : (s.setRound k v).eng.contribs = s.eng.contribs := rfl
@[simp] theorem setRound_eng_dogs (k : Nat) (v : Round) : (s.setRound k v).eng.dogs = s.eng.dogs := rfl
@[simp] theorem setRound_eng_nextEng (k : Nat) (v : Round) : (s.setRound k v).eng.nextEng = s.eng.nextEng := rfl
theorem setRound_reads (k : Nat) (v : Round) (j : Nat) : (s.setRound k v).round j = if j = k then v else s.round j := Sparse.get_put _ _ _ _
@[simp] theorem setRound_reads_same (k : Nat) (v : Round) : (s.setRound k v).round k = v := Sparse.get_put_same _ _ _

/-! ## setScLine -/

@[simp] theorem setScLine_now (k : Nat) (l : ScLine) : (s.setScLine k l).now = s.now := rfl
@[simp] theorem setScLine_tick (k : Nat) (l : ScLine) : (s.setScLine k l).tick = s.tick := rfl
@[simp] theorem setScLine_free (k : Nat) (l : ScLine) : (s.setScLine k l).free = s.free := rfl
@[simp] theorem setScLine_power (k : Nat) (l : ScLine) : (s.setScLine k l).power = s.power := rfl
@[simp] theorem setScLine_cfg (k : Nat) (l : ScLine) : (s.setScLine k l).cfg = s.cfg := rfl
@[simp] theorem setScLine_cur (k : Nat) (l : ScLine) : (s.setScLine k l).cur = s.cur := rfl
@[simp] theorem setScLine_lane (k : Nat) (l : ScLine) : (s.setScLine k l).lane = s.lane := rfl
@[simp] theorem setScLine_uni (k : Nat) (l : ScLine) : (s.setScLine k l).uni = s.uni := rfl
@[simp] theorem setScLine_core (k : Nat) (l : ScLine) : (s.setScLine k l).core = s.core := rfl
@[simp] theorem setScLine_task (k : Nat) (l : ScLine) : (s.setScLine k l).task = s.task := rfl
@[simp] theorem setScLine_eng (k : Nat) (l : ScLine) : (s.setScLine k l).eng = s.eng := rfl
@[simp] theorem setScLine_dev (k : Nat) (l : ScLine) : (s.setScLine k l).dev = s.dev := rfl
@[simp] theorem setScLine_agenda (k : Nat) (l : ScLine) : (s.setScLine k l).agenda = s.agenda := rfl
@[simp] theorem setScLine_mm_mem (k : Nat) (l : ScLine) : (s.setScLine k l).mm.mem = s.mm.mem := rfl
@[simp] theorem setScLine_mm_granKey (k : Nat) (l : ScLine) : (s.setScLine k l).mm.granKey = s.mm.granKey := rfl
@[simp] theorem setScLine_mm_poison (k : Nat) (l : ScLine) : (s.setScLine k l).mm.poison = s.mm.poison := rfl
@[simp] theorem setScLine_mm_vers (k : Nat) (l : ScLine) : (s.setScLine k l).mm.vers = s.mm.vers := rfl
@[simp] theorem setScLine_mm_verSeen (k : Nat) (l : ScLine) : (s.setScLine k l).mm.verSeen = s.mm.verSeen := rfl
@[simp] theorem setScLine_mm_l1 (k : Nat) (l : ScLine) : (s.setScLine k l).mm.l1 = s.mm.l1 := rfl
@[simp] theorem setScLine_mm_konst (k : Nat) (l : ScLine) : (s.setScLine k l).mm.konst = s.mm.konst := rfl
@[simp] theorem setScLine_mm_tlb (k : Nat) (l : ScLine) : (s.setScLine k l).mm.tlb = s.mm.tlb := rfl
@[simp] theorem setScLine_mm_keys (k : Nat) (l : ScLine) : (s.setScLine k l).mm.keys = s.mm.keys := rfl
@[simp] theorem setScLine_mm_dies (k : Nat) (l : ScLine) : (s.setScLine k l).mm.dies = s.mm.dies := rfl
@[simp] theorem setScLine_mm_reqs (k : Nat) (l : ScLine) : (s.setScLine k l).mm.reqs = s.mm.reqs := rfl
@[simp] theorem setScLine_mm_accs (k : Nat) (l : ScLine) : (s.setScLine k l).mm.accs = s.mm.accs := rfl
@[simp] theorem setScLine_mm_items (k : Nat) (l : ScLine) : (s.setScLine k l).mm.items = s.mm.items := rfl
@[simp] theorem setScLine_mm_collapses (k : Nat) (l : ScLine) : (s.setScLine k l).mm.collapses = s.mm.collapses := rfl
@[simp] theorem setScLine_mm_engClkd (k : Nat) (l : ScLine) : (s.setScLine k l).mm.engClkd = s.mm.engClkd := rfl
@[simp] theorem setScLine_mm_nextId (k : Nat) (l : ScLine) : (s.setScLine k l).mm.nextId = s.mm.nextId := rfl
theorem setScLine_reads (k : Nat) (l : ScLine) (j : Nat) : (s.setScLine k l).scLine j = if j = k then l else s.scLine j := Sparse.get_put _ _ _ _
@[simp] theorem setScLine_reads_same (k : Nat) (l : ScLine) : (s.setScLine k l).scLine k = l := Sparse.get_put_same _ _ _

/-! ## setByte -/

@[simp] theorem setByte_now (a : Nat) (b : Byte) : (setByte s a b).now = s.now := rfl
@[simp] theorem setByte_tick (a : Nat) (b : Byte) : (setByte s a b).tick = s.tick := rfl
@[simp] theorem setByte_free (a : Nat) (b : Byte) : (setByte s a b).free = s.free := rfl
@[simp] theorem setByte_power (a : Nat) (b : Byte) : (setByte s a b).power = s.power := rfl
@[simp] theorem setByte_cfg (a : Nat) (b : Byte) : (setByte s a b).cfg = s.cfg := rfl
@[simp] theorem setByte_cur (a : Nat) (b : Byte) : (setByte s a b).cur = s.cur := rfl
@[simp] theorem setByte_lane (a : Nat) (b : Byte) : (setByte s a b).lane = s.lane := rfl
@[simp] theorem setByte_uni (a : Nat) (b : Byte) : (setByte s a b).uni = s.uni := rfl
@[simp] theorem setByte_core (a : Nat) (b : Byte) : (setByte s a b).core = s.core := rfl
@[simp] theorem setByte_task (a : Nat) (b : Byte) : (setByte s a b).task = s.task := rfl
@[simp] theorem setByte_eng (a : Nat) (b : Byte) : (setByte s a b).eng = s.eng := rfl
@[simp] theorem setByte_dev (a : Nat) (b : Byte) : (setByte s a b).dev = s.dev := rfl
@[simp] theorem setByte_agenda (a : Nat) (b : Byte) : (setByte s a b).agenda = s.agenda := rfl
@[simp] theorem setByte_mm_granKey (a : Nat) (b : Byte) : (setByte s a b).mm.granKey = s.mm.granKey := rfl
@[simp] theorem setByte_mm_poison (a : Nat) (b : Byte) : (setByte s a b).mm.poison = s.mm.poison := rfl
@[simp] theorem setByte_mm_sc (a : Nat) (b : Byte) : (setByte s a b).mm.sc = s.mm.sc := rfl
@[simp] theorem setByte_mm_vers (a : Nat) (b : Byte) : (setByte s a b).mm.vers = s.mm.vers := rfl
@[simp] theorem setByte_mm_verSeen (a : Nat) (b : Byte) : (setByte s a b).mm.verSeen = s.mm.verSeen := rfl
@[simp] theorem setByte_mm_l1 (a : Nat) (b : Byte) : (setByte s a b).mm.l1 = s.mm.l1 := rfl
@[simp] theorem setByte_mm_konst (a : Nat) (b : Byte) : (setByte s a b).mm.konst = s.mm.konst := rfl
@[simp] theorem setByte_mm_tlb (a : Nat) (b : Byte) : (setByte s a b).mm.tlb = s.mm.tlb := rfl
@[simp] theorem setByte_mm_keys (a : Nat) (b : Byte) : (setByte s a b).mm.keys = s.mm.keys := rfl
@[simp] theorem setByte_mm_dies (a : Nat) (b : Byte) : (setByte s a b).mm.dies = s.mm.dies := rfl
@[simp] theorem setByte_mm_reqs (a : Nat) (b : Byte) : (setByte s a b).mm.reqs = s.mm.reqs := rfl
@[simp] theorem setByte_mm_accs (a : Nat) (b : Byte) : (setByte s a b).mm.accs = s.mm.accs := rfl
@[simp] theorem setByte_mm_items (a : Nat) (b : Byte) : (setByte s a b).mm.items = s.mm.items := rfl
@[simp] theorem setByte_mm_collapses (a : Nat) (b : Byte) : (setByte s a b).mm.collapses = s.mm.collapses := rfl
@[simp] theorem setByte_mm_engClkd (a : Nat) (b : Byte) : (setByte s a b).mm.engClkd = s.mm.engClkd := rfl
@[simp] theorem setByte_mm_nextId (a : Nat) (b : Byte) : (setByte s a b).mm.nextId = s.mm.nextId := rfl

/-! ## setPoison -/

@[simp] theorem setPoison_now (a : Nat) (b : Bool) : (setPoison s a b).now = s.now := rfl
@[simp] theorem setPoison_tick (a : Nat) (b : Bool) : (setPoison s a b).tick = s.tick := rfl
@[simp] theorem setPoison_free (a : Nat) (b : Bool) : (setPoison s a b).free = s.free := rfl
@[simp] theorem setPoison_power (a : Nat) (b : Bool) : (setPoison s a b).power = s.power := rfl
@[simp] theorem setPoison_cfg (a : Nat) (b : Bool) : (setPoison s a b).cfg = s.cfg := rfl
@[simp] theorem setPoison_cur (a : Nat) (b : Bool) : (setPoison s a b).cur = s.cur := rfl
@[simp] theorem setPoison_lane (a : Nat) (b : Bool) : (setPoison s a b).lane = s.lane := rfl
@[simp] theorem setPoison_uni (a : Nat) (b : Bool) : (setPoison s a b).uni = s.uni := rfl
@[simp] theorem setPoison_core (a : Nat) (b : Bool) : (setPoison s a b).core = s.core := rfl
@[simp] theorem setPoison_task (a : Nat) (b : Bool) : (setPoison s a b).task = s.task := rfl
@[simp] theorem setPoison_eng (a : Nat) (b : Bool) : (setPoison s a b).eng = s.eng := rfl
@[simp] theorem setPoison_dev (a : Nat) (b : Bool) : (setPoison s a b).dev = s.dev := rfl
@[simp] theorem setPoison_agenda (a : Nat) (b : Bool) : (setPoison s a b).agenda = s.agenda := rfl
@[simp] theorem setPoison_mm_mem (a : Nat) (b : Bool) : (setPoison s a b).mm.mem = s.mm.mem := rfl
@[simp] theorem setPoison_mm_granKey (a : Nat) (b : Bool) : (setPoison s a b).mm.granKey = s.mm.granKey := rfl
@[simp] theorem setPoison_mm_sc (a : Nat) (b : Bool) : (setPoison s a b).mm.sc = s.mm.sc := rfl
@[simp] theorem setPoison_mm_vers (a : Nat) (b : Bool) : (setPoison s a b).mm.vers = s.mm.vers := rfl
@[simp] theorem setPoison_mm_verSeen (a : Nat) (b : Bool) : (setPoison s a b).mm.verSeen = s.mm.verSeen := rfl
@[simp] theorem setPoison_mm_l1 (a : Nat) (b : Bool) : (setPoison s a b).mm.l1 = s.mm.l1 := rfl
@[simp] theorem setPoison_mm_konst (a : Nat) (b : Bool) : (setPoison s a b).mm.konst = s.mm.konst := rfl
@[simp] theorem setPoison_mm_tlb (a : Nat) (b : Bool) : (setPoison s a b).mm.tlb = s.mm.tlb := rfl
@[simp] theorem setPoison_mm_keys (a : Nat) (b : Bool) : (setPoison s a b).mm.keys = s.mm.keys := rfl
@[simp] theorem setPoison_mm_dies (a : Nat) (b : Bool) : (setPoison s a b).mm.dies = s.mm.dies := rfl
@[simp] theorem setPoison_mm_reqs (a : Nat) (b : Bool) : (setPoison s a b).mm.reqs = s.mm.reqs := rfl
@[simp] theorem setPoison_mm_accs (a : Nat) (b : Bool) : (setPoison s a b).mm.accs = s.mm.accs := rfl
@[simp] theorem setPoison_mm_items (a : Nat) (b : Bool) : (setPoison s a b).mm.items = s.mm.items := rfl
@[simp] theorem setPoison_mm_collapses (a : Nat) (b : Bool) : (setPoison s a b).mm.collapses = s.mm.collapses := rfl
@[simp] theorem setPoison_mm_engClkd (a : Nat) (b : Bool) : (setPoison s a b).mm.engClkd = s.mm.engClkd := rfl
@[simp] theorem setPoison_mm_nextId (a : Nat) (b : Bool) : (setPoison s a b).mm.nextId = s.mm.nextId := rfl

/-! ## setVer -/

@[simp] theorem setVer_now (k : Nat) (v : VerLine) : (setVer s k v).now = s.now := rfl
@[simp] theorem setVer_tick (k : Nat) (v : VerLine) : (setVer s k v).tick = s.tick := rfl
@[simp] theorem setVer_free (k : Nat) (v : VerLine) : (setVer s k v).free = s.free := rfl
@[simp] theorem setVer_power (k : Nat) (v : VerLine) : (setVer s k v).power = s.power := rfl
@[simp] theorem setVer_cfg (k : Nat) (v : VerLine) : (setVer s k v).cfg = s.cfg := rfl
@[simp] theorem setVer_cur (k : Nat) (v : VerLine) : (setVer s k v).cur = s.cur := rfl
@[simp] theorem setVer_lane (k : Nat) (v : VerLine) : (setVer s k v).lane = s.lane := rfl
@[simp] theorem setVer_uni (k : Nat) (v : VerLine) : (setVer s k v).uni = s.uni := rfl
@[simp] theorem setVer_core (k : Nat) (v : VerLine) : (setVer s k v).core = s.core := rfl
@[simp] theorem setVer_task (k : Nat) (v : VerLine) : (setVer s k v).task = s.task := rfl
@[simp] theorem setVer_eng (k : Nat) (v : VerLine) : (setVer s k v).eng = s.eng := rfl
@[simp] theorem setVer_dev (k : Nat) (v : VerLine) : (setVer s k v).dev = s.dev := rfl
@[simp] theorem setVer_agenda (k : Nat) (v : VerLine) : (setVer s k v).agenda = s.agenda := rfl
@[simp] theorem setVer_mm_mem (k : Nat) (v : VerLine) : (setVer s k v).mm.mem = s.mm.mem := rfl
@[simp] theorem setVer_mm_granKey (k : Nat) (v : VerLine) : (setVer s k v).mm.granKey = s.mm.granKey := rfl
@[simp] theorem setVer_mm_poison (k : Nat) (v : VerLine) : (setVer s k v).mm.poison = s.mm.poison := rfl
@[simp] theorem setVer_mm_sc (k : Nat) (v : VerLine) : (setVer s k v).mm.sc = s.mm.sc := rfl
@[simp] theorem setVer_mm_verSeen (k : Nat) (v : VerLine) : (setVer s k v).mm.verSeen = s.mm.verSeen := rfl
@[simp] theorem setVer_mm_l1 (k : Nat) (v : VerLine) : (setVer s k v).mm.l1 = s.mm.l1 := rfl
@[simp] theorem setVer_mm_konst (k : Nat) (v : VerLine) : (setVer s k v).mm.konst = s.mm.konst := rfl
@[simp] theorem setVer_mm_tlb (k : Nat) (v : VerLine) : (setVer s k v).mm.tlb = s.mm.tlb := rfl
@[simp] theorem setVer_mm_keys (k : Nat) (v : VerLine) : (setVer s k v).mm.keys = s.mm.keys := rfl
@[simp] theorem setVer_mm_dies (k : Nat) (v : VerLine) : (setVer s k v).mm.dies = s.mm.dies := rfl
@[simp] theorem setVer_mm_reqs (k : Nat) (v : VerLine) : (setVer s k v).mm.reqs = s.mm.reqs := rfl
@[simp] theorem setVer_mm_accs (k : Nat) (v : VerLine) : (setVer s k v).mm.accs = s.mm.accs := rfl
@[simp] theorem setVer_mm_items (k : Nat) (v : VerLine) : (setVer s k v).mm.items = s.mm.items := rfl
@[simp] theorem setVer_mm_collapses (k : Nat) (v : VerLine) : (setVer s k v).mm.collapses = s.mm.collapses := rfl
@[simp] theorem setVer_mm_engClkd (k : Nat) (v : VerLine) : (setVer s k v).mm.engClkd = s.mm.engClkd := rfl
@[simp] theorem setVer_mm_nextId (k : Nat) (v : VerLine) : (setVer s k v).mm.nextId = s.mm.nextId := rfl

/-! ## setTlb -/

@[simp] theorem setTlb_now (k : Nat) (v : Tlb) : (setTlb s k v).now = s.now := rfl
@[simp] theorem setTlb_tick (k : Nat) (v : Tlb) : (setTlb s k v).tick = s.tick := rfl
@[simp] theorem setTlb_free (k : Nat) (v : Tlb) : (setTlb s k v).free = s.free := rfl
@[simp] theorem setTlb_power (k : Nat) (v : Tlb) : (setTlb s k v).power = s.power := rfl
@[simp] theorem setTlb_cfg (k : Nat) (v : Tlb) : (setTlb s k v).cfg = s.cfg := rfl
@[simp] theorem setTlb_cur (k : Nat) (v : Tlb) : (setTlb s k v).cur = s.cur := rfl
@[simp] theorem setTlb_lane (k : Nat) (v : Tlb) : (setTlb s k v).lane = s.lane := rfl
@[simp] theorem setTlb_uni (k : Nat) (v : Tlb) : (setTlb s k v).uni = s.uni := rfl
@[simp] theorem setTlb_core (k : Nat) (v : Tlb) : (setTlb s k v).core = s.core := rfl
@[simp] theorem setTlb_task (k : Nat) (v : Tlb) : (setTlb s k v).task = s.task := rfl
@[simp] theorem setTlb_eng (k : Nat) (v : Tlb) : (setTlb s k v).eng = s.eng := rfl
@[simp] theorem setTlb_dev (k : Nat) (v : Tlb) : (setTlb s k v).dev = s.dev := rfl
@[simp] theorem setTlb_agenda (k : Nat) (v : Tlb) : (setTlb s k v).agenda = s.agenda := rfl
@[simp] theorem setTlb_mm_mem (k : Nat) (v : Tlb) : (setTlb s k v).mm.mem = s.mm.mem := rfl
@[simp] theorem setTlb_mm_granKey (k : Nat) (v : Tlb) : (setTlb s k v).mm.granKey = s.mm.granKey := rfl
@[simp] theorem setTlb_mm_poison (k : Nat) (v : Tlb) : (setTlb s k v).mm.poison = s.mm.poison := rfl
@[simp] theorem setTlb_mm_sc (k : Nat) (v : Tlb) : (setTlb s k v).mm.sc = s.mm.sc := rfl
@[simp] theorem setTlb_mm_vers (k : Nat) (v : Tlb) : (setTlb s k v).mm.vers = s.mm.vers := rfl
@[simp] theorem setTlb_mm_verSeen (k : Nat) (v : Tlb) : (setTlb s k v).mm.verSeen = s.mm.verSeen := rfl
@[simp] theorem setTlb_mm_l1 (k : Nat) (v : Tlb) : (setTlb s k v).mm.l1 = s.mm.l1 := rfl
@[simp] theorem setTlb_mm_konst (k : Nat) (v : Tlb) : (setTlb s k v).mm.konst = s.mm.konst := rfl
@[simp] theorem setTlb_mm_keys (k : Nat) (v : Tlb) : (setTlb s k v).mm.keys = s.mm.keys := rfl
@[simp] theorem setTlb_mm_dies (k : Nat) (v : Tlb) : (setTlb s k v).mm.dies = s.mm.dies := rfl
@[simp] theorem setTlb_mm_reqs (k : Nat) (v : Tlb) : (setTlb s k v).mm.reqs = s.mm.reqs := rfl
@[simp] theorem setTlb_mm_accs (k : Nat) (v : Tlb) : (setTlb s k v).mm.accs = s.mm.accs := rfl
@[simp] theorem setTlb_mm_items (k : Nat) (v : Tlb) : (setTlb s k v).mm.items = s.mm.items := rfl
@[simp] theorem setTlb_mm_collapses (k : Nat) (v : Tlb) : (setTlb s k v).mm.collapses = s.mm.collapses := rfl
@[simp] theorem setTlb_mm_engClkd (k : Nat) (v : Tlb) : (setTlb s k v).mm.engClkd = s.mm.engClkd := rfl
@[simp] theorem setTlb_mm_nextId (k : Nat) (v : Tlb) : (setTlb s k v).mm.nextId = s.mm.nextId := rfl

/-! ## putReq -/

@[simp] theorem putReq_now (k : Nat) (v : Req) : (putReq s k v).now = s.now := rfl
@[simp] theorem putReq_tick (k : Nat) (v : Req) : (putReq s k v).tick = s.tick := rfl
@[simp] theorem putReq_free (k : Nat) (v : Req) : (putReq s k v).free = s.free := rfl
@[simp] theorem putReq_power (k : Nat) (v : Req) : (putReq s k v).power = s.power := rfl
@[simp] theorem putReq_cfg (k : Nat) (v : Req) : (putReq s k v).cfg = s.cfg := rfl
@[simp] theorem putReq_cur (k : Nat) (v : Req) : (putReq s k v).cur = s.cur := rfl
@[simp] theorem putReq_lane (k : Nat) (v : Req) : (putReq s k v).lane = s.lane := rfl
@[simp] theorem putReq_uni (k : Nat) (v : Req) : (putReq s k v).uni = s.uni := rfl
@[simp] theorem putReq_core (k : Nat) (v : Req) : (putReq s k v).core = s.core := rfl
@[simp] theorem putReq_task (k : Nat) (v : Req) : (putReq s k v).task = s.task := rfl
@[simp] theorem putReq_eng (k : Nat) (v : Req) : (putReq s k v).eng = s.eng := rfl
@[simp] theorem putReq_dev (k : Nat) (v : Req) : (putReq s k v).dev = s.dev := rfl
@[simp] theorem putReq_agenda (k : Nat) (v : Req) : (putReq s k v).agenda = s.agenda := rfl
@[simp] theorem putReq_mm_mem (k : Nat) (v : Req) : (putReq s k v).mm.mem = s.mm.mem := rfl
@[simp] theorem putReq_mm_granKey (k : Nat) (v : Req) : (putReq s k v).mm.granKey = s.mm.granKey := rfl
@[simp] theorem putReq_mm_poison (k : Nat) (v : Req) : (putReq s k v).mm.poison = s.mm.poison := rfl
@[simp] theorem putReq_mm_sc (k : Nat) (v : Req) : (putReq s k v).mm.sc = s.mm.sc := rfl
@[simp] theorem putReq_mm_vers (k : Nat) (v : Req) : (putReq s k v).mm.vers = s.mm.vers := rfl
@[simp] theorem putReq_mm_verSeen (k : Nat) (v : Req) : (putReq s k v).mm.verSeen = s.mm.verSeen := rfl
@[simp] theorem putReq_mm_l1 (k : Nat) (v : Req) : (putReq s k v).mm.l1 = s.mm.l1 := rfl
@[simp] theorem putReq_mm_konst (k : Nat) (v : Req) : (putReq s k v).mm.konst = s.mm.konst := rfl
@[simp] theorem putReq_mm_tlb (k : Nat) (v : Req) : (putReq s k v).mm.tlb = s.mm.tlb := rfl
@[simp] theorem putReq_mm_keys (k : Nat) (v : Req) : (putReq s k v).mm.keys = s.mm.keys := rfl
@[simp] theorem putReq_mm_dies (k : Nat) (v : Req) : (putReq s k v).mm.dies = s.mm.dies := rfl
@[simp] theorem putReq_mm_accs (k : Nat) (v : Req) : (putReq s k v).mm.accs = s.mm.accs := rfl
@[simp] theorem putReq_mm_items (k : Nat) (v : Req) : (putReq s k v).mm.items = s.mm.items := rfl
@[simp] theorem putReq_mm_collapses (k : Nat) (v : Req) : (putReq s k v).mm.collapses = s.mm.collapses := rfl
@[simp] theorem putReq_mm_engClkd (k : Nat) (v : Req) : (putReq s k v).mm.engClkd = s.mm.engClkd := rfl
@[simp] theorem putReq_mm_nextId (k : Nat) (v : Req) : (putReq s k v).mm.nextId = s.mm.nextId := rfl

/-! ## putAcc -/

@[simp] theorem putAcc_now (k : Nat) (v : Access) : (putAcc s k v).now = s.now := rfl
@[simp] theorem putAcc_tick (k : Nat) (v : Access) : (putAcc s k v).tick = s.tick := rfl
@[simp] theorem putAcc_free (k : Nat) (v : Access) : (putAcc s k v).free = s.free := rfl
@[simp] theorem putAcc_power (k : Nat) (v : Access) : (putAcc s k v).power = s.power := rfl
@[simp] theorem putAcc_cfg (k : Nat) (v : Access) : (putAcc s k v).cfg = s.cfg := rfl
@[simp] theorem putAcc_cur (k : Nat) (v : Access) : (putAcc s k v).cur = s.cur := rfl
@[simp] theorem putAcc_lane (k : Nat) (v : Access) : (putAcc s k v).lane = s.lane := rfl
@[simp] theorem putAcc_uni (k : Nat) (v : Access) : (putAcc s k v).uni = s.uni := rfl
@[simp] theorem putAcc_core (k : Nat) (v : Access) : (putAcc s k v).core = s.core := rfl
@[simp] theorem putAcc_task (k : Nat) (v : Access) : (putAcc s k v).task = s.task := rfl
@[simp] theorem putAcc_eng (k : Nat) (v : Access) : (putAcc s k v).eng = s.eng := rfl
@[simp] theorem putAcc_dev (k : Nat) (v : Access) : (putAcc s k v).dev = s.dev := rfl
@[simp] theorem putAcc_agenda (k : Nat) (v : Access) : (putAcc s k v).agenda = s.agenda := rfl
@[simp] theorem putAcc_mm_mem (k : Nat) (v : Access) : (putAcc s k v).mm.mem = s.mm.mem := rfl
@[simp] theorem putAcc_mm_granKey (k : Nat) (v : Access) : (putAcc s k v).mm.granKey = s.mm.granKey := rfl
@[simp] theorem putAcc_mm_poison (k : Nat) (v : Access) : (putAcc s k v).mm.poison = s.mm.poison := rfl
@[simp] theorem putAcc_mm_sc (k : Nat) (v : Access) : (putAcc s k v).mm.sc = s.mm.sc := rfl
@[simp] theorem putAcc_mm_vers (k : Nat) (v : Access) : (putAcc s k v).mm.vers = s.mm.vers := rfl
@[simp] theorem putAcc_mm_verSeen (k : Nat) (v : Access) : (putAcc s k v).mm.verSeen = s.mm.verSeen := rfl
@[simp] theorem putAcc_mm_l1 (k : Nat) (v : Access) : (putAcc s k v).mm.l1 = s.mm.l1 := rfl
@[simp] theorem putAcc_mm_konst (k : Nat) (v : Access) : (putAcc s k v).mm.konst = s.mm.konst := rfl
@[simp] theorem putAcc_mm_tlb (k : Nat) (v : Access) : (putAcc s k v).mm.tlb = s.mm.tlb := rfl
@[simp] theorem putAcc_mm_keys (k : Nat) (v : Access) : (putAcc s k v).mm.keys = s.mm.keys := rfl
@[simp] theorem putAcc_mm_dies (k : Nat) (v : Access) : (putAcc s k v).mm.dies = s.mm.dies := rfl
@[simp] theorem putAcc_mm_reqs (k : Nat) (v : Access) : (putAcc s k v).mm.reqs = s.mm.reqs := rfl
@[simp] theorem putAcc_mm_items (k : Nat) (v : Access) : (putAcc s k v).mm.items = s.mm.items := rfl
@[simp] theorem putAcc_mm_collapses (k : Nat) (v : Access) : (putAcc s k v).mm.collapses = s.mm.collapses := rfl
@[simp] theorem putAcc_mm_engClkd (k : Nat) (v : Access) : (putAcc s k v).mm.engClkd = s.mm.engClkd := rfl
@[simp] theorem putAcc_mm_nextId (k : Nat) (v : Access) : (putAcc s k v).mm.nextId = s.mm.nextId := rfl

/-! ## l1Put -/

@[simp] theorem l1Put_now (k : Nat) (v : List Byte) : (l1Put s k v).now = s.now := rfl
@[simp] theorem l1Put_tick (k : Nat) (v : List Byte) : (l1Put s k v).tick = s.tick := rfl
@[simp] theorem l1Put_free (k : Nat) (v : List Byte) : (l1Put s k v).free = s.free := rfl
@[simp] theorem l1Put_power (k : Nat) (v : List Byte) : (l1Put s k v).power = s.power := rfl
@[simp] theorem l1Put_cfg (k : Nat) (v : List Byte) : (l1Put s k v).cfg = s.cfg := rfl
@[simp] theorem l1Put_cur (k : Nat) (v : List Byte) : (l1Put s k v).cur = s.cur := rfl
@[simp] theorem l1Put_lane (k : Nat) (v : List Byte) : (l1Put s k v).lane = s.lane := rfl
@[simp] theorem l1Put_uni (k : Nat) (v : List Byte) : (l1Put s k v).uni = s.uni := rfl
@[simp] theorem l1Put_core (k : Nat) (v : List Byte) : (l1Put s k v).core = s.core := rfl
@[simp] theorem l1Put_task (k : Nat) (v : List Byte) : (l1Put s k v).task = s.task := rfl
@[simp] theorem l1Put_eng (k : Nat) (v : List Byte) : (l1Put s k v).eng = s.eng := rfl
@[simp] theorem l1Put_dev (k : Nat) (v : List Byte) : (l1Put s k v).dev = s.dev := rfl
@[simp] theorem l1Put_agenda (k : Nat) (v : List Byte) : (l1Put s k v).agenda = s.agenda := rfl
@[simp] theorem l1Put_mm_mem (k : Nat) (v : List Byte) : (l1Put s k v).mm.mem = s.mm.mem := rfl
@[simp] theorem l1Put_mm_granKey (k : Nat) (v : List Byte) : (l1Put s k v).mm.granKey = s.mm.granKey := rfl
@[simp] theorem l1Put_mm_poison (k : Nat) (v : List Byte) : (l1Put s k v).mm.poison = s.mm.poison := rfl
@[simp] theorem l1Put_mm_sc (k : Nat) (v : List Byte) : (l1Put s k v).mm.sc = s.mm.sc := rfl
@[simp] theorem l1Put_mm_vers (k : Nat) (v : List Byte) : (l1Put s k v).mm.vers = s.mm.vers := rfl
@[simp] theorem l1Put_mm_verSeen (k : Nat) (v : List Byte) : (l1Put s k v).mm.verSeen = s.mm.verSeen := rfl
@[simp] theorem l1Put_mm_konst (k : Nat) (v : List Byte) : (l1Put s k v).mm.konst = s.mm.konst := rfl
@[simp] theorem l1Put_mm_tlb (k : Nat) (v : List Byte) : (l1Put s k v).mm.tlb = s.mm.tlb := rfl
@[simp] theorem l1Put_mm_keys (k : Nat) (v : List Byte) : (l1Put s k v).mm.keys = s.mm.keys := rfl
@[simp] theorem l1Put_mm_dies (k : Nat) (v : List Byte) : (l1Put s k v).mm.dies = s.mm.dies := rfl
@[simp] theorem l1Put_mm_reqs (k : Nat) (v : List Byte) : (l1Put s k v).mm.reqs = s.mm.reqs := rfl
@[simp] theorem l1Put_mm_accs (k : Nat) (v : List Byte) : (l1Put s k v).mm.accs = s.mm.accs := rfl
@[simp] theorem l1Put_mm_items (k : Nat) (v : List Byte) : (l1Put s k v).mm.items = s.mm.items := rfl
@[simp] theorem l1Put_mm_collapses (k : Nat) (v : List Byte) : (l1Put s k v).mm.collapses = s.mm.collapses := rfl
@[simp] theorem l1Put_mm_engClkd (k : Nat) (v : List Byte) : (l1Put s k v).mm.engClkd = s.mm.engClkd := rfl
@[simp] theorem l1Put_mm_nextId (k : Nat) (v : List Byte) : (l1Put s k v).mm.nextId = s.mm.nextId := rfl

/-! ## setTileEnt -/

@[simp] theorem setTileEnt_now (k : Nat) (v : TileEnt) : (setTileEnt s k v).now = s.now := rfl
@[simp] theorem setTileEnt_tick (k : Nat) (v : TileEnt) : (setTileEnt s k v).tick = s.tick := rfl
@[simp] theorem setTileEnt_free (k : Nat) (v : TileEnt) : (setTileEnt s k v).free = s.free := rfl
@[simp] theorem setTileEnt_power (k : Nat) (v : TileEnt) : (setTileEnt s k v).power = s.power := rfl
@[simp] theorem setTileEnt_cfg (k : Nat) (v : TileEnt) : (setTileEnt s k v).cfg = s.cfg := rfl
@[simp] theorem setTileEnt_cur (k : Nat) (v : TileEnt) : (setTileEnt s k v).cur = s.cur := rfl
@[simp] theorem setTileEnt_lane (k : Nat) (v : TileEnt) : (setTileEnt s k v).lane = s.lane := rfl
@[simp] theorem setTileEnt_uni (k : Nat) (v : TileEnt) : (setTileEnt s k v).uni = s.uni := rfl
@[simp] theorem setTileEnt_core (k : Nat) (v : TileEnt) : (setTileEnt s k v).core = s.core := rfl
@[simp] theorem setTileEnt_mm (k : Nat) (v : TileEnt) : (setTileEnt s k v).mm = s.mm := rfl
@[simp] theorem setTileEnt_task (k : Nat) (v : TileEnt) : (setTileEnt s k v).task = s.task := rfl
@[simp] theorem setTileEnt_dev (k : Nat) (v : TileEnt) : (setTileEnt s k v).dev = s.dev := rfl
@[simp] theorem setTileEnt_agenda (k : Nat) (v : TileEnt) : (setTileEnt s k v).agenda = s.agenda := rfl
@[simp] theorem setTileEnt_eng_handles (k : Nat) (v : TileEnt) : (setTileEnt s k v).eng.handles = s.eng.handles := rfl
@[simp] theorem setTileEnt_eng_chans (k : Nat) (v : TileEnt) : (setTileEnt s k v).eng.chans = s.eng.chans := rfl
@[simp] theorem setTileEnt_eng_xfers (k : Nat) (v : TileEnt) : (setTileEnt s k v).eng.xfers = s.eng.xfers := rfl
@[simp] theorem setTileEnt_eng_stopped (k : Nat) (v : TileEnt) : (setTileEnt s k v).eng.stopped = s.eng.stopped := rfl
@[simp] theorem setTileEnt_eng_attqs (k : Nat) (v : TileEnt) : (setTileEnt s k v).eng.attqs = s.eng.attqs := rfl
@[simp] theorem setTileEnt_eng_contribs (k : Nat) (v : TileEnt) : (setTileEnt s k v).eng.contribs = s.eng.contribs := rfl
@[simp] theorem setTileEnt_eng_rounds (k : Nat) (v : TileEnt) : (setTileEnt s k v).eng.rounds = s.eng.rounds := rfl
@[simp] theorem setTileEnt_eng_dogs (k : Nat) (v : TileEnt) : (setTileEnt s k v).eng.dogs = s.eng.dogs := rfl
@[simp] theorem setTileEnt_eng_nextEng (k : Nat) (v : TileEnt) : (setTileEnt s k v).eng.nextEng = s.eng.nextEng := rfl

/-! ## setSession -/

@[simp] theorem setSession_now (k : Nat) (v : Session) : (setSession s k v).now = s.now := rfl
@[simp] theorem setSession_tick (k : Nat) (v : Session) : (setSession s k v).tick = s.tick := rfl
@[simp] theorem setSession_free (k : Nat) (v : Session) : (setSession s k v).free = s.free := rfl
@[simp] theorem setSession_power (k : Nat) (v : Session) : (setSession s k v).power = s.power := rfl
@[simp] theorem setSession_cfg (k : Nat) (v : Session) : (setSession s k v).cfg = s.cfg := rfl
@[simp] theorem setSession_cur (k : Nat) (v : Session) : (setSession s k v).cur = s.cur := rfl
@[simp] theorem setSession_lane (k : Nat) (v : Session) : (setSession s k v).lane = s.lane := rfl
@[simp] theorem setSession_uni (k : Nat) (v : Session) : (setSession s k v).uni = s.uni := rfl
@[simp] theorem setSession_core (k : Nat) (v : Session) : (setSession s k v).core = s.core := rfl
@[simp] theorem setSession_mm (k : Nat) (v : Session) : (setSession s k v).mm = s.mm := rfl
@[simp] theorem setSession_eng (k : Nat) (v : Session) : (setSession s k v).eng = s.eng := rfl
@[simp] theorem setSession_dev (k : Nat) (v : Session) : (setSession s k v).dev = s.dev := rfl
@[simp] theorem setSession_agenda (k : Nat) (v : Session) : (setSession s k v).agenda = s.agenda := rfl
@[simp] theorem setSession_task_nodes (k : Nat) (v : Session) : (setSession s k v).task.nodes = s.task.nodes := rfl
@[simp] theorem setSession_task_jobs (k : Nat) (v : Session) : (setSession s k v).task.jobs = s.task.jobs := rfl
@[simp] theorem setSession_task_grids (k : Nat) (v : Session) : (setSession s k v).task.grids = s.task.grids := rfl
@[simp] theorem setSession_task_decs (k : Nat) (v : Session) : (setSession s k v).task.decs = s.task.decs := rfl
@[simp] theorem setSession_task_streams (k : Nat) (v : Session) : (setSession s k v).task.streams = s.task.streams := rfl
@[simp] theorem setSession_task_queues (k : Nat) (v : Session) : (setSession s k v).task.queues = s.task.queues := rfl
@[simp] theorem setSession_task_spill (k : Nat) (v : Session) : (setSession s k v).task.spill = s.task.spill := rfl
@[simp] theorem setSession_task_arrived (k : Nat) (v : Session) : (setSession s k v).task.arrived = s.task.arrived := rfl
@[simp] theorem setSession_task_punnets (k : Nat) (v : Session) : (setSession s k v).task.punnets = s.task.punnets := rfl
@[simp] theorem setSession_task_rings (k : Nat) (v : Session) : (setSession s k v).task.rings = s.task.rings := rfl
@[simp] theorem setSession_task_backlog (k : Nat) (v : Session) : (setSession s k v).task.backlog = s.task.backlog := rfl
@[simp] theorem setSession_task_ops (k : Nat) (v : Session) : (setSession s k v).task.ops = s.task.ops := rfl
@[simp] theorem setSession_task_watches (k : Nat) (v : Session) : (setSession s k v).task.watches = s.task.watches := rfl
@[simp] theorem setSession_task_est (k : Nat) (v : Session) : (setSession s k v).task.est = s.task.est := rfl
@[simp] theorem setSession_task_mail (k : Nat) (v : Session) : (setSession s k v).task.mail = s.task.mail := rfl
@[simp] theorem setSession_task_shadow (k : Nat) (v : Session) : (setSession s k v).task.shadow = s.task.shadow := rfl
@[simp] theorem setSession_task_out (k : Nat) (v : Session) : (setSession s k v).task.out = s.task.out := rfl
@[simp] theorem setSession_task_nextJob (k : Nat) (v : Session) : (setSession s k v).task.nextJob = s.task.nextJob := rfl
@[simp] theorem setSession_task_nextGrid (k : Nat) (v : Session) : (setSession s k v).task.nextGrid = s.task.nextGrid := rfl
@[simp] theorem setSession_task_nextDec (k : Nat) (v : Session) : (setSession s k v).task.nextDec = s.task.nextDec := rfl
@[simp] theorem setSession_task_nextOp (k : Nat) (v : Session) : (setSession s k v).task.nextOp = s.task.nextOp := rfl
@[simp] theorem setSession_task_nextPlace (k : Nat) (v : Session) : (setSession s k v).task.nextPlace = s.task.nextPlace := rfl
@[simp] theorem setSession_task_serial (k : Nat) (v : Session) : (setSession s k v).task.serial = s.task.serial := rfl
@[simp] theorem setSession_task_back (k : Nat) (v : Session) : (setSession s k v).task.back = s.task.back := rfl
@[simp] theorem setSession_task_front (k : Nat) (v : Session) : (setSession s k v).task.front = s.task.front := rfl

/-! ## markDone -/

@[simp] theorem markDone_now  : (markDone s).now = s.now := rfl
@[simp] theorem markDone_tick  : (markDone s).tick = s.tick := rfl
@[simp] theorem markDone_free  : (markDone s).free = s.free := rfl
@[simp] theorem markDone_power  : (markDone s).power = s.power := rfl
@[simp] theorem markDone_cfg  : (markDone s).cfg = s.cfg := rfl
@[simp] theorem markDone_lane  : (markDone s).lane = s.lane := rfl
@[simp] theorem markDone_uni  : (markDone s).uni = s.uni := rfl
@[simp] theorem markDone_core  : (markDone s).core = s.core := rfl
@[simp] theorem markDone_mm  : (markDone s).mm = s.mm := rfl
@[simp] theorem markDone_task  : (markDone s).task = s.task := rfl
@[simp] theorem markDone_eng  : (markDone s).eng = s.eng := rfl
@[simp] theorem markDone_dev  : (markDone s).dev = s.dev := rfl
@[simp] theorem markDone_agenda  : (markDone s).agenda = s.agenda := rfl

/-! ## Readers of several keys -/

theorem setSregOf_reads (g r : Nat) (v : DWord) (h q : Nat) :
    (s.setSregOf g r v).sregOf h q = if h * 64 + q = g * 64 + r then v else s.sregOf h q := Sparse.get_put _ _ _ _
@[simp] theorem setSregOf_reads_same (g r : Nat) (v : DWord) : (s.setSregOf g r v).sregOf g r = v := Sparse.get_put_same _ _ _
theorem setLaneReg_empty (k : Nat) (v : Word) (j : Nat) :
    (s.setLaneReg k v).isEmpty j = if j = k then false else s.isEmpty j := Sparse.get_put s.lane.empty k j false
theorem setByte_reads (a : Nat) (b : Byte) (j : Nat) :
    Sparse.get (setByte s a b).mm.mem j = if j = a then b else Sparse.get s.mm.mem j := Sparse.get_put _ _ _ _

/-! ## Accessors of the issuing entry see only `cur` and `uni` -/

theorem updEnt_eq (k : Nat) (f : Entry → Entry) : s.updEnt k f = s.setEnt k (f (s.ent k)) := rfl
theorem updGroup_eq (k : Nat) (f : Group → Group) : s.updGroup k f = s.setGroup k (f (s.group k)) := rfl
theorem updCur_eq (f : Entry → Entry) : updCur s f = s.setEnt (curEk s) (f (curEntry s)) := rfl
@[simp] theorem setEnt_group (k : Nat) (e : Entry) (j : Nat) : (s.setEnt k e).group j = s.group j := rfl
@[simp] theorem setGroup_ent (k : Nat) (g : Group) (j : Nat) : (s.setGroup k g).ent j = s.ent j := rfl
@[simp] theorem setSregOf_ent (g r : Nat) (v : DWord) (j : Nat) : (s.setSregOf g r v).ent j = s.ent j := rfl
@[simp] theorem setSregOf_group (g r : Nat) (v : DWord) (j : Nat) : (s.setSregOf g r v).group j = s.group j := rfl
@[simp] theorem setLaneReg_ent (k : Nat) (v : Word) (j : Nat) : (s.setLaneReg k v).ent j = s.ent j := rfl
@[simp] theorem setLaneReg_group (k : Nat) (v : Word) (j : Nat) : (s.setLaneReg k v).group j = s.group j := rfl

end Sys2Proof.Machine
end

