-- ==== Sys2Proof/Laws/Lane.lean ====
section
/-! SUPPORT. What the shared lane operations do: where registers lie, what writing a group of registers leaves, and
the one outcome of a lane instruction that is ready. -/
namespace Sys2Proof.Machine

variable {s t : State}

/-! ## Where a lane register lies -/

theorem handlerBase_le (d : Nat) : handlerBase d ≤ 448 := by unfold handlerBase; omega

theorem windowBase_le (s : State) : windowBase s ≤ 448 := by
  unfold windowBase funcWb
  split
  · exact handlerBase_le _
  · omega

theorem belowBase_le (s : State) : belowBase s ≤ 448 := by
  unfold belowBase
  split
  · have := (curGroup s).wb.isLt
    omega
  · exact handlerBase_le _

theorem aliasLoc_fibre {l b o k : Nat} (h : aliasLoc s l b o = .reg k) : k / 512 = fibKey (curGk s) l := by
  unfold aliasLoc at h
  split at h
  · cases h
  · rename_i hc
    simp only [Bool.or_eq_true, decide_eq_true_eq, not_or, Nat.not_lt] at hc
    have hb := belowBase_le s
    injection h with h
    subst h
    unfold regKey
    omega

/-- A register of a lane lies in that lane's fibre. -/
theorem locate_fibre {l r k : Nat} (hr : r < 64) (h : locate s l r = .reg k) : k / 512 = fibKey (curGk s) l := by
  unfold locate at h
  have hw := windowBase_le s
  split at h
  · simp only at h
    split at h
    · exact aliasLoc_fibre h
    split at h
    · exact aliasLoc_fibre h
    split at h
    · exact aliasLoc_fibre h
    split at h <;> cases h
  · injection h with h
    subst h
    unfold regKey
    omega

theorem fibKey_inj {g l l' : Nat} (h : fibKey g l = fibKey g l') : l = l' := by unfold fibKey at h; omega

/-! ## One write -/

@[simp] theorem wrV_uni (s : State) (l r : Nat) (v : Word) : (wrV s l r v).uni = s.uni := by
  unfold wrV; split
  · rfl
  · rfl
  · split <;> rfl
@[simp] theorem wrV_cur (s : State) (l r : Nat) (v : Word) : (wrV s l r v).cur = s.cur := by
  unfold wrV; split
  · rfl
  · rfl
  · split <;> rfl

theorem locate_congr (hu : t.uni = s.uni) (hc : t.cur = s.cur) (l r : Nat) : locate t l r = locate s l r := by
  unfold locate inEmul inHandler aliasLoc windowBase belowBase rdS curFunc funcReg rdS curGroup curGk curJ State.group
    State.sregOf inHandler curGroup curGk curJ State.group
  rw [hu, hc]

/-- A list of writes, each a lane, a register number and a word. -/
def applyWrites (s : State) (ws : List (Nat × Nat × Word)) : State := ws.foldl (fun t w => wrV t w.1 w.2.1 w.2.2) s

theorem applyWrites_append (s : State) (a b : List (Nat × Nat × Word)) :
    applyWrites s (a ++ b) = applyWrites (applyWrites s a) b := List.foldl_append ..
theorem applyWrites_cons (s : State) (w : Nat × Nat × Word) (b : List (Nat × Nat × Word)) :
    applyWrites s (w :: b) = applyWrites (wrV s w.1 w.2.1 w.2.2) b := rfl

/-- What no write touches. -/
structure SameButLanes (s t : State) : Prop where
  uni : t.uni = s.uni
  cur : t.cur = s.cur
  kept : Kept s t
  out : t.lane.out = s.lane.out
  parked : t.lane.parked = s.lane.parked

theorem Kept.refl (s : State) : Kept s s := ⟨rfl, rfl, fun _ => rfl, rfl, rfl, rfl, rfl, rfl, rfl, rfl, rfl, rfl⟩
theorem Kept.trans {a b c : State} (h : Kept a b) (k : Kept b c) : Kept a c :=
  ⟨k.core.trans h.core, k.mm.trans h.mm, fun x => (k.bytes x).trans (h.bytes x), k.task.trans h.task, k.eng.trans h.eng,
   k.dev.trans h.dev, k.agenda.trans h.agenda, k.power.trans h.power, k.now.trans h.now, k.tick.trans h.tick,
   k.free.trans h.free, k.cfg.trans h.cfg⟩

theorem SameButLanes.trans {a b c : State} (h : SameButLanes a b) (k : SameButLanes b c) : SameButLanes a c :=
  ⟨k.uni.trans h.uni, k.cur.trans h.cur, h.kept.trans k.kept, k.out.trans h.out, k.parked.trans h.parked⟩

theorem wrV_same (s : State) (l r : Nat) (v : Word) : SameButLanes s (wrV s l r v) := by
  unfold wrV
  split
  · exact ⟨rfl, rfl, ⟨rfl, rfl, fun _ => rfl, rfl, rfl, rfl, rfl, rfl, rfl, rfl, rfl, rfl⟩, rfl, rfl⟩
  · exact ⟨rfl, rfl, Kept.refl s, rfl, rfl⟩
  · split <;> exact ⟨rfl, rfl, ⟨rfl, rfl, fun _ => rfl, rfl, rfl, rfl, rfl, rfl, rfl, rfl, rfl, rfl⟩, rfl, rfl⟩

theorem applyWrites_same (s : State) (ws : List (Nat × Nat × Word)) : SameButLanes s (applyWrites s ws) := by
  induction ws generalizing s with
  | nil => exact ⟨rfl, rfl, Kept.refl s, rfl, rfl⟩
  | cons w ws ih => exact (wrV_same s w.1 w.2.1 w.2.2).trans (ih _)

theorem locate_applyWrites (s : State) (ws : List (Nat × Nat × Word)) (l r : Nat) :
    locate (applyWrites s ws) l r = locate s l r :=
  locate_congr (applyWrites_same s ws).uni (applyWrites_same s ws).cur l r

theorem wrV_reg {l r k : Nat} (v : Word) (h : locate s l r = .reg k) : wrV s l r v = s.setLaneReg k v := by
  unfold wrV; rw [h]

theorem wrV_notReg {l r k : Nat} (v : Word) (h : locate s l r ≠ .reg k) :
    (wrV s l r v).laneReg k = s.laneReg k ∧ (wrV s l r v).isEmpty k = s.isEmpty k := by
  unfold wrV
  split
  · rename_i j hj
    have hne : k ≠ j := fun e => h (e ▸ hj)
    rw [setLaneReg_reads, setLaneReg_empty, if_neg hne, if_neg hne]
    exact ⟨rfl, rfl⟩
  · exact ⟨rfl, rfl⟩
  · split <;> exact ⟨rfl, rfl⟩

/-- A register that no write names is kept. -/
theorem applyWrites_other (s : State) (ws : List (Nat × Nat × Word)) (k : Nat)
    (h : ∀ w ∈ ws, locate s w.1 w.2.1 ≠ .reg k) :
    (applyWrites s ws).laneReg k = s.laneReg k ∧ (applyWrites s ws).isEmpty k = s.isEmpty k := by
  induction ws generalizing s with
  | nil => exact ⟨rfl, rfl⟩
  | cons w ws ih =>
    have h0 := wrV_notReg w.2.2 (h w (by simp))
    have hl : ∀ l r, locate (wrV s w.1 w.2.1 w.2.2) l r = locate s l r := locate_congr (wrV_uni ..) (wrV_cur ..)
    have h1 := ih (wrV s w.1 w.2.1 w.2.2) (fun x hx => by rw [hl]; exact h x (by simp [hx]))
    exact ⟨h1.1.trans h0.1, h1.2.trans h0.2⟩

/-- The last write that names a register stands, and leaves it full. -/
theorem applyWrites_last (s : State) (a b : List (Nat × Nat × Word)) (w : Nat × Nat × Word) (k : Nat)
    (hw : locate s w.1 w.2.1 = .reg k) (hb : ∀ x ∈ b, locate s x.1 x.2.1 ≠ .reg k) :
    (applyWrites s (a ++ w :: b)).laneReg k = w.2.2 ∧ (applyWrites s (a ++ w :: b)).isEmpty k = false := by
  rw [applyWrites_append, applyWrites_cons]
  have hl : ∀ l r, locate (wrV (applyWrites s a) w.1 w.2.1 w.2.2) l r = locate s l r := fun l r => by
    rw [locate_congr (wrV_uni ..) (wrV_cur ..), locate_applyWrites]
  have h := applyWrites_other _ b k (fun x hx => by rw [hl]; exact hb x hx)
  have hw' : locate (applyWrites s a) w.1 w.2.1 = .reg k := by rw [locate_applyWrites]; exact hw
  rw [h.1, h.2, wrV_reg _ hw']
  exact ⟨by rw [setLaneReg_reads, if_pos rfl], by rw [setLaneReg_empty, if_pos rfl]⟩

/-! ## Predicates through alias 60 (R281) -/

theorem wrV_preds {l r : Nat} (v : Word) (h : locate s l r = .preds) :
    if (curGroup s).depth = 1 then
      (∀ fk, (wrV s l r v).lane.predSh.get fk = if fk = fibKey (curGk s) l then BitVec.ofNat 8 v.toNat &&& 0xFE else s.lane.predSh.get fk)
        ∧ ∀ fk, (wrV s l r v).lane.pred.get fk = s.lane.pred.get fk
    else
      (∀ fk, (wrV s l r v).lane.pred.get fk = if fk = fibKey (curGk s) l then BitVec.ofNat 8 v.toNat &&& 0xFE else s.lane.pred.get fk)
        ∧ ∀ fk, (wrV s l r v).lane.predSh.get fk = s.lane.predSh.get fk := by
  unfold wrV
  rw [h]
  by_cases hd : (curGroup s).depth = 1
  · rw [if_pos hd]
    simp only [if_pos hd]
    exact ⟨fun fk => Sparse.get_put _ _ _ _, fun _ => trivial⟩
  · rw [if_neg hd]
    simp only [if_neg hd]
    exact ⟨fun fk => Sparse.get_put _ _ _ _, fun _ => rfl⟩

theorem wrV_notPreds {l r : Nat} (v : Word) (h : locate s l r ≠ .preds) :
    (wrV s l r v).lane.pred = s.lane.pred ∧ (wrV s l r v).lane.predSh = s.lane.predSh := by
  unfold wrV
  split
  · exact ⟨rfl, rfl⟩
  · exact ⟨rfl, rfl⟩
  · contradiction

theorem curGroup_congr (hu : t.uni = s.uni) (hc : t.cur = s.cur) : curGroup t = curGroup s := by
  unfold curGroup curGk State.group; rw [hu, hc]
theorem curGk_congr (hc : t.cur = s.cur) : curGk t = curGk s := by unfold curGk; rw [hc]

theorem applyWrites_predOther (s : State) (ws : List (Nat × Nat × Word)) (fk : Nat)
    (h : ∀ w ∈ ws, locate s w.1 w.2.1 = .preds → fk ≠ fibKey (curGk s) w.1) :
    (applyWrites s ws).lane.pred.get fk = s.lane.pred.get fk
      ∧ (applyWrites s ws).lane.predSh.get fk = s.lane.predSh.get fk := by
  induction ws generalizing s with
  | nil => exact ⟨rfl, rfl⟩
  | cons w ws ih =>
    have hl : ∀ l r, locate (wrV s w.1 w.2.1 w.2.2) l r = locate s l r := locate_congr (wrV_uni ..) (wrV_cur ..)
    have h1 := ih (wrV s w.1 w.2.1 w.2.2) (fun x hx hp => by
      rw [curGk_congr (wrV_cur ..)]; exact h x (by simp [hx]) (by rw [← hl]; exact hp))
    rw [applyWrites_cons, h1.1, h1.2]
    by_cases hp : locate s w.1 w.2.1 = .preds
    · have hf := h w (by simp) hp
      have hw := wrV_preds w.2.2 hp
      split at hw
      · exact ⟨hw.2 fk, by rw [hw.1 fk, if_neg hf]⟩
      · exact ⟨by rw [hw.1 fk, if_neg hf], hw.2 fk⟩
    · rw [(wrV_notPreds w.2.2 hp).1, (wrV_notPreds w.2.2 hp).2]; exact ⟨rfl, rfl⟩

theorem applyWrites_predLast (s : State) (a b : List (Nat × Nat × Word)) (w : Nat × Nat × Word)
    (hw : locate s w.1 w.2.1 = .preds)
    (hb : ∀ x ∈ b, locate s x.1 x.2.1 = .preds → fibKey (curGk s) w.1 ≠ fibKey (curGk s) x.1) :
    if (curGroup s).depth = 1 then
      (applyWrites s (a ++ w :: b)).lane.predSh.get (fibKey (curGk s) w.1) = BitVec.ofNat 8 w.2.2.toNat &&& 0xFE
    else (applyWrites s (a ++ w :: b)).lane.pred.get (fibKey (curGk s) w.1) = BitVec.ofNat 8 w.2.2.toNat &&& 0xFE := by
  have hs := applyWrites_same s a
  have hg : curGroup (applyWrites s a) = curGroup s := curGroup_congr hs.uni hs.cur
  have hk : curGk (applyWrites s a) = curGk s := curGk_congr hs.cur
  have hw' : locate (applyWrites s a) w.1 w.2.1 = .preds := by rw [locate_applyWrites]; exact hw
  have hl : ∀ l r, locate (wrV (applyWrites s a) w.1 w.2.1 w.2.2) l r = locate s l r := fun l r => by
    rw [locate_congr (wrV_uni ..) (wrV_cur ..), locate_applyWrites]
  have ho := applyWrites_predOther (wrV (applyWrites s a) w.1 w.2.1 w.2.2) b (fibKey (curGk s) w.1) (fun x hx hp => by
    rw [curGk_congr (wrV_cur ..), hk]; exact hb x hx (by rw [← hl]; exact hp))
  have hp := wrV_preds w.2.2 hw'
  rw [applyWrites_append, applyWrites_cons, ho.1, ho.2]
  rw [hg, hk] at hp
  split at hp
  · rename_i hd; rw [if_pos hd, hp.1, if_pos rfl]
  · rename_i hd; rw [if_neg hd, hp.1, if_pos rfl]

/-! ## Groups of registers in several lanes -/

/-- The writes of one lane's group. -/
def groupWrites (l r : Nat) : List Word → List (Nat × Nat × Word)
  | [] => []
  | v :: vs => (l, r, v) :: groupWrites l (r + 1) vs

theorem writeGroup_eq (s : State) (l r : Nat) (vs : List Word) : writeGroup s l r vs = applyWrites s (groupWrites l r vs) := by
  induction vs generalizing s r with
  | nil => rfl
  | cons v vs ih => exact ih _ _

theorem writeLanes_eq (s : State) (d : Nat) (ls : List (Nat × List Word)) :
    writeLanes s d ls = applyWrites s (ls.flatMap fun p => groupWrites p.1 d p.2) := by
  induction ls generalizing s with
  | nil => rfl
  | cons p ls ih =>
    obtain ⟨l, vs⟩ := p
    rw [List.flatMap_cons, applyWrites_append, ← writeGroup_eq]
    exact ih _

theorem mem_groupWrites {l r : Nat} {vs : List Word} {w : Nat × Nat × Word} :
    w ∈ groupWrites l r vs ↔ ∃ i, i < vs.length ∧ w = (l, r + i, vs.getD i 0) := by
  induction vs generalizing r with
  | nil => simp [groupWrites]
  | cons v vs ih =>
    simp only [groupWrites, List.mem_cons, ih, List.length_cons]
    constructor
    · rintro (rfl | ⟨i, hi, rfl⟩)
      · exact ⟨0, by omega, by simp⟩
      · exact ⟨i + 1, by omega, by simp [Nat.add_comm, Nat.add_left_comm]⟩
    · rintro ⟨i, hi, rfl⟩
      cases i with
      | zero => left; simp
      | succ i => right; exact ⟨i, by omega, by simp [Nat.add_comm, Nat.add_left_comm]⟩

theorem groupWrites_split {l r : Nat} {vs : List Word} {i : Nat} (hi : i < vs.length) :
    ∃ a b, groupWrites l r vs = a ++ (l, r + i, vs.getD i 0) :: b
      ∧ ∀ w ∈ b, ∃ j, i < j ∧ j < vs.length ∧ w = (l, r + j, vs.getD j 0) := by
  induction vs generalizing r i with
  | nil => simp at hi
  | cons v vs ih =>
    cases i with
    | zero =>
      refine ⟨[], groupWrites l (r + 1) vs, by simp [groupWrites], ?_⟩
      intro w hw
      obtain ⟨j, hj, rfl⟩ := mem_groupWrites.1 hw
      exact ⟨j + 1, by omega, by simpa using hj, by simp [Nat.add_comm, Nat.add_left_comm]⟩
    | succ i =>
      obtain ⟨a, b, hab, hb⟩ := ih (r := r + 1) (i := i) (by simpa using hi)
      refine ⟨(l, r, v) :: a, b, by simp [groupWrites, hab, Nat.add_comm, Nat.add_left_comm], ?_⟩
      intro w hw
      obtain ⟨j, hj, hj', rfl⟩ := hb w hw
      exact ⟨j + 1, by omega, by simpa using hj', by simp [Nat.add_comm, Nat.add_left_comm]⟩

/-- Writing a group of k registers in each of several different lanes does what `LaneWrote` says. -/
theorem writeLanes_wrote (s : State) (lanes : List Nat) (d k : Nat) (f : Nat → List Word) (hn : lanes.Nodup)
    (hd : d + k ≤ 64) (hf : ∀ l, (f l).length = k) :
    LaneWrote s (writeLanes s d (lanes.map fun l => (l, f l))) lanes d k f := by
  have he : writeLanes s d (lanes.map fun l => (l, f l)) = applyWrites s (lanes.flatMap fun l => groupWrites l d (f l)) := by
    rw [writeLanes_eq, List.flatMap_map]
  have hmem : ∀ (ls : List Nat) w, w ∈ ls.flatMap (fun l => groupWrites l d (f l)) →
      ∃ l ∈ ls, ∃ i, i < k ∧ w = (l, d + i, (f l).getD i 0) := by
    intro ls w hw
    obtain ⟨l, hl, hw⟩ := List.mem_flatMap.1 hw
    obtain ⟨i, hi, rfl⟩ := mem_groupWrites.1 hw
    exact ⟨l, hl, i, hf l ▸ hi, rfl⟩
  have hsplit : ∀ l ∈ lanes, ∀ i, i < k → ∃ a b, (lanes.flatMap fun l => groupWrites l d (f l)) = a ++ (l, d + i, (f l).getD i 0) :: b
      ∧ ∀ w ∈ b, (∃ j, i < j ∧ j < k ∧ w = (l, d + j, (f l).getD j 0)) ∨ (∃ l' j, l' ≠ l ∧ j < k ∧ w = (l', d + j, (f l').getD j 0)) := by
    intro l hl i hi
    obtain ⟨x, y, rfl⟩ := List.append_of_mem hl
    obtain ⟨a, b, hab, hb⟩ := groupWrites_split (l := l) (r := d) (vs := f l) (i := i) (by rw [hf]; exact hi)
    refine ⟨x.flatMap (fun l => groupWrites l d (f l)) ++ a, b ++ y.flatMap (fun l => groupWrites l d (f l)), by simp [List.flatMap_append, hab], ?_⟩
    intro w hw
    rcases List.mem_append.1 hw with hw | hw
    · obtain ⟨j, h1, h2, rfl⟩ := hb w hw
      exact .inl ⟨j, h1, by rwa [hf] at h2, rfl⟩
    · obtain ⟨l', hl', j, hj, rfl⟩ := hmem y w hw
      refine .inr ⟨l', j, ?_, hj, rfl⟩
      rintro rfl
      rw [List.nodup_append] at hn
      have := (List.nodup_cons.1 hn.2.1).1
      exact this hl'
  have hs := applyWrites_same s (lanes.flatMap fun l => groupWrites l d (f l))
  constructor
  · intro l hl i hi r hr hlast
    obtain ⟨a, b, hab, hb⟩ := hsplit l hl i hi
    rw [he, hab]
    refine applyWrites_last s a b (l, d + i, (f l).getD i 0) r hr ?_
    intro w hw
    rcases hb w hw with ⟨j, h1, h2, rfl⟩ | ⟨l', j, hne, hj, rfl⟩
    · exact hlast j h1 h2
    · intro h'
      have e1 := locate_fibre (by omega : d + i < 64) hr
      have e2 := locate_fibre (by show d + j < 64; omega) h'
      exact hne (fibKey_inj (e2.symm.trans e1))
  · intro r hr
    rw [he]
    refine applyWrites_other s _ r ?_
    intro w hw
    obtain ⟨l, hl, i, hi, rfl⟩ := hmem _ _ hw
    exact hr l hl i hi
  · intro l hl i hi hp
    obtain ⟨a, b, hab, hb⟩ := hsplit l hl i hi
    rw [he, hab]
    refine applyWrites_predLast s a b (l, d + i, (f l).getD i 0) hp ?_
    intro w hw hpw
    rcases hb w hw with ⟨j, h1, h2, rfl⟩ | ⟨l', j, hne, hj, rfl⟩
    · exfalso
      have u1 := locate_preds hp
      have u2 := locate_preds hpw
      simp only at u2
      omega
    · exact fun e => hne (fibKey_inj e).symm
  · intro fk hfk
    rw [he]
    refine applyWrites_predOther s _ fk ?_
    intro w hw hpw
    obtain ⟨l, hl, i, hi, rfl⟩ := hmem _ _ hw
    exact hfk l hl i hi hpw
  · rw [he]; exact hs.out
  · rw [he]; exact hs.parked
where
  locate_preds {l r : Nat} (h : locate s l r = .preds) : r = 60 := by
    unfold locate at h
    split at h
    · simp only at h
      split at h
      · unfold aliasLoc at h; split at h <;> cases h
      split at h
      · unfold aliasLoc at h; split at h <;> cases h
      split at h
      · unfold aliasLoc at h; split at h <;> cases h
      split at h
      · rename_i h60; exact h60
      · cases h
    · cases h

/-! ## Moving on -/

theorem advance_moved (s : State) : MovedOn s (advance s) := by
  constructor
  · intro k
    unfold advance movedOn
    split <;> exact Sparse.get_put _ _ _ _
  · unfold advance
    split <;> rfl

theorem advance_kept (s : State) : Kept s (advance s) := by
  unfold advance
  split <;> exact ⟨rfl, rfl, fun _ => rfl, rfl, rfl, rfl, rfl, rfl, rfl, rfl, rfl, rfl⟩

theorem advance_uniform (s : State) : UniformKept s (advance s) := by
  unfold advance
  split <;> exact ⟨rfl, rfl, rfl, rfl⟩

@[simp] theorem advance_lane (s : State) : (advance s).lane = s.lane := by
  unfold advance
  split <;> rfl

theorem movedOn_congr {s t : State} (hu : t.uni = s.uni) (hc : t.cur = s.cur) : movedOn t = movedOn s := by
  unfold movedOn curEntry curEk State.ent; rw [hu, hc]

/-- What `advance` does after an operation that leaves the issuing entry's own view alone. -/
theorem MovedOn.of_congr {s u t : State} (hu : u.uni = s.uni) (hc : u.cur = s.cur) (h : MovedOn u t) : MovedOn s t := by
  constructor
  · intro k
    rw [h.ents k, movedOn_congr hu hc]
    unfold curEk State.ent
    rw [hu, hc]
  · rw [h.cur, hc]

theorem UniformKept.of_eq {s u t : State} (hu : u.uni = s.uni) (h : UniformKept u t) : UniformKept s t :=
  ⟨by rw [h.sreg, hu], by rw [h.sout, hu], by rw [h.groups, hu], by rw [h.slots, hu]⟩

/-- Lane writes, then moving on. -/
theorem writeThenAdvance (s : State) (ws : List (Nat × Nat × Word)) : LaneOnly s (advance (applyWrites s ws)) := by
  have h := applyWrites_same s ws
  exact ⟨MovedOn.of_congr h.uni h.cur (advance_moved _), h.kept.trans (advance_kept _), UniformKept.of_eq h.uni (advance_uniform _)⟩

/-! ## A lane instruction that is ready -/

theorem activeLanes_nodup (s : State) (p : Nat) : (activeLanes s p).Nodup := by
  unfold activeLanes maskList
  exact (List.nodup_range.filter _).filter _

theorem Decodes.cause {i : Instr} {n : Nat} (h : Decodes s i n) : decodeCause s i n = none := by
  unfold decodeCause; rw [h.features, h.reserved, h.unused]; rfl

theorem laneWord_ready {i : Instr} {p : BitVec 3} (act : List Nat → State) (ha : activeLanes s p.toNat ≠ [])
    (hd : Decodes s i 0) : laneWord s i p act = act (activeLanes s p.toNat) := by
  unfold laneWord
  simp only [List.isEmpty_iff, ha, if_false, hd.cause]

theorem withSources_ready {srcs dsts : List Src} (act : State)
    (hs : ∀ x ∈ srcs, isEmptyLoc s (locate s x.lane x.r) = false) (hd : ∀ x ∈ dsts, dstWaits s x = false) :
    withSources s srcs dsts act = act := by
  have h1 : (srcs.filter fun x => isEmptyLoc s (locate s x.lane x.r)) = [] := by
    rw [List.filter_eq_nil_iff]; intro x hx; simp [hs x hx]
  have h2 : (dsts.filter (dstWaits s ·)) = [] := by
    rw [List.filter_eq_nil_iff]; intro x hx; simp [hd x hx]
  unfold withSources
  simp [h1, h2]

theorem mem_fieldSrcs {lanes : List Nat} {fs : List Field} {x : Src} (h : x ∈ fieldSrcs lanes fs) :
    ∃ l ∈ lanes, ∃ f ∈ fs, ∃ i, i < f.k ∧ x = ⟨l, f.r + i, f.trap⟩ := by
  unfold fieldSrcs at h
  obtain ⟨l, hl, h⟩ := List.mem_flatMap.1 h
  obtain ⟨f, hf, h⟩ := List.mem_flatMap.1 h
  obtain ⟨i, hi, rfl⟩ := List.mem_map.1 h
  exact ⟨l, hl, f, hf, i, List.mem_range.1 hi, rfl⟩

theorem fieldSrcs_full {lanes : List Nat} {fs : List Field} (h : SourcesFull s lanes fs) :
    ∀ x ∈ fieldSrcs lanes fs, isEmptyLoc s (locate s x.lane x.r) = false := by
  intro x hx
  obtain ⟨l, hl, f, hf, i, hi, rfl⟩ := mem_fieldSrcs hx
  exact h l hl f hf i hi

theorem fieldSrcs_free {lanes : List Nat} {d k : Nat} (h : DestsFree s lanes d k) :
    ∀ x ∈ fieldSrcs lanes [⟨d, k, false⟩], dstWaits s x = false := by
  intro x hx
  obtain ⟨l, hl, f, hf, i, hi, rfl⟩ := mem_fieldSrcs hx
  rw [List.mem_singleton] at hf
  subst hf
  exact h l hl i hi

/-- A ready lane instruction that computes writes its destination group in every active lane and moves on. -/
theorem laneCompute_ready {i : Instr} {p : BitVec 3} {fs : List Field} {extra : List Nat → List Src} {d k : Nat}
    {f : Nat → List Word} (h : LaneReady s i p fs d k)
    (hx : ∀ x ∈ extra (activeLanes s p.toNat), isEmptyLoc s (locate s x.lane x.r) = false) :
    laneCompute s i p fs extra d k f
      = advance (writeLanes s d ((activeLanes s p.toNat).map fun l => (l, f l))) := by
  unfold laneCompute
  rw [laneWord_ready _ h.active h.decodes]
  simp only [h.fits, Bool.not_true, Bool.false_eq_true, if_false]
  refine withSources_ready _ ?_ (fieldSrcs_free h.free)
  intro x hx'
  rcases List.mem_append.1 hx' with hx' | hx'
  · exact fieldSrcs_full h.full x hx'
  · exact hx x hx'

theorem fits_dest {fs : List Field} {d k : Nat} (h : fieldsFit (⟨d, k, false⟩ :: fs) = true) : d + k ≤ 64 := by
  unfold fieldsFit at h
  simp only [List.all_cons, Bool.and_eq_true, decide_eq_true_eq] at h
  exact h.1

theorem LaneWrote.of_lane {s u t : State} {lanes : List Nat} {d k : Nat} {f : Nat → List Word}
    (hl : t.lane = u.lane) (h : LaneWrote s u lanes d k f) : LaneWrote s t lanes d k f := by
  obtain ⟨h1, h2, h3, h4, h5, h6⟩ := h
  unfold State.laneReg State.isEmpty at h1 h2
  constructor
  · unfold State.laneReg State.isEmpty; rw [hl]; exact h1
  · unfold State.laneReg State.isEmpty; rw [hl]; exact h2
  · rw [hl]; exact h3
  · rw [hl]; exact h4
  · rw [hl]; exact h5
  · rw [hl]; exact h6

/-- The whole outcome of `laneCompute` on a ready instruction whose words number k in every lane. -/
theorem laneCompute_wrote {i : Instr} {p : BitVec 3} {fs : List Field} {extra : List Nat → List Src} {d k : Nat}
    {f : Nat → List Word} (h : LaneReady s i p fs d k)
    (hx : ∀ x ∈ extra (activeLanes s p.toNat), isEmptyLoc s (locate s x.lane x.r) = false) (hf : ∀ l, (f l).length = k) :
    LaneWrote s (laneCompute s i p fs extra d k f) (activeLanes s p.toNat) d k f
      ∧ LaneOnly s (laneCompute s i p fs extra d k f) := by
  rw [laneCompute_ready h hx]
  constructor
  · exact LaneWrote.of_lane (advance_lane _) (writeLanes_wrote s _ d k f (activeLanes_nodup s _) (fits_dest h.fits) hf)
  · rw [writeLanes_eq]; exact writeThenAdvance s _

/-- The same where no other lane is read. -/
theorem laneCompute_plain {i : Instr} {p : BitVec 3} {fs : List Field} {d k : Nat} {f : Nat → List Word}
    (h : LaneReady s i p fs d k) (hf : ∀ l, (f l).length = k) :
    LaneWrote s (laneCompute s i p fs (fun _ => []) d k f) (activeLanes s p.toNat) d k f
      ∧ LaneOnly s (laneCompute s i p fs (fun _ => []) d k f) :=
  laneCompute_wrote h (fun x hx => by cases hx) hf

end Sys2Proof.Machine
end

