-- ==== Sys2Proof/Laws/Memory.lean ====
section
/-! SUPPORT. Every operation on memory keeps its canonical form, and a byte written is the byte then read. -/
namespace Sys2Proof.Machine

/-- The memory of a state has its canonical form. -/
abbrev WfMem (s : State) : Prop := Memory.wf s.mm.mem = true

theorem reset_wf : WfMem State.reset := by decide

theorem memByte_setByte (s : State) (a : Nat) (b : Byte) (j : Nat) :
    memByte (setByte s a b) j = if j = a then b else memByte s j := Sparse.get_put _ _ _ _

theorem foldl_wf {α : Type} (f : State → α → State) (hf : ∀ s a, WfMem s → WfMem (f s a)) (l : List α) :
    ∀ s, WfMem s → WfMem (l.foldl f s) := by
  induction l with
  | nil => intro s h; exact h
  | cons a t ih => intro s h; exact ih _ (hf s a h)

theorem setByte_wf (s : State) (a : Nat) (b : Byte) (h : WfMem s) : WfMem (setByte s a b) := Sparse.wf_put _ _ h

theorem placeBytes_wf (l : List Byte) : ∀ (m : List Host.Cell) (a : Nat), Memory.wf m = true → Memory.wf (placeBytes m a l) = true := by
  induction l with
  | nil => intro m a h; exact h
  | cons b t ih => intro m a h; exact ih _ _ (Sparse.wf_put _ _ h)

theorem placeWord_wf (s : State) (w : Nat) (h : WfMem s) : WfMem (placeWord s w) := placeBytes_wf _ _ _ h

theorem physWrite_wf (s : State) (keys : BitVec 512) (gran : Nat) (l : List (Nat × Byte)) (h : WfMem s) :
    WfMem (physWrite s keys gran l) := by
  have h1 : WfMem (if encrypted (gran * 256) && s.mm.granKey.get gran != keys && s.mm.granKey.get gran != 0 then
      (List.range 256).foldl (fun t i => setByte t (gran * 256 + i) (physByte s keys (gran * 256 + i))) s else s) := by
    split
    · exact foldl_wf _ (fun t i ht => setByte_wf t _ _ ht) _ _ h
    · exact h
  have h2 := foldl_wf (fun t (p : Nat × Byte) => setByte t (gran * 256 + p.1) p.2) (fun t p ht => setByte_wf t _ _ ht) l _ h1
  unfold physWrite
  dsimp only
  split
  · exact h2
  · exact h2

theorem scWriteBack_wf (s : State) (k : Nat) (h : WfMem s) : WfMem (scWriteBack s k) := by
  unfold scWriteBack
  dsimp only
  split
  · exact h
  · split
    · exact physWrite_wf s _ _ _ h
    · exact physWrite_wf s _ _ _ h

theorem scEvict_wf (s : State) (k : Nat) (h : WfMem s) : WfMem (scEvict s k) := scWriteBack_wf s k h

theorem makeWay_wf (s : State) (d line : Nat) (h : WfMem s) : WfMem (makeWay s d line) := by
  unfold makeWay
  dsimp only
  split
  · exact h
  · split
    · exact scEvict_wf s _ h
    · split <;> exact h

theorem scTouch_wf (s : State) (d line gran : Nat) (key : Option Nat) (h : WfMem s) : WfMem (scTouch s d line gran key).1 := by
  unfold scTouch
  dsimp only
  split
  · exact h
  · split
    · exact h
    · exact makeWay_wf s d line h

theorem walkPut_wf (s : State) (pa : Nat) (v : DWord) (h : WfMem s) : WfMem (walkPut s pa v) := by
  refine foldl_wf _ (fun t i ht => ?_) _ _ h
  dsimp only
  split
  · exact ht
  · exact setByte_wf t _ _ ht

theorem setTlb_wf (s : State) (k : Nat) (t : Tlb) (h : WfMem s) : WfMem (setTlb s k t) := h

theorem setFree_wf (s : State) (n : Nat) (h : WfMem s) : WfMem { s with free := n } := h

theorem acntWriteBack_wf (s : State) (k : Nat) (h : WfMem s) : WfMem (acntWriteBack s k) := by
  unfold acntWriteBack
  dsimp only
  split
  · exact h
  · exact setTlb_wf _ _ _ (walkPut_wf s _ _ h)

theorem tlbDrop_wf (s : State) (k : Nat) (h : WfMem s) : WfMem (tlbDrop s k) := by
  unfold tlbDrop
  exact setTlb_wf _ _ _ (acntWriteBack_wf s k h)

theorem tlbFill_wf (s : State) (d ia level epa : Nat) (w0 w1 : DWord) (h : WfMem s) :
    WfMem (tlbFill s d ia level epa w0 w1) := by
  unfold tlbFill
  refine setTlb_wf _ _ _ ?_
  split
  · exact h
  · exact tlbDrop_wf _ _ h

theorem walkFill_wf (s : State) (d ia : Nat) (h : WfMem s) : WfMem (walkFill s d ia).2 := by
  unfold walkFill
  split
  · exact tlbFill_wf _ _ _ _ _ _ _ h
  · exact h

theorem lookup_wf (s : State) (d ia : Nat) (h : WfMem s) : WfMem (lookup s d ia).2 := by
  unfold lookup
  split
  · dsimp only
    split
    · exact setFree_wf s _ h
    · exact walkFill_wf _ _ _ (tlbDrop_wf _ _ (setFree_wf s _ h))
  · exact walkFill_wf _ _ _ h

theorem tlbInvalidate_wf (s : State) (d lo len : Nat) (h : WfMem s) : WfMem (tlbInvalidate s d lo len) := by
  unfold tlbInvalidate
  exact foldl_wf (fun (t : State) (p : Nat × Tlb) => tlbDrop t p.1) (fun t p ht => tlbDrop_wf t p.1 ht) _ _ h

theorem nearLeaf_wf (s : State) (d ia : Nat) (need : Need) (keyslot : Nat) (priv : Bool) (epa : Nat) (w0 : DWord) (h : WfMem s) :
    WfMem (nearLeaf s d ia need keyslot priv epa w0).2 := by
  have hp := walkPut_wf _ epa (w0 &&& ~~~1) (tlbInvalidate_wf s d (pageBase w0 ia) (2 ^ pageLog (pteSz w0)) h)
  rw [nearLeaf]
  generalize walkPut (tlbInvalidate s d (pageBase w0 ia) (2 ^ pageLog (pteSz w0))) epa (w0 &&& ~~~1) = v at hp ⊢
  split
  · split <;> exact h
  · split
    · exact hp
    · exact h

theorem nearXl_wf (s : State) (d ia : Nat) (need : Need) (keyslot : Nat) (priv : Bool) (h : WfMem s) :
    WfMem (nearXl s d ia need keyslot priv).2 := by
  have hl := lookup_wf s d ia h
  unfold nearXl
  revert hl
  generalize lookup s d ia = r
  intro hl
  split
  · split <;> exact h
  · split
    · exact hl
    · exact hl
    · exact hl
    · exact nearLeaf_wf _ _ _ _ _ _ _ _ hl

theorem homeXl_wf (s : State) (ia : Nat) (need : Need) (keyslot : Nat) (priv : Bool) (h : WfMem s) :
    WfMem (homeXl s ia need keyslot priv).2 := by
  have hl := lookup_wf s (homeDie ia) ia h
  unfold homeXl
  dsimp only
  generalize lookup s (homeDie ia) ia = r at hl ⊢
  split
  · split <;> exact h
  · split
    · exact hl
    · exact hl
    · exact hl
    · repeat' split
      all_goals exact hl

theorem countMiss_wf (s : State) (d ia : Nat) (miss : Bool) (h : WfMem s) : WfMem (countMiss s d ia miss) := by
  unfold countMiss
  dsimp only
  split
  · split <;> exact h
  · exact h

theorem serveRead_wf (s : State) (d ia pa : Nat) (key job : Option Nat) (n : Nat) (h : WfMem s) :
    WfMem (serveRead s d ia pa key job n).2 := countMiss_wf _ _ _ _ (scTouch_wf s _ _ _ _ h)

theorem scStore_wf (s : State) (d line gran : Nat) (key : Option Nat) (bs : List (Nat × Byte)) (bad : Bool) (h : WfMem s) :
    WfMem (scStore s d line gran key bs bad) := by
  have h1 : WfMem (if decide (bs.length = 256) then setPoison s gran false else s) := by split <;> exact h
  unfold scStore
  dsimp only
  split
  · exact h1
  · have h2 := physWrite_wf _ (slotKeys (if decide (bs.length = 256) then setPoison s gran false else s) key) gran bs h1
    split <;> exact h2

theorem serveWrite_wf (s : State) (d ia pa : Nat) (key : Option Nat) (bs : List Byte) (h : WfMem s) :
    WfMem (serveWrite s d ia pa key bs) :=
  scStore_wf _ _ _ _ _ _ _ (countMiss_wf _ _ _ _ (scTouch_wf _ _ _ _ _ h))

theorem lineClockUp_wf (s : State) (d line : Nat) (v : List Nat) (h : WfMem s) : WfMem (lineClockUp s d line v) := by
  unfold lineClockUp
  dsimp only
  split <;> exact h

theorem verWrite_wf (s : State) (d job ia : Nat) (bs : List Byte) (h : WfMem s) : WfMem (verWrite s d job ia bs) := by
  unfold verWrite
  dsimp only
  change WfMem (if _ then _ else _)
  split
  · exact h
  · split
    · exact makeWay_wf s _ _ h
    · split <;> exact h

theorem verDiscard_wf (s : State) (job : Nat) (h : WfMem s) : WfMem (verDiscard s job) := h

theorem verCommitAt_wf (s : State) (d job line pa : Nat) (key : Option Nat) (h : WfMem s) :
    WfMem (verCommitAt s d job line pa key) := by
  unfold verCommitAt
  dsimp only
  refine scStore_wf _ _ _ _ _ _ _ (countMiss_wf _ _ _ _ (scTouch_wf _ _ _ _ _ ?_))
  exact h

theorem devPutGran_wf (s : State) (ia : Nat) (bs : List Byte) (h : WfMem s) : WfMem (devPutGran s ia bs) := by
  unfold devPutGran
  split
  · exact lineClockUp_wf _ _ _ _ (serveWrite_wf s _ _ _ _ _ h)
  · exact h

theorem devPuts_wf (l : List (Nat × Nat)) : ∀ (s : State) (bs : List Byte), WfMem s → WfMem (devPuts s l bs) := by
  induction l with
  | nil => intro s bs h; exact h
  | cons p t ih => intro s bs h; exact ih _ _ (devPutGran_wf s _ _ h)

theorem devPut_wf (s : State) (ia : Nat) (bs : List Byte) (h : WfMem s) : WfMem (devPut s ia bs) := devPuts_wf _ _ _ h

theorem devPutNat_wf (s : State) (ia n v : Nat) (h : WfMem s) : WfMem (devPutNat s ia n v) := devPut_wf s _ _ h

theorem clearDirect_wf (s : State) (d lo hi : Nat) (h : WfMem s) : WfMem (clearDirect s d lo hi) := Sparse.wf_filter _ h

end Sys2Proof.Machine
end

