-- ==== Sys2Proof/Tests/Slice0.lean ====
section
/-! SUPPORT. Checks of the model on fixed words and small states: what the WellFormed checks refuse, words written out
from the encoding tables, witnesses for the hypotheses of the statements, and single steps. -/
open Sys2Proof
open Sys2Proof.Machine

section Checks
-- One check at a time: many at once ask for a stack each.
set_option Elab.async false

/-! ## Small states -/

/-- Fibre 0 of core 0's first worker team, the sole entry, about to issue a word of 8 bytes in the system kernel. -/
def w0 : State := { soleKernel State.reset with cur := { len := 2, priv := true } }
/-- The same fibre in unprivileged code. -/
def wUser : State := { w0 with cur := { w0.cur with priv := false } }
/-- The same fibre with uniform registers set. -/
def wS (rs : List (Nat × DWord)) : State :=
  { w0 with uni := { w0.uni with sreg := rs.foldl (fun m p => m.put p.1 p.2) w0.uni.sreg } }
/-- The same fibre in the function of entry 0x40: plain code of 4096 bytes from 0x1000. -/
def wFn (rs : List (Nat × DWord)) : State :=
  (wS ((48, 0x40) :: rs)).updEnt 0 fun e => { e with fteAt := 0x40, fteRaw := 0x1000 + 0x1000 * 2 ^ 64 }
/-- The entry running its group's trap handler. -/
def wHandler (s : State) : State := s.updGroup (curGk s) fun g => { g with recv := some 0, depth := 0, handling := some {} }

/-! ## One check for each kind of readiness -/

def decodesB (s : State) (i : Instr) (n : Nat) : Bool := featuresPresent s i n && reservedOk i && unusedOk i
theorem decodes_of {s : State} {i : Instr} {n : Nat} (h : decodesB s i n = true) : Decodes s i n := by
  simp only [decodesB, Bool.and_eq_true] at h
  exact ⟨h.1.1, h.1.2, h.2⟩

def fullB (s : State) (lanes : List Nat) (fs : List Field) : Bool :=
  lanes.all fun l => fs.all fun f => (List.range f.k).all fun i => !(isEmptyLoc s (locate s l (f.r + i)))
theorem full_of {s : State} {lanes : List Nat} {fs : List Field} (h : fullB s lanes fs = true) : SourcesFull s lanes fs := by
  simp only [fullB, List.all_eq_true, List.mem_range, Bool.not_eq_true'] at h
  exact fun l hl f hf i hi => h l hl f hf i hi

def freeB (s : State) (lanes : List Nat) (d k : Nat) : Bool :=
  lanes.all fun l => (List.range k).all fun i => !(dstWaits s ⟨l, d + i, false⟩)
theorem free_of {s : State} {lanes : List Nat} {d k : Nat} (h : freeB s lanes d k = true) : DestsFree s lanes d k := by
  simp only [freeB, List.all_eq_true, List.mem_range, Bool.not_eq_true'] at h
  exact fun l hl i hi => h l hl i hi

def laneReadyB (s : State) (i : Instr) (p : BitVec 3) (fs : List Field) (d k : Nat) : Bool :=
  !(activeLanes s p.toNat).isEmpty && decodesB s i 0 && fieldsFit (⟨d, k, false⟩ :: fs)
    && fullB s (activeLanes s p.toNat) fs && freeB s (activeLanes s p.toNat) d k
theorem laneReady_of {s : State} {i : Instr} {p : BitVec 3} {fs : List Field} {d k : Nat}
    (h : laneReadyB s i p fs d k = true) : LaneReady s i p fs d k := by
  simp only [laneReadyB, Bool.and_eq_true, Bool.not_eq_true', List.isEmpty_eq_false_iff] at h
  exact ⟨h.1.1.1.1, decodes_of h.1.1.1.2, h.1.1.2, full_of h.1.2, free_of h.2⟩

def uniformReadyB (s : State) (i : Instr) (rs : List Nat) : Bool :=
  decodesB s i 1 && rs.all fun r => s.uni.sout.get (curGk s * 64 + r) == 0
theorem uniformReady_of {s : State} {i : Instr} {rs : List Nat} (h : uniformReadyB s i rs = true) : UniformReady s i rs := by
  simp only [uniformReadyB, Bool.and_eq_true, List.all_eq_true, beq_iff_eq] at h
  exact ⟨decodes_of h.1, h.2⟩

def okB {ε α : Type} : Except ε α → Bool
  | .ok _ => true
  | .error _ => false
theorem ok_of {ε α : Type} {x : Except ε α} (h : okB x = true) : ∃ q, x = .ok q := by
  cases x with
  | ok q => exact ⟨q, rfl⟩
  | error e => cases h

def memReadyB (s : State) (i : Instr) (p : BitVec 3) (m : MemForm) : Bool :=
  let ls := activeLanes s p.toNat
  !ls.isEmpty && decodesB s i 0 && fieldsFit (memDests m ++ memSources m) && s.uni.sout.get (curGk s * 64 + m.sb.toNat) == 0
    && fullB s ls (memSources m) && freeB s ls m.d m.dsts && decide (counter (curGroup s) 2 < 63)
    && ls.all (fun l => okB (memCheck s m l)) && (machineFails s m ls).isEmpty && !(acquireOpen s (maskOf ls))
    && relDone s (curGk s) (maskOf ls)
theorem memReady_of {s : State} {i : Instr} {p : BitVec 3} {m : MemForm} (h : memReadyB s i p m = true) : MemReady s i p m := by
  simp only [memReadyB, Bool.and_eq_true, Bool.not_eq_true', List.isEmpty_eq_false_iff, beq_iff_eq, decide_eq_true_eq,
    List.all_eq_true, List.isEmpty_iff] at h
  obtain ⟨⟨⟨⟨⟨⟨⟨⟨⟨⟨h1, h2⟩, h3⟩, h4⟩, h5⟩, h6⟩, h7⟩, h8⟩, h9⟩, h10⟩, h11⟩ := h
  exact ⟨h1, decodes_of h2, h3, by simp [UniformFree, h4], full_of h5, free_of h6, fun _ => h7,
    fun l hl => ok_of (h8 l hl), h9, h10, fun _ => h11⟩

def scratchReadyB (s : State) (i : Instr) (p : BitVec 3) (m : MemForm) : Bool :=
  let ls := activeLanes s p.toNat
  !ls.isEmpty && decodesB s i 0 && fieldsFit (memDests m ++ memSources m) && s.uni.sout.get (curGk s * 64 + m.sb.toNat) == 0
    && fullB s ls (memSources m) && freeB s ls m.d m.dsts
    && (ls.all fun l => decide (laneAddr s l m.sb m.a m.x + m.n ≤ (curTeam s).ssize) && laneAddr s l m.sb m.a m.x % m.n == 0)
    && !(scratchBusy s m ls) && !(acquireOpen s (maskOf ls))
theorem scratchReady_of {s : State} {i : Instr} {p : BitVec 3} {m : MemForm} (h : scratchReadyB s i p m = true) :
    ScratchReady s i p m := by
  simp only [scratchReadyB, Bool.and_eq_true, Bool.not_eq_true', List.isEmpty_eq_false_iff, beq_iff_eq, decide_eq_true_eq,
    List.all_eq_true] at h
  obtain ⟨⟨⟨⟨⟨⟨⟨⟨h1, h2⟩, h3⟩, h4⟩, h5⟩, h6⟩, h7⟩, h8⟩, h9⟩ := h
  exact ⟨h1, decodes_of h2, h3, by simp [UniformFree, h4], full_of h5, free_of h6, h7, h8, h9⟩

def canTrapB (s : State) : Bool :=
  (curGroup s).recv == none && decide ((s.group (curGk s)).queue.length + (if (s.group (curGk s)).handling.isSome then 1 else 0) < 8)
theorem canTrap_of {s : State} (h : canTrapB s = true) : CanTrap s := by
  simp only [canTrapB, Bool.and_eq_true, beq_iff_eq, decide_eq_true_eq] at h
  exact ⟨h.1, h.2⟩

def matrixReadyB (s : State) (i : Instr) (tile : Nat) (rs : List Nat) : Bool :=
  uniformReadyB s i rs && (curGroup s).tgrp == 0 && (curEntry s).lanes.getLsbD 0 && decide (tile < (curTeam s).tiles)
theorem matrixReady_of {s : State} {i : Instr} {tile : Nat} {rs : List Nat} (h : matrixReadyB s i tile rs = true) :
    MatrixReady s i tile rs := by
  simp only [matrixReadyB, Bool.and_eq_true, beq_iff_eq, decide_eq_true_eq] at h
  exact ⟨uniformReady_of h.1.1.1, ⟨h.1.1.2, h.1.2⟩, h.2⟩

/-! ## Witnesses: lane instructions -/

theorem witness_LaneTwoSourceResults : ∀ e ∈ laneTwo,
    LaneReady w0 (e.1 ⟨false, 0, 4, 5, 6, true, false⟩) 0 [⟨5, 1, true⟩, ⟨6, 1, false⟩] 4 1 := by
  have h : laneTwo.all (fun e => laneReadyB w0 (e.1 ⟨false, 0, 4, 5, 6, true, false⟩) 0 [⟨5, 1, true⟩, ⟨6, 1, false⟩] 4 1) = true := by
    decide +kernel
  exact fun e he => laneReady_of (List.all_eq_true.mp h e he)

theorem witness_LaneThreeSourceResults : ∀ e ∈ laneThree,
    LaneReady w0 (e.1 ⟨false, 0, 63, 63, 62, false, true⟩) 0 [⟨63, 1, false⟩, ⟨62, 1, true⟩, ⟨63, 1, false⟩] 63 1 := by
  have h : laneThree.all (fun e => laneReadyB w0 (e.1 ⟨false, 0, 63, 63, 62, false, true⟩) 0
      [⟨63, 1, false⟩, ⟨62, 1, true⟩, ⟨63, 1, false⟩] 63 1) = true := by decide +kernel
  exact fun e he => laneReady_of (List.all_eq_true.mp h e he)

theorem witness_LaneImmediateResults : ∀ e ∈ laneImm,
    LaneReady w0 (e.1 ⟨false, 0, 0, 63, 0⟩) 0 [⟨63, 1, false⟩] 0 1 := by
  have h : laneImm.all (fun e => laneReadyB w0 (e.1 ⟨false, 0, 0, 63, 0⟩) 0 [⟨63, 1, false⟩] 0 1) = true := by decide +kernel
  exact fun e he => laneReady_of (List.all_eq_true.mp h e he)

theorem witness_LaneSelectorResults : ∀ e ∈ laneNone, LaneReady w0 (e.1 ⟨false, 0, 1, 6⟩) 0 [] 1 1 := by
  have h : laneNone.all (fun e => laneReadyB w0 (e.1 ⟨false, 0, 1, 6⟩) 0 [] 1 1) = true := by decide +kernel
  exact fun e he => laneReady_of (List.all_eq_true.mp h e he)

theorem witness_BinarySixtyFourResults :
    (∀ e ∈ lanePair, LaneReady w0 (e.1 ⟨false, 0, 62, 60, 58, false, false⟩) 0
      ([⟨60, 2, false⟩, ⟨58, 2, false⟩] ++ if e.2.1 then [⟨62, 2, false⟩] else []) 62 2)
    ∧ LaneReady w0 (.dcmp ⟨false, 0, 63, 60, 58, false, false⟩) 0 [⟨60, 2, false⟩, ⟨58, 2, false⟩] 63 1 := by
  have h : lanePair.all (fun e => laneReadyB w0 (e.1 ⟨false, 0, 62, 60, 58, false, false⟩) 0
      ([⟨60, 2, false⟩, ⟨58, 2, false⟩] ++ if e.2.1 then [⟨62, 2, false⟩] else []) 62 2) = true := by decide +kernel
  exact ⟨fun e he => laneReady_of (List.all_eq_true.mp h e he), laneReady_of (by decide +kernel)⟩

/-- Code 0x1A is the last that VCVT has. -/
theorem witness_ConversionResults :
    LaneReady w0 (.vcvt ⟨false, 0, 8, 4, 0xD0⟩) 0 [⟨4, vcvtReads 0x1A, false⟩] 8 (vcvtWrites 0x1A) := laneReady_of (by decide +kernel)

theorem witness_CrossLaneResults :
    (LaneReady w0 (.vmovUniform ⟨false, 0, 8, 0, 0xFF⟩) 0 [] 8 1 ∧ UniformFree w0 [63])
    ∧ (LaneReady w0 (.vbcast ⟨false, 0, 8, 4, 63⟩) 0 [] 8 1 ∧ (heldLanes w0).getLsbD 63 = false)
    ∧ LaneReady w0 (.vbcast ⟨false, 0, 8, 4, 0⟩) 0 [] 8 1 ∧ (heldLanes w0).getLsbD 0 = true
    ∧ LaneReady w0 (.vshuf ⟨false, 0, 8, 4, 5, false, false⟩) 0 [⟨5, 1, false⟩] 8 1
    ∧ isEmptyLoc w0 (locate w0 0 4) = false ∧ activeLanes w0 0 = [0] ∧ rdV w0 0 5 = 0 :=
  ⟨⟨laneReady_of (by decide +kernel), by simp only [UniformFree]; decide +kernel⟩,
   ⟨laneReady_of (by decide +kernel), by decide +kernel⟩, laneReady_of (by decide +kernel), by decide +kernel,
   laneReady_of (by decide +kernel), by decide +kernel⟩

theorem witness_PredicateSetResult : activeLanes w0 0 ≠ [] ∧ Decodes w0 (.pset ⟨false, 0, 4, 0x81F⟩) 0
    ∧ SourcesFull w0 (activeLanes w0 0) [⟨4, 1, false⟩] :=
  ⟨by decide +kernel, decodes_of (by decide +kernel), full_of (by decide +kernel)⟩

/-! ## Witnesses: decode fates and sources -/

/-- VADD v4, v5, v6 under p1, which is 0. -/
theorem witness_InactiveLaneWordOnlyMoves : ∃ w, encodeWords (.vadd ⟨false, 1, 4, 5, 6, false, false⟩) = [w]
    ∧ bit w 31 = false ∧ activeLanes w0 (bits w 29 27) = [] := ⟨_, rfl, by decide +kernel⟩

/-- A state whose bank holds no feature set at all. -/
def wBare : State := { w0 with core := { w0.core with banks := w0.core.banks.put 0 { w0.core.banks.get 0 with feat := [] } } }
theorem witness_DecodeCausesTrap :
    CanTrap w0 ∧ (0x40000000#32).getLsbD 31 = false ∧ activeLanes w0 (bits 0x40000000 29 27) ≠ []
    ∧ (∃ w, encodeWords (.vadd ⟨false, 0, 4, 5, 6, false, false⟩) = [w] ∧ bit w 31 = false)
    ∧ CanTrap wBare ∧ featuresPresent wBare (.vadd ⟨false, 0, 4, 5, 6, false, false⟩) 0 = false
    ∧ Decodes w0 (.vadd ⟨false, 0, 4, 5, 6, false, false⟩) 0
    ∧ (featuresPresent w0 (.vshli ⟨false, 0, 4, 5, 32⟩) 0 = true ∧ reservedOk (.vshli ⟨false, 0, 4, 5, 32⟩) = false)
    ∧ (featuresPresent w0 (.ret ⟨false, 0, 0, 0, 1⟩) 1 = true ∧ reservedOk (.ret ⟨false, 0, 0, 0, 1⟩) = true
        ∧ unusedOk (.ret ⟨false, 0, 0, 0, 1⟩) = false) :=
  ⟨canTrap_of (by decide +kernel), by decide, by decide +kernel, ⟨_, rfl, by decide +kernel⟩, canTrap_of (by decide +kernel),
   by decide +kernel, decodes_of (by decide +kernel), by decide +kernel⟩

/-- v48 of fibre 0 is empty, an access outstanding into it. -/
def wEmpty : State :=
  { w0 with lane := { w0.lane with empty := w0.lane.empty.put (regKey 0 48) true, out := w0.lane.out.put (regKey 0 48) 7 } }
/-- One form with its sources and destinations passes decode in lane 0; its source v48 traps or yields, or its destination waits. -/
def emptyB (i : Instr) (fs ds : List Field) (trap src : Bool) : Bool :=
  decodesB wEmpty i 0 && fieldsFit (ds ++ fs)
    && (if src then !(emptyLanes wEmpty trap [0] fs).isEmpty && (trap || (emptyLanes wEmpty true [0] fs).isEmpty)
        else (emptyLanes wEmpty true [0] fs).isEmpty && ds.any fun f => (List.range f.k).any fun i =>
          emptyReg wEmpty 0 (f.r + i) && wEmpty.outOf (regKey (fibKey (curGk wEmpty) 0) (windowBase wEmpty + f.r + i)) != 0)
def computeB (d a : BitVec 6) (imm : BitVec 8) (trap src : Bool) : Bool :=
  (computeForms ⟨false, 0, d, a, 62, trap, false⟩ ⟨false, 0, d, a, imm⟩ ⟨false, 0, d, 6⟩).all fun e =>
    (src && (e.2.2.1.isEmpty || (trap && e.2.2.1.all fun f => !f.trap))) || emptyB e.1 e.2.2.1 [⟨e.2.2.2.1, e.2.2.2.2, false⟩] trap src
theorem witness_EmptySourcesTrapOrYield : inEmul wEmpty = false ∧ activeLanes wEmpty 0 = [0] ∧ CanTrap wEmpty ∧ UniformFree wEmpty [1]
    ∧ (computeB 4 48 0 true true && computeB 4 48 0 false true && computeB 48 60 0 true false) = true
    ∧ (let m (d a : BitVec 6) (trap w : Bool) : LM := ⟨false, 0, d, a, 1, 2, w, trap⟩
       (loadForms (m 4 48 true false) ⟨false, 16⟩ ++ storeForms (m 4 48 true false) ⟨false, 16⟩
         ++ scratchLoadForms (m 4 48 true false) ⟨false, 16⟩ ++ scratchStoreForms (m 4 48 true false) ⟨false, 16⟩).all
           (fun e => emptyB e.1 (memSources e.2) (memDests e.2) true true) = true
       ∧ (loadForms (m 48 4 false false) ⟨true, 0⟩ ++ scratchLoadForms (m 48 4 false false) ⟨false, 16⟩).all
           (fun e => !(unusedOk e.1) || emptyB e.1 (memSources e.2) (memDests e.2) false false) = true
       ∧ (storeForms (m 48 4 false false) ⟨false, 16⟩ ++ scratchStoreForms (m 48 4 false false) ⟨false, 16⟩).all
           (fun e => emptyB e.1 (memSources e.2) (memDests e.2) false true) = true)
    ∧ (atomicForms ⟨false, 0, 4, 48, 1, 6, true⟩ ⟨false, 16⟩).all
        (fun e => emptyB e.1 (memSources e.2) (memDests e.2) false true) = true :=
  ⟨by decide +kernel, by decide +kernel, canTrap_of (by decide +kernel), by simp only [UniformFree]; decide +kernel,
   by decide +kernel, by decide +kernel, by decide +kernel⟩

/-! ## Witnesses: uniform instructions -/

theorem witness_UniformArithmeticResults :
    (∀ e ∈ uniformTwo, UniformReady w0 (e.1 ⟨false, 63, 0, 63, 0⟩) [63, 0, 63])
    ∧ (∀ e ∈ uniformOne, UniformReady w0 (e.1 ⟨false, 63, 0, 0, 0⟩) [63, 0])
    ∧ (∀ e ∈ uniformImm, UniformReady w0 (e.1 ⟨false, 63, 0xFFFF⟩) [63])
    ∧ UniformReady w0 (.ssel ⟨false, 63, 0, 1, 15⟩) [63, 0, 1] := by
  have h : uniformTwo.all (fun e => uniformReadyB w0 (e.1 ⟨false, 63, 0, 63, 0⟩) [63, 0, 63]) = true := by decide +kernel
  have k : uniformOne.all (fun e => uniformReadyB w0 (e.1 ⟨false, 63, 0, 0, 0⟩) [63, 0]) = true := by decide +kernel
  have m : uniformImm.all (fun e => uniformReadyB w0 (e.1 ⟨false, 63, 0xFFFF⟩) [63]) = true := by decide +kernel
  exact ⟨fun e he => uniformReady_of (List.all_eq_true.mp h e he), fun e he => uniformReady_of (List.all_eq_true.mp k e he),
    fun e he => uniformReady_of (List.all_eq_true.mp m e he), uniformReady_of (by decide +kernel)⟩

/-- An access is outstanding into s5. -/
def wOut : State := { w0 with uni := { w0.uni with sout := w0.uni.sout.put 5 7 } }
theorem witness_OutstandingUniformYields : ∀ e ∈ uniformForms ⟨false, 5, 5, 0, 0⟩ ⟨false, 5, 0⟩, Decodes wOut e.1 1
    ∧ ∃ r ∈ e.2, wOut.uni.sout.get (curGk wOut * 64 + r) ≠ 0 := by
  have h : (uniformForms ⟨false, 5, 5, 0, 0⟩ ⟨false, 5, 0⟩).all
      (fun e => decodesB wOut e.1 1 && e.2.any fun r => wOut.uni.sout.get (curGk wOut * 64 + r) != 0) = true := by decide +kernel
  intro e he
  have := List.all_eq_true.mp h e he
  simp only [Bool.and_eq_true, List.any_eq_true, bne_iff_ne] at this
  exact ⟨decodes_of this.1, this.2⟩

theorem witness_ConditionResults : UniformReady w0 (.scmp ⟨false, 7, 0, 63, 25⟩) [0, 63]
    ∧ UniformReady w0 (.svote ⟨false, 63, 0x1FF⟩) [63]
    ∧ (UniformReady w0 (.sreadl ⟨false, 63, 0x2FFE⟩) [63] ∧ (heldLanes w0).getLsbD 63 = false)
    ∧ (UniformReady w0 (.sreadl ⟨false, 63, 0x303E⟩) [63] ∧ lowest (actLanes w0) = some 0
        ∧ isEmptyLoc w0 (locate w0 0 62) = false ∧ isEmptyLoc w0 (locate w0 0 63) = false)
    ∧ UniformReady w0 (.sreadl ⟨false, 63, 0x3F⟩) [63] ∧ (heldLanes w0).getLsbD 0 = true :=
  ⟨uniformReady_of (by decide +kernel), uniformReady_of (by decide +kernel),
   ⟨uniformReady_of (by decide +kernel), by decide +kernel⟩,
   ⟨uniformReady_of (by decide +kernel), by decide +kernel⟩,
   uniformReady_of (by decide +kernel), by decide +kernel⟩

/-! ## Witnesses: memory -/

/-- XRNG0 maps 0x10000 to 0x1FFFF onto themselves for reads and writes, and s1 is 0x10000. -/
def wMem : State :=
  { wS [(1, 0x10000)] with
    core := { w0.core with banks := w0.core.banks.put 0 { w0.core.banks.get 0 with
      rng := [(0, 0x10000), (1, 0x10000), (2, 0x10037), (38, 0x4B)] } } }

/-- The byte forms, then 16-byte forms, the first also without lane offsets. -/
theorem witness_LaneLoadsStart :
    (∀ e ∈ loadForms ⟨false, 0, 63, 0, 1, 1, false, false⟩ ⟨true, 0⟩, e.2.n = 1 → MemReady wMem e.1 0 e.2)
    ∧ ∀ e ∈ loadForms ⟨false, 0, 60, 0, 1, 2, false, false⟩ ⟨false, 16⟩, MemReady wMem e.1 0 e.2 := by
  have h : (loadForms ⟨false, 0, 63, 0, 1, 1, false, false⟩ ⟨true, 0⟩).all
      (fun e => e.2.n != 1 || memReadyB wMem e.1 0 e.2) = true := by decide +kernel
  have k : (loadForms ⟨false, 0, 60, 0, 1, 2, false, false⟩ ⟨false, 16⟩).all
      (fun e => memReadyB wMem e.1 0 e.2) = true := by decide +kernel
  exact ⟨fun e he hn => memReady_of (by simpa [hn] using List.all_eq_true.mp h e he),
    fun e he => memReady_of (List.all_eq_true.mp k e he)⟩

theorem witness_LaneStoresStart :
    ∀ e ∈ storeForms ⟨false, 0, 60, 0, 1, 2, false, false⟩ ⟨false, 16⟩, MemReady wMem e.1 0 e.2 := by
  have h : (storeForms ⟨false, 0, 60, 0, 1, 2, false, false⟩ ⟨false, 16⟩).all
      (fun e => memReadyB wMem e.1 0 e.2) = true := by decide +kernel
  exact fun e he => memReady_of (List.all_eq_true.mp h e he)

theorem witness_LaneAtomicsStart :
    ∀ e ∈ atomicForms ⟨false, 0, 56, 0, 1, 6, true⟩ ⟨false, 16⟩, MemReady wMem e.1 0 e.2 := by
  have h : (atomicForms ⟨false, 0, 56, 0, 1, 6, true⟩ ⟨false, 16⟩).all
      (fun e => memReadyB wMem e.1 0 e.2) = true := by decide +kernel
  exact fun e he => memReady_of (List.all_eq_true.mp h e he)

/-- A team of 32 bytes of scratchpad. -/
def wScr : State := w0.updTeam 0 fun t => { t with sbase := 256, ssize := 32 }
theorem witness_ScratchLoadsStart :
    ∀ e ∈ scratchLoadForms ⟨false, 0, 60, 0, 1, 2, false, false⟩ ⟨false, 16⟩, ScratchReady wScr e.1 0 e.2 := by
  have h : (scratchLoadForms ⟨false, 0, 60, 0, 1, 2, false, false⟩ ⟨false, 16⟩).all
      (fun e => scratchReadyB wScr e.1 0 e.2) = true := by decide +kernel
  exact fun e he => scratchReady_of (List.all_eq_true.mp h e he)

theorem witness_ScratchStoresWrite :
    ∀ e ∈ scratchStoreForms ⟨false, 0, 60, 0, 1, 2, false, false⟩ ⟨false, 16⟩, ScratchReady wScr e.1 0 e.2 := by
  have h : (scratchStoreForms ⟨false, 0, 60, 0, 1, 2, false, false⟩ ⟨false, 16⟩).all
      (fun e => scratchReadyB wScr e.1 0 e.2) = true := by decide +kernel
  exact fun e he => scratchReady_of (List.all_eq_true.mp h e he)

theorem witness_PrefetchWritesNothing :
    ∀ e ∈ [(Instr.vpref ⟨false, 0, 0, 4, 1, 2, false, false⟩, prefForm ⟨false, 0, 0, 4, 1, 2, false, false⟩ none)],
    activeLanes wMem 0 ≠ [] ∧ Decodes wMem e.1 0 ∧ UniformFree wMem [1]
      ∧ SourcesFull wMem (activeLanes wMem 0) (offsetField 4 false e.2.x)
      ∧ okB (memCheck wMem e.2 0) = true := by
  intro e he
  cases List.mem_singleton.mp he
  exact ⟨by decide +kernel, decodes_of (by decide +kernel), by simp only [UniformFree]; decide +kernel, full_of (by decide +kernel),
    by decide +kernel⟩

/-- Lane 0's 8-byte access at 0x10008. -/
def scalarB (s : State) (i : Instr) (rs : List Nat) (m : ScalarForm) (ia r : Nat) : Bool :=
  uniformReadyB s i rs && decide (counter (curGroup s) 2 < 63)
    && (match rangeCheck (curBank s) m.va m.n (memPerm m.kind) with | .ok p => p == (ia, r) | .error _ => false)
    && m.va % m.n == 0
    && (scalarCapture s m ia r).lanes.all (fun l => laneMachine s (curIssuer s (heldLanes s)) m.kind l m.n == none)
    && !(acquireOpen s (heldLanes s)) && relDone s (curGk s) (heldLanes s)
theorem scalar_of {s : State} {i : Instr} {rs : List Nat} {m : ScalarForm} {ia r : Nat} (h : scalarB s i rs m ia r = true) :
    ScalarReady s i rs m ia r := by
  simp only [scalarB, Bool.and_eq_true, Bool.not_eq_true', beq_iff_eq, decide_eq_true_eq, List.all_eq_true] at h
  obtain ⟨⟨⟨⟨⟨⟨h1, h2⟩, h3⟩, h4⟩, h5⟩, h6⟩, h7⟩ := h
  refine ⟨uniformReady_of h1, fun _ => h2, ?_, fun _ => h4, fun _ => h5, h6, fun _ => h7⟩
  split at h3
  · next p hp => rw [hp, beq_iff_eq.mp h3]
  · cases h3

def wScalar : State := { wMem with uni := { wMem.uni with sreg := wMem.uni.sreg.put 2 8 } }
theorem witness_ScalarMemoryStarts :
    ScalarReady wScalar (.sld ⟨false, 63, 1, 2, 11⟩) [63, 1, 2] ⟨0x10008, 8, .load, true, false, .uniform 63, 0, 0, false⟩ 0x10008 0
    ∧ ScalarReady wScalar (.sst ⟨false, 63, 1, 2, 11⟩) [63, 1, 2] ⟨0x10008, 8, .store, true, false, .none, 0, 0, false⟩ 0x10008 0
    ∧ ScalarReady wScalar (.satom ⟨false, 63, 1, 2, 31⟩) [63, 1, 2]
        ⟨0x10000, 8, .atomic 7, true, false, .uniform 63, 0, 8, true⟩ 0x10000 0
    ∧ (rdS wScalar 1 + rdS wScalar 2).toNat = 0x10008 ∧ rdS wScalar 63 = 0 :=
  ⟨scalar_of (by decide +kernel), scalar_of (by decide +kernel), scalar_of (by decide +kernel), by decide +kernel⟩

/-! ## Witnesses: control -/

theorem witness_BranchResults :
    UniformReady w0 (.br ⟨false, false, 7, 4⟩) [] ∧ (curGroup w0).conds.getLsbD 7 = false
    ∧ inExtent w0 (curPc w0 + (4 : BitVec 19).signExtend 57 * BitVec.ofNat 57 (curUnit w0)).toNat = true
    ∧ UniformReady w0 (.br ⟨false, true, 7, 0x60000⟩) []
    ∧ inExtent w0 (curPc w0 + (0x60000 : BitVec 19).signExtend 57 * BitVec.ofNat 57 (curUnit w0)).toNat = false
    ∧ CanTrap w0 ∧ UniformReady w0 (.nop ⟨false, 0, 0, 0, 0⟩) [] ∧ UniformReady w0 (.br ⟨false, true, 0, 4⟩) [] :=
  ⟨uniformReady_of (by decide +kernel), by decide +kernel, by decide +kernel, uniformReady_of (by decide +kernel),
   by decide +kernel, canTrap_of (by decide +kernel), uniformReady_of (by decide +kernel), uniformReady_of (by decide +kernel)⟩

/-! What a reading comes to, so that a check of it can be evaluated. -/
theorem sync_of {x : Sync} {P : List Byte → State → Bool}
    (h : (match x with | .ok b s => P b s | _ => false) = true) : ∃ b s, x = .ok b s ∧ P b s = true := by
  cases x with
  | ok b s => exact ⟨b, s, rfl, h⟩
  | _ => cases h
theorem fte_of {x : FteRes} {P : Nat → State → Bool}
    (h : (match x with | .ok f s => P f s | .stop _ => false) = true) : ∃ f s, x = .ok f s ∧ P f s = true := by
  cases x with
  | ok f s => exact ⟨f, s, rfl, h⟩
  | stop s => cases h
theorem fetch_of {x : FetchRes} {P : Fetched → State → Bool}
    (h : (match x with | .ok f s => P f s | _ => false) = true) : ∃ f s, x = .ok f s ∧ P f s = true := by
  cases x with
  | ok f s => exact ⟨f, s, rfl, h⟩
  | _ => cases h

/-- Bytes in the page of the code. -/
def wBytes (s : State) (a n v : Nat) : State := { s with mm := { s.mm with mem := placeBytes s.mm.mem a (leBytes n v) } }

/-- The page of the code without the L1; s1 names a table of two offsets, 0 and 4, at 0x1040; lane 0's v2 is 0, and lane 1, if it is live, takes the other. -/
def wNoL1 (s : State) : State :=
  { s with core := { s.core with banks := s.core.banks.put 0 { s.core.banks.get 0 with rng := [(38, 0xCB)] } } }
def wTable : State := wNoL1 (wBytes (wS [(1, 0x1040)]) 0x1040 12 (2 + 4 * 2 ^ 64))
def wTable2 : State :=
  { (wTable.updEnt 0 fun e => { e with lanes := 3 }).updGroup 0 fun g => { g with live := 3 } with
    lane := { w0.lane with reg := w0.lane.reg.put (regKey 1 2) 1 } }
def brxOf : UX := ⟨false, 1, 2, 1, 0, 0⟩
def brxB (s : State) (n : Nat) : Bool :=
  uniformReadyB s (.brx brxOf) [1] && fullB s (maskList (actLanes s)) [⟨2, 1, false⟩]
    && (match curRead s (rdS s 1).toNat 4 with
      | .ok bs s1 => leNat bs == 2 && (match brxLanes s brxOf (rdS s 1).toNat (leNat bs) (maskList (actLanes s)) s1 [] with
        | .ok l s2 => failsOf l == [] && (byTarget (targetsOf l)).length == n && !(inEmul s2) && (curEntry s2).st != .free
            && decide (n ≤ (freeEntries s2 (curGk s2)).length + 1)
        | .stop _ => false)
      | _ => false)
/-- BRX by v2 in one lane, and in two lanes with two targets. -/
theorem witness_IndexedBranchResults : brxB wTable 1 = true ∧ brxB wTable2 2 = true := by
  decide +kernel

/-- A function table entry at 0x1060: plain code from 0x1080, 64 bytes. -/
def wCall (rs : List (Nat × DWord)) : State := wBytes (wFn rs) 0x1060 32 (0x1080 + 64 * 2 ^ 64)
def wCalled : State := { wCall [(48, 0x1040), (40, 0x1060 / 32)] with cur := w0.cur }
theorem witness_CallResults :
    (UniformReady (wCall [(48, 0x1040)]) (.call ⟨false, 0, 1⟩) [48, 40] ∧ funcFte (curFunc (wCall [(48, 0x1040)])) = 0x1040
      ∧ (∃ f s1, readFte (wCall [(48, 0x1040)]) 0x1060 = .ok f s1 ∧ (f == 0x1080 + 64 * 2 ^ 64) = true)
      ∧ (callLink (wCall [(48, 0x1040)])).isSome = true ∧ entry0Parked (wCall [(48, 0x1040)]) = false)
    ∧ (UniformReady (wCall [(1, 0x1060)]) (.callx ⟨false, 0, 1, 0, 0⟩) [1, 48, 40] ∧ (rdS (wCall [(1, 0x1060)]) 1).toNat = 0x1060
      ∧ ∃ f s1, readFte (wCall [(1, 0x1060)]) 0x1060 = .ok f s1 ∧ (f == 0x1080 + 64 * 2 ^ 64) = true)
    ∧ (UniformReady (wS [(40, 0x8000000000001040)]) (.ret ⟨false, 0, 0, 0, 0⟩) [48, 40]
      ∧ (rdS (wS [(40, 0x8000000000001040)]) 40).getLsbD 63 = true)
    ∧ (UniformReady wCalled (.ret ⟨false, 0, 0, 0, 0⟩) [48, 40] ∧ linkCfte (rdS wCalled 40) = 0x1060
      ∧ (rdS wCalled 40).getLsbD 63 = false
      ∧ ∃ f s1, readFte wCalled 0x1060 = .ok f s1 ∧ decide (linkOff (rdS wCalled 40) * fteUnit f < fteExtent f) = true)
    ∧ rdS w0 40 = 0 ∧ CanTrap w0 :=
  ⟨⟨uniformReady_of (by decide +kernel), by decide +kernel, fte_of (by decide +kernel), by decide +kernel⟩,
   ⟨uniformReady_of (by decide +kernel), by decide +kernel, fte_of (by decide +kernel)⟩,
   ⟨uniformReady_of (by decide +kernel), by decide +kernel⟩,
   ⟨uniformReady_of (by decide +kernel), by decide +kernel, by decide +kernel, fte_of (by decide +kernel)⟩,
   by decide +kernel, canTrap_of (by decide +kernel)⟩

/-- A team of four fibres, fibre 0 live, in a function; and fibre 1 alone with an entry of its own. -/
def wTeam (rs : List (Nat × DWord)) : State := (wFn rs).updTeam 0 fun t => { t with n := 4, window := 128 }
def wSecond : State :=
  ((wTeam []).updEnt 0 fun e => { e with lanes := 2 }).updGroup 0 fun g => { g with live := 3 }
/-- Three fibres in the function of the issuing entry, and in that of entry 0x1060 that s2 names. -/
def wNear : State := wTeam [(1, 3)]
def wFar : State := (wCall [(1, 3), (2, 0x1060)]).updTeam 0 fun t => { t with n := 4, window := 128 }
def nearOf : Spawn := { pc := 0x1000, func := 0x40, link := 0, fteAt := 0x40, fteRaw := 0x1000 + 0x1000 * 2 ^ 64 }
def farOf : Spawn := { pc := 0x1080, func := withFte 0 0x1060, link := 0, fteAt := 0x1060, fteRaw := 0x1080 + 64 * 2 ^ 64 }
def spawnB (s : State) (p : Spawn) : Bool :=
  (freeFibres s (curTeam s)).length == 3 && (curEntry s).st == .ready && heldLanes s == 1 && (curTeam s).groups == [0]
    && spawnFits s (groupKey s.cur.core 0) p && relDone s (curGk s) (heldLanes s)
theorem fits_of {s : State} {p : Spawn} (h : spawnB s p = true) (tg : Nat) : spawnFits s (teamGroup s (curTeam s) tg) p = true := by
  simp only [spawnB, Bool.and_eq_true, beq_iff_eq] at h
  have e : teamGroup s (curTeam s) tg = groupKey s.cur.core 0 := by
    simp only [teamGroup, h.1.1.2]
    cases tg <;> rfl
  exact e ▸ h.1.2
theorem witness_FibreResults :
    (UniformReady (wTeam [(1, 0)]) (.fspawn ⟨false, 5, 1, 2, 0⟩) [5, 1, 2, 48, 40] ∧ inEmul (wTeam [(1, 0)]) = false)
    ∧ (UniformReady wNear (.fspawn ⟨false, 5, 1, 2, 0⟩) [5, 1, 2, 48, 40] ∧ funcReg wNear = 48 ∧ linkReg wNear = 40
      ∧ funcFte (curFunc wNear) = 0x40 ∧ (fteEntry (curFte wNear) = 0x1000 ∧ inExtent wNear 0x1000 = true ∧ rdS wNear 2 = 0)
      ∧ nearOf = { pc := 0x1000, func := curFunc wNear, link := rdS wNear 40, fteAt := (curEntry wNear).fteAt, fteRaw := (curEntry wNear).fteRaw })
    ∧ (spawnB wNear nearOf = true ∧ ∀ tg, spawnFits wNear (teamGroup wNear (curTeam wNear) tg) nearOf = true)
    ∧ (UniformReady wFar (.fspawn ⟨false, 5, 1, 2, 1⟩) [5, 1, 2] ∧ (rdS wFar 2).toNat = 0x1060
      ∧ ∃ f s1, readFte wFar 0x1060 = .ok f s1 ∧ (f == 0x1080 + 64 * 2 ^ 64 && spawnB s1 farOf) = true)
    ∧ UniformReady wSecond (.fend ⟨false, 0, 0, 0, 0⟩) [] ∧ inHandler wSecond = false ∧ (heldLanes wSecond).getLsbD 0 = false
    ∧ windowBusy wSecond ((maskList (heldLanes wSecond)).map (fibKey (curGk wSecond))) 0 512 = false :=
  ⟨⟨uniformReady_of (by decide +kernel), by decide +kernel⟩,
   ⟨uniformReady_of (by decide +kernel), by decide +kernel⟩,
   ⟨by decide +kernel, fits_of (by decide +kernel)⟩,
   ⟨uniformReady_of (by decide +kernel), by decide +kernel, fte_of (by decide +kernel)⟩,
   uniformReady_of (by decide +kernel), by decide +kernel⟩

theorem witness_WindowResult : UniformReady (wTeam []) (.setwin ⟨false, 0, 5⟩) [48] ∧ inEmul (wTeam []) = false
    ∧ inHandler (wTeam []) = false ∧ 1 < (curTeam (wTeam [])).window / 64 ∧ entry0Parked (wTeam []) = false
    ∧ windowBusy (wTeam []) ((maskList (heldLanes (wTeam []))).map (fibKey (curGk (wTeam [])))) 0 64 = false :=
  ⟨uniformReady_of (by decide +kernel), by decide +kernel⟩

/-- The word after the REP is a lane word. -/
def wRep : State := wBytes w0 0x1004 4 0x12010519
/-- And here a uniform word. -/
def wRepU : State := wBytes w0 0x1004 4 0x80FE0840
theorem witness_RepeatResults :
    (UniformReady { wRep with cur := { wRep.cur with len := 2 } } (.rep ⟨false, 3, 0x2200⟩) [] ∧ inHandler wRep = false
      ∧ inExtent wRep (nextPc wRep).toNat = true
      ∧ (∃ f s1, fetchAt wRep (nextPc wRep).toNat = .ok f s1 ∧ (f.word == 0x12010519) = true)
      ∧ UniformReady wRepU (.rep ⟨false, 3, 0x2200⟩) [] ∧ CanTrap wRepU ∧ inExtent wRepU (nextPc wRepU).toNat = true
      ∧ ∃ f s1, fetchAt wRepU (nextPc wRepU).toNat = .ok f s1 ∧ f.word.getLsbD 31 = true)
    ∧ Decodes (wHandler w0) (.rep ⟨false, 3, 0x2200⟩) 1 ∧ inHandler (wHandler w0) = true :=
  ⟨⟨uniformReady_of (by decide +kernel), by decide +kernel, by decide +kernel, fetch_of (by decide +kernel),
    uniformReady_of (by decide +kernel), canTrap_of (by decide +kernel), by decide +kernel, fetch_of (by decide +kernel)⟩,
   decodes_of (by decide +kernel), by decide +kernel⟩

/-- Two live fibres in entries of their own: the issuing one alone is counted. -/
def wTwo : State := w0.updGroup 0 fun g => { g with live := 3 }
def wPass : State := w0.updGroup 0 fun g => { g with barPass := 1 }
theorem witness_YieldAndBarrierResults :
    UniformReady w0 (.yield ⟨false, 0, 0, 0, 0⟩) [] ∧ UniformReady w0 (.bar ⟨false, 0, 0, 0, 0⟩) [] ∧ inEmul w0 = false
    ∧ heldLanes wPass &&& ~~~(curGroup wPass).barPass = 0 ∧ heldLanes w0 &&& ~~~(curGroup w0).barPass ≠ 0
    ∧ relDone w0 (curGk w0) (heldLanes w0) = true ∧ teamGroups w0.cur.core (curTeam w0) = [0]
    ∧ (w0.group 0).live &&& ~~~((w0.group 0).arrived ||| heldLanes w0) = 0
    ∧ (wTwo.group 0).live &&& ~~~((wTwo.group 0).arrived ||| heldLanes wTwo) ≠ 0 ∧ relDone wTwo (curGk wTwo) (heldLanes wTwo) = true :=
  ⟨uniformReady_of (by decide +kernel), uniformReady_of (by decide +kernel), by decide +kernel⟩

/-! ## Witnesses: traps, ordering, special registers -/

theorem witness_TrapInstructionTraps : UniformReady w0 (.trap ⟨false, 5, 63⟩) [5] ∧ CanTrap w0 :=
  ⟨uniformReady_of (by decide +kernel), canTrap_of (by decide +kernel)⟩

/-- A software trap waits at fibre 0, whose bank's handler is at 0x2000. -/
def wQueued : State :=
  let s := { w0 with core := { w0.core with banks := w0.core.banks.put 0 { w0.core.banks.get 0 with trapbase := 0x2000 } } }
  (s.updGroup 0 fun g => { g with queue := [{ cause := 5, issue := 1, mask := 1, precise := true }] }).updEnt 0 fun e =>
    { e with boundary := true, trapped := true }
theorem witness_TrapDeliveryEntersHandler :
    (deliverable wQueued 0).map (fun p => (p.1.cause, p.2)) = some (5, some 0)
    ∧ handlerEntry (groupBank wQueued 0) 5 = some 0x2000 := by decide +kernel

/-- The handler of a trap whose access, a load of lane 0, was captured; and what the group holds besides. -/
def capOf : Capture := { kind := .load, n := 4, dst := .lanes [5], lanes := [{ ia := 0x10000 }] }
def wEret (f : Group → Group) : State := w0.updGroup 0 fun g => f { g with recv := some 0, handling := some { cap := some capOf } }
/-- ERET where the access is to be performed, while it is performed (access 9), and once it is done or has been left out. -/
def wReplays : State := wEret fun g => { g with rpmask := 1 }
def wReplaying (todo : List (Nat × Nat)) : State :=
  let s := wEret fun g => { g with replay := some 9 }
  { s with mm := { s.mm with accs := [(9, { cap := capOf, todo := todo })] } }
/-- An emulation handler of some depth, which has or has not asked for its cause. -/
def wEmul (depth : Nat) (ask : Bool) : State := wEret fun g => { g with depth := depth, emraise := ask, emcause := 0x0C0 }
theorem witness_EretReturns :
    UniformReady w0 (.eret ⟨false, 0, 0, 0, 0⟩) [] ∧ CanTrap w0
    ∧ (∀ s ∈ [wReplays, wReplaying [(0, 1)], wReplaying [], wEmul 0 false, wEmul 1 false, wEmul 1 true, wEmul 4 false],
        UniformReady s (.eret ⟨false, 0, 0, 0, 0⟩) [] ∧ (curGroup s).recv = some (curJ s) ∧ s.cur.ent < 256
          ∧ (curGroup s).handling = some { cap := some capOf } ∧ (curGroup s).queue.length < 8)
    ∧ ((curGroup wReplays).replay = none ∧ (capOf.lanes.filter fun l => (curGroup wReplays).rpmask.getLsbD l.lane) ≠ [])
    ∧ ((curGroup (wReplaying [(0, 1)])).replay = some 9 ∧ ((wReplaying [(0, 1)]).mm.accs.get 9).todo ≠ [])
    ∧ ((curGroup (wReplaying [])).replay = some 9 ∧ ((wReplaying []).mm.accs.get 9).todo = [])
    ∧ ([wEmul 0 false, wEmul 1 false, wEmul 1 true, wEmul 4 false].all fun s =>
        (curGroup s).replay == none && capOf.lanes.all fun l => !((curGroup s).rpmask.getLsbD l.lane)) = true := by
  have h : [wReplays, wReplaying [(0, 1)], wReplaying [], wEmul 0 false, wEmul 1 false, wEmul 1 true, wEmul 4 false].all (fun s =>
      uniformReadyB s (.eret ⟨false, 0, 0, 0, 0⟩) [] && (curGroup s).recv == some (curJ s) && decide (s.cur.ent < 256)
        && (curGroup s).handling == some { cap := some capOf } && decide ((curGroup s).queue.length < 8)) = true := by decide +kernel
  refine ⟨uniformReady_of (by decide +kernel), canTrap_of (by decide +kernel), fun s hs => ?_, by decide +kernel⟩
  have k := List.all_eq_true.mp h s hs
  simp only [Bool.and_eq_true, beq_iff_eq, decide_eq_true_eq] at k
  exact ⟨uniformReady_of k.1.1.1.1, k.1.1.1.2, k.1.1.2, k.1.2, k.2⟩

/-- A load of fibre 0 is still on its way: its acquire is not done. -/
def wLoading (s : State) : State :=
  let c : Capture := { kind := .load, n := 4, lanes := [{ ia := 0x10000 }] }
  { s with mm := { s.mm with accs := s.mm.accs.put 9 { issue := 1, cap := c, todo := [(0, 1)] } } }
/-- A store of fibre 0 is still on its way. -/
def wStoring : State :=
  let c : Capture := { kind := .store, n := 4, lanes := [{ ia := 0x10000 }] }
  { w0 with mm := { w0.mm with
      accs := w0.mm.accs.put 9 { issue := 1, cap := c, todo := [(0, 1)] }
      reqs := w0.mm.reqs.put 3 { src := .lane 9 0, kind := .store, ia := 0x10000, len := 4 } } }
theorem witness_FullBitAndFenceResults :
    UniformReady w0 (.ufset ⟨false, 1, 60, 1, 0, 3⟩) [1]
    ∧ UniformReady w0 (.fence ⟨false, 2, 0, 0, 0, 6⟩) [] ∧ fenceDone w0 (curGk w0) (heldLanes w0) 2 0 = true
    ∧ UniformReady wStoring (.fence ⟨false, 1, 0, 0, 0, 3⟩) []
    ∧ fenceDone wStoring (curGk wStoring) (heldLanes wStoring) 1 0 = false ∧ (curEntry w0).wake = .none
    ∧ UniformReady w0 (.fence ⟨false, 3, 0, 0, 0, 5⟩) [] ∧ relDone w0 (curGk w0) (heldLanes w0) = true
    ∧ fenceDone w0 (curGk w0) (heldLanes w0) 3 ((dieVc w0 0).getD 0 0 + 1) = true :=
  ⟨uniformReady_of (by decide +kernel), uniformReady_of (by decide +kernel), by decide +kernel, uniformReady_of (by decide +kernel),
   by decide +kernel, by decide +kernel, uniformReady_of (by decide +kernel), by decide +kernel⟩

theorem witness_LineLockResults :
    UniformReady wMem (.llock ⟨false, 5, 1, 2, 0⟩) [5, 1, 2] ∧ counter (curGroup wMem) 2 < 63
    ∧ okB (rangeCheck (curBank wMem) (rdS wMem 1 + rdS wMem 2).toNat 1 .lock) = true
    ∧ UniformReady wMem (.lfree ⟨false, 0, 1, 2, 0⟩) [1, 2]
    ∧ UniformReady (wS [(1, 0x20000)]) (.llock ⟨false, 5, 1, 2, 0⟩) [5, 1, 2]
    ∧ okB (rangeCheck (curBank (wS [(1, 0x20000)])) 0x20000 1 .lock) = false :=
  ⟨uniformReady_of (by decide +kernel), by decide +kernel, by decide +kernel, uniformReady_of (by decide +kernel),
   uniformReady_of (by decide +kernel), by decide +kernel⟩

/-- What a handler may write. -/
def trapSpecial : List Nat := [0x007, 0x008, 0x031, 0x038, 0x039, 0x03A, 0x03B, 0x03C, 0x03D, 0x03E, 0x03F, 0x040]
/-- Commands of keys and of debugging are in progress on core 0. -/
def wBusy : State := w0.updCregs 0 fun r => { r with keycmd := 2 ^ 63, dbgcmd := 2 ^ 63 }
theorem witness_SpecialRegisterResults :
    UniformReady w0 (.srd ⟨false, 5, 0x201⟩) (5 :: specialRegs w0 0x201)
    ∧ (UniformReady w0 (.swr ⟨false, 5, 0x000⟩) (5 :: specialRegs w0 0x000) ∧ roSpecial 0x000 = true)
    ∧ (UniformReady wUser (.swr ⟨false, 5, 0x010⟩) (5 :: specialRegs wUser 0x010) ∧ roSpecial 0x010 = false
        ∧ privSpecial 0x010 = true ∧ CanTrap wUser)
    ∧ (UniformReady w0 (.swr ⟨false, 5, 0x007⟩) (5 :: specialRegs w0 0x007) ∧ inHandler w0 = false ∧ CanTrap w0)
    ∧ (∀ i ∈ heldSpecial, UniformReady w0 (.swr ⟨false, 5, BitVec.ofNat 17 i⟩) (5 :: specialRegs w0 i))
    ∧ (∀ i ∈ trapSpecial, UniformReady w0 (.swr ⟨false, 5, BitVec.ofNat 17 i⟩) [5]
        ∧ UniformReady (wHandler w0) (.swr ⟨false, 5, BitVec.ofNat 17 i⟩) [5]) ∧ inHandler (wHandler w0) = true
    ∧ (wHandler w0).cur.rep = false ∧ inEmul w0 = false ∧ UniformReady (wEmul 1 false) (.swr ⟨false, 5, 0x008⟩) [5]
    ∧ inEmul (wEmul 1 false) = true
    ∧ (∀ s ∈ [w0, wBusy], ∀ i ∈ [0x013, 0x050, 0x051], UniformReady s (.swr ⟨false, 5, BitVec.ofNat 17 i⟩) [5] ∧ s.cur.priv = true)
    ∧ (busy (w0.cregs 0).keycmd = false ∧ busy (w0.cregs 0).dbgcmd = false ∧ busy (wBusy.cregs 0).keycmd = true
        ∧ busy (wBusy.cregs 0).dbgcmd = true)
    ∧ UniformReady w0 (.pmsel ⟨false, 5, 0, 0, 3⟩) [5] ∧ UniformReady wUser (.pmsel ⟨false, 5, 0, 0, 3⟩) [5] := by
  have h : heldSpecial.all (fun i => uniformReadyB w0 (.swr ⟨false, 5, BitVec.ofNat 17 i⟩) (5 :: specialRegs w0 i)) = true := by
    decide +kernel
  have k : trapSpecial.all (fun i => uniformReadyB w0 (.swr ⟨false, 5, BitVec.ofNat 17 i⟩) [5]
      && uniformReadyB (wHandler w0) (.swr ⟨false, 5, BitVec.ofNat 17 i⟩) [5]) = true := by decide +kernel
  have m : ([w0, wBusy].all fun s => [0x013, 0x050, 0x051].all fun i =>
      uniformReadyB s (.swr ⟨false, 5, BitVec.ofNat 17 i⟩) [5] && s.cur.priv) = true := by decide +kernel
  refine ⟨uniformReady_of (by decide +kernel), ⟨uniformReady_of (by decide +kernel), by decide +kernel⟩,
    ⟨uniformReady_of (by decide +kernel), by decide +kernel, by decide +kernel, canTrap_of (by decide +kernel)⟩,
    ⟨uniformReady_of (by decide +kernel), by decide +kernel, canTrap_of (by decide +kernel)⟩,
    fun i hi => uniformReady_of (List.all_eq_true.mp h i hi), fun i hi => ?_, by decide +kernel, by decide +kernel, by decide +kernel,
    uniformReady_of (by decide +kernel), by decide +kernel, fun s hs i hi => ?_, by decide +kernel,
    uniformReady_of (by decide +kernel), uniformReady_of (by decide +kernel)⟩
  · have a := List.all_eq_true.mp k i hi
    simp only [Bool.and_eq_true] at a
    exact ⟨uniformReady_of a.1, uniformReady_of a.2⟩
  · have a := List.all_eq_true.mp (List.all_eq_true.mp m s hs) i hi
    simp only [Bool.and_eq_true] at a
    exact ⟨uniformReady_of a.1, a.2⟩

/-! ## Witnesses: copies, the matrix array, handles and stage barriers -/

/-- The team has all tiles and 1 MiB of scratchpad; handles 0 and 1 are FULL, 2 is FREE, each of 64 KiB. -/
def wEng (rs : List (Nat × DWord)) : State :=
  let s := (wS rs).updTeam 0 fun t => { t with tiles := 8, ssize := 0x100000 }
  let h (st : HandleSt) : Handle := { owner := some 0, size := 0x10000, st := st }
  { s with eng := { s.eng with handles := [(0, h .full), (1, h .full), (2, h .free)] } }

/-- 256 bytes from s1 to scratchpad by channel 3; a multicast of no core is not asked. CPYC by channel 0. -/
theorem witness_CopyStarts :
    let s := wEng [(1, 0x10000), (2, 256), (3, 0xFFF00)]
    let o : UX := ⟨false, 0, 1, 1, 2, 3⟩
    let f := cpyForm o
    UniformReady s (.cpy o) (regRun f.a (cpyRegsA f) ++ regRun f.b (cpyRegsB f)) ∧ f.a + cpyRegsA f ≤ 64 ∧ f.b + cpyRegsB f ≤ 64
      ∧ cpyValues s f = false ∧ f.kind ≠ 3 ∧ cpyExtents s f = false ∧ cpyOwners s f = none ∧ cpyWaits s f = none
      ∧ UniformReady s (.cpyc ⟨false, 0, 0, 1, 0, 0⟩) [1] ∧ chanCause s 0 = none ∧ counter (curGroup s) 0 < 63
      ∧ relDone s (curGk s) (heldLanes s) = true :=
  ⟨uniformReady_of (by decide +kernel), by decide +kernel, by decide +kernel, by decide +kernel, by decide +kernel,
   by decide +kernel, by decide +kernel, by decide +kernel, uniformReady_of (by decide +kernel), by decide +kernel⟩

/-- A copy into handle 2 and, behind it, the BF16 MMA of handles 2 and 0 into tile 0. -/
def wFollow : State :=
  wEng [(1, 0x10000), (2, 0x10000), (3, 2), (4, BitVec.ofNat 64 ((encodeWords (.mmaBf16 ⟨false, 0, 5, 6, 0, 0, 0, false, false⟩)).headD 0)),
        (5, 2), (6, 0)]
theorem witness_FollowOnCopyStarts :
    let o : UX := ⟨false, 0, 0, 1, 2, 0⟩
    let m : UM := ⟨false, 0, 5, 6, 0, 0, 0, false, false⟩
    let f := cpymForm o
    let s := wFollow
    let ws := [rdS s m.a.toNat, rdS s m.c.toNat]
    UniformReady s (.cpym o) ((regRun f.a (cpyRegsA f) ++ regRun f.b 3) ++ [m.a.toNat, m.c.toNat])
      ∧ (curGroup s).tgrp = 0 ∧ (curEntry s).lanes.getLsbD 0 = true ∧ f.a + cpyRegsA f ≤ 64 ∧ f.b + 3 ≤ 64
      ∧ bits (rdS s (f.b + 2)).toNat 22 20 < (curTeam s).tiles ∧ cpyValues s f = false ∧ bits (rdS s (f.b + 2)).toNat 63 32 = 0
      ∧ followForm ((rdS s (f.b + 2)).toNat % 2 ^ 32) = some (.mmaBf16 m, 0, m) ∧ featuresPresent s (.mmaBf16 m) 1 = true
      ∧ ws.any opBad = false ∧ (ws.any fun v => opHandle v == destHandle s f) = true ∧ cpyExtents s f = false
      ∧ chanCause s f.chan = none ∧ fillCause s (destHandle s f) (some (ctlLen (rdS s f.b))) = none
      ∧ operandsCause s (ws.map fun v => (v, formBytes 0)) = none ∧ cpymWaits s f 0 m ws = none
      ∧ relDone s (curGk s) (heldLanes s) = true :=
  ⟨uniformReady_of (by decide +kernel), by decide +kernel⟩

/-- The leader of a team whose s5 and s6 name handles 0 and 1; s7 is an ACCST control of format 0. -/
def wMat : State := wEng [(5, 0), (6, 1)]
def wPlaced (ended : Bool) : State :=
  { wMat with eng := { wMat.eng with tiles := [(9, { live := true, by_ := { fpc := curPc wMat }, op := .accst 0 512 0 0 0 false, ended := ended })] } }
theorem witness_MatrixStarts :
    (∀ p ∈ ([(.mmaBf16 ⟨false, 7, 5, 6, 0, 0, 0, false, false⟩, 0), (.mmaFp16 ⟨false, 0, 5, 6, 0, 0, 0, true, true⟩, 1),
             (.mmaE4m3 ⟨false, 0, 5, 6, 0, 0, 2, false, true⟩, 2), (.mmaE5m2 ⟨false, 0, 5, 6, 0, 0, 2, false, true⟩, 3),
             (.mmaQ4 ⟨false, 0, 5, 6, 0, 3, 3, false, true⟩, 4), (.mmaI8 ⟨false, 0, 5, 6, 0, 0, 3, false, true⟩, 5),
             (.mmaI4 ⟨false, 0, 5, 6, 0, 0, 0, false, true⟩, 6)] : List (Instr × Nat)),
      MatrixReady wMat p.1 0 [5, 6] ∧ operandsCause wMat ([rdS wMat 5, rdS wMat 6].map fun w => (w, formBytes p.2)) = none)
    ∧ [rdS wMat 5, rdS wMat 6].any opBad = false ∧ scaleEmpty wMat 0 3 = [] ∧ readWaits wMat [rdS wMat 5, rdS wMat 6] = none
    ∧ (counter (curGroup wMat) 1 < 63 ∧ relDone wMat (curGk wMat) (heldLanes wMat) = true)
    ∧ MatrixReady wMat (.accz ⟨false, 7, 0, 0, 0, 0, 0, false, false⟩) 7 []
    ∧ MatrixReady wMat (.accld ⟨false, 7, 6, 7, 0, 0, 0, false, false⟩) 7 [6, 7]
    ∧ MatrixReady wMat (.accst ⟨false, 7, 8, 7, 0, 0, 0, true, false⟩) 7 [8, 7]
    ∧ placedAccst wMat = none ∧ accstBad 0 = false ∧ 127 * (128 * accSize 0) + 128 * accSize 0 ≤ (curTeam wMat).ssize
    ∧ (placedAccst (wPlaced true)).map (fun p => p.2.ended) = some true
    ∧ (placedAccst (wPlaced false)).map (fun p => p.2.ended) = some false
    ∧ MatrixReady wMat (.accred ⟨false, 0, 7, 5, 6, 1⟩) 7 [5, 6] := by
  have h : ([(.mmaBf16 ⟨false, 7, 5, 6, 0, 0, 0, false, false⟩, 0), (.mmaFp16 ⟨false, 0, 5, 6, 0, 0, 0, true, true⟩, 1),
             (.mmaE4m3 ⟨false, 0, 5, 6, 0, 0, 2, false, true⟩, 2), (.mmaE5m2 ⟨false, 0, 5, 6, 0, 0, 2, false, true⟩, 3),
             (.mmaQ4 ⟨false, 0, 5, 6, 0, 3, 3, false, true⟩, 4), (.mmaI8 ⟨false, 0, 5, 6, 0, 0, 3, false, true⟩, 5),
             (.mmaI4 ⟨false, 0, 5, 6, 0, 0, 0, false, true⟩, 6)] : List (Instr × Nat)).all (fun p => matrixReadyB wMat p.1 0 [5, 6]
      && operandsCause wMat ([rdS wMat 5, rdS wMat 6].map fun w => (w, formBytes p.2)) == none) = true := by decide +kernel
  refine ⟨fun p hp => ?_, by decide +kernel, by decide +kernel, by decide +kernel, by decide +kernel,
    matrixReady_of (by decide +kernel), matrixReady_of (by decide +kernel), matrixReady_of (by decide +kernel), by decide +kernel,
    by decide +kernel, by decide +kernel, by decide +kernel, by decide +kernel, matrixReady_of (by decide +kernel)⟩
  have := List.all_eq_true.mp h p hp
  simp only [Bool.and_eq_true, beq_iff_eq] at this
  exact ⟨matrixReady_of this.1, this.2⟩

def wCount : State := w0.updGroup 0 fun g => { g with outst := [{ cls := 4, op := 1 }] }
theorem witness_WaitAndHandleResults :
    UniformReady w0 (.waitc ⟨false, 0, 0, 0, 0, 4⟩) [] ∧ counter (curGroup w0) 4 ≤ 0
    ∧ UniformReady wCount (.waitc ⟨false, 0, 0, 0, 0, 4⟩) [] ∧ 0 < counter (curGroup wCount) 4
    ∧ UniformReady wMat (.bufq ⟨false, 9, 63⟩) [9] ∧ (wMat.handle (handleKey 0 63)).owner = none
    ∧ UniformReady wMat (.bufq ⟨false, 9, 0⟩) [9] ∧ (wMat.handle (handleKey 0 0)).owner = some (curTeamKey wMat)
    ∧ (let s := wEng [(1, 0xFFF00), (2, 256)]
       UniformReady s (.bufsetCfg ⟨false, 0, 63, 1, 2, 0⟩) [1, 2] ∧ (rdS s 1).toNat + (rdS s 2).toNat ≤ (curTeam s).ssize
        ∧ ownedByOther s 63 = false ∧ (s.handle (handleKey 0 63)).st = .free
        ∧ UniformReady s (.bufsetCfg ⟨false, 0, 0, 1, 2, 0⟩) [1, 2] ∧ ownedByOther s 0 = false ∧ (s.handle (handleKey 0 0)).st ≠ .free
        ∧ UniformReady s (.bufsetRel ⟨false, 1, 0, 0, 0, 0⟩) [] ∧ (s.handle (handleKey 0 0)).st = .full) :=
  ⟨uniformReady_of (by decide +kernel), by decide +kernel, uniformReady_of (by decide +kernel), by decide +kernel,
   uniformReady_of (by decide +kernel), by decide +kernel, uniformReady_of (by decide +kernel), by decide +kernel,
   uniformReady_of (by decide +kernel), by decide +kernel, by decide +kernel, by decide +kernel, uniformReady_of (by decide +kernel),
   by decide +kernel, by decide +kernel, uniformReady_of (by decide +kernel), by decide +kernel⟩

/-- The barrier's object lies in the last 16 bytes of the team's scratchpad; s2 is the most arrivals and then the most bytes. -/
theorem witness_StageBarrierResults :
    let s := wEng [(1, 0xFFFF0), (2, 1024), (3, 0x7FFFFFFF)]
    UniformReady s (.sbinit ⟨false, 0, 0, 1, 2, 0⟩) [1, 2] ∧ barrierCause s 0xFFFF0 = none
      ∧ UniformReady s (.sbexpect ⟨false, 0, 0, 1, 3, 0⟩) [1, 3]
      ∧ sbTx (sbWord s 0 (barrierAt s 0xFFFF0)) + (0x7FFFFFFF : Nat) < 2 ^ 31
      ∧ (sbEval (sbField (sbWord s 0 (barrierAt s 0xFFFF0)) 31 0 (ofIntN 32 (sbTx (sbWord s 0 (barrierAt s 0xFFFF0)) + (0x7FFFFFFF : Nat))))).2 = false
      ∧ UniformReady s (.sbarrive ⟨false, 1, 0, 1, 0, 0⟩) [1] ∧ sbErr s 0 (barrierAt s 0xFFFF0) = 0
      ∧ relDone s (curGk s) (actLanes s) = true ∧ UniformReady s (.sbwait ⟨false, 0, 0, 1, 0, 1⟩) [1]
      ∧ UniformReady s (.sbwait ⟨false, 0, 0, 1, 0, 0⟩) [1] ∧ sbPhase s 0 (barrierAt s 0xFFFF0) = 0
      ∧ acquireDone s (curGk s) (heldLanes s) = true
      ∧ UniformReady (wLoading s) (.sbwait ⟨false, 0, 0, 1, 0, 1⟩) [1]
      ∧ acquireDone (wLoading s) (curGk (wLoading s)) (heldLanes (wLoading s)) = false :=
  ⟨uniformReady_of (by decide +kernel), by decide +kernel, uniformReady_of (by decide +kernel), by decide +kernel,
   by decide +kernel, uniformReady_of (by decide +kernel), by decide +kernel, by decide +kernel,
   uniformReady_of (by decide +kernel), uniformReady_of (by decide +kernel), by decide +kernel, by decide +kernel,
   uniformReady_of (by decide +kernel), by decide +kernel⟩

/-! ## Witnesses: events, sequences and submission -/

/-- s2 is 0, which names the first event of die 0 of this device. -/
def wEv : State := wMem
def wAsked (done : Bool) : State :=
  { wEv with task := { wEv.task with
    ops := wEv.task.ops.put 7 { live := true, by_ := .entry 0 0, fpc := curPc wEv, issue := 1, yields := true,
                                answered := done, applied := done } } }
theorem witness_EventInstructionResults :
    UniformReady wEv (.evsig ⟨false, 0, 2, 0, 0⟩) [2] ∧ eventPresent wEv (rdS wEv 2) = true ∧ relDone wEv (curGk wEv) (heldLanes wEv) = true
    ∧ UniformReady wEv (.futres ⟨false, 0, 2, 3, 0⟩) [2, 3] ∧ (rdS wEv 3).toNat < 2 ^ 48
    ∧ UniformReady wEv (.evpoll ⟨false, 63, 2, 0, 0⟩) [63, 2] ∧ acquireOpen wEv (heldLanes wEv) = false
    ∧ UniformReady wEv (.futreg ⟨false, 63, 2, 1, 0⟩) [63, 2, 1] ∧ (rdS wEv 1).toNat % 64 = 0
    ∧ okB (rangeCheck (curBank wEv) (rdS wEv 1).toNat 64 .store) = true
    ∧ UniformReady wEv (.evwait ⟨false, 0, 2, 0, 0⟩) [2] ∧ UniformReady wEv (.futget ⟨false, 63, 2, 0, 0⟩) [63, 2]
    ∧ findOp wEv = none ∧ (findOp (wAsked false)).map (fun p => p.2.answered) = some false
    ∧ (findOp (wAsked true)).map (fun p => (p.2.answered, p.2.cause)) = some (true, 0)
    ∧ acquireDone (wAsked true) (curGk wEv) (heldLanes wEv) = true
    ∧ acquireDone (wLoading (wAsked true)) (curGk wEv) (heldLanes wEv) = false
    ∧ UniformReady (wLoading (wAsked true)) (.futget ⟨false, 63, 2, 0, 0⟩) [63, 2] :=
  ⟨uniformReady_of (by decide +kernel), by decide +kernel, by decide +kernel, uniformReady_of (by decide +kernel),
   by decide +kernel, uniformReady_of (by decide +kernel), by decide +kernel, uniformReady_of (by decide +kernel), by decide +kernel,
   by decide +kernel, uniformReady_of (by decide +kernel), uniformReady_of (by decide +kernel), by decide +kernel, by decide +kernel,
   by decide +kernel, by decide +kernel, by decide +kernel, uniformReady_of (by decide +kernel)⟩

/-- The last sequence, the most tokens, the last tag. -/
theorem witness_SequenceInstructionResults :
    let s := wEng [(1, 0xFFFFF), (2, 4096), (3, 15), (5, 0), (6, 0)]
    UniformReady s (.seqapp ⟨false, 63, 1, 2, 0⟩) [63, 1, 2] ∧ UniformReady s (.seqfork ⟨false, 0, 1, 2, 0⟩) [1, 2]
      ∧ UniformReady s (.spantag ⟨false, 0, 1, 3, 0⟩) [1, 3] ∧ UniformReady s (.spanret ⟨false, 63, 1, 3, 0⟩) [63, 1, 3]
      ∧ (rdS s 1).toNat < 2 ^ 20 ∧ (rdS s 2).toNat ≤ 4096 ∧ (rdS s 3).toNat < 16
      ∧ LaneReady s (.kvx ⟨false, 0, 62, 5, 6, false, false⟩) 0 [⟨5, 1, false⟩, ⟨6, 1, false⟩] 62 2
      ∧ LaneReady s (.kvxr ⟨false, 0, 62, 5, 6, false, false⟩) 0 [⟨5, 1, false⟩, ⟨6, 1, false⟩] 62 2
      ∧ counter (curGroup s) 2 < 63 ∧ acquireOpen s 1 = false ∧ acquireOpen s (heldLanes s) = false
      ∧ UniformReady s (.attq ⟨false, 0, 2, 7, 5, 0⟩) [7, 8, 5] ∧ (rdS s 7).toNat < 2 ^ 38 ∧ opBad (rdS s 5) = false
      ∧ handlesCause s [opHandle (rdS s 5), 2] = none ∧ readWaits s [rdS s 5] = none ∧ fillWaits s 2 = none
      ∧ counter (curGroup s) 3 < 63 ∧ relDone s (curGk s) (heldLanes s) = true :=
  ⟨uniformReady_of (by decide +kernel), uniformReady_of (by decide +kernel), uniformReady_of (by decide +kernel),
   uniformReady_of (by decide +kernel), by decide +kernel, by decide +kernel, by decide +kernel, laneReady_of (by decide +kernel),
   laneReady_of (by decide +kernel), by decide +kernel, by decide +kernel, by decide +kernel, uniformReady_of (by decide +kernel),
   by decide +kernel⟩

theorem checked_of {x : Checked} {P : List Byte → State → Bool}
    (h : (match x with | .ok b s => P b s | _ => false) = true) : ∃ b s, x = .ok b s ∧ P b s = true := by
  cases x with
  | ok b s => exact ⟨b, s, rfl, h⟩
  | _ => cases h

/-- An event of die 0 whose entry is RESOLVED at generation 0: a name of generation 1 can be armed. -/
def wResolved (s : State) : State := devPutNat s 0x2000000000 8 (2 * 2 ^ 62)
/-- The code's page without the L1: a zero record, O.NOP, at 0x1400 and a replay block at 0x1200 that names it for one pass. -/
def wBlock : State :=
  wResolved (wBytes (wBytes (wNoL1 (wS [(1, 0x1400), (2, 0x1200)])) 0x1200 9 (0x1400 + 2 ^ 64)) 0x1220 8 1)
def wJob : State :=
  (w0.updTeam 0 fun t => { t with job := some 1 }).setJob 1 { live := true, at_ := .placed 0 0 }
/-- The job has a version line, and it waits for a load. -/
def wWrites : State := { wJob with mm := { wJob.mm with vers := wJob.mm.vers.put (verKey 1 16) { held := true } } }
/-- The reads of REPLAY at s2, which finds its DONE so. -/
def replayB (s0 : State) (how : ArmRes) : Bool :=
  let va := (rdS s0 2).toNat
  va % 64 == 0 && (match curRead s0 va 512 with
  | .ok bs s1 => !(replayBad bs) && !((s1.task.sessions.get 0).live) && (match curRead s1 (rpBits bs 0 8) 32 with
    | .ok r s2 =>
      let d : Dec := { curDec s2 (bytesToRec r) with src := .replay 0 }
      (match checkRecord s2 d with
        | .ok b s3 => decide (d.depth < 11) && armFailure s3 d.slot (recArms d b) (featBit s2 42) == none
            && armCheck s3 (word64 (rpBits bs 0x20 8)) d.slot true (featBit s3 42) == how
        | _ => false)
    | _ => false)
  | _ => false)
/-- DONE is an event of device 1, which can be reached; and its arming has been answered. -/
def wAway : State :=
  let s := wBytes (wBytes (wNoL1 (wS [(1, 0x1400), (2, 0x1200)])) 0x1200 9 (0x1400 + 2 ^ 64)) 0x1220 8 (2 ^ 54)
  { s with cfg := { s.cfg with peers := [1] } }
def wArmed : State :=
  { wBlock with task := { wBlock.task with
    ops := wBlock.task.ops.put 7 { live := true, by_ := .entry 0 0, fpc := curPc wBlock, issue := 1, yields := true, kind := .arm 1,
                                   answered := true, applied := true } } }
theorem witness_SubmissionResults :
    (UniformReady wMat (.nodeput ⟨false, 0, 15, 9, 10, 0⟩) [9, 10] ∧ findOp wMat = none ∧ (rdS wMat 10).toNat < 2 ^ 14
      ∧ (rdS wMat 9).toNat + 256 ≤ (curTeam wMat).ssize ∧ relDone wMat (curGk wMat) (heldLanes wMat) = true
      ∧ (findOp (wAsked true)).map (fun p => (p.2.answered, p.2.cause, p.2.value)) = some (true, 0, 0))
    ∧ (UniformReady wBlock (.opsub ⟨false, 0, 1, 0, 0⟩) [1] ∧ findOp wBlock = none
      ∧ (∃ bs s1, curRead wBlock (rdS wBlock 1).toNat 32 = .ok bs s1
        ∧ (match checkRecord s1 (curDec s1 (bytesToRec bs)) with
          | .ok b s2 => decide ((curDec s1 (bytesToRec bs)).depth < 11) && (curTeam s2).job.all (writesIn s2)
            && relDone s2 (curGk s2) (heldLanes s2)
            && armFailure s2 (curDec s1 (bytesToRec bs)).slot (recArms (curDec s1 (bytesToRec bs)) b) (featBit s1 42) == none
          | _ => false) = true))
    ∧ (UniformReady wJob (.jobend ⟨false, 0, 0, 0, 0⟩) [] ∧ inEmul wJob = false ∧ wJob.cur.priv = true ∧ (curTeam wJob).job = some 1
      ∧ jobendReady wJob (curTeamKey wJob) = true ∧ versionLines wJob 1 = [] ∧ seenEverywhere wJob (dieVc wJob 0) = true
      ∧ (wJob.job 1).committing = false)
    ∧ (UniformReady wWrites (.jobend ⟨false, 0, 0, 0, 0⟩) [] ∧ (curTeam wWrites).job = some 1
      ∧ jobendReady wWrites (curTeamKey wWrites) = true ∧ versionLines wWrites 1 = [16])
    ∧ (UniformReady (wLoading wJob) (.jobend ⟨false, 0, 0, 0, 0⟩) [] ∧ jobendReady (wLoading wJob) (curTeamKey wJob) = false)
    ∧ UniformReady { wBlock with cur := { wBlock.cur with priv := false } } (.replay ⟨false, 0, 2, 0, 0⟩) [2] ∧ CanTrap wBlock
    ∧ UniformReady wBlock (.replay ⟨false, 0, 2, 0, 0⟩) [2] ∧ wBlock.cur.priv = true
    ∧ replayB wBlock .armed = true ∧ replayB (dropOp wArmed 7) .armed = true
    ∧ (UniformReady wArmed (.replay ⟨false, 0, 2, 0, 0⟩) [2] ∧ (findOp wArmed).map (fun p => (p.1, p.2.answered, p.2.cause)) = some (7, true, 0))
    ∧ (UniformReady wAway (.replay ⟨false, 0, 2, 0, 0⟩) [2] ∧ replayB wAway .remote = true) :=
  ⟨⟨uniformReady_of (by decide +kernel), by decide +kernel⟩,
   ⟨uniformReady_of (by decide +kernel), by decide +kernel, sync_of (by decide +kernel)⟩,
   ⟨uniformReady_of (by decide +kernel), by decide +kernel⟩, ⟨uniformReady_of (by decide +kernel), by decide +kernel⟩,
   ⟨uniformReady_of (by decide +kernel), by decide +kernel⟩,
   uniformReady_of (by decide +kernel), canTrap_of (by decide +kernel), uniformReady_of (by decide +kernel), by decide +kernel,
   by decide +kernel, by decide +kernel, ⟨uniformReady_of (by decide +kernel), by decide +kernel⟩,
   uniformReady_of (by decide +kernel), by decide +kernel⟩

/-! ## Witnesses: happenings -/

/-- A part that is up, about to perform a happening on the objects x, y, z and v. -/
def hap (x : Nat) (y : Nat := 0) (z : Nat := 0) (v : DWord := 0) : State :=
  { State.reset with power := .up, agenda := [], cur := { x := x, y := y, z := z, v := v } }
/-- The sole fibre's part, likewise. -/
def hap0 (x : Nat) (y : Nat := 0) (z : Nat := 0) (v : DWord := 0) : State := { w0 with cur := { x := x, y := y, z := z, v := v } }

/-- The entry READY without a slot, beside entries that wait or are parked. -/
def wReady : State :=
  let s := (hap0 0).updEnt 0 fun e => { e with boundary := true }
  { s with uni := { s.uni with slots := [] } }
def wParked : State :=
  let s := (hap0 0).updEnt 0 fun e => { e with boundary := true }
  { (s.updGroup 0 fun g => { g with live := 3 }) with now := 10000, lane := { s.lane with parked := s.lane.parked.put 1 (some 0x1000) } }
def wBlocked : State := (hap0 0).updEnt 0 fun e => { e with st := .blocked, wake := .bar }
def wNest : State :=
  let s := wQueued.updGroup 0 fun g => { g with queue := [], recv := some 0, depth := 1, nest := some { cause := 0x040, mask := 1 } }
  let b := { s.core.banks.get 0 with embase := 0x2000 }
  { (s.updTeam 0 fun t => { t with ewin := 1 }) with cur := {}, core := { s.core with banks := s.core.banks.put 0 b, teams := (s.updTeam 0 fun t => { t with ewin := 1 }).core.teams } }
theorem witness_IssueHappenings :
    (freeSlot wReady 0 = some 0 ∧ arbWinner wReady 0 = some 0 ∧ (fuseAll wReady 0 8 0).1 = 0 ∧ (gEnt wReady 0 0).st = .ready)
    ∧ rotatee wParked 0 = some 0
    ∧ ((wBlocked.ent (entKey 0 0)).st = .blocked ∧ wakeHolds { wBlocked with uni := { wBlocked.uni with groups := [(0, { team := some 0, live := 1, barPass := 1 })] } } 0 0 = true)
    ∧ ((wNest.group 0).nest.isSome = true ∧ (wNest.group 0).recv = some 0 ∧ (wNest.group 0).depth + 1 ≤ (wNest.team 0).ewin + 1
      ∧ handlerEntry (groupBank wNest 0) 0x040 = some 0x2000) :=
  by decide +kernel

/-- One 4-byte load of lane 0 into v5, or into s5, whose last part is on its way back. -/
def wBack (dst : AccDst) : State :=
  let s := hap0 3
  { s with
    lane := { s.lane with empty := [(5, true)], out := [(5, 9)] }
    uni := { s.uni with sout := [(5, 9)] }
    mm := { s.mm with reqs := [(3, { src := .lane 9 0, data := 7, len := 4 })]
                      accs := [(9, { cap := { kind := .load, n := 4, dst := dst, lanes := [{ ia := 0x10000 }] }, todo := [(0, 1)], issue := 1 })] } }
theorem back_of (dst : AccDst) :
    (findReq (wBack dst) 3).map (·.src) = some (.lane 9 0) ∧ (findAcc (wBack dst) 9).map (fun a => (a.todo.get 0, a.failed, a.notres)) = some (1, [], 0)
    ∧ (findAcc (wBack dst) 9).map (fun a => (a.todo, a.events, a.handler, a.cap.dst)) = some ([(0, 1)], [], false, dst)
    ∧ (wBack dst).outOf (regKey (fibKey 0 0) 5) = 9 ∧ (wBack dst).uni.sout.get 5 = 9 := ⟨rfl, rfl, rfl, rfl, rfl⟩
/-- A part that is not the last; and the last of a load into v5 and v6. -/
def wParts : State :=
  let s := wBack (.lanes [5, 6])
  { s with mm := { s.mm with accs := s.mm.accs.upd 9 fun a => { a with todo := [(0, 2)] } } }
def wPair : State :=
  let s := wBack (.lanes [5, 6])
  { s with lane := { s.lane with empty := [(5, true), (6, true)], out := [(5, 9), (6, 9)] } }
theorem witness_ReturnHappenings :
    (findAcc (wBack (.lanes [5])) 9).map (fun a => a.cap.dst) = some (.lanes [5]) ∧ jobRestartable (wBack (.lanes [5])) none = false
    ∧ (findAcc (wBack (.uniform 5)) 9).map (fun a => a.cap.dst) = some (.uniform 5) ∧ jobRestartable (wBack (.uniform 5)) none = false
    ∧ (findAcc wParts 9).map (fun a => a.todo.get 0) = some 2
    ∧ ((findAcc wPair 9).map (fun a => (a.cap.dst, a.todo.get 0, a.cap.signed)) = some (.lanes [5, 6], 1, false)
        ∧ wPair.outOf (regKey (fibKey 0 0) 5) = 9 ∧ wPair.outOf (regKey (fibKey 0 0) 6) = 9)
    ∧ (findAcc (wBack (.lanes [5])) 9).map (fun a => a.cancelled.getLsbD 0) = some false
    ∧ ((wBack (.lanes [5])).group 0).queue.length + (if ((wBack (.lanes [5])).group 0).handling.isSome then 1 else 0) < 8 :=
  ⟨by decide +kernel, by decide +kernel, by decide +kernel, by decide +kernel, by decide +kernel⟩

/-- Device memory from 0x1000 to 0x3FFF is mapped by the ranges of an operation. -/
def ranges0 : List (Nat × DWord) := [(0, 0), (1, 0x10000), (2, 0x37)]
def by0 : Starter := { rng := ranges0, priv := true }
/-- A page table with one leaf of 8 GiB that maps onto itself under key slot 0. -/
def paged (s : State) : State :=
  let t := wBytes (wBytes s 0x8000 8 0xA001) 0xA000 8 0x1F
  { t with mm := { t.mm with dies := t.mm.dies.put 0 { t.mm.dies.get 0 with ptroot := 0x8001 }, keys := [(0, { st := .shared })] } }
/-- A device's 4-byte request of one kind and stage from die d, for the granule whose poison and key the boot has set. -/
def wReq (die : Nat) (kind : AccKind) (stage : Stage) : State :=
  let s := hap0 3
  { s with mm := { s.mm with reqs := [(3, { src := .device, kind := kind, stage := stage, ia := 0x1000, len := 4, data := 5, die := die, priv := true, pa := 0x1000 })]
                             items := [(4, { src := 1, clock := [0, 1, 0, 0], req := some 3 })]
                             collapses := [(3, { todo := [0, 1] })], nextId := 8 } }
def wSpill : State :=
  let s := hap0 3
  { s with mm := { s.mm with reqs := [(3, { src := .lane 9 0, kind := .store, stage := .heldSpill 0 })]
                             accs := [(9, { cap := { kind := .store, n := 4, lanes := [{ ia := 0x10000 }] }, todo := [(0, 1)], issue := 1 })] } }
def served (s : State) : Bool :=
  match homeXl s 0x1000 .read 0 true with
  | (.serve d pa key, s1) => d == 0 && pa == 0x1000 && key == none && regionOf s1 pa != .device && poisonCause s1 0 0x10 0x10 none == none
  | _ => false
/-- Lane 0's 4-byte request of access 9 for 0x1000, of one kind and stage, from die d, of a job or of none. -/
def wLane (die : Nat) (kind : AccKind) (stage : Stage) (job : Option Nat := none) : State :=
  let s := hap0 3
  let dst : AccDst := if kind == .store then .none else .lanes [5]
  { s with mm := { s.mm with
      reqs := [(3, { src := .lane 9 0, kind := kind, stage := stage, ia := 0x1000, len := 4, data := 5, die := die, priv := true, pa := 0x1000, job := job })]
      accs := [(9, { cap := { kind := kind, n := 4, dst := dst, lanes := [{ ia := 0x1000 }] }, todo := [(0, 1)], issue := 1 })]
      items := [(4, { src := 1, clock := [0, 1, 0, 0], req := some 3 })], nextId := 10 } }
/-- The request is a lane's, in one line, whose home serves it: nothing holds it, and its line, its version line, its lock and its
number can be had. -/
def laneServed (s : State) : Bool :=
  match findReq s 3 with
  | some r => r.src == .lane 9 0 && decide (r.ia % 256 + r.len ≤ 256) && (match homeXl s r.ia (needOf r.kind) r.keyslot r.priv with
    | (.serve d pa _, s1) => d == 0 && pa == 0x1000 && !(collapsing s1 r.ia) && regionOf s1 pa != .device
        && poisonCause s1 0 0x10 0x10 r.job == none && (s1.scLine (scKey 0 0x10)).dirty.isEmpty && !(lockWaits s1 r 0 pa)
        && (r.job.all fun j => verStop s1 0 j 0x10 == .ok) && !(numberFull s1 r.die) && !(numberHeld s1 r.die 3 r)
    | _ => false)
  | none => false
def lanePlain (s : State) : Bool :=
  match findAcc s 9 with
  | some a => a.failed.isEmpty && a.notres == 0 && a.cap.dst == .none && !a.counted && !a.drops
  | none => false
/-- A scratchpad's event; and a store to a page with M set, or with a copy on die 1. -/
def wScratch (kind : AccKind) : State :=
  let s := wLane 0 kind .near
  { s with mm := { s.mm with reqs := s.mm.reqs.upd 3 fun r => { r with scratch := true } } }
def wPage (w0 : Nat) (kind : AccKind) : State :=
  let s := paged (hap0 3)
  { wBytes s 0xA000 8 w0 with mm := { (wBytes s 0xA000 8 w0).mm with reqs := (wLane 0 kind .home).mm.reqs, accs := (wLane 0 kind .home).mm.accs } }
theorem witness_SliceHappenings :
    (findReq (wReq 1 .load .near) 3).map (fun r => (r.stage, r.die, r.scratch, r.event)) = some (.near, 1, false, 0) ∧ homeDie 0x1000 = 0
    ∧ (nearXl (wReq 1 .load .near) 1 0x1000 .read 0 true).1 = .forward
    ∧ served (wReq 0 .load .home) = true ∧ collapsing (wReq 0 .load .home) 0x1000 = false
    ∧ served (wReq 0 .store .home) = true ∧ (findReq (wReq 0 .store .heldM) 3).map (fun r => isHeld r.stage) = some true
    ∧ (findReq wSpill 3).map (·.stage) = some (.heldSpill 0) ∧ (findAcc wSpill 9).map (fun a => (a.todo, a.cap.dst)) = some ([(0, 1)], .none)
    ∧ (findItem (wReq 1 .store .clocked) 4).map (·.src) = some 1
    ∧ poisonCause (wReq 1 .load .clocked) 0 0x10 0x10 none = none
    ∧ (findCollapse (wReq 0 .store .heldM) 3).map (fun c => c.todo.filter (· != 0)) = some [1]
    ∧ (findCollapse { wReq 0 .store .heldM with mm := { (wReq 0 .store .heldM).mm with collapses := [(3, { todo := [0] })] } } 3).map
        (fun c => c.todo.filter (· != 0)) = some []
    ∧ 3 < (wReq 0 .store .heldM).mm.nextId := by decide +kernel
/-- Die 1 has a copy of the page. -/
def wCopy : State :=
  let s := wPage 0x2001F .load
  { s with mm := { s.mm with dies := s.mm.dies.put 1 { s.mm.dies.get 1 with ptroot := 0x8001 } } }
/-- The same, of a lane's requests: loads, stores, atomics and locks at the near slice, at home from either die, held and retried. -/
theorem witness_LaneSliceHappenings :
    ([.load, .store, .atomic 0, .lock false, .lock true].all fun k => laneServed (wLane 0 k .home)) = true
    ∧ ([.load, .store, .atomic 7].all fun k => laneServed (wLane 1 k .home)) = true
    ∧ (laneServed (wLane 0 .load .near) && laneServed (wLane 0 .store .heldM) && laneServed (wLane 0 .store (.heldResidency 0 0))
        && laneServed (wLane 0 .store (.heldSpill 0)) && laneServed (wLane 0 .store .toNumber) && laneServed (wLane 0 .store .home (some 1))) = true
    ∧ lanePlain (wLane 0 .store .home) = true ∧ holdState (wLane 0 .store .home) (some 0) ≠ .faulted
    ∧ (findReq (wScratch .load) 3).map (fun r => (r.stage, r.scratch)) = some (.near, true) ∧ lanePlain (wScratch .store) = true
    ∧ (nearXl (wLane 1 .load .near) 1 0x1000 .read 0 true).1 = .forward
    ∧ (match nearXl wCopy 1 0x1000 .read 0 true with
        | (.serve d pa _, s1) => d == 1 && pa == 0x1000 && poisonCause s1 1 0x10 0x10 none == none
        | _ => false) = true
    ∧ (homeXl (wPage 0x3F .store) 0x1000 .write 0 true).1 = .heldM
    ∧ (match homeXl (wPage (0x1F + 2 ^ 16 + 2 ^ 19) .store) 0x1000 .write 0 true with
        | (.collapse _ dm _ _, s1) => bit dm 1 && s1.mm.collapses.isEmpty
        | _ => false) = true
    ∧ (let s := { wLane 1 .store .clocked with cur := { x := 0, y := 4 } }
       (findItem s 4).map (fun i => (i.src, i.req)) = some (1, some 3) ∧ homeDie 0x1000 = 0 ∧ lanePlain s = true
         ∧ (s.scLine (scKey 0 0x10)).dirty = []) := by decide +kernel

/-- 0 and 12 are the least and most parts of direct storage; 13 is refused. Registers of every kind. -/
theorem witness_DeviceRegisterHappenings :
    (hap 0).mm.reqs = [] ∧ (hap 0 12).cur.y ≤ 12 ∧ bit ((hap 0 12).cfg.devfeat.getD 0 0).toNat 35 = true ∧ locksExceed (hap 0 12) 0 4 = false ∧ setsExceed (trimSets (hap 0 12) 0 4) 0 4 = false
    ∧ ¬((hap 0 13).cur.y ≤ 12) ∧ (hap 0 15).cur.y < 16 ∧ (hap 0).cur.z = 0
    ∧ (let s := { hap (5 * 2 ^ 23 + 8) 0 2 with power := .booting }
       s.cur.z = 2 ∧ s.power ≠ .up ∧ s.dev.images.length = 5 ∧ s.cur.x / 2 ^ 23 < 6)
    ∧ (hap (2 ^ 26 - 8) 0 4).cur.z = 4 ∧ (hap (2 ^ 26 - 8) 0 4).cur.x + 8 ≤ 2 ^ 26
    ∧ regAt (hap 0) 0x20000000020 = .schedcfg 0 ∧ regAt (hap 0) 0x20000000000 = .ptroot 0 ∧ regAt (hap 0) 0x20000000040 = .rqbase 0
    ∧ regAt (hap 0) 0x200040000F8 = .crcons 7 ∧ regAt (hap 0) 0x20000000058 = .rqtail 0 ∧ regAt (hap 0) 0x20004000010 = .crprod 0
    ∧ regAt (hap 0) 0x20004000100 = .inventory := by decide +kernel

def wKey (st : KeyState) : State :=
  let s := hap 0 5
  { s with mm := { s.mm with keys := [(5, { st := st })], sc := [(scKey 0 7, { held := true })] } }
/-- The page of the record is not resident; context 0 is live and its primary slot is 5. -/
def wGap : State := let s := paged (hap 0 5)
  wBytes s 0xA000 8 0x1D
def wPrim : State := let s := wBytes ({ wKey .priv with cfg := { (wKey .priv).cfg with ctxTable := 0 } }) 8 8 1
  wBytes s 0x18 8 5
theorem witness_KeyHappenings :
    keyState (wKey .priv) 5 ≠ .empty ∧ keyState (hap 0 5) 5 = .empty ∧ primaryOfLive (wKey .shared) 5 = false
    ∧ okB (engRead (sysPort 0) 0x1000 72 (hap0 0 5 0x1000)) = true ∧ runAbsent (hap0 0 5 0x1000) (sysPort 0) 0x1000 72 = false
    ∧ runAbsent wGap (sysPort 0) 0x1000 72 = true ∧ primaryOfLive wPrim 5 = true ∧ keyState wPrim 5 = .priv
    ∧ readsUnder (wKey .priv) (.hbm 0x1000) = false ∧ readsUnder (wKey .priv) (.scLine 0 7) = false ∧ (wJob.team 0).job = some 1
    ∧ ((wKey .priv).scLine (scKey 0 7)).held = true := by decide +kernel

def okNext {α : Type} (x : Except Stall (α × State)) : Bool :=
  match x with
  | .ok _ => true
  | .error _ => false

def wXfer (x : Xfer) (y : Nat := 0) (z : Nat := 0) : State :=
  let s := hap0 7 y z
  { s with eng := { s.eng with xfers := [(7, { x with live := true, by_ := by0 })] } }
/-- A record at 0x1000: VALID, linear, from memory to memory, 256 bytes. -/
def wChain : State := wBytes (wXfer { chain := true, next := 0x1000 }) 0x1000 64 (2 ^ 64 + 256 * 2 ^ 256)
def wWait : State :=
  let s := (hap0 0).updEnt 0 fun e => { e with st := .blocked, wake := .barrier 64 0 }
  { s with cur := { x := 0, y := 64, z := 0 } }
/-- A transfer whose next run can be delivered: its source can be read, and neither end is a peer's or a port's. -/
def runB (s : State) : Bool :=
  let x := s.xfer 7
  let n := min 256 (x.total - x.sent)
  x.live && farSource s x == none && farDest s x == none && okNext (runAction 7 x n s) && okNext (srcBytes x n s)
/-- Handle 2 is FILLING for the transfer; a barrier at offset 64 expects 512 bytes. -/
def wFill (x : Xfer) : State :=
  let s := wXfer x
  { s with eng := { s.eng with handles := [(2, { owner := some 0, size := 0x1000, st := .filling, permit := some 7 })] },
           core := { s.core with scratch := s.core.scratch.put (scratchKey 0 65) 2 } }
/-- A run of 256 bytes into memory goes to one line at its home, of no job or of one whose version has room. -/
def destB (s : State) : Bool :=
  let x := s.xfer 7
  let p := xferPort x
  match srcBytes x 256 s with
  | .ok (bs, s0) => (match rangeCheck { rng := p.rng } x.dst bs.length .engWrite with
    | .ok (ia, _) => ia % 256 + bs.length == 256 && x.dst % 65536 + bs.length ≤ 65536 && engPlace s0 p ia == none && p.die == homeDie ia
        && (match engXlate p ia .write bs s0 with
          | .ok ((d, pa, _), s1) => d == homeDie ia && !(s1.mm.engClkd.contains (ia, p.die, p.job)) && regionOf s1 pa != .device
              && (s1.scLine (scKey d (ia / 256))).dirty.isEmpty && p.job.all fun j => verStop s1 d j (ia / 256) == .ok
          | .error _ => false)
    | .error _ => false)
  | .error _ => false
/-- A tensor's descriptor at 0x2000: one-byte elements at 0x1000, three dimensions of 8, a box of 4. -/
def wTensor (kind : XferKind) : State :=
  wBytes (wXfer { kind := kind, src := 0x2000, dkind := 0, dst := 0x1000 }) 0x2000 128
    (0x1000 + 32 * 2 ^ 64 + (8 + 8 * 2 ^ 32 + 8 * 2 ^ 64) * 2 ^ 128 + (4 + 2 ^ 16 + 2 ^ 32) * 2 ^ 768)
def tensorB (s : State) : Bool :=
  let x := s.xfer 7
  x.live && !x.zero && farDest s { x with sent := 0 } == none && x.src % 64 == 0 && (match engReadVa (xferPort x) x.src 128 s with
    | .ok (bs, _) => (match tensorOf bs (x.kind == .unfold) with
      | some T => T.rank == 3 && boxBytes T == 4 && unfoldBytes T x.unfold == 4
      | none => false)
    | .error _ => false)
theorem witness_EngineHappenings :
    ((wXfer { len := 16, chan := some 0, zero := true }).xfer 7).live = true
    ∧ okNext (runAction 7 ((wXfer { len := 512, src := 0x1000, dkind := 1, total := 512 }).xfer 7) 256
        (wXfer { len := 512, src := 0x1000, dkind := 1, total := 512 })) = true
    ∧ tensorB (wTensor .tensor) = true ∧ tensorB (wTensor .unfold) = true
    ∧ (((wXfer { kind := .tensor, src := 0x1001 }).xfer 7).src % 64 ≠ 0 ∧ farDest (wXfer { kind := .tensor, src := 0x1001, dkind := 1 }) { (wXfer { kind := .tensor, src := 0x1001, dkind := 1 }).xfer 7 with sent := 0 } = none)
    ∧ (runB (wXfer { src := 0x1000, dkind := 1, total := 512 }) && runB (wXfer { src := 0x1000, dkind := 1, total := 512, sent := 256, chan := some 0 })
        && runB (wXfer { srcScratch := true, dkind := 0, dst := 0x1000, total := 1 }) && runB (wXfer { kind := .writeBack, dkind := 0, dst := 0x1000, total := 256 })
        && runB (wFill { src := 0x1000, dkind := 2, handle := 2, total := 256 }) && runB (wFill { src := 0x1000, dkind := 1, total := 256, barrier := some 64 })) = true
    ∧ ((wFill {}).handle (handleKey 0 2)).permit = some 7 ∧ targetCores { by_ := by0 } = [0]
    ∧ (sbEval (sbPost 256 (sbWord (wFill {}) 0 64))).2 = false
    ∧ (let s := wXfer { kind := .tensor, tensor := { esz := 1, rank := 1, fill := 7, extent := [2], stride := [], box := [4] }, dkind := 1, total := 4, sent := 0 }
       runB s = true ∧ elementVa (s.xfer 7).tensor (coordsOf (s.xfer 7) 3) = none)
    ∧ destB (wXfer { src := 0x1000, dst := 0x1100, total := 256 }) = true
    ∧ destB (let s := wXfer { src := 0x1000, dst := 0x1100, total := 256 }
             { s with eng := { s.eng with xfers := s.eng.xfers.upd 7 fun x => { x with by_ := { by0 with job := some 1 } } } }) = true
    ∧ (match engReadVa (xferPort (wChain.xfer 7)) 0x1000 64 wChain with
        | .ok (bs, s1) => bit (recordOf bs).ctrl 0 && !(recordBad (recordOf bs)) && !(recordTensor (recordOf bs)) && !(recordOutside s1 (wChain.xfer 7) (recordOf bs))
        | .error _ => false) = true
    ∧ (((wXfer { mcast := [0] }).xfer 7).mcast.all fun c => ((wXfer { mcast := [0] }).xfer 7).granted.contains c) = false
    ∧ opHome (wXfer { mcast := [0] }) by0 = .live 0
    ∧ ((wXfer { mcast := [0] }).group 0).queue.length + (if ((wXfer { mcast := [0] }).group 0).handling.isSome then 1 else 0) < 8
    ∧ (wWait.eng.dogs.get (dogKey 0 64) = 0 ∧ sbWaited wWait 0 64 = true ∧ sbErr wWait 0 64 = 0) :=
  ⟨by decide +kernel, by decide +kernel, by decide +kernel, by decide +kernel, by decide +kernel, by decide +kernel, by decide +kernel,
   by decide +kernel, by decide +kernel, by decide +kernel, by decide +kernel, by decide +kernel⟩

/-- An entry of the tile order with one operand, handle 1, which is being read. -/
def wTile (op : TileOp) (sup : Bool := false) (ended : Bool := false) : State :=
  let s := hap0 0 0
  { s with eng := { s.eng with handles := [(1, { owner := some 0, size := 0x10000, st := .draining, readers := 1 })],
                               tiles := [(0, { live := true, op := op, words := [1], reading := [0], suppressed := sup, ended := ended })] } }
theorem witness_HandleReaderFinish :
    ((wTile .accz).tileEnt 0).live = true
    ∧ ((wTile .accz).handle (handleKey 0 (opHandle (((wTile .accz).tileEnt 0).words.getD 0 0)))).st = .draining := ⟨rfl, by decide +kernel⟩
theorem witness_ArrayHappenings :
    startable (wTile (.mma 0 0 0 0 false false [])) 0 = some 0 ∧ isStopped (wTile (.mma 0 0 0 0 false false [])) ((wTile (.mma 0 0 0 0 false false [])).tileEnt 0) = false
    ∧ startable (wTile .accz true) 0 = some 0 ∧ isStopped (wTile .accz true) ((wTile .accz true).tileEnt 0) = true
    ∧ startable (wTile .accz) 0 = some 0 ∧ startable (wTile (.accld 0)) 0 = some 0
    ∧ startable (wTile (.accst 0 1024 0 0 0 true)) 0 = some 0 ∧ 128 * accSize 0 ≤ 1024
    ∧ ((wTile (.accst 0 1024 0 0 0 true)).tileEnt 0).ended = false := by decide +kernel

def wOp (o : HomeOp) (y : Nat := 0) (z : Nat := 0) : State :=
  let s := hap0 7 y z 0x246
  { s with task := { s.task with ops := [(7, { o with live := true })] } }
/-- Sequence 1 is destroyed while it does not exist, or, live in pool 0, is asked for no span. -/
def wSeq (s : State) : State :=
  let t := { s with cfg := { s.cfg with poolTable := 0x1000, seqTable := 0x1000, seqLen := 2 } }
  wBytes (wBytes t 0x1200 4 0x80000001) 0x1000 64 (2 ^ 63 + 256 * 2 ^ (8 * 0x28) + 0x2000 * 2 ^ (8 * 0x18))
/-- Query 7 of one head on sequence 1: its vector in handle 0 (FULL), its result for handle 1 (FILLING), one slice position left. -/
def wAtt (todo : List Nat) : State :=
  let s := wSeq (hap0 7 5)
  let a : AttQuery := { live := true, by_ := { priv := true }, seq := 1, handle := 1, todo := todo }
  let h : Sparse Handle := [(0, { owner := some 0, size := 0x1000, st := .full }), (1, { owner := some 0, size := 0x1000, st := .filling, permit := some 7 })]
  { s with eng := { s.eng with attqs := [(7, a)], handles := h } }
/-- Sequence 0, which is to grow, does not exist. -/
def wGone : State := wOp { kind := .seqApp 1 } 3
def faultOf {α : Type} (x : Except Stall α) : Option Nat :=
  match x with
  | .error (.fault c _) => some c
  | _ => none
def wJoin : State :=
  let s := hap0 7
  let c : Contrib := { live := true, by_ := by0, desc := 0x1000, rank := 1, vals := [3], dest := 0x1040 }
  { s with eng := { s.eng with contribs := [(7, c)], rounds := [(9, { live := true, key := 0x1000, n := 4, ranks := [(0, [4])], members := [8] })] } }
/-- The control block of a live sequence: k tokens in one span of one block, or none. -/
def seqHead (id k cap chainAt : Nat) : Nat :=
  2 ^ 31 + id + (if k = 0 then 0 else 2 ^ 48 + 2 ^ 128) + k * 2 ^ 56 + k * 2 ^ 64 + k * 2 ^ 96 + cap * 2 ^ 160 + chainAt * 2 ^ 192
/-- An operation on sequence 1, of k tokens in block 0 of pool 0, with room for 4 chain entries; the block has some references, and
the pool has 200 free blocks from block 1 on. Sequence 2 is empty, or holds k2 tokens, with room for some chain entries. -/
def wSeqs (kind : HomeKind) (k : Nat) (ref : Nat := 1) (cap2 : Nat := 4) (k2 : Nat := 0) : State :=
  let o : HomeOp := { kind := kind, target := 1, priv := true }
  let t := wOp o
  let u := { t with cfg := { t.cfg with poolTable := 0x1000, seqTable := 0x1000, seqLen := 2 } }
  let v := wBytes (wBytes u 0x1200 32 (seqHead 1 k 4 0x3000)) 0x1400 32 (seqHead 2 k2 cap2 0x3100)
  let w := wBytes (wBytes v 0x1240 8 (k * 2 ^ 32)) 0x1440 8 (k2 * 2 ^ 32)
  wBytes (wBytes (wBytes w 0x2000 14 (2 ^ k - 1 + 1 * 2 ^ 64 + ref * 2 ^ 96)) 0x2018 3 2) 0x1000 64
    (2 ^ 63 + 0x10000 * 2 ^ 128 + 0x2000 * 2 ^ 256 + 256 * 2 ^ 320 + 200 * 2 ^ 352 + 2 ^ 384)
/-- What a reading of sequence 1 is followed by. -/
def seqB (s : State) (P : SeqBy → SeqRec → Pool → State → Bool) : Bool :=
  match readSeq (opBy s (s.op 7)) 1 s with
  | .ok ((q, p), s0) => P (opBy s (s.op 7)) q p s0
  | .error _ => false
def thenB {α : Type} (x : Except Stall (α × State)) (P : α → State → Bool) : Bool :=
  match x with
  | .ok (a, s) => P a s
  | .error _ => false
/-- SPANTAG; SEQFORK into a sequence that is in use, has too little room, or takes the chain. -/
theorem witness_SequenceContents :
    seqB (wSeqs (.spanTag 3) 10) (fun w q _ s0 => okNext (saveSeq w { q with tag := 3 } s0)) = true
    ∧ seqB (wSeqs (.seqFork 2) 10 1 4 5) (fun w _ _ s0 => thenB (readSeq w 2 s0) fun r _ => r.1.slots != 0) = true
    ∧ seqB (wSeqs (.seqFork 2) 10 1 0) (fun w q _ s0 => thenB (readSeq w 2 s0) fun r _ => r.1.slots == 0 && decide (r.1.cap < q.chain.length)) = true
    ∧ seqB (wSeqs (.seqFork 2) 10) (fun w q p s0 => thenB (readSeq w 2 s0) fun r s1 => r.1.slots == 0 && decide (q.chain.length ≤ r.1.cap)
        && thenB (raiseRefs w p q.chain s1) fun _ s2 => okNext (saveSeq w
          { r.1 with pool := q.pool, tag := q.tag, tail := q.tail, slots := q.slots, nextPh := q.nextPh, spans := q.spans, chain := q.chain } s2)) = true := by decide +kernel
/-- SEQAPP of one token to an empty sequence, of five into its tail block, and of five into a tail block that it shares. -/
theorem witness_SequenceAppends :
    seqB (wSeqs (.seqApp 1) 0) (fun w q p s0 => q.chain.isEmpty && thenB (fillNew w p 1 [1] s0) fun _ s1 =>
        okNext (saveSeq w { q with spans := [⟨0, 1, 0, 0, 0, 0⟩], slots := 1, nextPh := 1, chain := [1], tail := 1 } s1)) = true
    ∧ seqB (wSeqs (.seqApp 5) 10) (fun w q p s0 => decide (5 ≤ 64 - q.tail) && thenB (getRef w p 0 s0) fun _ s1 =>
        thenB (getLive w p 0 s1) fun lv s2 => thenB (setLive w p 0 (lv ||| runMask q.tail 5) s2) fun _ s3 =>
        okNext (saveSeq w { q with spans := lengthen q.spans 5, slots := 15, nextPh := 15, tail := 15 } s3)) = true
    ∧ seqB (wSeqs (.seqApp 5) 10 2) (fun w q p s0 => decide (q.tail < 64) && thenB (getRef w p 0 s0) fun r s1 => decide (1 < r)
        && thenB (copyBlock w p 0 1 s1) fun _ s2 => thenB (getLive w p 0 s2) fun lv s3 => thenB (setLive w p 1 lv s3) fun _ s4 =>
        thenB (setRef w p 0 (r - 1) s4) fun _ s5 => thenB (getLive w p 1 s5) fun lv2 s6 =>
        thenB (setLive w p 1 (lv2 ||| runMask q.tail 5) s6) fun _ s7 => thenB (fillNew w p (5 - (64 - q.tail)) [] s7) fun _ s8 =>
        okNext (saveSeq w { q with spans := lengthen q.spans 5, slots := 15, nextPh := 15, tail := 15, chain := [1] } s8)) = true := by
  decide +kernel
/-- SPANRET of a tag that no span has and of one whose block it empties; KVX of the last slot, KVXR of a phase; the free list. -/
theorem witness_SequenceRetires :
    seqB (wSeqs (.spanRet 3) 10) (fun _ q _ _ => (q.spans.filter fun x => x.tag == 3).isEmpty) = true
    ∧ seqB (wSeqs (.spanRet 0) 10) (fun w q p s0 => q.spans.length == 1 && thenB (retireChain w q.spans 0 q.chain [] p s0) fun r s1 =>
        r.1 == [none] && thenB (saveSeq w { q with chain := [], spans := [], slots := 0, tail := 0 } s1) fun _ s2 =>
          okNext (releaseAll w r.2.2.reverse r.2.1 s2)) = true
    ∧ seqB (wSeqs (.kvx 9 false [{ lane := 0, ia := 1, d := 9 }]) 10) (fun _ q _ _ => slotCell q 9 != none
        && (spanAt Span.slot q.spans 9).isSome && (spanAt Span.ph q.spans 9).isSome && spanAt Span.ph q.spans 10 == none) = true
    ∧ seqB (wSeqs (.seqApp 1) 0) (fun w _ p s0 => thenB (reserve w p 1 s0) fun r s1 => r.2 == [1]
        && okNext (getRef w p 1 s1) && okNext (releaseBlock w r.1 1 s1)) = true := by decide +kernel
theorem witness_SequenceAndRoundHappenings :
    (let s := wSeq (wOp { kind := .spanTag 3, target := 1, priv := true })
      let w := opBy s (s.op 7)
      okNext (atomically (seqReserve w 1 (.spanTag 3)) s) = true ∧ okNext (atomically (seqAction w 1 [] (.spanTag 3)) s) = true
        ∧ okNext (atomically (returnBlocks w 1 0 []) s) = true)
    ∧ faultOf (atomically (seqReserve (opBy wGone (wGone.op 7)) 0 (.seqApp 1)) wGone) = some 0x240
    ∧ faultOf (atomically (seqAction (opBy wGone (wGone.op 7)) 0 [2] (.seqApp 1)) wGone) = some 0x240
    ∧ (wGone.op 7).heldAt = wGone.cur.z
    ∧ okNext (atomically (attAdmit (wAtt []) ((wAtt []).attq 7)) (wAtt [])) = true
    ∧ okNext (sauPartial (wAtt [5]) ((wAtt [5]).attq 7) 5 (wAtt [5])) = true
    ∧ (((wAtt []).handle (handleKey 0 1)).permit = some 7 ∧ ((wAtt []).handle (handleKey 0 1)).st = .filling)
    ∧ (match rangeCheck { rng := by0.rng } 0x1000 32 .engRead with
        | .ok (ia, _) => openRound wJoin ia == some 9
        | .error _ => false) = true
    ∧ 2 ≤ (wJoin.round 9).n ∧ (wJoin.round 9).rootOnly = false ∧ ((wJoin.round 9).ranks.all fun p => p.1 != 1) = true
    ∧ okNext (engWriteVa (contribPort wJoin (wJoin.contrib 7)) 0x1040 (valsBytes [3]) wJoin) = true
    ∧ waitingRound wJoin 7 = none ∧ opHome wJoin by0 = .live 0
    ∧ (wJoin.group 0).queue.length + (if (wJoin.group 0).handling.isSome then 1 else 0) < 8 := by decide +kernel

def o2 (k : HomeKind) (slot : Nat := 0) : State := wOp { kind := k, slot := slot, by_ := .entry 0 0 }
/-- An operation on event 0 of device 1, which can be reached. -/
def wAfar (k : HomeKind) : State :=
  let s := wOp { kind := k, target := 2 ^ 54, by_ := .entry 0 0 }
  { s with cfg := { s.cfg with peers := [1], devfeat := [2 ^ 42] } }
theorem witness_EventHomeHappenings :
    evLocal (o2 (.signal 3)) 0 = true ∧ evForeign (o2 (.futreg 0x1000) 1) 0 1 false = true
    ∧ evForeign (o2 (.futreg 0x1000)) 0 0 false = false
    ∧ (match (evFutreg (o2 (.futreg 0x1000)) 0 0x1000 {}).1 with
        | .ok v => v == 0
        | .error _ => false) = true
    ∧ waitAnswer (o2 .wait) ((o2 .wait).op 7) = none ∧ waitAnswer (o2 .poll) ((o2 .poll).op 7) = some (0, 0)
    ∧ evLocal (o2 (.signal 3)) (2 ^ 54) = false ∧ acquires ((wOp { kind := .poll, value := 2 ^ 63 }).op 7) = true ∧ acquires ((o2 .poll).op 7) = false
    ∧ evElsewhere (o2 (.signal 3)) 0 = false
    ∧ (let s := wAfar (.signal 3)
       evElsewhere s (2 ^ 54) = true ∧ (s.op 7).target = 2 ^ 54 ∧ evLocal s (2 ^ 54) = false ∧ stationHolding s (.event 0 (2 ^ 54) 3) = none)
    ∧ (let s := wOp { kind := .wait, by_ := .peer }
       waitAnswer s (s.op 7) = none ∧ watchReply s (s.op 7) = none)
    ∧ (let s := wResolved (wOp { kind := .poll, by_ := .peer })
       waitAnswer s (s.op 7) ≠ none ∧ watchReply s (s.op 7) ≠ none ∧ (s.op 7).by_ = .peer)
    ∧ ((wAfar .poll).cur.y = 0 ∧ (wAfar .wait).cur.v = 0x246 ∧ (wAfar (.futreg 64)).cur.z ≠ 1)
    ∧ ((wOp { kind := .signal 3, waiting := true }).cur.y ≠ 1 ∧ ((wOp { kind := .signal 3, waiting := true }).op 7).waiting = true)
    ∧ evW1 (hap 0) 1 % 2 ^ 32 ≠ evGen 1 ∧ evStateOf (evW0 (wResolved (hap 0)) 0) = .resolved
    ∧ evW1 (hap 0) 0 % 2 ^ 32 = evGen 0 ∧ evStateOf (evW0 (hap 0) 0) = .empty := by decide +kernel

/-- Record 7, of code c, with other fields; its block or arms, where it has some. -/
def wDec (d : Dec) : State :=
  let s := hap 7
  { s with task := { s.task with decs := [(7, { d with live := true })], grids := [(3, { live := true, src := .stream 0 9 })], nextGrid := 4 } }
def sD (c : Nat) (block : List Byte := []) (done : Nat := 0) : Dec := { rcd := BitVec.ofNat 256 c, block := block, done := done }
/-- O.SIGNAL that waits for event 0 of die 0 and signals its event 1. -/
def sW : Dec := { rcd := BitVec.ofNat 256 (0x3006 + 2 ^ 160) }
def wFaulted (s : State) : State := devPutNat s 0x2000000000 8 (3 * 2 ^ 62)
/-- Device 1 can be reached. -/
def wPeer : State := { hap 7 with cfg := { (hap 7).cfg with peers := [1], devfeat := [2 ^ 42] } }
/-- A block that names memory at 0x1000: of one element, of one chain word, of one record of 16 bytes. -/
def collBlock : List Byte := leBytes 40 (2 ^ 128 + 0x1000 * 2 ^ 192)
def seqBlock : List Byte := leBytes 32 (0x1000 * 2 ^ 64 + 2 ^ 128)
def nodeBlock : List Byte := leBytes 24 (2 ^ 64 + 2 ^ 96 + 0x1000 * 2 ^ 128)
theorem witness_RecordHappenings :
    (match checkRecord (wDec (sD 0)) (sD 0) with
      | .ok b s1 => b.isEmpty && armFailure s1 0 (recArms (sD 0) b) == none
      | _ => false) = true
    ∧ (match checkRecord (wDec (sD 0x4000)) (sD 0x4000) with
      | .fail k => k == 0x20C
      | _ => false) = true
    ∧ (isEngineCode 0 = false ∧ isEngineCode (recCode (sD 0).rcd) = false)
    ∧ armCheck (wDec (sD 0)) 1 0 false = .waits ∧ armCheck (wResolved (hap 7)) 1 0 false = .armed
    ∧ armCheck wPeer (2 ^ 54) 0 false = .remote ∧ evForeign (wFaulted (wDec sW)) (recSignal sW.rcd) 0 false = false
    ∧ stationHolding wPeer (.event 4 (2 ^ 54) 1) = none
    ∧ (((wDec { sD 0 with arms := [(1, 1), (2, 1)] }).dec 7).armSeen = none ∧ ((wDec { sD 0 with arms := [(1, 1)], armSeen := some 0 }).dec 7).armSeen = some 0)
    ∧ (let d : Dec := { sD 7 with vc := [0, 0, 0, 0] }
       ((wDec d).dec 7).vc ≠ [] ∧ ((wDec (sD 7)).dec 7).vc = [] ∧ holdOver (wDec (sD 7)) 7 = true ∧ decWait (wDec (sD 7)) 7 ≠ .send
         ∧ holdOver (wDec { sD 8 with grids := [4] }) 7 = true ∧ ((wDec { sD 0xF with grids := [4], vc := [1] }).dec 7).grids = [4])
    ∧ (((wDec (sD 5 collBlock)).dec 7).answer = none ∧ holdState (wDec (sD 5 collBlock)) ((wDec (sD 5 collBlock)).dec 7).held ≠ .faulted)
    ∧ decWait (wDec (sD 7)) 7 = .ends 0 ∧ decWait (wFaulted (wDec sW)) 7 = .ends 0x203
    ∧ (recCode sW.rcd = 6 ∧ recSignal sW.rcd = 2 ^ 32 ∧ evLocal (wFaulted (wDec sW)) (2 ^ 32) = true)
    ∧ ((wDec { sD 8 with grids := [3] }).grid 3).live = true ∧ ((wDec { sD 8 with grids := [4] }).grid 4).live = false
    ∧ okNext (engReadVa (decPort { sD 5 collBlock with bankRng := ranges0 }) 0x1000 8 (paged (wDec (sD 5 collBlock)))) = true
    ∧ (blockBits collBlock 24 8 = 0x1000 ∧ 8 * blockBits collBlock 16 4 = 8)
    ∧ okNext (engRun (decPort { sD 9 seqBlock with bankRng := ranges0 }) .engWrite 0x1000 4 (paged (wDec (sD 9 seqBlock)))) = true
    ∧ (blockBits seqBlock 0 1 ≠ 1 ∧ blockBits seqBlock 8 8 = 0x1000 ∧ 4 * blockBits seqBlock 16 4 = 4 ∧ blockBits (leBytes 32 1) 0 1 = 1)
    ∧ okNext (engReadVa (decPort { sD 10 nodeBlock with bankRng := ranges0 }) 0x1000 16 (paged (wDec (sD 10 nodeBlock)))) = true
    ∧ (0 < blockBits nodeBlock 8 4 ∧ blockBits nodeBlock 16 8 = 0x1000 ∧ 16 * blockBits nodeBlock 12 1 = 16
      ∧ blockBits nodeBlock 8 4 ≤ 1 ∧ ((wDec (sD 10 nodeBlock 1)).job 0).signal = 0) := by decide +kernel

/-- Die 0 with stream 0 in use, its next record at 0x1000, and queue 0 in use with one record in its buffer. -/
def wSrc (seq : Nat) (gen : Nat := 0) (res : Bool := true) : State :=
  let s := hap 0 0
  let t := wBytes (wBytes (wBytes (wBytes s 0x3000000000 8 (2 ^ 63)) 0x3000000008 8 0x1000) 0x1000 4 (seq * 65536)) 0x3500000000 8 (2 ^ 63)
  { t with task := { t.task with queues := [(0, { buf := [(0, 0)], gen := gen, resident := res })] } }
/-- Punnet 0 of die 0: valid, records of 16 bytes, room for 4 at 0x1000; two are in the batch and its timer runs. -/
def wPun (pressure : Bool) : State :=
  let s := hap 0 0 1
  let t := wBytes (wBytes (wBytes s 0x3700000005 1 1) 0x370000000E 2 4) 0x3700000010 8 0x1000
  { t with cfg := { t.cfg with pbase := [0x3700000000] },
           task := { t.task with punnets := [(0, { total := 2, batch := 2, depth := 2, timer := true, stamp := 1, pressure := pressure })] } }
def wDeposit (rsz : Nat) : HomeOp := { live := true, kind := .deposit rsz (leBytes 16 5) }
theorem witness_SourceHappenings :
    bit (streamCtl (wSrc 0) 0 0) 63 = true
    ∧ (match engRead (sysPort 0) 0x1000 32 (wSrc 0) with
      | .ok (bs, _) => recSeq (bytesToRec bs) == 0 && bits (devNat (wSrc 0) (streamAddr (wSrc 0) 0 0 + 8) 8) 51 5 * 32 == 0x1000
      | .error _ => false) = true
    ∧ (match engRead (sysPort 0) 0x1000 32 (wSrc 5) with
      | .ok (bs, _) => recSeq (bytesToRec bs) == 5
      | .error _ => false) = true
    ∧ recSeq (sourceDec (wSrc 0) 0 0).rcd = 0
    ∧ queueLive (wSrc 0) 0 0 = true ∧ (nextOfQueue (wSrc 0) 0 0).isSome = true
    ∧ flowReady (hap 0) 0 0 = false ∧ flowReady (wResolved (wSrc 0)) 0 0 = true ∧ feedState (wResolved (wSrc 0)) 0 0 = .ends 0
    ∧ flowReady (wFaulted (wSrc 0)) 0 0 = true ∧ feedState (wFaulted (wSrc 0)) 0 0 = .ends 0x203
    ∧ queueLive (wSrc 0 1) 0 0 = false ∧ queuePlace (wSrc 0 0 false) 0 = some none ∧ ((wSrc 0 0 false).queue (srcKey 0 0)).resident = false
    ∧ (((wPun false).pun (punKey 0 0)).timer = true ∧ ((wPun false).pun (punKey 0 0)).batch = 2)
    ∧ bit (queueCtl (hap 0) 0 0) 63 = false ∧ stationHolding (wSrc 0) (.queueStatus 0 0) = none
    ∧ (queueSpilled (wSrc 0) 0 0 = [] ∧ queueBacked (wSrc 0) 0 0 = 0)
    ∧ depositState (wPun false) (wDeposit 1) 1 = .fail 0x208 ∧ depositState (wPun true) (wDeposit 0) 0 = .blocked
    ∧ (wDeposit 0).waiting = false ∧ ({ wDeposit 0 with waiting := true, yields := true } : HomeOp).yields = true
    ∧ depositState (wPun false) (wDeposit 0) 0 = .apply ∧ okNext (deposit (wPun false) 0 0 (leBytes 16 5) (wPun false)) = true := by decide +kernel

/-- Context 1 is live: its XRNG0 maps 0x1000, where routine 0 has a table entry of one fibre; debugging is allowed; its save area holds
frames of 64 KiB from 0x10000. -/
def wCtx (s : State) : State :=
  let t := { s with cfg := { s.cfg with ctxTable := 0, routines := [(2 ^ 20, 0x1000)] } }
  let f := wBytes (wBytes (wBytes t 0x408 8 1) 0x480 8 0) 0x488 8 0x10000
  let r := wBytes (wBytes (wBytes f 0x490 8 0x8B) 0x1000 32 (0x1080 + 64 * 2 ^ 64)) 0x618 8 1
  wBytes (wBytes r 0x600 8 0x10000) 0x608 8 (1 + 2 ^ 32)
def wJobs (j : Job) (x : Nat) (y : Nat := 0) (z : Nat := 0) : State :=
  let s := hap x y z
  { s with task := { s.task with jobs := [(5, { j with live := true, slot := 1 })] } }
/-- Worker team 0 of core 0 waits, and the core's mailbox holds job 5. -/
def wTake : State :=
  let s := wCtx (toWaitLoop ((wJobs {} 0 0).setTeam 0 { groups := [0] }) 0)
  { s with task := { s.task with mail := [(0, [(0, 5)])] } }
/-- Job 5 on that team, being sent back. -/
def wBackTeam (b : SendBack) (j : Job := {}) : State :=
  let s := wCtx (wJobs { j with at_ := .placed 0 0 } 0 0 5)
  s.setTeam 0 { job := some 5, bound := true, n := 1, groups := [], back := b, frame := some 0 }
theorem witness_JobHappenings :
    ((wJobs {} 5).job 5).at_ = .queued ∧ jobWait (wFaulted (wJobs {} 5)) 5 0 = .fault ∧ isResidency (wFaulted (wJobs {} 5)) 0 = false
    ∧ (nextJob (wJobs { eligible := true } 0) 0 = some 5 ∧ mailCore (wJobs { eligible := true } 0) 0 = some 0
      ∧ freeMail (wJobs { eligible := true } 0) 0 = some 0)
    ∧ workerReady (hap 0) 0 0 = false ∧ workerReady wTake 0 0 = true ∧ bestMail wTake 0 = some (0, 5) ∧ jobStale wTake 5 = false
    ∧ (match readRoutine (wTake.post .workerTakeJob 0 0) 0 5 with
      | .ok _ f s2 => (s2.job 5).frame == none && decide (1 ≤ fteTeam f) && decide (fteTeam f ≤ 64)
      | _ => false) = true
    ∧ (((wJobs { ended := true } 5 1).job 5).ended = true ∧ liveChildren (wJobs { ended := true } 5 1) 5 = false)
    ∧ drainable { hap 0 with task := { (hap 0).task with backlog := [(0, [(0, 7)])], rings := [(0, { ctl := 0x8000010000000004 })] } } 0
        = some (0, 7)
    ∧ contextTeams (hap 0 0 2) 0 0 = []
    ∧ backAction (wBackTeam .deciding) 0 false = .save ∧ saveFrame (wBackTeam .deciding) 0 5 = some 0
    ∧ saveFrame (wJobs {} 0) 0 5 = none ∧ backAction (wBackTeam .deciding { restartable := true }) 0 false = .flush
    ∧ backAction ({ wBackTeam .deciding with task := { (wBackTeam .deciding).task with est := [(0, [(0, [100])])] } }) 0 false = .drain
    ∧ ((wBackTeam .saving).team 0).frame = some 0 ∧ ((wBackTeam .saving).job (wBackTeam .saving).cur.z).live = true
    ∧ frameAt (wBackTeam .saving) 1 0 = 0x10000
    ∧ (let s := wBackTeam .saving
       let b := s.bank (0 * 4 + (s.team 0).bank)
       okNext (engWrite (framePort s 0 (bankSlot b) b.keyslot.toNat 0x10000) 0x10000 (packTeam s 0 5) s) = true) := by decide +kernel

/-! ## Witnesses: debugging, service, the words and the step -/

/-- A debug command of core 0 for team 0, of job 5 of context 1, which allows it: a fibre and a register, and how the team stands. -/
def wDbg (fibre reg halt : Nat) (stepping : Bool := false) : State :=
  let s := wCtx (wJobs { at_ := .placed 0 0 } 0 0)
  let t := s.setTeam 0 { job := some 5, bound := true, n := 1, groups := [0], halt := halt, stepping := stepping }
  let u := t.updGroup 0 fun g => { g with team := some 0, live := 1 }
  u.updCregs 0 fun r => { r with dbgcmd := BitVec.ofNat 64 (fibre * 2 ^ 38 + reg * 2 ^ 48) }
def wSvc (unit : Nat) (off : Bool := false) : State :=
  let s := hap 0
  { s with dev := { s.dev with svccmd := BitVec.ofNat 64 unit } }.updCregs unit fun r => { r with offline := off }
/-- The report's address is 0x1000. -/
def wAttest : State :=
  let s := hap 0
  { s with dev := { s.dev with attcmd := 0x1000 } }
/-- Die 0's replay session, whose block is at 0x1000, at the end of a pass. -/
def wReplayPass (se : Session) : State :=
  let s := hap 0
  { s with task := { s.task with sessions := [(0, { se with live := true, block := 0x1000, bankRng := ranges0 })] } }
def passB (s : State) : Bool :=
  match settlePass s 0 (s.task.sessions.get 0) with
  | .ok _ => true
  | _ => false
theorem witness_DebugAndServiceHappenings :
    (dbgAllowed (hap 0) (dbgTeam (hap 0) 0) = false ∧ dbgAllowed (wDbg 0 5 2) (dbgTeam (wDbg 0 5 2) 0) = true)
    ∧ (((wDbg 0 5 0).team 0).halt ≠ 2 ∧ ((wDbg 0 5 2).team 0).halt = 2 ∧ ((wDbg 0 5 2).team 0).stepping = false
      ∧ ((wDbg 0 5 2 true).team 0).stepping = true ∧ ((wDbg 0 5 2).team 0).job.isSome = true)
    ∧ dbgLoc (wDbg 1 5 2) 0 0 = .dead ∧ dbgLoc (wDbg 0 255 2) 0 0 = .absent ∧ dbgLoc (wDbg 0 0 2) 0 0 = .lane 0
    ∧ dbgLoc (wDbg 0 63 2) 0 0 = .lane 63
    ∧ ((hap 0).task.sessions.get 0).live = false
    ∧ (((wReplayPass {}).task.sessions.get 0).live = true ∧ passB (wReplayPass {}) = true ∧ passB (wReplayPass { pass := 1, passes := 3, digest := 5 }) = true)
    ∧ (let s := wReplayPass { settling := true, passes := 1 }
       let u := wReplayPass { settling := true, passes := 3, overflow := true }
       let v := wReplayPass { settling := true, passes := 255 }
       ((s.task.sessions.get 0).passes ≤ (s.task.sessions.get 0).pass + 1) ∧ (u.task.sessions.get 0).overflow = true
        ∧ (v.task.sessions.get 0).overflow = false ∧ (v.task.sessions.get 0).pass + 1 < (v.task.sessions.get 0).passes)
    ∧ (let s := wDbg 0 0 2
       let t := { s with lane := { s.lane with out := [(0, 9)] }, mm := { s.mm with accs := [(9, { cap := capOf, todo := [(0, 1)] })] } }
       dbgLoc t 0 0 = .lane 0 ∧ (findAcc t (t.outOf 0)).isSome = true)
    ∧ (0 < (wSvc 0).cfg.stations ∧ (wSvc 0).dev.stationsOff = [] ∧ (hap 0 1).cur.y = 1 ∧ (hap 0 0).cur.y ≠ 1)
    ∧ svcCoreAbsent (wSvc 192) (svcUnit (wSvc 192)) = true ∧ svcCoreAbsent (wSvc 191) (svcUnit (wSvc 191)) = false
    ∧ (((wSvc 191 true).cregs 191).offline = true ∧ ((wSvc 191).cregs 191).offline = false)
    ∧ haltedOn (wDbg 0 5 2) 0 = true ∧ haltedOn (wSvc 0) 0 = false
    ∧ (residentTeams (hap 0) 0 = [] ∧ residentTeams (wDbg 0 5 0) 0 = [0])
    ∧ chanPresent (hap 0) 0 63 = true
    ∧ chanPresent { hap 0 with mm := { (hap 0).mm with dies := [(0, { offlineChans := [63] })] } } 0 63 = false
    ∧ reportAbsent wAttest = false
    ∧ okNext (engRead (reportPort wAttest) (reportAddr wAttest) 48 wAttest) = true
    ∧ okNext (engWrite (reportPort wAttest) (reportAddr wAttest) (report wAttest) wAttest) = true := by decide +kernel

theorem witness_DecodeEncode :
    (Instr.mmaQ4 ⟨true, 7, 63, 0, 3, 0, 3, true, true⟩).isWord = true ∧ (Instr.mmaQ4 ⟨true, 7, 63, 0, 3, 0, 3, true, true⟩).wellFormed = true := by
  decide
/-- A word stored where the step fetches is fetched, decodes, and is what the next step runs. -/
theorem witness_StepRunsDecoded :
    let s := State.reset.withFetchWord 32 0x80fe0840
    s.power ≠ .stopped ∧ chosen s = some (.issue 0) ∧ (s.slotAt 0).ent = some 0 ∧ (s.slotAt 0).issues = 0
      ∧ repOpen (atSlot (elapse s 1) 0 0) = false
      ∧ (match fetchFor (atSlot (elapse s 1) 0 0) 0 with
        | .run s1 => !(repAct (curEntry s1).repst) && rawDecode s1.cur.word.toNat s1.cur.dword.toNat == some (.sadd ⟨false, 63, 1, 2, 0⟩)
        | _ => false) = true := by decide +kernel
/-- The parked fibres' group, whose team waits. -/
def wTurn : State := { wParked.updTeam 0 fun t => { t with waiting := true } with uni := { wParked.uni with slots := [] } }
theorem witness_StepHappenings :
    chosen State.reset = some (.item 0) ∧ chosen { State.reset with agenda := [] } = none
    ∧ chosen wReady = some (.arbitrate 0) ∧ chosen wTurn = some (.rotate 0) ∧ Memory.wf State.reset.mm.mem = true
    ∧ (let s := { State.reset with power := .stopped, agenda := [{ what := .jobEligible }] }
       s.power = .stopped ∧ s.agenda.any (hostReaches s) = false)
    ∧ (let s := { State.reset with power := .stopped, agenda := [{ what := .jobEligible }, { what := .resetGo }] }
       s.agenda.findIdx? (hostReaches s) = some 1 ∧ (s.agenda[1]?).map (·.what) = some .resetGo) := by decide +kernel

/-! ## What the checks of WellFormed refuse -/

theorem test_reserved_values_refused :
    ([.vshli ⟨false, 0, 4, 5, 32⟩, .vcvt ⟨false, 0, 4, 5, 0xD8⟩, .vmov ⟨false, 0, 4, 5, 1⟩, .fclass ⟨false, 0, 4, 5, 3⟩, .vbcast ⟨false, 0, 4, 5, 64⟩,
      .vlane ⟨false, 0, 4, 7⟩, .vatadd ⟨false, 0, 4, 5, 0, 7, false⟩, .vldW ⟨false, 0, 4, 5, 0, 3, false, false⟩,
      .scmp ⟨false, 8, 1, 2, 0⟩, .ssel ⟨false, 1, 2, 3, 16⟩, .setwin ⟨false, 0, 8⟩, .rep ⟨false, 0, 33⟩, .trap ⟨false, 0, 64⟩,
      .srd ⟨false, 0, 0x103⟩, .brx ⟨false, 3, 0, 0, 0, 0⟩, .fence ⟨false, 0, 0, 0, 0, 7⟩, .cpy ⟨false, 0, 3, 0, 0, 0⟩, .waitc ⟨false, 0, 0, 0, 0, 5⟩,
      .mmaE4m3 ⟨false, 0, 0, 0, 0, 0, 1, false, false⟩, .mmaQ4 ⟨false, 0, 0, 0, 0, 0, 0, false, false⟩] : List Instr).all
      (fun i => !(reservedOk i) && !i.wellFormed) = true := by decide
theorem test_unused_fields_refused :
    ([.ret ⟨false, 0, 0, 0, 1⟩, .fneg ⟨false, 0, 4, 5, 1⟩, .vpref ⟨false, 0, 1, 0, 0, 0, false, false⟩,
      .vldNd ⟨false, 0, 4, 5, 0, 0, false, false⟩ ⟨true, 0⟩, .sadd ⟨false, 1, 2, 3, 4⟩, .callx ⟨false, 1, 2, 0, 0⟩, .fence ⟨false, 0, 1, 0, 0, 0⟩,
      .accz ⟨false, 0, 1, 0, 0, 0, 0, false, false⟩, .mmaBf16 ⟨false, 0, 0, 0, 1, 0, 0, false, false⟩] : List Instr).all
      (fun i => reservedOk i && !(unusedOk i) && !i.wellFormed) = true := by decide
theorem test_rows_told_apart :
    rowOk (.vmov ⟨false, 0, 4, 5, 128⟩) = false ∧ rowOk (.vmovUniform ⟨false, 0, 4, 0, 5⟩) = false
    ∧ rowOk (.bufsetCfg ⟨false, 1, 0, 0, 0, 0⟩) = false ∧ rowOk (.bufsetRel ⟨false, 0, 0, 0, 0, 0⟩) = false := by decide

/-! ## Words written out from the encodings -/

/-- Lane words (Table 82): opcode at bit 20, p at 27, vd at 14, va at 8, vb at 2 or the base at 4 and the scope at 1.
DADD v4, v6, v8; VATADD under p1 at s5 + v2 with scope 6 and W; KVX v62, v1, v2. -/
theorem test_lane_words :
    decodeTableWord 32 0x03010620 = some (.dadd ⟨false, 0, 4, 6, 8, false, false⟩)
    ∧ decodeTableWord 32 0x0E80C25D = some (.vatadd ⟨false, 1, 3, 2, 5, 6, true⟩)
    ∧ decodeTableWord 32 0x04CF8108 = some (.kvx ⟨false, 0, 62, 1, 2, false, false⟩)
    ∧ decodeTableWord 32 0x00F1051F = some (.vshli ⟨false, 0, 4, 5, 31⟩) := by decide +kernel
/-- Uniform words (Table 83): opcode at bit 23, sd at 17, sa at 11, sb at 5. SADD s63, s1, s2; SCMP's inverted relation 5 into c3;
BR −1 on not c0; CALL 0x10000; SRD s5 from XRNG15's LIMIT; LLOCK; EVSIG s40; OPSUB s7; SEQAPP s2, s3, s4; BUFQ s9, handle 33. -/
theorem test_uniform_words :
    decodeTableWord 32 0x80FE0840 = some (.sadd ⟨false, 63, 1, 2, 0⟩)
    ∧ decodeTableWord 32 0x87860855 = some (.scmp ⟨false, 3, 1, 2, 0x15⟩)
    ∧ decodeTableWord 32 0x9047FFFF = some (.br ⟨false, true, 0, 0x7FFFF⟩)
    ∧ decodeTableWord 32 0x91010000 = some (.call ⟨false, 0, 0x10000⟩)
    ∧ decodeTableWord 32 0x968A013D = some (.srd ⟨false, 5, 0x13D⟩)
    ∧ decodeTableWord 32 0x98821060 = some (.llock ⟨false, 1, 2, 3, 0⟩)
    ∧ decodeTableWord 32 0xAC014000 = some (.evsig ⟨false, 0, 40, 0, 0⟩)
    ∧ decodeTableWord 32 0xAF803800 = some (.opsub ⟨false, 0, 7, 0, 0⟩)
    ∧ decodeTableWord 32 0xB4041880 = some (.seqapp ⟨false, 2, 3, 4, 0⟩)
    ∧ decodeTableWord 32 0x9E120021 = some (.bufq ⟨false, 9, 33⟩) := by decide +kernel
/-- Engine words (Table 83): e2 at bit 21, h6 at 15, sa at 9, sb at 3, m3 at 0; MMA's acc3 at 20, sa at 14, sb at 8, bsel at 2.
FENCE 3 at scope 5; CPY of kind 1; WAITC of class 4; SBWAIT on s6 for phase 1; MMA.Q4 into tile 7. -/
theorem test_engine_words :
    decodeTableWord 32 0x98600005 = some (.fence ⟨false, 3, 0, 0, 0, 5⟩)
    ∧ decodeTableWord 32 0x9C200828 = some (.cpy ⟨false, 1, 0, 4, 5, 0⟩)
    ∧ decodeTableWord 32 0x9D800004 = some (.waitc ⟨false, 0, 0, 0, 0, 4⟩)
    ∧ decodeTableWord 32 0xA0800C01 = some (.sbwait ⟨false, 0, 0, 6, 0, 1⟩)
    ∧ decodeTableWord 32 0xA6714605 = some (.mmaQ4 ⟨false, 7, 5, 6, 0, 0, 1, false, true⟩) := by decide +kernel

/-! ## Single steps -/

def nextB (o : Host.Outcome State Fault Refusal) (P : State → Bool) : Bool :=
  match o with
  | .next t => P t
  | _ => false
/-- A 64-bit add wraps, with the destination a source (R355). -/
theorem test_sadd_wraps :
    nextB (exec (.sadd ⟨false, 1, 1, 2, 0⟩) (wS [(1, 0xFFFFFFFFFFFFFFFF), (2, 2)])) (fun t => t.uni.sreg.get 1 == 1) = true := by decide +kernel
/-- VMOV of a uniform register is in every lane; VADD wraps at 32 bits (R320). -/
theorem test_vadd_wraps :
    nextB (exec (.vadd ⟨false, 0, 4, 5, 5, false, false⟩)
      { w0 with lane := { w0.lane with reg := [(regKey 0 5, 0x80000001)] } }) (fun t => t.laneReg (regKey 0 4) == 2) = true := by decide +kernel
/-- BR under N with index 0 is always taken, and its offset of −1 counts from its own address (R248, R364). -/
theorem test_branch_always :
    nextB (exec (.br ⟨false, true, 0, 0x7FFFF⟩) { w0 with cur := { w0.cur with len := 4 } })
      (fun t => (curPc t).toNat == 0xFFC) = true := by decide +kernel
/-- The step runs the word that stands where it fetches. -/
theorem test_step_runs_word :
    nextB (step (State.reset.withFetchWord 32 0xC1020007)) (fun t => t.uni.sreg.get 1 == 7) = true := by decide +kernel

end Checks
end

section
/-! PROOF. Lane instructions that read no lane register, a uniform register, or another lane's register
(R334 to R338, R340): the halves of a uniform register, what a cross-lane read examines and returns, and the outcomes
of VMOVI, VLANE, VFIBRE, VMOV of a uniform register, VBCAST and VSHUF. -/
namespace Sys2Proof.Machine

variable {s : State}

/-! ## Halves of a uniform register (R334) -/

theorem bit_toNat_eq_getLsbD {w : Nat} (v : BitVec w) (k : Nat) : bit v.toNat k = v.getLsbD k := by
  rw [bit, BitVec.getLsbD, Nat.testBit_eq_decide_div_mod_eq]
  rfl

theorem lo32_eq_extractLsb' (v : DWord) : lo32 v = v.extractLsb' 0 32 := by
  apply BitVec.eq_of_toNat_eq
  simp [lo32]

theorem hi32_eq_extractLsb' (v : DWord) : hi32 v = v.extractLsb' 32 32 := by
  apply BitVec.eq_of_toNat_eq
  simp [hi32, Nat.shiftRight_eq_div_pow]

theorem uniformHalf_eq_extractLsb' (s : State) (n : BitVec 8) :
    uniformHalf s n.toNat = if n.getLsbD 6 then (rdS s (n.toNat % 64)).extractLsb' 32 32
      else (rdS s (n.toNat % 64)).extractLsb' 0 32 := by
  rw [uniformHalf, bit_toNat_eq_getLsbD, hi32_eq_extractLsb', lo32_eq_extractLsb']

/-! ## What a cross-lane read examines and returns (R336, R337) -/

/-- R336: a cross-lane read examines one register, and only in a lane that is readable. -/
theorem mem_readSrc {j r : Nat} {trap : Bool} {x : Src} :
    x ∈ readSrc s j r trap ↔ (heldLanes s).getLsbD j = true ∧ x = ⟨j, r, trap⟩ := by
  by_cases hj : (heldLanes s).getLsbD j = true
  · simp [readSrc, readable, hj]
  · simp [readSrc, readable, hj]

theorem readSrc_full {j r : Nat} {trap : Bool}
    (h : (heldLanes s).getLsbD j = true → isEmptyLoc s (locate s j r) = false) :
    ∀ x ∈ readSrc s j r trap, isEmptyLoc s (locate s x.lane x.r) = false := by
  intro x hx
  obtain ⟨hj, rfl⟩ := mem_readSrc.1 hx
  exact h hj

theorem shufLane_eq_some {l r j : Nat} : shufLane s l r = some j ↔ (rdV s l r).toNat < 64 ∧ (rdV s l r).toNat = j := by
  simp [shufLane]

/-- The registers that VSHUF examines in the named lanes (R337). -/
def shufSrcs (s : State) (o : LR) (lanes : List Nat) : List Src :=
  lanes.flatMap fun l => match shufLane s l o.v.toNat with
    | some j => readSrc s j o.a.toNat o.fa
    | none => []

/-- The word that VSHUF gives lane l (R337). -/
def shufWord (s : State) (o : LR) (l : Nat) : Word :=
  match shufLane s l o.v.toNat with
  | some j => crossRead s j o.a.toNat
  | none => 0

theorem exec_vshuf (o : LR) (s : State) :
    exec (.vshuf o) s = .next (laneCompute s (.vshuf o) o.p [⟨o.v.toNat, 1, o.fb⟩] (shufSrcs s o) o.d.toNat 1
      fun l => [shufWord s o l]) := rfl

theorem shufSrcs_full {o : LR} {lanes : List Nat}
    (h : ∀ l ∈ lanes, (rdV s l o.v.toNat).toNat < 64 → (heldLanes s).getLsbD (rdV s l o.v.toNat).toNat = true →
      isEmptyLoc s (locate s (rdV s l o.v.toNat).toNat o.a.toNat) = false) :
    ∀ x ∈ shufSrcs s o lanes, isEmptyLoc s (locate s x.lane x.r) = false := by
  intro x hx
  obtain ⟨l, hl, hx⟩ := List.mem_flatMap.1 hx
  cases hj : shufLane s l o.v.toNat with
  | none => simp [hj] at hx
  | some j =>
    obtain ⟨hlt, rfl⟩ := shufLane_eq_some.1 hj
    rw [hj] at hx
    exact readSrc_full (h l hl hlt) x hx

theorem shufWord_eq (s : State) (o : LR) (l : Nat) :
    shufWord s o l = if (rdV s l o.v.toNat).toNat < 64 ∧ (heldLanes s).getLsbD (rdV s l o.v.toNat).toNat = true
      then rdV s (rdV s l o.v.toNat).toNat o.a.toNat else 0 := by
  by_cases hlt : (rdV s l o.v.toNat).toNat < 64
  · simp [shufWord, shufLane, crossRead, readable, hlt]
  · simp [shufWord, shufLane, hlt]

/-! ## From a lane operation to the outcome of its instruction -/

/-- An instruction that is performed by `laneCompute` has the outcome of a ready lane instruction. -/
theorem LaneReady.result {i : Instr} {p : BitVec 3} {fs : List Field} {extra : List Nat → List Src} {d k : Nat}
    {f : Nat → List Word} (h : LaneReady s i p fs d k) (he : exec i s = .next (laneCompute s i p fs extra d k f))
    (hx : ∀ x ∈ extra (activeLanes s p.toNat), isEmptyLoc s (locate s x.lane x.r) = false) (hf : ∀ l, (f l).length = k) :
    LaneResult i s p d k f :=
  ⟨_, he, laneCompute_wrote h hx hf⟩

/-- The same for an LW instruction without sources. -/
theorem LaneReady.lwResult {i : Instr} {o : LW} {f : Nat → Word} (h : LaneReady s i o.p [] o.d.toNat 1)
    (he : exec i s = .next (lwOp i o f s)) : LaneResult i s o.p o.d.toNat 1 fun l => [f l] :=
  h.result he (List.forall_mem_nil _) fun _ => rfl

theorem withUniform_ready {rs : List Nat} (act : State) (h : UniformFree s rs) : withUniform s rs act = act := by
  have hb : (rs.filter fun r => s.uni.sout.get (curGk s * 64 + r) != 0) = [] := by
    rw [List.filter_eq_nil_iff]; intro r hr; simp [h r hr]
  simp [withUniform, hb]

/-- VMOV of a uniform register does what a lane computation without sources does, once no access into that register is
outstanding: its destination alone is examined, and that group of one always fits. -/
theorem exec_vmovUniform_ready {o : LI} (h : LaneReady s (.vmovUniform o) o.p [] o.d.toNat 1)
    (hu : UniformFree s [o.imm.toNat % 64]) :
    exec (.vmovUniform o) s = .next (laneCompute s (.vmovUniform o) o.p [] (fun _ => []) o.d.toNat 1
      fun _ => [uniformHalf s o.imm.toNat]) := by
  rw [laneCompute_ready h (List.forall_mem_nil _)]
  change Host.Outcome.next (laneWord ..) = _
  rw [laneWord_ready _ h.active h.decodes, withUniform_ready _ hu,
    withSources_ready _ (List.forall_mem_nil _) (fieldSrcs_free h.free)]

/-! ## The outcomes -/

/-- R334: the half of the uniform register that the immediate names is in every active lane. -/
theorem vmovUniform_result {o : LI} (h : LaneReady s (.vmovUniform o) o.p [] o.d.toNat 1)
    (hu : UniformFree s [o.imm.toNat % 64]) :
    LaneResult (.vmovUniform o) s o.p o.d.toNat 1 fun _ =>
      [if o.imm.getLsbD 6 then (rdS s (o.imm.toNat % 64)).extractLsb' 32 32
        else (rdS s (o.imm.toNat % 64)).extractLsb' 0 32] := by
  rw [← uniformHalf_eq_extractLsb']
  exact h.result (exec_vmovUniform_ready h hu) (List.forall_mem_nil _) fun _ => rfl

/-- R338: the reserved bits of the immediate are 0, so that it is the source lane itself. -/
theorem vbcast_result {o : LI} (h : LaneReady s (.vbcast o) o.p [] o.d.toNat 1)
    (hfull : (heldLanes s).getLsbD o.imm.toNat = true → isEmptyLoc s (locate s o.imm.toNat o.a.toNat) = false) :
    LaneResult (.vbcast o) s o.p o.d.toNat 1 fun _ =>
      [if (heldLanes s).getLsbD o.imm.toNat then rdV s o.imm.toNat o.a.toNat else 0] := by
  have hlt : o.imm.toNat < 64 := of_decide_eq_true h.decodes.reserved
  have he : exec (.vbcast o) s = .next (laneCompute s (.vbcast o) o.p []
      (fun _ => readSrc s (o.imm.toNat % 64) o.a.toNat false) o.d.toNat 1
      fun _ => [crossRead s (o.imm.toNat % 64) o.a.toNat]) := rfl
  rw [Nat.mod_eq_of_lt hlt] at he
  exact h.result he (readSrc_full hfull) fun _ => rfl

/-- R337: each active lane receives the register of the lane that its own vb names. -/
theorem vshuf_result {o : LR} (h : LaneReady s (.vshuf o) o.p [⟨o.v.toNat, 1, o.fb⟩] o.d.toNat 1)
    (hfull : ∀ l ∈ activeLanes s o.p.toNat, (rdV s l o.v.toNat).toNat < 64 →
      (heldLanes s).getLsbD (rdV s l o.v.toNat).toNat = true →
      isEmptyLoc s (locate s (rdV s l o.v.toNat).toNat o.a.toNat) = false) :
    LaneResult (.vshuf o) s o.p o.d.toNat 1 fun l =>
      [if (rdV s l o.v.toNat).toNat < 64 ∧ (heldLanes s).getLsbD (rdV s l o.v.toNat).toNat = true
        then rdV s (rdV s l o.v.toNat).toNat o.a.toNat else 0] := by
  simp only [← shufWord_eq]
  exact h.result (exec_vshuf o s) (shufSrcs_full hfull) fun _ => rfl

end Sys2Proof.Machine

open Sys2Proof
open Sys2Proof.Machine

/-- Settles O4: each of the three is an LW instruction without sources, whose value is the table's own. -/
theorem laneSelectorResults : Obligations.LaneSelectorResults := by
  intro e he o s h
  simp only [laneNone, List.mem_cons, List.not_mem_nil, or_false] at he
  obtain rfl | rfl | rfl := he
  · exact h.lwResult (f := fun _ => o.imm.signExtend 32) rfl
  · exact h.lwResult (f := laneSelect s o.imm.toNat (activeLanes s o.p.toNat)) rfl
  · exact h.lwResult (f := fibreSelect s o.imm.toNat) rfl

/-- Settles O7: VMOV of a uniform register, VBCAST and VSHUF, one lemma each. -/
theorem crossLaneResults : Obligations.CrossLaneResults :=
  ⟨fun _ _ h hu => vmovUniform_result h hu, fun _ _ h hfull => vbcast_result h hfull,
    fun _ _ h hfull => vshuf_result h hfull⟩
end

section
/-! PROOF. Uniform instructions that are performed: scalar arithmetic, the constants and SSEL (R354 to R356), and the
outcomes of BR and NOP (R364) with the two shared operations that they end in, a transfer and a precise trap
(R223 to R225). -/
namespace Sys2Proof.Machine

variable {s t : State}

/-! ## A uniform instruction that is ready -/

/-- R354, R70: a ready uniform instruction does what its operation does. -/
theorem uniformOp_ready {i : Instr} {rs : List Nat} (act : State) (h : UniformReady s i rs) :
    uniformOp s i rs act = act := by
  rw [uniformOp, uniformWord, h.decodes.cause, withUniform_ready act h.free]

/-- Where an entry goes on depends on the entries and the issue alone. -/
theorem MovedOn.of_ents {u : State} (he : u.uni.ents = s.uni.ents) (hc : u.cur = s.cur) (h : MovedOn u t) :
    MovedOn s t := by
  have hk : curEk u = curEk s := by rw [curEk, hc, ← curEk]
  have hent : ∀ k, u.ent k = s.ent k := fun k => by rw [State.ent, he, ← State.ent]
  have hm : movedOn u = movedOn s := by rw [movedOn, movedOn, curEntry, curEntry, hk, hent, hc]
  exact ⟨fun k => by rw [h.ents, hk, hm, hent], by rw [h.cur, hc]⟩

theorem advance_onlyMoved (s : State) : OnlyMoved s (advance s) :=
  ⟨advance_lane s, advance_uniform s, advance_moved s, advance_kept s⟩

theorem advance_sregOf (s : State) (g r : Nat) : (advance s).sregOf g r = s.sregOf g r := by
  rw [State.sregOf, (advance_uniform s).sreg, ← State.sregOf]

theorem wrS_kept (s : State) (d : Nat) (v : DWord) : Kept s (wrS s d v) :=
  ⟨rfl, rfl, fun _ => rfl, rfl, rfl, rfl, rfl, rfl, rfl, rfl, rfl, rfl⟩

/-- R354: writing sd and moving on changes nothing but sd and the entry's place. -/
theorem advance_wrS_wrote (s : State) (d : Nat) (v : DWord) : UniformWrote s (advance (wrS s d v)) d v where
  value := by rw [advance_sregOf, wrS, setSregOf_reads_same]
  others g r hne := by rw [advance_sregOf, wrS, setSregOf_reads, if_neg hne]
  lane := advance_lane _
  sout := (advance_uniform (wrS s d v)).sout
  groups := (advance_uniform (wrS s d v)).groups
  slots := (advance_uniform (wrS s d v)).slots
  moved := .of_ents (u := wrS s d v) rfl rfl (advance_moved _)
  kept := (wrS_kept s d v).trans (advance_kept _)

/-- A ready uniform instruction that computes v into sd and moves on has the outcome of one of a single destination. -/
theorem UniformReady.result {i : Instr} {rs : List Nat} {d : Nat} {v : DWord} (h : UniformReady s i rs)
    (he : exec i s = .next (uniformOp s i rs (advance (wrS s d v)))) : UniformResult i s d v :=
  ⟨_, by rw [he, uniformOp_ready _ h], advance_wrS_wrote s d v⟩

/-- A ready uniform instruction whose operation ends in t has t for its outcome. -/
theorem UniformReady.outcome {i : Instr} {rs : List Nat} {P : State → Prop} (h : UniformReady s i rs)
    (he : exec i s = .next (uniformOp s i rs t)) (hp : P t) : ∃ t, exec i s = .next t ∧ P t :=
  ⟨t, by rw [he, uniformOp_ready _ h], hp⟩

/-! ## What scalar arithmetic computes (Table 132) -/

theorem lessEq64_signed (a b : DWord) : lessEq64 false a b = !b.slt a := by
  simp [lessEq64, BitVec.slt_eq_decide, ← decide_not]

theorem lessEq64_unsigned (a b : DWord) : lessEq64 true a b = !decide (b < a) := by
  simp [lessEq64, BitVec.lt_def, ← decide_not]

/-- R355: where the two are equal either may be taken, so that the smaller is b only where b is less. -/
theorem min64_eq (u : Bool) (a b : DWord) :
    min64 u a b = if u then (if b < a then b else a) else (if b.slt a then b else a) := by
  cases u with
  | false => cases h : b.slt a <;> simp [min64, lessEq64_signed, h]
  | true => by_cases h : b < a <;> simp [min64, lessEq64_unsigned, h]

theorem max64_eq (u : Bool) (a b : DWord) :
    max64 u a b = if u then (if a < b then b else a) else (if a.slt b then b else a) := by
  cases u with
  | false => cases h : a.slt b <;> simp [max64, lessEq64_signed, h]
  | true => by_cases h : a < b <;> simp [max64, lessEq64_unsigned, h]

/-- R356: SMOVHI takes the low 16 bits of its immediate. -/
theorem ofNat_mod_65536_eq (n : BitVec 17) : BitVec.ofNat 64 (n.toNat % 65536) = (n.setWidth 16).zeroExtend 64 := by
  apply BitVec.eq_of_toNat_eq
  simp

/-! ## The table's instructions -/

/-- R355: SMIN and SMAX alone compute their value in other words than the table's. -/
theorem uniformTwo_result {e : (UR → Instr) × (UR → DWord → DWord → DWord)} {o : UR} (he : e ∈ uniformTwo)
    (h : UniformReady s (e.1 o) [o.d.toNat, o.a.toNat, o.c.toNat]) :
    UniformResult (e.1 o) s o.d.toNat (e.2 o (rdS s o.a.toNat) (rdS s o.c.toNat)) := by
  simp only [uniformTwo, List.mem_cons, List.not_mem_nil, or_false] at he
  obtain rfl | rfl | rfl | rfl | rfl | rfl | rfl | rfl | rfl | rfl | rfl := he
  iterate 9 exact h.result rfl
  · simp only [← min64_eq]
    exact h.result rfl
  · simp only [← max64_eq]
    exact h.result rfl

theorem uniformOne_result {e : (UR → Instr) × (DWord → DWord)} {o : UR} (he : e ∈ uniformOne)
    (h : UniformReady s (e.1 o) [o.d.toNat, o.a.toNat]) :
    UniformResult (e.1 o) s o.d.toNat (e.2 (rdS s o.a.toNat)) := by
  simp only [uniformOne, List.mem_cons, List.not_mem_nil, or_false] at he
  obtain rfl | rfl := he
  · exact h.result rfl
  · exact h.result rfl

/-- R356: SMOVHI alone computes its value in other words than the table's. -/
theorem uniformImm_result {e : (UI → Instr) × (BitVec 17 → DWord → DWord)} {o : UI} (he : e ∈ uniformImm)
    (h : UniformReady s (e.1 o) [o.d.toNat]) :
    UniformResult (e.1 o) s o.d.toNat (e.2 o.imm (rdS s o.d.toNat)) := by
  simp only [uniformImm, List.mem_cons, List.not_mem_nil, or_false] at he
  obtain rfl | rfl | rfl := he
  · exact h.result rfl
  · exact h.result rfl
  · simp only [← ofNat_mod_65536_eq]
    exact h.result rfl

/-! ## Transfers (R364, R446) -/

/-- The path digest of a replay session is all that a transfer's count can change. -/
theorem addDigest_cases (s : State) (job : Option Nat) (fte pc n : Nat) :
    addDigest s job fte pc n = s ∨ ∃ d v, addDigest s job fte pc n = setSession s d v := by
  unfold addDigest
  split
  · split
    · exact .inr ⟨_, _, rfl⟩
    · exact .inl rfl
  · exact .inl rfl

theorem jump_jumpedTo (s : State) (pc : Pc) : JumpedTo s (jump s pc) pc where
  ents k := setEnt_reads (markDone s) (curEk s) { curEntry s with pc := pc, wake := .none } k
  cur := rfl
  lane := rfl
  sout := rfl
  groups := rfl
  slots := rfl
  core := rfl
  mm := rfl
  bytes _ := rfl
  task := rfl
  eng := rfl
  dev := rfl
  agenda := rfl

theorem JumpedTo.setSession {pc : Pc} (h : JumpedTo s t pc) (d : Nat) (v : Session) :
    JumpedTo s (setSession t d v) pc where
  ents := h.ents
  cur := h.cur
  lane := h.lane
  sout := h.sout
  groups := h.groups
  slots := h.slots
  core := h.core
  mm := h.mm
  bytes := h.bytes
  task := by rw [Machine.setSession, h.task]
  eng := h.eng
  dev := h.dev
  agenda := h.agenda

/-- A transfer that enters the path digest is still a transfer of the issuing entry alone. -/
theorem transfer_jump_jumpedTo (s : State) (pc : Pc) (a n : Nat) : JumpedTo s (transfer (jump s pc) a n) pc := by
  rw [transfer]
  obtain h | ⟨d, v, h⟩ := addDigest_cases (jump s pc) (curTeam (jump s pc)).job (funcFte (curFunc (jump s pc))) a n
  · rw [h]
    exact jump_jumpedTo s pc
  · rw [h]
    exact (jump_jumpedTo s pc).setSession d v

/-! ## A precise trap outside handlers (R223 to R225) -/

/-- The state with other slots. -/
def withSlots (s : State) (sl : Sparse Slot) : State := { s with uni := { s.uni with slots := sl } }

/-- Freeing an entry's slots changes slots alone. -/
theorem freeSlots_eq (s : State) (core ent : Nat) : ∃ sl, freeSlots s core ent = withSlots s sl := by
  unfold freeSlots
  refine List.foldlRecOn (motive := fun t => ∃ sl, t = withSlots s sl) _ _ ⟨s.uni.slots, rfl⟩ ?_
  rintro _ ⟨sl, rfl⟩ i _
  split
  · exact ⟨_, rfl⟩
  · exact ⟨_, rfl⟩

/-- The state with another agenda. -/
def withAgenda (s : State) (l : List Happening) : State := { s with agenda := l }

@[simp] theorem withAgenda_ent (s : State) (l : List Happening) (k : Nat) : (withAgenda s l).ent k = s.ent k := rfl
@[simp] theorem withAgenda_group (s : State) (l : List Happening) (k : Nat) : (withAgenda s l).group k = s.group k := rfl

/-- Posting a happening changes the agenda alone. -/
theorem post_eq (s : State) (i : Instr) (x y : Nat) : ∃ l, s.post i x y = withAgenda s l := by
  unfold State.post
  split
  · exact ⟨s.agenda, rfl⟩
  · exact ⟨_, rfl⟩

theorem updCur_ent (s : State) (f : Entry → Entry) (k : Nat) :
    (updCur s f).ent k = if k = curEk s then f (curEntry s) else s.ent k := setEnt_reads s _ _ k

theorem updCur_ent_of_cur (h : t.cur = s.cur) (f : Entry → Entry) (k : Nat) :
    (updCur t f).ent k = if k = curEk s then f (t.ent (curEk s)) else t.ent k := by
  rw [updCur_ent, curEntry, curEk, h, ← curEk]

/-- R211: a rand ends with slots freed and its entry at a boundary. -/
theorem endRand_eq (s : State) : ∃ sl, endRand s =
    updCur (withSlots s sl) fun e => { e with boundary := true, since := s.now } := by
  obtain ⟨sl, h⟩ := freeSlots_eq s s.cur.core s.cur.ent
  exact ⟨sl, by rw [endRand, h]⟩

/-- The issuing entry stands still at a boundary until its trap is delivered (R225), wherever its repetition stands;
beside it only slots have changed. -/
structure TrapStands (s t : State) : Prop where
  ents : ∃ r, ∀ k, t.ent k =
    if k = curEk s then { curEntry s with trapped := true, boundary := true, since := s.now, repst := r } else s.ent k
  cur : t.cur = s.cur
  groups : t.uni.groups = s.uni.groups
  sreg : t.uni.sreg = s.uni.sreg
  lane : t.lane = s.lane
  mm : t.mm = s.mm
  core : t.core = s.core
  task : t.task = s.task
  eng : t.eng = s.eng

/-- R211, R225: the rand ends with the trap, and the entry keeps its place and its lanes. -/
theorem endRand_trapped_stands (s : State) :
    TrapStands s (updCur (endRand s) fun e => { e with trapped := true }) := by
  obtain ⟨sl, h⟩ := endRand_eq s
  rw [h]
  refine ⟨⟨(curEntry s).repst, fun k => ?_⟩, rfl, rfl, rfl, rfl, rfl, rfl, rfl, rfl⟩
  have hb : ∀ j, (updCur (withSlots s sl) fun e => { e with boundary := true, since := s.now }).ent j =
      if j = curEk s then { curEntry s with boundary := true, since := s.now } else s.ent j :=
    updCur_ent (withSlots s sl) _
  rw [updCur_ent_of_cur (s := s) (by rfl), hb, hb, if_pos rfl]
  split <;> rfl

/-- Where the entry's repetition stands is no part of its standing still (R255). -/
theorem TrapStands.setRepst (h : TrapStands s t) (f : DWord → DWord) :
    TrapStands s (updCur t fun e => { e with repst := f e.repst }) := by
  obtain ⟨r, hr⟩ := h.ents
  refine ⟨⟨f r, fun k => ?_⟩, h.cur, h.groups, h.sreg, h.lane, h.mm, h.core, h.task, h.eng⟩
  rw [updCur_ent_of_cur h.cur, hr, hr, if_pos rfl]
  split <;> rfl

/-- A group with one more trap in its queue (R223). -/
def queued (g : Group) (tr : TrapEntry) : Group := { g with queue := insertTrap tr g.queue }

/-- R223: a queue with room takes the trap. -/
theorem enqueueTrap_room {g : Nat} (tr : TrapEntry)
    (h : (t.group g).queue.length + (if (t.group g).handling.isSome then 1 else 0) < 8) :
    ∃ l, enqueueTrap t g tr = withAgenda (t.setGroup g (queued (t.group g) tr)) l := by
  obtain ⟨l, hl⟩ := post_eq (t.setGroup g (queued (t.group g) tr)) .trapDelivery (coreOfGroup g) (g % 32)
  exact ⟨l, by rw [← hl, enqueueTrap]; exact if_neg (Nat.not_le.2 h)⟩

/-- R223: with room in the queue, the trap of an entry that stands still waits there in the order of its instruction. -/
theorem TrapStands.raised {cause : Nat} {mask addr aux : DWord} {rpc : Pc} (h : TrapStands s t) (hs : CanTrap s) :
    TrapRaised s (enqueueTrap t (curGk s) (curTrap s cause mask addr aux rpc)) cause mask addr aux rpc := by
  have hg : ∀ g, t.group g = s.group g := fun g => by rw [State.group, h.groups, ← State.group]
  obtain ⟨r, hr⟩ := h.ents
  obtain ⟨l, hl⟩ := enqueueTrap_room (t := t) (g := curGk s) (curTrap s cause mask addr aux rpc) (by rw [hg]; exact hs.room)
  rw [hl]
  exact {
    queue := by rw [withAgenda_group, setGroup_reads_same, hg, queued]
    group := by rw [withAgenda_group, setGroup_reads_same, hg, queued]
    groups := fun g hne => by rw [withAgenda_group, setGroup_reads, if_neg hne, hg]
    entry := by
      rw [withAgenda_ent, setGroup_ent, hr, if_pos rfl]
      exact ⟨rfl, rfl, rfl, rfl⟩
    ents := fun k hne => by rw [withAgenda_ent, setGroup_ent, hr, if_neg hne]
    lane := h.lane
    sreg := h.sreg
    mm := h.mm
    bytes := fun a => congrArg (fun m : MemSt => Sparse.get m.mem a) h.mm
    core := h.core
    task := h.task
    eng := h.eng }

/-- R223 to R225: outside handlers, and with room in the queue, every cause raises a precise trap. -/
theorem raiseFull_raised (hs : CanTrap s) (cause : Nat) (mask addr aux : DWord) (after : Bool) :
    TrapRaised s (raiseFull s cause mask addr aux after) cause mask addr aux
      (if s.cur.rep || after then nextPc s else curPc s) := by
  have hout : inHandler s = false := by rw [inHandler, hs.outside]; rfl
  rw [raiseFull]
  simp only [hout, Bool.false_eq_true, if_false]
  split
  · exact ((endRand_trapped_stands s).setRepst repEmulated).raised hs
  · exact (endRand_trapped_stands s).raised hs

/-! ## BR (R248, R249, R364) -/

theorem sext_toNat {w n : Nat} (hn : w ≤ n) (v : BitVec w) : sext w n v.toNat = (v.signExtend n).toNat := by
  have hm : v.msb = decide (2 ^ (w - 1) ≤ v.toNat) := BitVec.msb_eq_decide v
  have hlt : v.toNat < 2 ^ n := Nat.lt_of_lt_of_le v.isLt (Nat.pow_le_pow_right Nat.two_pos hn)
  rw [sext, BitVec.toNat_signExtend, BitVec.toNat_setWidth, Nat.mod_eq_of_lt v.isLt, Nat.mod_eq_of_lt hlt, hm]
  by_cases h : v.toNat < 2 ^ (w - 1)
  · rw [decide_eq_false (Nat.not_le.2 h)]
    exact if_pos h
  · rw [decide_eq_true (Nat.not_lt.1 h)]
    exact if_neg h

/-- Where BR goes: its offset in units from its own address (R249). -/
def brTarget (s : State) (o : UB) : Pc := curPc s + o.off.signExtend 57 * BitVec.ofNat 57 (curUnit s)

theorem targetOf_brTarget (s : State) (o : UB) :
    targetOf (curPc s).toNat (sext 19 57 o.off.toNat) (curUnit s) = (brTarget s o).toNat := by
  rw [targetOf, sext_toNat (by decide), brTarget]
  simp

/-- R364: BR over its target as an address. -/
theorem execBr_eq (o : UB) (s : State) : execBr o s = .next (uniformOp s (.br o) []
    (if !(ubCond o.k.toNat (condBit s o.k.toNat) o.n) then advance s
     else if !(inExtent s (brTarget s o).toNat) then raise s 0x0C2
     else transfer (jump s (brTarget s o)) (brTarget s o).toNat (maskList (heldLanes s)).length)) := by
  simp only [execBr, targetOf_brTarget, BitVec.ofNat_toNat, BitVec.setWidth_eq]

theorem execBr_untaken {o : UB} (h : ubCond o.k.toNat (condBit s o.k.toNat) o.n = false) :
    execBr o s = .next (uniformOp s (.br o) [] (advance s)) := by
  rw [execBr_eq, h]
  rfl

theorem execBr_taken {o : UB} (h : ubCond o.k.toNat (condBit s o.k.toNat) o.n = true)
    (hin : inExtent s (brTarget s o).toNat = true) :
    execBr o s = .next (uniformOp s (.br o) []
      (transfer (jump s (brTarget s o)) (brTarget s o).toNat (maskList (heldLanes s)).length)) := by
  rw [execBr_eq, h, hin]
  rfl

theorem execBr_outside {o : UB} (h : ubCond o.k.toNat (condBit s o.k.toNat) o.n = true)
    (hin : inExtent s (brTarget s o).toNat = false) :
    execBr o s = .next (uniformOp s (.br o) [] (raise s 0x0C2)) := by
  rw [execBr_eq, h, hin]
  rfl

/-- R248: the index is compared as a field. -/
theorem ubCond_eq (k : BitVec 3) (c n : Bool) : ubCond k.toNat c n = ((n && k == 0) || (c != n)) := by
  have hk : (k.toNat == 0) = (k == 0) := by
    rw [Bool.eq_iff_iff, beq_iff_eq, beq_iff_eq]
    exact BitVec.toNat_inj (x := k) (y := 0)
  rw [ubCond, hk]

end Sys2Proof.Machine

open Sys2Proof
open Sys2Proof.Machine

/-- Settles O12: every instruction of Table 132 that computes ends in the same write of sd, whose value is the table's own. -/
theorem uniformArithmeticResults : Obligations.UniformArithmeticResults :=
  ⟨fun _ he _ _ h => uniformTwo_result he h, fun _ he _ _ h => uniformOne_result he h,
    fun _ he _ _ h => uniformImm_result he h, fun _ _ h => h.result rfl⟩

/-- Settles O22: BR by its three cases, and NOP as the uniform instruction that has no operation. -/
theorem branchResults : Obligations.BranchResults := by
  refine ⟨fun o s h => ?_, fun o s h => h.outcome rfl (advance_onlyMoved s)⟩
  intro taken target
  have hc : ubCond o.k.toNat (condBit s o.k.toNat) o.n = taken := ubCond_eq o.k _ o.n
  refine ⟨fun ht => ?_, fun ht hin => ?_, fun ht hin hs => ?_⟩
  · exact h.outcome (execBr_untaken (hc.trans ht)) (advance_onlyMoved s)
  · exact h.outcome (execBr_taken (hc.trans ht) hin) (transfer_jump_jumpedTo s target _ _)
  · have hr := raiseFull_raised hs 0x0C2 (heldLanes s) 0 0 false
    rw [Bool.or_false] at hr
    exact h.outcome (execBr_outside (hc.trans ht) hin) hr
end
